-- ==== Sys2Proof/Word.lean ====
section
/-! DEFINITION. The words and the index types of the PQ464, and the plainest handling of a table of fixed length. -/

namespace Sys2Proof

/-- A byte that crosses a host port or stands in the storage array. -/
abbrev Byte := BitVec 8

/-- A 16-bit field: a key, a generation, a period, a CRC (R161). -/
abbrev Half := BitVec 16

/-- Device time, stamps, ages and expiry times, counted modulo 2^32 (R8, R146). -/
abbrev Time := BitVec 32

/-- One of the four host ports, 0 to 3. -/
abbrev Port := Fin 4

/-- One of the 64 posts (R1). -/
abbrev PostNo := Fin 64

/-- One of the 96 frames, which is also the row that holds it (R45, R135). -/
abbrev FrameNo := Fin 96

/-- One of the 8 hold entries of a port (R61). -/
abbrev HoldNo := Fin 8

/-- One of the 8 filters of a port (R80). -/
abbrev FilterNo := Fin 8

/-- The table `v` with entry `i` replaced by `x`. -/
def put {α : Type} {k : Nat} (v : Vector α k) (i : Fin k) (x : α) : Vector α k :=
  v.set i.val x i.isLt

/-- The table whose entries are those of `v` under `f`. -/
def mapTable {α β : Type} {k : Nat} (f : α → β) (v : Vector α k) : Vector β k :=
  ⟨⟨v.toList.map f⟩, by simp⟩

/-- The per-port table whose entry for port `n` is `f n`. -/
def perPort {α : Type} (f : Port → α) : Vector α 4 := #v[f 0, f 1, f 2, f 3]

@[simp] theorem getElem_put {α : Type} {k : Nat} (v : Vector α k) (i : Fin k) (x : α) (j : Nat)
    (h : j < k) : (put v i x)[j] = if i.val = j then x else v[j] := by
  simp [put, Vector.getElem_set]

@[simp] theorem getElem_mapTable {α β : Type} {k : Nat} (f : α → β) (v : Vector α k) (j : Nat)
    (h : j < k) : (mapTable f v)[j] = f v[j] := by
  simp [mapTable, Vector.getElem_mk]

@[simp] theorem getElem_perPort {α : Type} (f : Port → α) (j : Nat) (h : j < 4) :
    (perPort f)[j] = f ⟨j, h⟩ := by
  unfold perPort
  rcases j with _ | _ | _ | _ | j
  · rfl
  · rfl
  · rfl
  · rfl
  · omega

end Sys2Proof
end

