-- ==== Sys2Proof/Syntax.lean ====
section
/-! DEFINITION. The commands of the block: one constructor for each row of spec/opcode_table.json. -/

namespace Sys2Proof

/-- The commands and events that reach the PQ464, one constructor per row of the opcode table.

The 22 host commands stand for the arrival, on port `n`, of a whole request frame with a good CRC (R150, R153):
`tag` is its tag byte and `args` its argument bytes, any number of them (R162 says which lengths are accepted).
What the arrival does depends on the transaction state of the port (R154, R157). -/
inductive Instr where
  /-- ATTACH (R117). `sup` is the level of the port's SUPn strap as this event finds it (log 2). -/
  | attach (n : Port) (tag : Byte) (args : List Byte) (sup : Bool)
  /-- DETACH (R124). -/
  | detach (n : Port) (tag : Byte) (args : List Byte)
  /-- PING (R123). -/
  | ping (n : Port) (tag : Byte) (args : List Byte)
  /-- STATUS (R158). -/
  | status (n : Port) (tag : Byte) (args : List Byte)
  /-- DECLARE (R12). -/
  | declare (n : Port) (tag : Byte) (args : List Byte)
  /-- WITHDRAW (R15). -/
  | withdraw (n : Port) (tag : Byte) (args : List Byte)
  /-- DESCRIBE (R18). -/
  | describe (n : Port) (tag : Byte) (args : List Byte)
  /-- PUBLISH (R28). -/
  | publish (n : Port) (tag : Byte) (args : List Byte)
  /-- READ (R63). -/
  | read (n : Port) (tag : Byte) (args : List Byte)
  /-- SNAPSHOT (R70). -/
  | snapshot (n : Port) (tag : Byte) (args : List Byte)
  /-- READ HELD (R73). -/
  | readHeld (n : Port) (tag : Byte) (args : List Byte)
  /-- RELEASE (R75). -/
  | release (n : Port) (tag : Byte) (args : List Byte)
  /-- ASK (R101). -/
  | ask (n : Port) (tag : Byte) (args : List Byte)
  /-- CANCEL (R111). -/
  | cancel (n : Port) (tag : Byte) (args : List Byte)
  /-- FILTER SET (R82). -/
  | filterSet (n : Port) (tag : Byte) (args : List Byte)
  /-- FILTER CLEAR (R83). -/
  | filterClear (n : Port) (tag : Byte) (args : List Byte)
  /-- TAKE (R93). -/
  | take (n : Port) (tag : Byte) (args : List Byte)
  /-- ADOPT (R128). -/
  | adopt (n : Port) (tag : Byte) (args : List Byte)
  /-- TAKEOVER (R130). -/
  | takeover (n : Port) (tag : Byte) (args : List Byte)
  /-- REVOKE (R133). -/
  | revoke (n : Port) (tag : Byte) (args : List Byte)
  /-- POOL STATUS (R59). -/
  | poolStatus (n : Port) (tag : Byte) (args : List Byte)
  /-- SET POOL MARK (R57). -/
  | setPoolMark (n : Port) (tag : Byte) (args : List Byte)
  /-- UNTAKEN_REQUEST (R154): the bytes, from the command code to the CRC, of a frame that arrives on port `n`
  and is answered BADCHECK, BADCMD or BUSY. -/
  | untakenRequest (n : Port) (bytes : List Byte)
  /-- BADFRAME (R151): the bytes of a request whose argument length is above 72, read on to its end. -/
  | badframe (n : Port) (bytes : List Byte)
  /-- CS_FALL (R150): CSn falls. -/
  | csFall (n : Port)
  /-- CS_RISE (R152, R156): CSn rises. -/
  | csRise (n : Port)
  /-- RESPONSE_FINISHED (R155): the last CRC byte of the response held has been shifted out. -/
  | responseFinished (n : Port)
  /-- PORT_RESET (R125, R159): RSTn is driven low. -/
  | portReset (n : Port)
  /-- PORT_RESET_RELEASE (R159): RSTn is driven high. -/
  | portResetRelease (n : Port)
  /-- DEVICE_RESET (R160): nRESET is driven low. -/
  | deviceReset
  /-- DEVICE_RESET_RELEASE (R146, R147): nRESET is driven high. -/
  | deviceResetRelease
  /-- CLKSEL_CHANGE (R147): the CLKSEL straps take the value `value`. -/
  | clkselChange (value : Fin 4)
  /-- REFRESH_TICK (R141). -/
  | refreshTick
  /-- LAPSE (R144): a tick that finds the refresh debt at 8. -/
  | lapse
  /-- MILLISECOND_BOUNDARY (R146). -/
  | millisecondBoundary
  /-- FRESHNESS_EXPIRY (R11) of post `p`. -/
  | freshnessExpiry (p : PostNo)
  /-- ASK_DEADLINE_EXPIRY (R107) of the PENDING entry with ticket `ticket`. -/
  | askDeadlineExpiry (ticket : Byte)
  /-- LEASE_EXPIRY (R122) of port `n`. -/
  | leaseExpiry (n : Port)
  /-- ARRAY_GRANT (R138). -/
  | arrayGrant
  /-- WRITE_COMPLETION (R31, R136). `disturb` is the difference, as a pattern to be exclusive-ORed byte by byte
  from the first byte of the row on, between what the array wrote and what it reads back (log 8). -/
  | writeCompletion (disturb : List Byte)
  /-- READ_COMPLETION (R65, R136). `disturb` is the difference between the row as stored and the row as read. -/
  | readCompletion (disturb : List Byte)
  /-- REFRESH_COMPLETION (R143). -/
  | refreshCompletion
  deriving DecidableEq, Repr

end Sys2Proof
end

