-- ==== Sys2Proof/Decode.lean ====
section
/-! DEFINITION. The rows of the opcode table carry no bits ("fields": []), so no word spells a command (log 23). -/

namespace Sys2Proof

/-- The command that the `nbits` low bits of `w` spell by the opcode table's bits: the table gives none to any row. -/
def decodeTableWord (_nbits _w : Nat) : Option Instr := none

end Sys2Proof
end

