-- ==== Sys2Proof/Config.lean ====
section
/-! DEFINITION. The fixed numbers of the PQ464, and the one value that the spec leaves open: the contents of a
row of the storage array that nothing has written since the last device reset. -/

namespace Sys2Proof.Config

/-- Largest argument length of a request frame that is judged as a request (R151, R161). -/
def maxArgumentLength : Nat := 72

/-- Largest payload in bytes (R7, R28). -/
def maxPayload : Nat := 60

/-- Bytes in one row of the storage array (R135). -/
def rowBytes : Nat := 64

/-- Ordinary entries a notice queue holds (R87). -/
def ordinaryPlaces : Nat := 31

/-- Highest lost count of a LOST marker (R90). -/
def maxLost : Nat := 65535

/-- Highest coalesced count of an UPDATE (R88). -/
def maxCoalesced : Nat := 255

/-- Highest askers count of a SOLICIT (R89). -/
def maxAskers : Nat := 16

/-- Entries of the request table, and the entries one port may have in it (R99). -/
def tablePlaces : Nat := 16
@[inherit_doc tablePlaces] def portPlaces : Nat := 8

/-- The low-water mark after device reset (R46). -/
def defaultMark : Nat := 8

/-- The free count that re-arms the low-water notice stands this far above the mark (R55). -/
def rearmMargin : Nat := 4

/-- The refresh debt from which refresh goes first (R138), and the debt at which a tick is a lapse (R141). -/
def forcedDebt : Nat := 5
@[inherit_doc forcedDebt] def lapseDebt : Nat := 8

/-- Highest lapse count (R144). -/
def maxLapseCount : Nat := 255

/-- Refresh ticks in one millisecond (R146). -/
def ticksPerMillisecond : Nat := 16

/-- Division of CLKIN per tick for the CLKSEL values 0, 1 and 2 (R146); 3 holds the part in reset. -/
def division (clksel : Fin 4) : Nat :=
  if clksel = 0 then 500 else if clksel = 1 then 1000 else 1500

/-- FREE VALUE (log 7). What byte `address` of the storage array holds when nothing has written it since
device reset number `epoch`: "A device reset leaves the contents of the rows undefined" (R135). It has no
body: no claim can rest on its value. -/
opaque unwrittenByte (epoch address : Nat) : Byte

end Sys2Proof.Config
end

