-- ==== Sys2Proof/Machine/State.lean ====
section
/-! DEFINITION. The state of the PQ464 as plain data, block by block, and the state right after reset. -/

namespace Sys2Proof.Machine

open Sys2Proof

/-! ### Chapter 1: the post table -/

/-- Binding of an occupied post (R1): the port that may publish it, or the port that last could. -/
inductive Binding where
  | bound (n : Port)
  | orphaned (former : Port)
  deriving DecidableEq, Repr

/-- Condition of an occupied post (R1); a hold records one too (R61). -/
inductive Condition where
  | empty | fresh | stale | damaged
  deriving DecidableEq, Repr

/-- Why a post is DAMAGED (R1, R20, R21). -/
inductive DamageCause where
  | check | lapse
  deriving DecidableEq, Repr

/-- Whether an ASK may be answered at once (R1, R101). -/
inductive AnswerMode where
  | auto | forward
  deriving DecidableEq, Repr

/-- What a post holds from its first commit on: these three fields are present together (R1, R2). -/
structure Current where
  frame  : FrameNo
  length : Nat
  stamp  : Time
  deriving DecidableEq, Repr

/-- The publication-in-flight field of a post (R1, R9). -/
structure InFlight where
  frame : FrameNo
  port  : Port
  deriving DecidableEq, Repr

/-- The record of an OCCUPIED post (R1). A VACANT post is an absent record: it has generation 0 and no field (R2). -/
structure Post where
  key        : Half
  binding    : Binding
  condition  : Condition
  cause      : Option DamageCause
  generation : Half
  current    : Option Current
  capacity   : Nat
  period     : Half
  deadline   : Option Time
  mode       : AnswerMode
  inFlight   : Option InFlight
  deriving DecidableEq, Repr

/-! ### Chapter 2: the publication engine -/

/-- Phase of a publication (R26). -/
inductive WritePhase where
  | waiting | writing
  deriving DecidableEq, Repr

/-- What took a publication's post or port away (R26, R36). -/
inductive OvertakeCause where
  | revoke | takeover | session
  deriving DecidableEq, Repr

/-- A publication in its port's slot (R26). The length field is the length of the payload. -/
structure Publication where
  post      : PostNo
  frame     : FrameNo
  payload   : List Byte
  phase     : WritePhase
  overtaken : Option OvertakeCause
  deriving DecidableEq, Repr

/-! ### Chapter 3: the frame pool -/

/-- One entry of the frame table (R45). Whether the frame is on the free list is its membership in `Pool.free`. -/
structure FrameEntry where
  refs    : Nat
  suspect : Bool
  deriving DecidableEq, Repr

/-- The frame pool (R45, R46, R54). -/
structure Pool where
  frames : Vector FrameEntry 96
  free   : List FrameNo
  mark   : Nat
  armed  : Bool
  deriving DecidableEq, Repr

/-! ### Chapter 4: the reading unit -/

/-- A hold entry in use (R61). -/
structure Hold where
  post       : PostNo
  key        : Half
  frame      : FrameNo
  generation : Half
  length     : Nat
  condition  : Condition
  deriving DecidableEq, Repr

/-- Kind of a read in a read record, with what each kind records besides (R62). -/
inductive ReadKind where
  | post (binding : Binding) (condition : Condition)
  | held (hold : HoldNo)
  deriving DecidableEq, Repr

/-- Phase of a read (R62). -/
inductive ReadPhase where
  | waiting | reading | answering
  deriving DecidableEq, Repr

/-- The read record of a port (R62). -/
structure ReadRecord where
  kind       : ReadKind
  post       : PostNo
  key        : Half
  frame      : FrameNo
  generation : Half
  length     : Nat
  phase      : ReadPhase
  pin        : Bool
  cutOff     : Bool
  deriving DecidableEq, Repr

/-! ### Chapter 5: filters and notice queues -/

/-- A valid filter (R80). -/
structure Filter where
  value     : Half
  mask      : Half
  updates   : Bool
  lifecycle : Bool
  echo      : Bool
  deriving DecidableEq, Repr

/-- Cause of a detach (R126). -/
inductive DetachCause where
  | detach | lease | portreset
  deriving DecidableEq, Repr

/-- How a post was adopted (R85). -/
inductive AdoptHow where
  | adopt | takeover
  deriving DecidableEq, Repr

/-- By whom a post was vacated (R16). -/
inductive VacateBy where
  | producer | supervisor
  deriving DecidableEq, Repr

/-- Outcome of an ask as an ANSWER names it (R108). -/
inductive AnswerKind where
  | delivered | timeout | withdrawn | orphaned
  deriving DecidableEq, Repr

/-- An ordinary entry of a notice queue: one notice of a kind of R85, with its fields. -/
inductive Notice where
  | update (post : PostNo) (key generation : Half) (count : Nat)
  | appeared (post : PostNo) (key : Half) (producer : Port)
  | stale (post : PostNo) (key : Half)
  | damaged (post : PostNo) (key : Half) (cause : DamageCause)
  | orphaned (post : PostNo) (key : Half) (former : Port) (cause : DetachCause)
  | adopted (post : PostNo) (key : Half) (producer : Port) (how : AdoptHow)
  | withdrawn (post : PostNo) (key : Half) (by_ : VacateBy)
  | solicit (post : PostNo) (key : Half) (ticket : Byte) (askers : Nat)
  | answer (ticket : Byte) (post : PostNo) (kind : AnswerKind) (generation : Half)
  | poolLow (free : Nat)
  | lapse (count : Nat)
  deriving DecidableEq, Repr

/-- The notice queue of a port (R87): its ordinary entries, oldest first, and the lost count of the LOST marker
that ends it, if one does. -/
structure NoticeQueue where
  entries : List Notice
  lost    : Option Nat
  deriving DecidableEq, Repr

/-! ### Chapter 6: the request table -/

/-- A PENDING request entry (R99). -/
structure PendingAsk where
  ticket    : Byte
  requester : Port
  post      : PostNo
  genAtAsk  : Half
  deadline  : Time
  deriving DecidableEq, Repr

/-- The outcome of a completed ask (R99). -/
inductive AskOutcome where
  | delivered (generation : Half)
  | timeout
  | withdrawn
  | orphaned
  deriving DecidableEq, Repr

/-- An UNDELIVERED request entry (R99). -/
structure UndeliveredAsk where
  ticket    : Byte
  requester : Port
  post      : PostNo
  genAtAsk  : Half
  outcome   : AskOutcome
  deriving DecidableEq, Repr

/-- The request table (R99, R100): PENDING entries in the order of asking, UNDELIVERED entries in the order of
completion (log 19), and the last ticket issued. -/
structure RequestTable where
  pending     : List PendingAsk
  undelivered : List UndeliveredAsk
  counter     : Byte
  deriving DecidableEq, Repr

/-! ### Chapter 7: the session controller -/

/-- Session state of a port (R116). -/
inductive SessionState where
  | detached | attached
  deriving DecidableEq, Repr

/-- Role of a port (R116). -/
inductive Role where
  | normal | supervisor
  deriving DecidableEq, Repr

/-- The session record of a port (R116). -/
structure Session where
  state     : SessionState
  role      : Role
  lease     : Half
  timer     : Option Time
  threshold : Nat
  deriving DecidableEq, Repr

/-! ### Chapter 8: array, arbiter, refresh controller, time base -/

/-- The access in progress (R136). -/
inductive Access where
  | write (n : Port)
  | read (n : Port)
  | refresh (row : FrameNo)
  deriving DecidableEq, Repr

/-- The storage array (R135, R136): the bytes written since the last device reset, by address 64 * row + offset in
strictly rising order, and the access in progress. -/
structure StorageArray where
  mem    : List Host.Cell
  access : Option Access
  deriving DecidableEq, Repr

/-- A port's request to the arbiter (R137). -/
inductive PortRequest where
  | write | read
  deriving DecidableEq, Repr

/-- The array arbiter (R137, R138). -/
structure Arbiter where
  places       : Vector (Option PortRequest) 4
  refreshPlace : Bool
  lastGranted  : Port
  deriving DecidableEq, Repr

/-- The refresh controller (R140). -/
structure RefreshController where
  pointer    : FrameNo
  debt       : Nat
  lapseCount : Nat
  deriving DecidableEq, Repr

/-- The time base (R146, R147). `phase` counts the ticks since the last millisecond boundary, 16 standing for a
boundary that is to be taken now, and `tickOwed` says that the last boundary was taken just ahead of its own sixteenth
tick (log 10). -/
structure TimeBase where
  deviceTime : Time
  phase      : Nat
  tickOwed   : Bool
  division   : Nat
  deriving DecidableEq, Repr

/-! ### Chapter 9: the port interfaces -/

/-- Transaction state (R148). -/
inductive TxState where
  | idle | receiving | executing | responding | draining
  deriving DecidableEq, Repr

/-- Side transaction of a DRAINING port (R157). -/
inductive SideState where
  | none | receiving | answering
  deriving DecidableEq, Repr

/-- A tag with a command code: the outstanding command, the last abandoned record (R148). -/
structure CommandTag where
  tag  : Byte
  code : Byte
  deriving DecidableEq, Repr

/-- The response held (R148): the whole response frame, how many bytes of READY and the frame have been shifted out
(log 17), and the taken command it answers, absent for a BADCHECK, BADFRAME, BADCMD or BUSY answer (R156). -/
structure HeldResponse where
  frame   : List Byte
  clocked : Nat
  command : Option CommandTag
  deriving DecidableEq, Repr

/-- A port interface (R148, R157). -/
structure PortInterface where
  state         : TxState
  side          : SideState
  rx            : List Byte
  expected      : Nat
  outstanding   : Option CommandTag
  response      : Option HeldResponse
  discard       : Bool
  lastAbandoned : Option CommandTag
  deriving DecidableEq, Repr

/-- The pins (00_scope.md): inputs by level (`true` is high), ATTNn by whether the part drives it low (R97). -/
structure Pins where
  cs     : Vector Bool 4
  rst    : Vector Bool 4
  sup    : Vector Bool 4
  attn   : Vector Bool 4
  nReset : Bool
  clksel : Fin 4
  deriving DecidableEq, Repr

/-- The whole machine. `epoch` (the device resets so far, log 7) and `pending` (the commands that wait, first in
first out, log 3) are the model's own fields; every other field is the spec's. -/
structure State where
  posts    : Vector (Option Post) 64
  slots    : Vector (Option Publication) 4
  pool     : Pool
  holds    : Vector (Vector (Option Hold) 8) 4
  reads    : Vector (Option ReadRecord) 4
  filters  : Vector (Vector (Option Filter) 8) 4
  queues   : Vector NoticeQueue 4
  requests : RequestTable
  sessions : Vector Session 4
  array    : StorageArray
  arbiter  : Arbiter
  refresh  : RefreshController
  time     : TimeBase
  ports    : Vector PortInterface 4
  pins     : Pins
  epoch    : Nat
  pending  : List Instr
  deriving DecidableEq, Repr

/-- Why the machine could stop with a fault. There is no such reason: the spec gives every command an effect, and
each of its troubles is a status byte, a flag or a condition in State. The type is empty; nobody raises it, which
is safe. -/
inductive Fault where
  deriving DecidableEq, Repr

/-- Why the machine could refuse a command. -/
inductive Refusal where
  /-- Raised by an arm of `exec` for a command that has no meaning yet, by its mnemonic. No arm raises it now. Safe:
  the model stops where the hardware goes on. -/
  | notModelled (mnemonic : String)
  deriving DecidableEq, Repr

/-! ### The values after device reset -/

/-- The detached values of a session record (R116). -/
def Session.detachedValues : Session :=
  { state := .detached, role := .normal, lease := 0#16, timer := none, threshold := 1 }

/-- The pool after device reset (R46). -/
def Pool.reset : Pool :=
  { frames := Vector.replicate 96 { refs := 0, suspect := false }
    free := List.finRange 96
    mark := Config.defaultMark
    armed := true }

/-- An empty queue without a marker (R87). -/
def NoticeQueue.empty : NoticeQueue := { entries := [], lost := none }

/-- A port interface after device reset (R148). -/
def PortInterface.reset : PortInterface :=
  { state := .idle, side := .none, rx := [], expected := 0, outstanding := none, response := none,
    discard := false, lastAbandoned := none }

/-- Every block at its value after device reset, under the given pin inputs, reset count and queue of commands
(R3, R26, R46, R61, R62, R80, R87, R99, R100, R116, R137, R138, R140, R146, R148). The attention lines are
released (R97). The rows of the array are undefined, so no byte is listed (R135). -/
def State.afterDeviceReset (pins : Pins) (division epoch : Nat) (pending : List Instr) : State :=
  { posts := Vector.replicate 64 none
    slots := Vector.replicate 4 none
    pool := Pool.reset
    holds := Vector.replicate 4 (Vector.replicate 8 none)
    reads := Vector.replicate 4 none
    filters := Vector.replicate 4 (Vector.replicate 8 none)
    queues := Vector.replicate 4 NoticeQueue.empty
    requests := { pending := [], undelivered := [], counter := 0#8 }
    sessions := Vector.replicate 4 Session.detachedValues
    array := { mem := [], access := none }
    arbiter := { places := Vector.replicate 4 none, refreshPlace := false, lastGranted := 3 }
    refresh := { pointer := 0, debt := 0, lapseCount := 0 }
    time := { deviceTime := 0#32, phase := 0, tickOwed := false, division := division }
    ports := Vector.replicate 4 PortInterface.reset
    pins := { pins with attn := Vector.replicate 4 false }
    epoch := epoch
    pending := pending }

/-- The machine right after device reset has been released. The input levels are the model's choice (logs 1, 2):
CSn and RSTn high, the SUPn straps low, nRESET high, the CLKSEL straps at 0. -/
def State.reset : State :=
  State.afterDeviceReset
    { cs := Vector.replicate 4 true, rst := Vector.replicate 4 true, sup := Vector.replicate 4 false,
      attn := Vector.replicate 4 false, nReset := true, clksel := 0 }
    (Config.division 0) 0 []

end Sys2Proof.Machine
end

