-- ==== Sys2Proof/Machine/Flags.lean ====
section
/-! DEFINITION. The conditions and derived values that the blocks compute from their state: ages and expiry times,
filter matching, the attention line, whether a port's interface listens. -/

namespace Sys2Proof.Machine

open Sys2Proof

/-- The four ports, in ascending order. -/
def allPorts : List Port := [0, 1, 2, 3]

/-- The 64 posts, in ascending order. -/
def allPosts : List PostNo := List.finRange 64

/-- The 8 hold numbers, in ascending order. -/
def allHolds : List HoldNo := [0, 1, 2, 3, 4, 5, 6, 7]

/-! ### Time (R8, R146) -/

/-- Device time at which a timer armed at `now` with a period of `period` milliseconds expires: "the millisecond
boundary at which device time becomes m + T + 1, computed modulo 2^32" (R146). -/
def expiryAfter (now : Time) (period : Half) : Time := now + period.zeroExtend 32 + 1#32

/-- A timer expires at the millisecond boundary at which device time becomes its expiry time (R146): device time
stands at it. The time base does not go on past it before the expiry has been taken (log 11). -/
def reached (expiry now : Time) : Bool := decide (now = expiry)

/-- The age of a value stamped `stamp` (R8), modulo 2^32. -/
def age (now stamp : Time) : Time := now - stamp

/-- Time remaining to an expiry (R19, R116): the difference of the device times, modulo 2^32. "An armed deadline always
reports at least 1" (R164): one whose expiry is being taken at this very boundary still reports 1 (log 11). -/
def remaining (expiry now : Time) : Time := if expiry = now then 1#32 else expiry - now

/-- The generation after `g` (R6): 65535 is followed by 1. -/
def nextGeneration (g : Half) : Half := if g = 0xFFFF#16 then 1#16 else g + 1#16

/-- The ticket value after `t` (R100): 1 to 255, and 255 is followed by 1. -/
def succTicket (t : Byte) : Byte := if t = 0xFF#8 then 1#8 else t + 1#8

/-! ### Sessions (R116) -/

/-- The port holds a session. -/
def Session.isAttached (x : Session) : Bool := decide (x.state = .attached)

/-- Port `n` is ATTACHED. -/
def State.attached (s : State) (n : Port) : Bool := s.sessions[n].isAttached

/-! ### Filters (R81, R84) -/

/-- The flag that a notice's kind requires of a filter (R84). -/
inductive FilterFlag where
  | updates | lifecycle
  deriving DecidableEq, Repr

/-- The filter matches key `k` (R81). -/
def Filter.matchesKey (f : Filter) (k : Half) : Bool := decide (k &&& f.mask = f.value &&& f.mask)

/-- The filter carries the flag. -/
def Filter.carries (f : Filter) : FilterFlag → Bool
  | .updates => f.updates
  | .lifecycle => f.lifecycle

/-- The filter selects a notice about key `k` that requires `flag`; a notice about the port's own action needs ECHO
in the same filter (R84). -/
def Filter.selects (f : Filter) (k : Half) (flag : FilterFlag) (own : Bool) : Bool :=
  f.matchesKey k && f.carries flag && (!own || f.echo)

/-- One of the port's valid filters selects the notice (R84). -/
def anyFilterSelects (fs : Vector (Option Filter) 8) (k : Half) (flag : FilterFlag) (own : Bool) : Bool :=
  fs.toList.any fun f => match f with
    | some f => f.selects k flag own
    | none => false

/-! ### Notice queues and attention lines (R87, R97) -/

/-- Length of the queue, the marker included (R87). -/
def NoticeQueue.length (q : NoticeQueue) : Nat := q.entries.length + (if q.lost.isSome then 1 else 0)

/-- The lost count that STATUS reports: 0 without a marker (R87). -/
def NoticeQueue.lostCount (q : NoticeQueue) : Nat := q.lost.getD 0

/-- The condition under which a port's ATTNn line is driven low (R97). -/
def attentionCondition (x : Session) (q : NoticeQueue) : Bool :=
  x.isAttached && (decide (x.threshold ≤ q.length) || q.lost.isSome)

/-- The four lines as the condition gives them. -/
def attentionLines (xs : Vector Session 4) (qs : Vector NoticeQueue 4) : Vector Bool 4 :=
  perPort fun n => attentionCondition xs[n] qs[n]

/-! ### Resets and port interfaces (R147, R148, R159, R160) -/

/-- The part is in device reset: nRESET is low or the CLKSEL straps stand at 3 (R147). -/
def Pins.inDeviceReset (x : Pins) : Bool := !x.nReset || decide (x.clksel = 3)

@[inherit_doc Pins.inDeviceReset] def State.inDeviceReset (s : State) : Bool := s.pins.inDeviceReset

/-- The port takes bytes at all: no device reset, RSTn high and CSn low (R148, R159, R160). -/
def State.selected (s : State) (n : Port) : Bool :=
  !s.inDeviceReset && s.pins.rst[n] && !s.pins.cs[n]

/-- A transaction, or a side transaction, is in progress on the interface (R148, R157). -/
def PortInterface.inTransaction (x : PortInterface) : Bool :=
  match x.state with
  | .idle => false
  | .receiving => true
  | .executing => true
  | .responding => true
  | .draining => decide (x.side ≠ .none)

/-- SDOn is driven while a transaction is in progress on the port, and only with CSn low (R148). -/
def State.sdoDriven (s : State) (n : Port) : Bool := s.selected n && s.ports[n].inTransaction

/-- The interface is taking in the bytes of a request, in a transaction or in a side transaction (R150, R157). -/
def PortInterface.isReceiving (x : PortInterface) : Bool :=
  decide (x.state = .receiving) || decide (x.state = .draining ∧ x.side = .receiving)

/-- The interface is shifting out an answer, in a transaction or in a side transaction (R155, R157). -/
def PortInterface.isAnswering (x : PortInterface) : Bool :=
  decide (x.state = .responding) || decide (x.state = .draining ∧ x.side = .answering)

end Sys2Proof.Machine
end

