-- ==== Sys2Proof/Machine/Formats.lean ====
section
/-! DEFINITION. The byte layouts of chapter 10: byte order, CRC, control bytes, response frames, the code lists,
notice entries (R153, R161, R164), and the row of the storage array (R135). -/

namespace Sys2Proof.Machine

open Sys2Proof

/-! ### Byte order (R161): most significant byte first -/

/-- A 16-bit field as it crosses a port. -/
def be16 (h : Half) : List Byte := [h.extractLsb' 8 8, h.extractLsb' 0 8]

/-- A 32-bit field as it crosses a port. -/
def be32 (t : Time) : List Byte :=
  [t.extractLsb' 24 8, t.extractLsb' 16 8, t.extractLsb' 8 8, t.extractLsb' 0 8]

/-- The 16-bit field whose bytes are `hi` and `lo`. -/
def half (hi lo : Byte) : Half := (hi ++ lo : BitVec (8 + 8))

/-- A count as one byte. -/
def byteOf (k : Nat) : Byte := BitVec.ofNat 8 k

/-- A flag as one byte, 00h or 01h. -/
def flagByte (b : Bool) : Byte := if b then 1#8 else 0#8

/-! ### The CRC (R153) -/

/-- One data bit enters the check register. -/
def crcBit (reg : Half) (d : Bool) : Half :=
  if reg.msb != d then (reg <<< 1) ^^^ 0x1021#16 else reg <<< 1

/-- One byte enters the check register, most significant bit first. -/
def crcByte (reg : Half) (b : Byte) : Half :=
  [0, 1, 2, 3, 4, 5, 6, 7].foldl (fun r i => crcBit r (b.getMsbD i)) reg

/-- The CRC of a run of bytes: preset FFFFh, no final inversion. -/
def crc16 (bytes : List Byte) : Half := bytes.foldl crcByte 0xFFFF#16

/-! ### Control bytes and status codes (R161) -/

/-- The filler byte. -/
def fillerByte : Byte := 0x00#8
/-- The PENDING byte. -/
def pendingByte : Byte := 0x0F#8
/-- The READY byte. -/
def readyByte : Byte := 0xF0#8

/-- The 26 status codes. -/
inductive Status where
  | ok | busy | badcheck | badframe | badcmd | badarg | notattached | notpermitted | nopost
  | notproducer | badstate | keyinuse | nopostfree | toolong | noframe | nodata | damaged | arrayfault
  | revoked | sessionlost | holdsfull | nohold | tablefull | portlimit | already | noticket
  deriving DecidableEq, Repr

/-- The code of a status. -/
def Status.code : Status → Byte
  | .ok => 0x00#8
  | .busy => 0x01#8
  | .badcheck => 0x02#8
  | .badframe => 0x03#8
  | .badcmd => 0x04#8
  | .badarg => 0x05#8
  | .notattached => 0x06#8
  | .notpermitted => 0x07#8
  | .nopost => 0x08#8
  | .notproducer => 0x09#8
  | .badstate => 0x0A#8
  | .keyinuse => 0x0B#8
  | .nopostfree => 0x0C#8
  | .toolong => 0x0D#8
  | .noframe => 0x0E#8
  | .nodata => 0x0F#8
  | .damaged => 0x10#8
  | .arrayfault => 0x11#8
  | .revoked => 0x12#8
  | .sessionlost => 0x13#8
  | .holdsfull => 0x14#8
  | .nohold => 0x15#8
  | .tablefull => 0x16#8
  | .portlimit => 0x17#8
  | .already => 0x18#8
  | .noticket => 0x19#8

/-- A response frame (R155, R161): status, tag echo, result length, result, CRC. -/
def responseFrame (status : Status) (tag : Byte) (result : List Byte) : List Byte :=
  let body := status.code :: tag :: byteOf result.length :: result
  body ++ be16 (crc16 body)

/-- A request frame with a good CRC (R150, R153): command code, tag, L, arguments, CRC. -/
def requestFrame (code tag : Byte) (args : List Byte) : List Byte :=
  let body := code :: tag :: byteOf args.length :: args
  body ++ be16 (crc16 body)

/-! ### Codes of the enumerated fields (R164) -/

def portByte (n : Port) : Byte := byteOf n.val
def postByte (p : PostNo) : Byte := byteOf p.val

def SessionState.code : SessionState → Byte
  | .detached => 0x00#8
  | .attached => 0x01#8

def Role.code : Role → Byte
  | .normal => 0x00#8
  | .supervisor => 0x01#8

def AnswerMode.code : AnswerMode → Byte
  | .auto => 0x00#8
  | .forward => 0x01#8

def Binding.code : Binding → Byte
  | .bound n => portByte n
  | .orphaned n => 0x80#8 + portByte n

def Condition.code : Condition → Byte
  | .empty => 0x00#8
  | .fresh => 0x01#8
  | .stale => 0x02#8
  | .damaged => 0x03#8

def DamageCause.code : DamageCause → Byte
  | .check => 0x01#8
  | .lapse => 0x02#8

def DetachCause.code : DetachCause → Byte
  | .detach => 0x01#8
  | .lease => 0x02#8
  | .portreset => 0x03#8

def AdoptHow.code : AdoptHow → Byte
  | .adopt => 0x01#8
  | .takeover => 0x02#8

def VacateBy.code : VacateBy → Byte
  | .producer => 0x01#8
  | .supervisor => 0x02#8

def AnswerKind.code : AnswerKind → Byte
  | .delivered => 0x01#8
  | .timeout => 0x02#8
  | .withdrawn => 0x03#8
  | .orphaned => 0x04#8

/-- The 8 bytes that carry a notice entry (R164). -/
def Notice.bytes : Notice → List Byte
  | .update p k g c => [0x01#8, postByte p] ++ be16 k ++ be16 g ++ [byteOf c, 0#8]
  | .appeared p k n => [0x02#8, postByte p] ++ be16 k ++ [portByte n, 0#8, 0#8, 0#8]
  | .stale p k => [0x03#8, postByte p] ++ be16 k ++ [0#8, 0#8, 0#8, 0#8]
  | .damaged p k c => [0x04#8, postByte p] ++ be16 k ++ [c.code, 0#8, 0#8, 0#8]
  | .orphaned p k n c => [0x05#8, postByte p] ++ be16 k ++ [portByte n, c.code, 0#8, 0#8]
  | .adopted p k n h => [0x06#8, postByte p] ++ be16 k ++ [portByte n, h.code, 0#8, 0#8]
  | .withdrawn p k b => [0x07#8, postByte p] ++ be16 k ++ [b.code, 0#8, 0#8, 0#8]
  | .solicit p k t a => [0x08#8, postByte p] ++ be16 k ++ [t, byteOf a, 0#8, 0#8]
  | .answer t p k g => [0x09#8, t, postByte p, k.code] ++ be16 g ++ [0#8, 0#8]
  | .poolLow f => [0x0A#8, byteOf f, 0#8, 0#8, 0#8, 0#8, 0#8, 0#8]
  | .lapse c => [0x0B#8, byteOf c, 0#8, 0#8, 0#8, 0#8, 0#8, 0#8]

/-- The 8 bytes that carry a LOST marker (R164). -/
def lostBytes (count : Nat) : List Byte :=
  [0x0F#8] ++ be16 (BitVec.ofNat 16 count) ++ [0#8, 0#8, 0#8, 0#8, 0#8]

/-! ### Rows of the storage array (R30, R135) -/

/-- A payload padded with 00h to the 60 bytes of the payload area. -/
def padPayload (payload : List Byte) : List Byte :=
  (payload ++ List.replicate Config.maxPayload 0#8).take Config.maxPayload

/-- The 64 bytes of the row that a publication writes (R135): payload area, length, post number, check word. DESIGN
CHOICE (log 25): the check word stands high byte first; R135 does not give the order of its two bytes. -/
def rowOf (post : PostNo) (payload : List Byte) : List Byte :=
  let parts := padPayload payload ++ [byteOf payload.length, postByte post]
  parts ++ be16 (crc16 parts)

/-- The bytes `row` with the pattern `disturb` exclusive-ORed into its first bytes (log 8). -/
def disturbed : List Byte → List Byte → List Byte
  | [], _ => []
  | b :: row, [] => b :: row
  | b :: row, d :: ds => (b ^^^ d) :: disturbed row ds

/-- The array's check of a row it has read, against the length and post number given with the request (R136):
check word, in the order of `rowOf` (log 25), stored length and stored post number all agree. -/
def rowAgrees (row : List Byte) (length : Nat) (post : PostNo) : Bool :=
  decide (row.drop 62 = be16 (crc16 (row.take 62))) &&
    decide (row[60]? = some (byteOf length)) && decide (row[61]? = some (postByte post))

end Sys2Proof.Machine
end

