-- ==== Sys2Proof/Machine/Operands.lean ====
section
/-! DEFINITION. The operands of the 22 commands: command codes, argument lists, and which of them are accepted
(R162, R163). `Request.args` writes the list that `parseRequest` reads. -/

namespace Sys2Proof.Machine

open Sys2Proof

/-- The 22 commands (R162). -/
inductive Command where
  | attach | detach | ping | status | declare | withdraw | describe | publish | read | snapshot | readHeld
  | release | ask | cancel | filterSet | filterClear | take | adopt | takeover | revoke | poolStatus | setPoolMark
  deriving DecidableEq, Repr

/-- The command code (R162). -/
def Command.code : Command → Byte
  | .attach => 0x01#8
  | .detach => 0x02#8
  | .ping => 0x03#8
  | .status => 0x04#8
  | .declare => 0x10#8
  | .withdraw => 0x11#8
  | .describe => 0x12#8
  | .publish => 0x18#8
  | .read => 0x20#8
  | .snapshot => 0x21#8
  | .readHeld => 0x22#8
  | .release => 0x23#8
  | .ask => 0x28#8
  | .cancel => 0x29#8
  | .filterSet => 0x30#8
  | .filterClear => 0x31#8
  | .take => 0x32#8
  | .adopt => 0x38#8
  | .takeover => 0x39#8
  | .revoke => 0x3A#8
  | .poolStatus => 0x40#8
  | .setPoolMark => 0x41#8

/-- The 22 commands in the order of the table (R162). -/
def allCommands : List Command :=
  [.attach, .detach, .ping, .status, .declare, .withdraw, .describe, .publish, .read, .snapshot, .readHeld,
   .release, .ask, .cancel, .filterSet, .filterClear, .take, .adopt, .takeover, .revoke, .poolStatus, .setPoolMark]

/-- The command that a code names, if it is one of the 22 (R154, R162). -/
def Command.ofCode (code : Byte) : Option Command := allCommands.find? fun c => c.code == code

/-- The post selector of DECLARE (R12). -/
inductive Selector where
  | any
  | post (p : PostNo)
  deriving DecidableEq, Repr

/-- What DESCRIBE names (R18). -/
inductive PostName where
  | number (p : PostNo)
  | key (k : Half)
  deriving DecidableEq, Repr

/-- A command with its arguments, in the encodings of R163. -/
inductive Request where
  | attach (role : Role) (lease : Half) (threshold : Nat)
  | detach
  | ping
  | status
  | declare (sel : Selector) (key : Half) (capacity : Nat) (period : Half) (mode : AnswerMode)
  | withdraw (p : PostNo)
  | describe (name : PostName)
  | publish (p : PostNo) (payload : List Byte)
  | read (p : PostNo)
  | snapshot (ps : List PostNo)
  | readHeld (h : HoldNo)
  | release (mask : Byte)
  | ask (p : PostNo) (maxAge timeout : Half)
  | cancel (ticket : Byte)
  | filterSet (i : FilterNo) (f : Filter)
  | filterClear (i : Option FilterNo)
  | take (count : Nat)
  | adopt (p : PostNo)
  | takeover (p : PostNo)
  | revoke (p : PostNo)
  | poolStatus
  | setPoolMark (mark : Nat)
  deriving DecidableEq, Repr

/-- The command of a request. -/
def Request.command : Request → Command
  | .attach .. => .attach
  | .detach => .detach
  | .ping => .ping
  | .status => .status
  | .declare .. => .declare
  | .withdraw _ => .withdraw
  | .describe _ => .describe
  | .publish .. => .publish
  | .read _ => .read
  | .snapshot _ => .snapshot
  | .readHeld _ => .readHeld
  | .release _ => .release
  | .ask .. => .ask
  | .cancel _ => .cancel
  | .filterSet .. => .filterSet
  | .filterClear _ => .filterClear
  | .take _ => .take
  | .adopt _ => .adopt
  | .takeover _ => .takeover
  | .revoke _ => .revoke
  | .poolStatus => .poolStatus
  | .setPoolMark _ => .setPoolMark

/-! ### Fields (R163) -/

/-- A post number, 00h to 3Fh. -/
def postArg (b : Byte) : Option PostNo := if h : b.toNat < 64 then some ⟨b.toNat, h⟩ else none

/-- A hold number, 00h to 07h. -/
def holdArg (b : Byte) : Option HoldNo := if h : b.toNat < 8 then some ⟨b.toNat, h⟩ else none

/-- A filter index, 00h to 07h. -/
def filterArg (b : Byte) : Option FilterNo := if h : b.toNat < 8 then some ⟨b.toNat, h⟩ else none

/-- A role. -/
def roleArg (b : Byte) : Option Role :=
  if b = 0x00#8 then some .normal else if b = 0x01#8 then some .supervisor else none

/-- An answer mode. -/
def modeArg (b : Byte) : Option AnswerMode :=
  if b = 0x00#8 then some .auto else if b = 0x01#8 then some .forward else none

/-- A key is 0001h to FFFEh (R4). -/
def isKey (k : Half) : Bool := decide (k ≠ 0x0000#16 ∧ k ≠ 0xFFFF#16)

/-- A lease period is 0, or 20 to 60000 ms (R117). -/
def isLease (t : Half) : Bool := decide (t = 0#16 ∨ (20 ≤ t.toNat ∧ t.toNat ≤ 60000))

/-- An attention threshold is 1 to 31 (R117). -/
def isThreshold (k : Nat) : Bool := decide (1 ≤ k ∧ k ≤ 31)

/-- The list of a SNAPSHOT: 1 to 8 posts, none twice (R70). -/
def isSnapshotList (ps : List PostNo) : Bool := decide (1 ≤ ps.length ∧ ps.length ≤ 8 ∧ ps.Nodup)

/-- Post numbers, one a byte. -/
def postArgs : List Byte → Option (List PostNo)
  | [] => some []
  | b :: bs =>
    match postArg b, postArgs bs with
    | some p, some ps => some (p :: ps)
    | _, _ => none

/-- `some x` if the condition holds. -/
def accept {α : Type} (ok : Bool) (x : α) : Option α := if ok then some x else none

/-! ### Argument lists (R162) -/

def parseAttach : List Byte → Option Request
  | [role, hi, lo, threshold] =>
    match roleArg role with
    | some r => accept (isLease (half hi lo) && isThreshold threshold.toNat) (.attach r (half hi lo) threshold.toNat)
    | none => none
  | _ => none

def parseDeclare : List Byte → Option Request
  | [sel, kh, kl, cap, fh, fl, mode] =>
    match modeArg mode with
    | some m =>
      match (if sel = 0xFF#8 then some Selector.any else (postArg sel).map Selector.post) with
      | some x =>
        accept (isKey (half kh kl) && decide (cap.toNat ≤ Config.maxPayload))
          (.declare x (half kh kl) cap.toNat (half fh fl) m)
      | none => none
    | none => none
  | _ => none

def parseDescribe : List Byte → Option Request
  | [p] => (postArg p).map fun p => .describe (.number p)
  | [hi, lo] => accept (isKey (half hi lo)) (.describe (.key (half hi lo)))
  | _ => none

def parsePublish : List Byte → Option Request
  | p :: payload =>
    match postArg p with
    | some p => accept (decide (payload.length ≤ Config.maxPayload)) (.publish p payload)
    | none => none
  | _ => none

def parseSnapshot (args : List Byte) : Option Request :=
  match postArgs args with
  | some ps => accept (isSnapshotList ps) (.snapshot ps)
  | none => none

def parseAsk : List Byte → Option Request
  | [p, ah, al, th, tl] =>
    match postArg p with
    | some p => accept (decide (half th tl ≠ 0#16)) (.ask p (half ah al) (half th tl))
    | none => none
  | _ => none

def parseFilterSet : List Byte → Option Request
  | [i, vh, vl, mh, ml, flags] =>
    match filterArg i with
    | some i =>
      accept (decide (flags.toNat < 8))
        (.filterSet i { value := half vh vl, mask := half mh ml, updates := flags.getLsbD 0,
                        lifecycle := flags.getLsbD 1, echo := flags.getLsbD 2 })
    | none => none
  | _ => none

/-- A command whose whole argument list is one post number. -/
def parsePost (f : PostNo → Request) : List Byte → Option Request
  | [p] => (postArg p).map f
  | _ => none

/-- A command without arguments. -/
def parseNone (r : Request) : List Byte → Option Request
  | [] => some r
  | _ => none

def parseReadHeld : List Byte → Option Request
  | [h] => (holdArg h).map .readHeld
  | _ => none

def parseRelease : List Byte → Option Request
  | [mask] => some (.release mask)
  | _ => none

def parseCancel : List Byte → Option Request
  | [t] => accept (decide (t ≠ 0#8)) (.cancel t)
  | _ => none

def parseFilterClear : List Byte → Option Request
  | [i] => if i = 0xFF#8 then some (.filterClear none) else (filterArg i).map fun i => .filterClear (some i)
  | _ => none

def parseTake : List Byte → Option Request
  | [k] => accept (decide (1 ≤ k.toNat ∧ k.toNat ≤ 4)) (.take k.toNat)
  | _ => none

def parseSetPoolMark : List Byte → Option Request
  | [m] => accept (decide (m.toNat ≤ 32)) (.setPoolMark m.toNat)
  | _ => none

/-- The request that a command's argument bytes spell, or none where the command is refused BADARG: its length or
one of its fields is not accepted (R154, R162, R163). -/
def parseRequest (c : Command) (args : List Byte) : Option Request :=
  match c with
  | .attach => parseAttach args
  | .detach => parseNone .detach args
  | .ping => parseNone .ping args
  | .status => parseNone .status args
  | .declare => parseDeclare args
  | .withdraw => parsePost .withdraw args
  | .describe => parseDescribe args
  | .publish => parsePublish args
  | .read => parsePost .read args
  | .snapshot => parseSnapshot args
  | .readHeld => parseReadHeld args
  | .release => parseRelease args
  | .ask => parseAsk args
  | .cancel => parseCancel args
  | .filterSet => parseFilterSet args
  | .filterClear => parseFilterClear args
  | .take => parseTake args
  | .adopt => parsePost .adopt args
  | .takeover => parsePost .takeover args
  | .revoke => parsePost .revoke args
  | .poolStatus => parseNone .poolStatus args
  | .setPoolMark => parseSetPoolMark args

/-- The flags byte of a filter (R163): bit 0 UPDATES, bit 1 LIFECYCLE, bit 2 ECHO. -/
def Filter.flagsByte (f : Filter) : Byte :=
  (if f.updates then 1#8 else 0#8) + (if f.lifecycle then 2#8 else 0#8) + (if f.echo then 4#8 else 0#8)

/-- The argument bytes of a request, laid out as R162 gives them. -/
def Request.args : Request → List Byte
  | .attach role lease threshold => [role.code] ++ be16 lease ++ [byteOf threshold]
  | .detach => []
  | .ping => []
  | .status => []
  | .declare sel key capacity period mode =>
    [match sel with | .any => 0xFF#8 | .post p => postByte p] ++ be16 key ++ [byteOf capacity] ++ be16 period ++
      [mode.code]
  | .withdraw p => [postByte p]
  | .describe (.number p) => [postByte p]
  | .describe (.key k) => be16 k
  | .publish p payload => postByte p :: payload
  | .read p => [postByte p]
  | .snapshot ps => ps.map postByte
  | .readHeld h => [byteOf h.val]
  | .release mask => [mask]
  | .ask p maxAge timeout => [postByte p] ++ be16 maxAge ++ be16 timeout
  | .cancel ticket => [ticket]
  | .filterSet i f => [byteOf i.val] ++ be16 f.value ++ be16 f.mask ++ [f.flagsByte]
  | .filterClear (some i) => [byteOf i.val]
  | .filterClear none => [0xFF#8]
  | .take count => [byteOf count]
  | .adopt p => [postByte p]
  | .takeover p => [postByte p]
  | .revoke p => [postByte p]
  | .poolStatus => []
  | .setPoolMark mark => [byteOf mark]

/-- Every field of the request is one that R163 accepts, and its list one that R162 accepts. -/
def Request.legal : Request → Bool
  | .attach _ lease threshold => isLease lease && isThreshold threshold
  | .declare _ key capacity _ _ => isKey key && decide (capacity ≤ Config.maxPayload)
  | .describe (.key k) => isKey k
  | .publish _ payload => decide (payload.length ≤ Config.maxPayload)
  | .snapshot ps => isSnapshotList ps
  | .ask _ _ timeout => decide (timeout ≠ 0#16)
  | .cancel ticket => decide (ticket ≠ 0#8)
  | .take count => decide (1 ≤ count ∧ count ≤ 4)
  | .setPoolMark mark => decide (mark ≤ 32)
  | .detach => true
  | .ping => true
  | .status => true
  | .withdraw _ => true
  | .describe (.number _) => true
  | .read _ => true
  | .readHeld _ => true
  | .release _ => true
  | .filterSet _ _ => true
  | .filterClear _ => true
  | .adopt _ => true
  | .takeover _ => true
  | .revoke _ => true
  | .poolStatus => true

/-- Commands accepted from a port in either session state (R154). -/
def Request.needsSession : Request → Bool
  | .attach .. => false
  | .ping => false
  | .status => false
  | _ => true

/-- The three commands that need the supervisor role (R120). -/
def Request.needsSupervisor : Request → Bool
  | .takeover _ => true
  | .revoke _ => true
  | .setPoolMark _ => true
  | _ => false

end Sys2Proof.Machine
end

