-- ==== Sys2Proof/Machine/Ops.lean ====
section
/-! DEFINITION. The operations that the commands share, block by block: setters of the state, the array's memory,
the frame pool, notice queues and match unit, the request table, the post table's events, the detach, and the port
interface. A block-level operation is a function on the block's own data; a State-level one writes it back. -/

namespace Sys2Proof.Machine

open Sys2Proof

/-! ### Setters -/

def State.setPosts (s : State) (x : Vector (Option Post) 64) : State := { s with posts := x }

/-- Post `p` takes the record `r`, or becomes VACANT. -/
def State.setPost (s : State) (p : PostNo) (r : Option Post) : State := s.setPosts (put s.posts p r)

def State.setSlots (s : State) (x : Vector (Option Publication) 4) : State := { s with slots := x }

/-- The publication slot of port `n` takes the value `x`. -/
def State.setSlot (s : State) (n : Port) (x : Option Publication) : State := s.setSlots (put s.slots n x)

def State.setPool (s : State) (x : Pool) : State := { s with pool := x }

/-- The hold table of port `n` becomes `x`. -/
def State.setHolds (s : State) (n : Port) (x : Vector (Option Hold) 8) : State :=
  { s with holds := put s.holds n x }

/-- The read record of port `n` becomes `x`. -/
def State.setRead (s : State) (n : Port) (x : Option ReadRecord) : State :=
  { s with reads := put s.reads n x }

/-- The filters of port `n` become `x`. -/
def State.setFilters (s : State) (n : Port) (x : Vector (Option Filter) 8) : State :=
  { s with filters := put s.filters n x }

/-- The four queues become `qs`, and each ATTNn line is left as its condition gives it at the end of the event
(R97). -/
def State.setQueues (s : State) (qs : Vector NoticeQueue 4) : State :=
  { s with queues := qs, pins := { s.pins with attn := attentionLines s.sessions qs } }

def State.setRequests (s : State) (x : RequestTable) : State := { s with requests := x }

/-- The session record of port `n` becomes `x`, and the ATTNn lines follow (R97). -/
def State.setSession (s : State) (n : Port) (x : Session) : State :=
  { s with sessions := put s.sessions n x,
           pins := { s.pins with attn := attentionLines (put s.sessions n x) s.queues } }

def State.setArray (s : State) (x : StorageArray) : State := { s with array := x }
def State.setArbiter (s : State) (x : Arbiter) : State := { s with arbiter := x }
def State.setRefresh (s : State) (x : RefreshController) : State := { s with refresh := x }
def State.setTime (s : State) (x : TimeBase) : State := { s with time := x }

/-- The interface of port `n` becomes `x`. -/
def State.setPort (s : State) (n : Port) (x : PortInterface) : State := { s with ports := put s.ports n x }

/-- The inputs become those of `x`; the ATTNn lines are outputs and stay. -/
def State.setPins (s : State) (x : Pins) : State := { s with pins := { x with attn := s.pins.attn } }

def State.setPending (s : State) (x : List Instr) : State := { s with pending := x }

/-- Device time as it stands (R146). -/
def State.now (s : State) : Time := s.time.deviceTime

/-! ### The memory of the storage array (R135) -/

/-- The byte stored at address `a`, or none where nothing has been written since the device reset. -/
def Memory.read (a : Nat) : List Host.Cell → Option Byte
  | [] => none
  | (x, v) :: m => if a = x then some v else Memory.read a m

/-- Byte `b` stored at address `a`; the list stays in canonical form. -/
def Memory.write (a : Nat) (b : Byte) : List Host.Cell → List Host.Cell
  | [] => [(a, b)]
  | (x, v) :: m =>
    if a < x then (a, b) :: (x, v) :: m else if a = x then (a, b) :: m else (x, v) :: Memory.write a b m

/-- The bytes `bs` stored from address `a` on. -/
def Memory.writeAll (a : Nat) : List Byte → List Host.Cell → List Host.Cell
  | [], m => m
  | b :: bs, m => Memory.writeAll (a + 1) bs (Memory.write a b m)

/-- The canonical form: addresses strictly rising, all within the 96 rows of 64 bytes. -/
abbrev Memory.wf (m : List Host.Cell) : Prop :=
  m.Pairwise (fun x y => x.1 < y.1) ∧ ∀ c ∈ m, c.1 < 96 * Config.rowBytes

/-- The address of the first byte of the row of frame `f`. -/
def rowAddress (f : FrameNo) : Nat := Config.rowBytes * f.val

/-- The row of frame `f` as the array holds it; a byte nothing has written is a free value (log 7). -/
def readRow (epoch : Nat) (f : FrameNo) (m : List Host.Cell) : List Byte :=
  (List.range Config.rowBytes).map fun i =>
    (Memory.read (rowAddress f + i) m).getD (Config.unwrittenByte epoch (rowAddress f + i))

/-! ### The frame pool (R48 to R55) -/

/-- A claim is taken on frame `f`: its count rises by one. -/
def Pool.addRef (x : Pool) (f : FrameNo) : Pool :=
  { x with frames := put x.frames f { x.frames[f] with refs := x.frames[f].refs + 1 } }

/-- The suspect flag of frame `f` is set or cleared (R51). -/
def Pool.setSuspect (x : Pool) (f : FrameNo) (b : Bool) : Pool :=
  { x with frames := put x.frames f { x.frames[f] with suspect := b } }

/-- A claim on frame `f` is released (R49): at a count of 0 the frame is cleared of suspicion and joins the tail of
the free list, and the re-arming test of R55 is made. A release always finds a count of at least 1 (R47); one that
finds 0 changes nothing (log 14). -/
def Pool.release (x : Pool) (f : FrameNo) : Pool :=
  match x.frames[f].refs with
  | 0 => x
  | 1 =>
    { x with
      frames := put x.frames f { refs := 0, suspect := false }
      free := x.free ++ [f]
      armed := x.armed || decide (x.mark + Config.rearmMargin ≤ (x.free ++ [f]).length) }
  | k + 2 => { x with frames := put x.frames f { x.frames[f] with refs := k + 1 } }

/-- A post's reference to its current frame is released, if it has one (R16, R34). -/
def Pool.releaseCurrent (x : Pool) : Option Current → Pool
  | some c => x.release c.frame
  | none => x

/-- Several releases, one after another (R50). -/
def Pool.releaseAll (x : Pool) (fs : List FrameNo) : Pool := fs.foldl Pool.release x

/-- An allocation (R48): the head of the free list, the pool after it, and the free count that a POOL_LOW notice
carries if the low-water test of R54 sends one. -/
def Pool.allocate (x : Pool) : Option (FrameNo × Pool × Option Nat) :=
  match x.free with
  | [] => none
  | f :: rest =>
    let low := x.armed && decide (x.mark ≠ 0) && decide (rest.length ≤ x.mark)
    some (f,
      { x with frames := put x.frames f { x.frames[f] with refs := 1 }, free := rest, armed := x.armed && !low },
      if low then some rest.length else none)

/-- The suspect flag of every frame in use is set (R51, R144). -/
def Pool.suspectAll (x : Pool) : Pool :=
  { x with frames := mapTable (fun e => if 1 ≤ e.refs then { e with suspect := true } else e) x.frames }

/-! ### Notice queues (R88 to R94) -/

/-- The entry is an UPDATE for post `p`. -/
def Notice.isUpdateOf (p : PostNo) : Notice → Bool
  | .update q _ _ _ => decide (q = p)
  | _ => false

/-- The entry is a SOLICIT for post `p`. -/
def Notice.isSolicitOf (p : PostNo) : Notice → Bool
  | .solicit q _ _ _ => decide (q = p)
  | _ => false

/-- A waiting UPDATE takes the new generation and counts one more (R88). -/
def Notice.mergeUpdate (g : Half) : Notice → Notice
  | .update p k _ c => .update p k g (min (c + 1) Config.maxCoalesced)
  | x => x

/-- A waiting SOLICIT keeps its first ticket and counts one more asker (R89). -/
def Notice.mergeSolicit : Notice → Notice
  | .solicit p k t a => .solicit p k t (min (a + 1) Config.maxAskers)
  | x => x

/-- A notice handed to the queue as a new entry (R90). -/
def NoticeQueue.append (q : NoticeQueue) (x : Notice) : NoticeQueue :=
  match q.lost with
  | some k => { q with lost := some (min (k + 1) Config.maxLost) }
  | none =>
    if q.entries.length < Config.ordinaryPlaces then { q with entries := q.entries ++ [x] }
    else { q with lost := some 1 }

/-- The entries of the queue, with those that `sel` picks changed by `f` in their places. -/
def NoticeQueue.merge (q : NoticeQueue) (sel : Notice → Bool) (f : Notice → Notice) : NoticeQueue :=
  { q with entries := q.entries.map fun e => if sel e then f e else e }

/-- A notice arrives (R88, R89, R90): an UPDATE or a SOLICIT merges into one for the same post that waits. -/
def NoticeQueue.arrive (q : NoticeQueue) (x : Notice) : NoticeQueue :=
  match x with
  | .update p _ g _ =>
    if q.entries.any (Notice.isUpdateOf p) then q.merge (Notice.isUpdateOf p) (Notice.mergeUpdate g) else q.append x
  | .solicit p _ _ _ =>
    if q.entries.any (Notice.isSolicitOf p) then q.merge (Notice.isSolicitOf p) Notice.mergeSolicit else q.append x
  | _ => q.append x

/-- The queue accepts an ANSWER that is offered (R91). -/
def NoticeQueue.accepts (q : NoticeQueue) : Bool :=
  decide (q.entries.length < Config.ordinaryPlaces) && q.lost.isNone

/-- A purge removes the entries that `sel` picks and leaves the others in their order (R94). -/
def NoticeQueue.purge (q : NoticeQueue) (sel : Notice → Bool) : NoticeQueue :=
  { q with entries := q.entries.filter fun e => !sel e }

/-- The queue after the removal of its `k` oldest entries, the marker counting as the last (R93). -/
def NoticeQueue.dropOldest (q : NoticeQueue) (k : Nat) : NoticeQueue :=
  { entries := q.entries.drop k, lost := if q.entries.length < k then none else q.lost }

/-- The entries removed by a TAKE of `k`, each as its 8 bytes, oldest first (R93, R164). -/
def NoticeQueue.takeOldest (q : NoticeQueue) (k : Nat) : List (List Byte) :=
  (q.entries.take k).map Notice.bytes ++
    (if q.entries.length < k then (match q.lost with | some c => [lostBytes c] | none => []) else [])

/-! ### The match unit (R84, R85) -/

/-- The ports that receive a filtered notice about key `k`: ATTACHED, and interested or the fixed recipient. -/
def State.recipients (s : State) (k : Half) (flag : FilterFlag) (acting fixed : Option Port) (n : Port) : Bool :=
  s.attached n &&
    (decide (fixed = some n) || anyFilterSelects s.filters[n] k flag (decide (acting = some n)))

/-- One notice placed into the queue of each port that `sel` picks. -/
def deliver (sel : Port → Bool) (x : Notice) (qs : Vector NoticeQueue 4) : Vector NoticeQueue 4 :=
  perPort fun n => if sel n then qs[n].arrive x else qs[n]

/-- A filtered notice about key `k` is handed to the match unit. -/
def State.notify (s : State) (x : Notice) (k : Half) (flag : FilterFlag) (acting fixed : Option Port) : State :=
  s.setQueues (deliver (s.recipients k flag acting fixed) x s.queues)

/-- A notice for every ATTACHED port (POOL_LOW, LAPSE). -/
def State.notifyAttached (s : State) (x : Notice) : State := s.setQueues (deliver s.attached x s.queues)

/-- A notice addressed to one port, which receives it if it is ATTACHED (SOLICIT). -/
def State.notifyPort (s : State) (n : Port) (x : Notice) : State :=
  s.setQueues (deliver (fun m => decide (m = n) && s.attached m) x s.queues)

/-- Every queue purges the UPDATE and SOLICIT entries of post `p` (R94). -/
def State.purgePost (s : State) (p : PostNo) : State :=
  s.setQueues (perPort fun n => s.queues[n].purge fun e => e.isUpdateOf p || e.isSolicitOf p)

/-- The queue of port `n` purges its SOLICIT for post `p` (R94). -/
def State.purgeSolicit (s : State) (n : Port) (p : PostNo) : State :=
  s.setQueues (put s.queues n (s.queues[n].purge fun e => e.isSolicitOf p))

/-! ### The request table (R99 to R113) -/

/-- How the outcome reads in an ANSWER (R108). -/
def AskOutcome.kind : AskOutcome → AnswerKind
  | .delivered _ => .delivered
  | .timeout => .timeout
  | .withdrawn => .withdrawn
  | .orphaned => .orphaned

/-- The generation that the outcome carries: the commit's, or the generation at ask (R106, R108). -/
def AskOutcome.generation (o : AskOutcome) (genAtAsk : Half) : Half :=
  match o with
  | .delivered g => g
  | _ => genAtAsk

/-- The ANSWER of a completed ask (R108). -/
def UndeliveredAsk.answer (e : UndeliveredAsk) : Notice :=
  .answer e.ticket e.post e.outcome.kind (e.outcome.generation e.genAtAsk)

/-- A PENDING entry with its outcome fixed and its deadline stopped (R105 to R107). -/
def PendingAsk.completed (e : PendingAsk) (o : AskOutcome) : UndeliveredAsk :=
  { ticket := e.ticket, requester := e.requester, post := e.post, genAtAsk := e.genAtAsk, outcome := o }

/-- The queues with the UNDELIVERED entries, which a completion's offer reads and writes. -/
abbrev AnswerDesk := Vector NoticeQueue 4 × List UndeliveredAsk

/-- The offer of R109: the ANSWER is accepted as the newest ordinary entry and the entry leaves the table, or the
entry joins the end of the order of completion. Nothing is offered to a DETACHED port (R84). -/
def offerAnswer (attached : Port → Bool) (e : UndeliveredAsk) (d : AnswerDesk) : AnswerDesk :=
  if attached e.requester && d.1[e.requester].accepts then
    (put d.1 e.requester (d.1[e.requester].append e.answer), d.2)
  else (d.1, d.2 ++ [e])

/-- The entries `es` complete with outcome `o`, one after another, each making its offer before the next (R105). -/
def completeEntries (attached : Port → Bool) (es : List PendingAsk) (o : AskOutcome) (d : AnswerDesk) : AnswerDesk :=
  es.foldl (fun d e => offerAnswer attached (e.completed o) d) d

/-- Every PENDING entry that `sel` picks completes with outcome `o`, in the order of asking. -/
def State.completeAsks (s : State) (sel : PendingAsk → Bool) (o : AskOutcome) : State :=
  let d := completeEntries s.attached (s.requests.pending.filter sel) o (s.queues, s.requests.undelivered)
  (s.setRequests
    { s.requests with pending := s.requests.pending.filter (fun e => !sel e), undelivered := d.2 }).setQueues d.1

/-- The round of R110 on the queue `q` of a port: its UNDELIVERED entries `es`, oldest first, are offered until one
is refused. The result is the queue and the tickets of the entries accepted. -/
def deliverRound : List UndeliveredAsk → NoticeQueue → NoticeQueue × List Byte
  | [], q => (q, [])
  | e :: es, q =>
    if q.accepts then
      let r := deliverRound es (q.append e.answer)
      (r.1, e.ticket :: r.2)
    else (q, [])

/-- Tickets that entries of the table hold. -/
def RequestTable.tickets (x : RequestTable) : List Byte :=
  x.pending.map PendingAsk.ticket ++ x.undelivered.map UndeliveredAsk.ticket

/-- The first value from `t` on that is not in `held`, looking at most `fuel` values ahead (R100). -/
def firstFreeTicket (held : List Byte) : Nat → Byte → Byte
  | 0, t => t
  | fuel + 1, t => if t ∈ held then firstFreeTicket held fuel (succTicket t) else t

/-- The next ticket (R100): the search finds a free value among the next 17. -/
def RequestTable.nextTicket (x : RequestTable) : Byte :=
  firstFreeTicket x.tickets Config.tablePlaces (succTicket x.counter)

/-- Entries in the table (R99). -/
def RequestTable.size (x : RequestTable) : Nat := x.pending.length + x.undelivered.length

/-- PENDING entries on post `p` (R19). -/
def RequestTable.pendingOn (x : RequestTable) (p : PostNo) : List PendingAsk :=
  x.pending.filter fun e => decide (e.post = p)

/-- Entries of either state whose requester is port `n` (R99). -/
def RequestTable.pendingOf (x : RequestTable) (n : Port) : List PendingAsk :=
  x.pending.filter fun e => decide (e.requester = n)
@[inherit_doc RequestTable.pendingOf]
def RequestTable.undeliveredOf (x : RequestTable) (n : Port) : List UndeliveredAsk :=
  x.undelivered.filter fun e => decide (e.requester = n)

/-- The table without the entries of port `n` (R113). -/
def RequestTable.without (x : RequestTable) (n : Port) : RequestTable :=
  { x with pending := x.pending.filter (fun e => decide (e.requester ≠ n)),
           undelivered := x.undelivered.filter (fun e => decide (e.requester ≠ n)) }

/-! ### Publications (R36) -/

/-- The publication is marked overtaken with cause `c`, which replaces an earlier cause. -/
def Publication.overtakenBy (c : OvertakeCause) (x : Publication) : Publication := { x with overtaken := some c }

/-- The publication in the slot of port `n`, if any, is marked overtaken. -/
def State.overtake (s : State) (n : Port) (c : OvertakeCause) : State :=
  s.setSlot n (s.slots[n].map (Publication.overtakenBy c))

/-- The slots after the publication that a post record names as in flight, if any, has been marked overtaken. -/
def overtakeSlots (i : Option InFlight) (c : OvertakeCause) (slots : Vector (Option Publication) 4) :
    Vector (Option Publication) 4 :=
  match i with
  | some i => put slots i.port (slots[i.port].map (Publication.overtakenBy c))
  | none => slots

@[inherit_doc overtakeSlots]
def State.overtakeInFlight (s : State) (i : Option InFlight) (c : OvertakeCause) : State :=
  s.setSlots (overtakeSlots i c s.slots)

/-! ### Events of the post table -/

/-- The port to which a binding binds. -/
def Binding.boundPort : Binding → Option Port
  | .bound n => some n
  | .orphaned _ => none

/-- The lookup by key (R5): the lowest occupied post with the key. -/
def findKey (posts : Vector (Option Post) 64) (k : Half) : Option PostNo :=
  allPosts.find? fun p => match posts[p] with
    | some r => decide (r.key = k)
    | none => false

/-- The lowest-numbered VACANT post (R13). -/
def lowestVacant (posts : Vector (Option Post) 64) : Option PostNo :=
  allPosts.find? fun p => posts[p].isNone

/-- A damage request (R20): applied if the post is occupied, `f` is its current frame and it is not DAMAGED. Only
cause CHECK sends a DAMAGED notice. -/
def State.damageRequest (s : State) (p : PostNo) (f : FrameNo) (c : DamageCause) : State :=
  match s.posts[p] with
  | none => s
  | some r =>
    if r.current.map Current.frame = some f ∧ r.condition ≠ .damaged then
      let t := s.setPost p (some { r with condition := .damaged, cause := some c, deadline := none })
      match c with
      | .check => t.notify (.damaged p r.key .check) r.key .lifecycle none r.binding.boundPort
      | .lapse => t
    else s

/-- The record of a post after a lapse (R21). -/
def Post.lapsed (r : Post) : Post :=
  if r.current.isSome ∧ r.condition ≠ .damaged then
    { r with condition := .damaged, cause := some .lapse, deadline := none }
  else r

/-- The vacate event (R16) of post `p`, whose record is `r`, by the command of port `acting`. -/
def State.vacate (s : State) (p : PostNo) (r : Post) (b : VacateBy) (acting : Port) : State :=
  let s := s.setPost p none
  let s := s.setPool (s.pool.releaseCurrent r.current)
  let s := s.overtakeInFlight r.inFlight .revoke
  let s := s.purgePost p
  let s := s.completeAsks (fun e => decide (e.post = p)) .withdrawn
  s.notify (.withdrawn p r.key b) r.key .lifecycle (some acting)
    (match b with | .supervisor => r.binding.boundPort | .producer => none)

/-- The record is BOUND to port `n`. -/
def Post.boundTo (r : Post) (n : Port) : Bool := decide (r.binding = .bound n)

/-- The post is occupied and BOUND to port `n`. -/
def postBoundTo (o : Option Post) (n : Port) : Bool :=
  match o with
  | some r => r.boundTo n
  | none => false

/-- A FRESH condition becomes STALE, any other stays (R23, R131). -/
def Condition.demoted : Condition → Condition
  | .fresh => .stale
  | c => c

/-- The record of a post at the detach of port `n` (R23). -/
def Post.orphanedFrom (n : Port) (r : Post) : Post :=
  if r.boundTo n then
    { r with binding := .orphaned n, condition := r.condition.demoted, deadline := none, inFlight := none }
  else r

/-- What one post BOUND to the departing port `n` hands on (R23, R92): its ORPHANED notice, then the completions of
its PENDING entries. -/
def State.orphanHandOn (s : State) (n : Port) (c : DetachCause) (d : AnswerDesk) (p : PostNo) : AnswerDesk :=
  match s.posts[p] with
  | none => d
  | some r =>
    if r.boundTo n then
      completeEntries s.attached (s.requests.pendingOn p) .orphaned
        (deliver (s.recipients r.key .lifecycle none none) (.orphaned p r.key n c) d.1, d.2)
    else d

/-- The post table's part of a detach (R23), with the completions of R106, in ascending order of post number. -/
def State.orphanPosts (s : State) (n : Port) (c : DetachCause) : State :=
  let d := allPosts.foldl (s.orphanHandOn n c) (s.queues, s.requests.undelivered)
  ((s.setPosts (mapTable (Option.map (Post.orphanedFrom n)) s.posts)).setRequests
    { s.requests with
      pending := s.requests.pending.filter (fun e => !postBoundTo s.posts[e.post] n)
      undelivered := d.2 }).setQueues d.1

/-! ### The detach (R126) -/

/-- Frames of the holds of a table, in ascending order of hold number (R50). -/
def holdFrames (t : Vector (Option Hold) 8) : List FrameNo := t.toList.filterMap fun h => h.map Hold.frame

/-- The frame of a read record's pin, if it is present. -/
def pinFrame (r : Option ReadRecord) : List FrameNo :=
  match r with
  | some x => if x.pin then [x.frame] else []
  | none => []

/-- The read record after the detach of its port (R76): a read that has not completed is cut off, one that has is
dropped. -/
def ReadRecord.detached (r : ReadRecord) : Option ReadRecord :=
  match r.phase with
  | .answering => none
  | _ => some { r with pin := false, cutOff := true }

/-- The reading unit's part of a detach (R76). -/
def State.detachReading (s : State) (n : Port) : State :=
  ((s.setPool (s.pool.releaseAll (holdFrames s.holds[n] ++ pinFrame s.reads[n]))).setHolds n
    (Vector.replicate 8 none)).setRead n (s.reads[n].bind ReadRecord.detached)

/-- Port `n` detaches with cause `c` (R126): the session record, then each block's part (log 12). -/
def State.detachPort (s : State) (n : Port) (c : DetachCause) : State :=
  let s := s.setSession n Session.detachedValues
  let s := s.overtake n .session
  let s := s.detachReading n
  let s := s.setRequests (s.requests.without n)
  let s := s.setFilters n (Vector.replicate 8 none)
  let s := s.setQueues (put s.queues n NoticeQueue.empty)
  s.orphanPosts n c

/-- The lease report of a good request (R121): an armed timer of an ATTACHED port restarts. -/
def Session.renewed (x : Session) (now : Time) : Session :=
  if x.state = .attached ∧ x.timer.isSome then { x with timer := some (expiryAfter now x.lease) } else x

@[inherit_doc Session.renewed]
def State.renewLease (s : State) (n : Port) : State := s.setSession n (s.sessions[n].renewed s.now)

/-! ### The reading unit's end of a response (R68) -/

/-- The frames that a record gives up when its response is finished with: the pin of a completed read. A record that
is empty, or whose read has not completed, gives up none. -/
def finishedFrames (r : Option ReadRecord) : List FrameNo :=
  match r with
  | some x => if x.phase = .answering then pinFrame (some x) else []
  | none => []

/-- The record after its response is finished with: that of a completed read is emptied. -/
def finishedRecord (r : Option ReadRecord) : Option ReadRecord :=
  match r with
  | some x => if x.phase = .answering then none else some x
  | none => none

/-- The port interface reports that a response is finished with (R68). -/
def State.readFinished (s : State) (n : Port) : State :=
  (s.setPool (s.pool.releaseAll (finishedFrames s.reads[n]))).setRead n (finishedRecord s.reads[n])

/-! ### The port interface (R154 to R157) -/

/-- How a taken command ends at its taking: completed with a status and its result bytes, or executing. -/
inductive Reply where
  | done (status : Status) (result : List Byte)
  | executing
  deriving DecidableEq, Repr

/-- The answer to a frame is held, whole: the port becomes RESPONDING, or on a DRAINING port the side transaction
passes to its answering phase (R154, R157). -/
def PortInterface.answering (x : PortInterface) (frame : List Byte) (c : Option CommandTag) : PortInterface :=
  { x with
    state := if x.state = .draining then .draining else .responding
    side := if x.state = .draining then .answering else x.side
    response := some { frame := frame, clocked := 0, command := c } }

/-- A frame that takes nothing is answered BADCHECK, BADFRAME, BADCMD or BUSY (R151, R154). -/
def State.answerUntaken (s : State) (n : Port) (status : Status) (tag : Byte) : State :=
  s.setPort n (s.ports[n].answering (responseFrame status tag []) none)

/-- The port interface after a command has been taken (R154): it holds the response of one that has completed, and
keeps one that has not as its outstanding command. -/
def State.afterTaking (s : State) (n : Port) (c : CommandTag) : Reply → State
  | .done status result => s.setPort n (s.ports[n].answering (responseFrame status c.tag result) (some c))
  | .executing => s.setPort n { s.ports[n] with state := .executing, outstanding := some c }

/-- The transaction state of a DRAINING port whose command completes (R157). -/
def SideState.resumed : SideState → TxState
  | .none => .idle
  | .receiving => .receiving
  | .answering => .responding

/-- The outstanding command of port `n` completes (R155, R156, R157): its response is held, or discarded where the
discard mark is set. -/
def State.completeCommand (s : State) (n : Port) (status : Status) (result : List Byte) : State :=
  let x := s.ports[n]
  match x.outstanding with
  | none => s
  | some c =>
    if x.discard then
      (s.setPort n { x with outstanding := none, discard := false, state := x.side.resumed, side := .none }).readFinished n
    else
      s.setPort n
        { x with outstanding := none, state := .responding,
                 response := some { frame := responseFrame status c.tag result, clocked := 0, command := some c } }

/-- The response held is finished with (R155): it goes, and the reading unit is told if it was that of a READ or a
READ HELD. -/
def State.finishResponse (s : State) (n : Port) : State :=
  let x := s.ports[n]
  match x.response with
  | none => s
  | some h =>
    let s := s.setPort n { x with response := none }
    match h.command with
    | some c => if c.code = Command.read.code ∨ c.code = Command.readHeld.code then s.readFinished n else s
    | none => s

/-- A port's place with the arbiter receives a request (R137). -/
def State.requestAccess (s : State) (n : Port) (k : PortRequest) : State :=
  s.setArbiter { s.arbiter with places := put s.arbiter.places n (some k) }

end Sys2Proof.Machine
end

