-- ==== Sys2Proof/Machine/Asking.lean ====
section
/-! DEFINITION. ASK, CANCEL and the expiry of an ask's deadline (chapter 6). -/

namespace Sys2Proof.Machine

open Sys2Proof

/-- The ticket of the entry of port `n` on post `p`, PENDING or UNDELIVERED (R101, check 5). -/
def RequestTable.ticketOf (x : RequestTable) (n : Port) (p : PostNo) : Option Byte :=
  match x.pending.find? (fun e => decide (e.requester = n ∧ e.post = p)) with
  | some e => some e.ticket
  | none => (x.undelivered.find? (fun e => decide (e.requester = n ∧ e.post = p))).map UndeliveredAsk.ticket

/-- The age that answers an ASK at once (R101, check 4): the post is AUTO and FRESH, and no older than `maxAge`. -/
def Post.freshWithin (r : Post) (now : Time) (maxAge : Half) : Option Time :=
  match r.current with
  | some c =>
    if r.mode = .auto ∧ r.condition = .fresh ∧ (age now c.stamp).toNat ≤ maxAge.toNat then some (age now c.stamp)
    else none
  | none => none

/-- An ASK makes an entry (R103): the ticket, the entry at the end of the order of asking, the SOLICIT to the
producer `q` (R104). -/
def State.makeEntry (s : State) (n : Port) (p : PostNo) (r : Post) (q : Port) (timeout : Half) : State :=
  let t := s.requests.nextTicket
  (s.setRequests
    { s.requests with
      pending := s.requests.pending ++
        [{ ticket := t, requester := n, post := p, genAtAsk := r.generation, deadline := s.now + timeout.zeroExtend 32 }]
      counter := t }).notifyPort q (.solicit p r.key t 1)

/-- ASK (R101 to R103): the checks in the order of R101. -/
def askTaken (n : Port) (p : PostNo) (maxAge timeout : Half) (s : State) : State × Reply :=
  match s.posts[p] with
  | none => (s, .done .nopost [])
  | some r =>
    match r.binding with
    | .orphaned _ => (s, .done .ok ([0x01#8] ++ be16 r.generation))
    | .bound q =>
      if q = n then (s, .done .badstate [])
      else
        match r.freshWithin s.now maxAge with
        | some a => (s, .done .ok ([0x00#8] ++ be16 r.generation ++ be32 a))
        | none =>
          match s.requests.ticketOf n p with
          | some t => (s, .done .already [t])
          | none =>
            if Config.tablePlaces ≤ s.requests.size then (s, .done .tablefull [])
            else if Config.portPlaces ≤ (s.requests.pendingOf n).length + (s.requests.undeliveredOf n).length then
              (s, .done .portlimit [])
            else (s.makeEntry n p r q timeout, .done .ok [0x02#8, s.requests.nextTicket])

/-- CANCEL (R111). -/
def cancelTaken (n : Port) (ticket : Byte) (s : State) : State × Reply :=
  match s.requests.pending.find? (fun e => decide (e.ticket = ticket ∧ e.requester = n)) with
  | some _ =>
    (s.setRequests { s.requests with pending := s.requests.pending.filter fun e => !decide (e.ticket = ticket ∧ e.requester = n) },
     .done .ok [0x00#8])
  | none =>
    match s.requests.undelivered.find? (fun e => decide (e.ticket = ticket ∧ e.requester = n)) with
    | some e =>
      (s.setRequests
        { s.requests with
          undelivered := s.requests.undelivered.filter fun e => !decide (e.ticket = ticket ∧ e.requester = n) },
       .done .ok ([0x01#8, e.outcome.kind.code] ++ be16 (e.outcome.generation e.genAtAsk)))
    | none => (s, .done .noticket [])

/-- The deadline of an entry expires "when device time becomes the entry's deadline plus one" (R107). -/
def PendingAsk.expired (e : PendingAsk) (now : Time) : Bool := reached (e.deadline + 1#32) now

/-- The deadline of the PENDING entry with the ticket expires (R107): it completes TIMEOUT. -/
def State.expireAsk (s : State) (ticket : Byte) : State :=
  s.completeAsks (fun e => decide (e.ticket = ticket) && e.expired s.now) .timeout

end Sys2Proof.Machine
end

