-- ==== Sys2Proof/Machine/Publishing.lean ====
section
/-! DEFINITION. PUBLISH and the end of a publication (chapter 2). -/

namespace Sys2Proof.Machine

open Sys2Proof

/-- The taking of a PUBLISH (R29): the staging frame `f` has been allocated, leaving the pool `x` and, where the
low-water test sends one, the free count of a POOL_LOW notice. -/
def State.takePublish (s : State) (n : Port) (p : PostNo) (r : Post) (payload : List Byte) (f : FrameNo) (x : Pool)
    (low : Option Nat) : State :=
  let s := s.setPool x
  let s := s.setPost p (some { r with inFlight := some { frame := f, port := n } })
  let s := s.setSlot n (some { post := p, frame := f, payload := payload, phase := .waiting, overtaken := none })
  let s := s.requestAccess n .write
  match low with
  | some k => s.notifyAttached (.poolLow k)
  | none => s

/-- PUBLISH (R28, R29): NOPOST, NOTPRODUCER, TOOLONG and NOFRAME are checked in this order. -/
def publishTaken (n : Port) (p : PostNo) (payload : List Byte) (s : State) : State × Reply :=
  match s.posts[p] with
  | none => (s, .done .nopost [])
  | some r =>
    if !r.boundTo n then (s, .done .notproducer [])
    else if r.capacity < payload.length then (s, .done .toolong [])
    else
      match s.pool.allocate with
      | none => (s, .done .noframe [])
      | some (f, x, low) => (s.takePublish n p r payload f x low, .executing)

/-- The record of a post at a commit (R33): frame `f` with `length` bytes becomes current at device time `now`. -/
def Post.committed (r : Post) (f : FrameNo) (length : Nat) (now : Time) : Post :=
  { r with
    current := some { frame := f, length := length, stamp := now }
    generation := nextGeneration r.generation
    condition := .fresh
    cause := none
    deadline := if r.period = 0#16 then none else some (expiryAfter now r.period)
    inFlight := none }

/-- The status with which an overtaken publication completes (R37). -/
def OvertakeCause.status : OvertakeCause → Status
  | .revoke => .revoked
  | .takeover => .revoked
  | .session => .sessionlost

/-- An overtaken publication ends (R37): its staging frame is released and nothing is committed. -/
def State.dropPublication (s : State) (n : Port) (x : Publication) (c : OvertakeCause) : State :=
  (s.setPool (s.pool.release x.frame)).completeCommand n c.status []

/-- A publication fails (R32): the post's field goes, the staging frame is released, the answer is ARRAYFAULT. -/
def State.failPublication (s : State) (n : Port) (x : Publication) : State :=
  let s := s.setPost x.post (s.posts[x.post].map fun r => { r with inFlight := none })
  (s.setPool (s.pool.release x.frame)).completeCommand n .arrayfault []

/-- The commit (R33) and what it hands on, in the order of R34: the release of the former frame, the UPDATE notice,
the DELIVERED completions, the response. A live publication's post is occupied (R27); one whose post is vacant ends as if a
REVOKE had taken it (log 14). -/
def State.commit (s : State) (n : Port) (x : Publication) : State :=
  match s.posts[x.post] with
  | none => s.dropPublication n x .revoke
  | some r =>
    let g := nextGeneration r.generation
    let s := s.setPost x.post (some (r.committed x.frame x.payload.length s.now))
    let s := s.setPool (s.pool.releaseCurrent r.current)
    let s := s.notify (.update x.post r.key g 1) r.key .updates (some n) none
    let s := s.completeAsks (fun e => decide (e.post = x.post)) (.delivered g)
    s.completeCommand n .ok (be16 g)

/-- The write completion of the publication `x` of port `n` (R31): the suspect flag first, then the slot, then the
publication's end. -/
def State.endPublication (s : State) (n : Port) (x : Publication) (good : Bool) : State :=
  let s := s.setPool (s.pool.setSuspect x.frame (!good))
  let s := s.setSlot n none
  match x.overtaken with
  | some c => s.dropPublication n x c
  | none => if good then s.commit n x else s.failPublication n x

end Sys2Proof.Machine
end

