-- ==== Sys2Proof/Machine/Reading.lean ====
section
/-! DEFINITION. READ, SNAPSHOT, READ HELD and RELEASE, and the end of a read (chapter 4). -/

namespace Sys2Proof.Machine

open Sys2Proof

/-- A read is taken (R64, R73): the pin is set, the read record filled, the array read requested. -/
def State.takeRead (s : State) (n : Port) (r : ReadRecord) : State :=
  ((s.setPool (s.pool.addRef r.frame)).setRead n (some r)).requestAccess n .read

/-- READ (R63, R64). -/
def readTaken (n : Port) (p : PostNo) (s : State) : State × Reply :=
  match s.posts[p] with
  | none => (s, .done .nopost [])
  | some r =>
    match r.current with
    | none => (s, .done .nodata [])
    | some c =>
      (s.takeRead n
        { kind := .post r.binding r.condition, post := p, key := r.key, frame := c.frame, generation := r.generation,
          length := c.length, phase := .waiting, pin := true, cutOff := false },
       .executing)

/-- The lowest-numbered unused hold entry (R71). -/
def lowestUnused (t : Vector (Option Hold) 8) : Option HoldNo := allHolds.find? fun h => t[h].isNone

/-- A hold table with the pool, and the outcome bytes so far: what a SNAPSHOT works on. -/
structure SnapDesk where
  table : Vector (Option Hold) 8
  pool  : Pool
  out   : List Byte
  deriving DecidableEq, Repr

/-- One listed post of a SNAPSHOT (R71): NOPOST, NODATA, or a hold in the lowest unused entry. -/
def snapshotPost (posts : Vector (Option Post) 64) (d : SnapDesk) (p : PostNo) : SnapDesk :=
  match posts[p] with
  | none => { d with out := d.out ++ [postByte p, Status.nopost.code, 0xFF#8, 0x00#8, 0x00#8, 0xFF#8] }
  | some r =>
    match r.current, lowestUnused d.table with
    | some c, some h =>
      { table := put d.table h (some
          { post := p, key := r.key, frame := c.frame, generation := r.generation, length := c.length,
            condition := r.condition })
        pool := d.pool.addRef c.frame
        out := d.out ++ [postByte p, Status.ok.code, byteOf h.val] ++ be16 r.generation ++ [r.condition.code] }
    | _, _ => { d with out := d.out ++ [postByte p, Status.nodata.code, 0xFF#8, 0x00#8, 0x00#8, 0xFF#8] }

/-- The whole list of a SNAPSHOT, in the order the host gave it. -/
def snapshotPosts (posts : Vector (Option Post) 64) (ps : List PostNo) (d : SnapDesk) : SnapDesk :=
  ps.foldl (snapshotPost posts) d

/-- Unused entries of a hold table (R70). -/
def unusedHolds (t : Vector (Option Hold) 8) : Nat := (t.toList.filter Option.isNone).length

/-- SNAPSHOT (R70, R71). -/
def snapshotTaken (n : Port) (ps : List PostNo) (s : State) : State × Reply :=
  if unusedHolds s.holds[n] < ps.length then (s, .done .holdsfull [])
  else
    let d := snapshotPosts s.posts ps { table := s.holds[n], pool := s.pool, out := [] }
    ((s.setPool d.pool).setHolds n d.table, .done .ok d.out)

/-- READ HELD (R73). -/
def readHeldTaken (n : Port) (h : HoldNo) (s : State) : State × Reply :=
  match s.holds[n][h] with
  | none => (s, .done .nohold [])
  | some x =>
    (s.takeRead n
      { kind := .held h, post := x.post, key := x.key, frame := x.frame, generation := x.generation,
        length := x.length, phase := .waiting, pin := true, cutOff := false },
     .executing)

/-- A hold table with the pool, and the mask of the holds released so far: what a RELEASE works on. -/
structure ReleaseDesk where
  table : Vector (Option Hold) 8
  pool  : Pool
  mask  : Byte
  deriving DecidableEq, Repr

/-- One hold number of a RELEASE (R75). -/
def releaseHold (mask : Byte) (d : ReleaseDesk) (h : HoldNo) : ReleaseDesk :=
  match d.table[h] with
  | some x =>
    if mask.getLsbD h.val then
      { table := put d.table h none, pool := d.pool.release x.frame, mask := d.mask ||| (1#8 <<< h.val) }
    else d
  | none => d

/-- The flagged holds in use, in ascending order of hold number (R75). -/
def releaseHolds (mask : Byte) (d : ReleaseDesk) : ReleaseDesk := allHolds.foldl (releaseHold mask) d

/-- RELEASE (R75). -/
def releaseTaken (n : Port) (mask : Byte) (s : State) : State × Reply :=
  let d := releaseHolds mask { table := s.holds[n], pool := s.pool, mask := 0#8 }
  ((s.setPool d.pool).setHolds n d.table, .done .ok [d.mask])

/-- The generation of the hold's post as the post table holds it, 0 when the post has gone or has another key
(R74). -/
def State.presentGeneration (s : State) (p : PostNo) (k : Half) : Half :=
  match s.posts[p] with
  | some r => if r.key = k then r.generation else 0#16
  | none => 0#16

/-- The condition recorded in a hold, as its code (R74). -/
def State.heldCondition (s : State) (n : Port) (h : HoldNo) : Byte :=
  match s.holds[n][h] with
  | some x => x.condition.code
  | none => 0xFF#8

/-- The result of a READ or READ HELD (R66, R67, R74, R164): `payload` is the payload of an OK answer, absent in a
DAMAGED one. -/
def State.readResult (s : State) (n : Port) (r : ReadRecord) (payload : Option (List Byte)) : List Byte :=
  match r.kind with
  | .post b c =>
    match payload with
    | some bytes =>
      [postByte r.post] ++ be16 r.key ++ be16 r.generation ++ [b.code, c.code, byteOf r.length] ++ bytes
    | none => [postByte r.post] ++ be16 r.key ++ be16 r.generation ++ [byteOf r.length]
  | .held h =>
    [byteOf h.val, postByte r.post] ++ be16 r.key ++ be16 r.generation ++
      be16 (s.presentGeneration r.post r.key) ++ [byteOf r.length, s.heldCondition n h] ++ payload.getD []

/-- The read completion of the record `r` of port `n` (R65, R74, R77): `row` is the row as read and `good` the
array's outcome. -/
def State.endRead (s : State) (n : Port) (r : ReadRecord) (row : List Byte) (good : Bool) : State :=
  if r.cutOff then (s.setRead n none).completeCommand n .sessionlost []
  else
    let was := s.pool.frames[r.frame].suspect
    let s := s.setRead n (some { r with phase := .answering })
    let s := if good then s else s.setPool (s.pool.setSuspect r.frame true)
    if was || !good then
      let s := s.damageRequest r.post r.frame (if was then .lapse else .check)
      s.completeCommand n .damaged (s.readResult n r none)
    else s.completeCommand n .ok (s.readResult n r (some (row.take r.length)))

end Sys2Proof.Machine
end

