-- ==== Sys2Proof/Machine/Array.lean ====
section
/-! DEFINITION. The storage array, its arbiter, the refresh controller and the time base (chapter 8). -/

namespace Sys2Proof.Machine

open Sys2Proof

/-! ### The arbiter (R138) -/

/-- The first waiting port in cyclic order from the port after the last one granted, with its request. -/
def Arbiter.nextPort (x : Arbiter) : Option (Port × PortRequest) :=
  [x.lastGranted + 1, x.lastGranted + 2, x.lastGranted + 3, x.lastGranted].findSome? fun n =>
    (x.places[n]).map fun k => (n, k)

/-- The publication of a port whose write is granted is WRITING (R30). -/
def Publication.granted (x : Publication) : Publication := { x with phase := .writing }

/-- The read of a port whose read is granted is READING (R65). -/
def ReadRecord.granted (x : ReadRecord) : ReadRecord := { x with phase := .reading }

/-- The array is granted to port `n` for its request `k` (R138): its place is emptied and it is the last port
granted. -/
def State.grantPort (s : State) (n : Port) (k : PortRequest) : State :=
  let s := s.setArbiter { s.arbiter with places := put s.arbiter.places n none, lastGranted := n }
  match k with
  | .write =>
    (s.setArray { s.array with access := some (.write n) }).setSlot n (s.slots[n].map Publication.granted)
  | .read => (s.setArray { s.array with access := some (.read n) }).setRead n (s.reads[n].map ReadRecord.granted)

/-- The array is granted to the refresh controller, for the row at the pointer (R137, R138). -/
def State.grantRefresh (s : State) : State :=
  s.setArray { s.array with access := some (.refresh s.refresh.pointer) }

/-- The arbiter's choice among the requests that wait (R138). -/
def State.grant (s : State) : State :=
  if Config.forcedDebt ≤ s.refresh.debt ∧ s.arbiter.refreshPlace then s.grantRefresh
  else
    match s.arbiter.nextPort with
    | some (n, k) => s.grantPort n k
    | none => if s.arbiter.refreshPlace then s.grantRefresh else s

/-! ### Completions (R136) -/

/-- The access ends and the array is free again. -/
def State.freeArray (s : State) : State := s.setArray { s.array with access := none }

/-- A write access of port `n` ends (R136): the row is written, read back and compared; GOOD when the two agree. -/
def State.completeWrite (s : State) (n : Port) (disturb : List Byte) : State :=
  let s := s.freeArray
  match s.slots[n] with
  | none => s
  | some x =>
    let row := rowOf x.post x.payload
    let back := disturbed row disturb
    let s := s.setArray { s.array with mem := Memory.writeAll (rowAddress x.frame) back s.array.mem }
    s.endPublication n x (decide (back = row))

/-- A read access of port `n` ends (R136): GOOD when check word, stored length and stored post number all agree with
what was read and recorded. -/
def State.completeRead (s : State) (n : Port) (disturb : List Byte) : State :=
  let s := s.freeArray
  match s.reads[n] with
  | none => s
  | some r =>
    let row := disturbed (readRow s.epoch r.frame s.array.mem) disturb
    s.endRead n r row (rowAgrees row r.length r.post)

/-- A refresh access ends (R143): the pointer advances, 95 being followed by 0, and the debt falls by one unless it
is 0; at 0 the refresh request goes. -/
def State.completeRefresh (s : State) : State :=
  let s := s.freeArray
  let debt := s.refresh.debt - 1
  (s.setRefresh { s.refresh with pointer := s.refresh.pointer + 1, debt := debt }).setArbiter
    { s.arbiter with refreshPlace := decide (debt ≠ 0) && s.arbiter.refreshPlace }

/-! ### Ticks, lapses and milliseconds (R141, R144, R146) -/

/-- An expiry of the last millisecond boundary is still to be taken: an armed timer stands at its expiry time (R146). -/
def State.expiryOutstanding (s : State) : Bool :=
  allPosts.any (fun p => (s.posts[p].bind Post.deadline).any fun e => reached e s.now) ||
    s.requests.pending.any (fun a => a.expired s.now) ||
    allPorts.any (fun n => s.attached n && s.sessions[n].timer.any fun e => reached e s.now)

/-- The time base counts a tick towards the next millisecond boundary (R146, log 10). -/
def TimeBase.tick (x : TimeBase) : TimeBase :=
  if x.tickOwed then { x with tickOwed := false } else { x with phase := x.phase + 1 }

/-- A tick that finds the debt below 8 (R141): the debt rises by one, and the refresh request stands. -/
def State.raiseDebt (s : State) : State :=
  (s.setRefresh { s.refresh with debt := s.refresh.debt + 1 }).setArbiter { s.arbiter with refreshPlace := true }

/-- The lapse (R144): frames in use suspect, posts damaged, the lapse counted, LAPSE to every attached port, the debt
0 and the refresh request gone. -/
def State.doLapse (s : State) : State :=
  let count := min (s.refresh.lapseCount + 1) Config.maxLapseCount
  let s := s.setPool s.pool.suspectAll
  let s := s.setPosts (mapTable (Option.map Post.lapsed) s.posts)
  let s := s.notifyAttached (.lapse count)
  (s.setRefresh { s.refresh with debt := 0, lapseCount := count }).setArbiter
    { s.arbiter with refreshPlace := false }

/-- A refresh tick (R141): the time base counts it, and the refresh controller raises the debt or lapses. -/
def State.refreshTick (s : State) : State :=
  let s := s.setTime s.time.tick
  if s.refresh.debt < Config.lapseDebt then s.raiseDebt else s.doLapse

/-- A refresh tick comes: the sixteenth of a millisecond whose boundary has just been taken, or else one with that
boundary's expiries all taken and the boundary of sixteen ticks not outstanding (R146, logs 10 and 11). No tick comes
during device reset (R147). -/
def State.tickComes (s : State) : Bool :=
  !s.inDeviceReset &&
    (s.time.tickOwed || (decide (s.time.phase < Config.ticksPerMillisecond) && !s.expiryOutstanding))

/-- A millisecond boundary is due: sixteen ticks have come since the last one, or fifteen and the sixteenth falls at
this very moment (R146, log 10). -/
def TimeBase.boundaryDue (x : TimeBase) : Bool := !x.tickOwed && decide (Config.ticksPerMillisecond ≤ x.phase + 1)

/-- The millisecond boundary comes: it is due, and no expiry of the last one is still to be taken (R146, logs 10 and
11). None comes during device reset (R147). -/
def State.boundaryComes (s : State) : Bool := !s.inDeviceReset && s.time.boundaryDue && !s.expiryOutstanding

/-- Device time rises by one (R146); FFFFFFFFh is followed by 0. -/
def TimeBase.advance (x : TimeBase) : TimeBase :=
  { x with
    deviceTime := x.deviceTime + 1#32
    phase := x.phase - Config.ticksPerMillisecond
    tickOwed := decide (x.phase < Config.ticksPerMillisecond) }

/-- The millisecond boundary (R146). -/
def State.millisecond (s : State) : State := s.setTime s.time.advance

/-! ### Device reset (R147, R160) -/

/-- The part enters device reset: every block returns to its initial state; the inputs and the queue of commands are
not the part's. -/
def State.enterReset (s : State) : State :=
  State.afterDeviceReset s.pins s.time.division (s.epoch + 1) s.pending

/-- Device reset is released: device time and the tick start from 0, and the straps' value selects the division
(R146, R147). -/
def State.leaveReset (s : State) : State :=
  s.setTime { deviceTime := 0#32, phase := 0, tickOwed := false, division := Config.division s.pins.clksel }

end Sys2Proof.Machine
end

