-- ==== Sys2Proof/Machine/Notices.lean ====
section
/-! DEFINITION. FILTER SET, FILTER CLEAR and TAKE (chapter 5), POOL STATUS and SET POOL MARK (chapter 3). -/

namespace Sys2Proof.Machine

open Sys2Proof

/-- FILTER SET (R82). -/
def filterSetTaken (n : Port) (i : FilterNo) (f : Filter) (s : State) : State × Reply :=
  (s.setFilters n (put s.filters[n] i (some f)), .done .ok [])

/-- FILTER CLEAR (R83): one filter, or all eight. -/
def filterClearTaken (n : Port) (i : Option FilterNo) (s : State) : State × Reply :=
  match i with
  | some i => (s.setFilters n (put s.filters[n] i none), .done .ok [])
  | none => (s.setFilters n (Vector.replicate 8 none), .done .ok [])

/-- TAKE (R93): the removal, then the round of R110; the attention line is set from the length left after both. -/
def takeTaken (n : Port) (count : Nat) (s : State) : State × Reply :=
  let taken := s.queues[n].takeOldest count
  let round := deliverRound (s.requests.undeliveredOf n) (s.queues[n].dropOldest count)
  ((s.setRequests
      { s.requests with
        undelivered := s.requests.undelivered.filter
          (fun e => !(decide (e.requester = n) && decide (e.ticket ∈ round.2))) }).setQueues
      (put s.queues n round.1),
   .done .ok (byteOf taken.length :: taken.flatten))

/-- POOL STATUS (R59): it changes nothing. -/
def poolStatusTaken (s : State) : State × Reply :=
  (s, .done .ok
    [byteOf s.pool.free.length, byteOf s.pool.mark, flagByte s.pool.armed, byteOf s.refresh.debt,
     byteOf s.refresh.pointer.val, byteOf s.refresh.lapseCount])

/-- SET POOL MARK (R57): the mark takes the new value and the notice is armed. -/
def setPoolMarkTaken (mark : Nat) (s : State) : State × Reply :=
  (s.setPool { s.pool with mark := mark, armed := true }, .done .ok [])

end Sys2Proof.Machine
end

