-- ==== Sys2Proof/Machine/Posts.lean ====
section
/-! DEFINITION. What DECLARE, WITHDRAW and DESCRIBE do when they are taken (chapter 1), and the freshness expiry. -/

namespace Sys2Proof.Machine

open Sys2Proof

/-- The record that DECLARE gives a post (R13). -/
def declaredPost (n : Port) (key : Half) (capacity : Nat) (period : Half) (mode : AnswerMode) : Post :=
  { key := key, binding := .bound n, condition := .empty, cause := none, generation := 0#16, current := none,
    capacity := capacity, period := period, deadline := none, mode := mode, inFlight := none }

/-- The post that DECLARE chooses (R12, R13), or the refusal: BADSTATE for a named post that is occupied, NOPOSTFREE
for ANY with no vacant post. -/
def declareChoice (posts : Vector (Option Post) 64) : Selector → Except Status PostNo
  | .post p => if posts[p].isNone then .ok p else .error .badstate
  | .any => match lowestVacant posts with
    | some p => .ok p
    | none => .error .nopostfree

/-- DECLARE (R12, R13). -/
def declareTaken (n : Port) (sel : Selector) (key : Half) (capacity : Nat) (period : Half) (mode : AnswerMode)
    (s : State) : State × Reply :=
  match findKey s.posts key with
  | some q => (s, .done .keyinuse [postByte q])
  | none =>
    match declareChoice s.posts sel with
    | .error e => (s, .done e [])
    | .ok p =>
      ((s.setPost p (some (declaredPost n key capacity period mode))).notify (.appeared p key n) key .lifecycle
          (some n) none,
        .done .ok [postByte p])

/-- WITHDRAW (R15). -/
def withdrawTaken (n : Port) (p : PostNo) (s : State) : State × Reply :=
  match s.posts[p] with
  | none => (s, .done .nopost [])
  | some r =>
    if r.boundTo n then (s.vacate p r .producer n, .done .ok []) else (s, .done .notproducer [])

/-- The DESCRIBE record of an occupied post (R19, R164). -/
def State.describePost (s : State) (p : PostNo) (r : Post) : List Byte :=
  [postByte p, 0x01#8] ++ be16 r.key ++
    [r.binding.code, r.condition.code, (match r.cause with | some c => c.code | none => 0x00#8)] ++
    be16 r.generation ++
    (match r.current with
     | some c => [byteOf c.frame.val, byteOf c.length, byteOf r.capacity] ++ be32 c.stamp ++ be32 (age s.now c.stamp)
     | none => [0xFF#8, 0x00#8, byteOf r.capacity] ++ be32 0#32 ++ be32 0#32) ++
    be16 r.period ++ [r.mode.code] ++
    (match r.deadline with | some e => be32 (remaining e s.now) | none => be32 0#32) ++
    [(match r.inFlight with | some i => portByte i.port | none => 0xFF#8),
     byteOf (s.requests.pendingOn p).length]

/-- The DESCRIBE record of a VACANT post (R18, R164). -/
def describeVacant (p : PostNo) : List Byte :=
  [postByte p, 0x00#8, 0x00#8, 0x00#8, 0xFF#8, 0xFF#8, 0x00#8, 0x00#8, 0x00#8, 0xFF#8, 0x00#8, 0x00#8] ++
    be32 0#32 ++ be32 0#32 ++ be16 0#16 ++ [0xFF#8] ++ be32 0#32 ++ [0xFF#8, 0x00#8]

/-- The DESCRIBE record of post `p` as it stands. -/
def State.describeBytes (s : State) (p : PostNo) : List Byte :=
  match s.posts[p] with
  | some r => s.describePost p r
  | none => describeVacant p

/-- DESCRIBE (R18, R19): it changes nothing. -/
def describeTaken (name : PostName) (s : State) : State × Reply :=
  match name with
  | .number p => (s, .done .ok (s.describeBytes p))
  | .key k =>
    match findKey s.posts k with
    | some p => (s, .done .ok (s.describeBytes p))
    | none => (s, .done .nopost [])

/-- A post's freshness deadline expires (R11): the post becomes STALE, and the STALE notice goes to the LIFECYCLE
subscribers and to the producer. -/
def State.expireFreshness (s : State) (p : PostNo) : State :=
  match s.posts[p] with
  | none => s
  | some r =>
    match r.deadline with
    | none => s
    | some e =>
      if reached e s.now then
        (s.setPost p (some { r with condition := .stale, deadline := none })).notify (.stale p r.key) r.key .lifecycle
          none r.binding.boundPort
      else s

end Sys2Proof.Machine
end

