-- ==== Sys2Proof/Machine/Sessions.lean ====
section
/-! DEFINITION. What the session commands do when they are taken: ATTACH, DETACH, PING, STATUS (chapter 7, R158), and
ADOPT, TAKEOVER and REVOKE, which act on a post (R128 to R133). The session and role checks come before
(R120, R154). -/

namespace Sys2Proof.Machine

open Sys2Proof

/-- ATTACH (R117 to R119): the SUPn strap is read when the supervisor role is asked for. -/
def attachTaken (n : Port) (role : Role) (lease : Half) (threshold : Nat) (s : State) : State × Reply :=
  if role = .supervisor ∧ s.pins.sup[n] = false then (s, .done .notpermitted [])
  else
    (s.setSession n
      { state := .attached, role := role, lease := lease, threshold := threshold,
        timer := if lease = 0#16 then none else some (expiryAfter s.now lease) },
     .done .ok [portByte n, flagByte (s.attached n)])

/-- DETACH (R124). -/
def detachTaken (n : Port) (s : State) : State × Reply := (s.detachPort n .detach, .done .ok [])

/-- PING (R123). -/
def pingTaken (n : Port) (s : State) : State × Reply :=
  if s.attached n then
    (s, .done .ok ([SessionState.attached.code, s.sessions[n].role.code] ++ be16 s.sessions[n].lease))
  else (s, .done .ok [SessionState.detached.code])

/-- Lease remaining (R116), in the two bytes of the STATUS result: 0000h when the timer is not armed (R164). -/
def State.leaseRemaining (s : State) (n : Port) : Half :=
  match s.sessions[n].timer with
  | some e => (remaining e s.now).truncate 16
  | none => 0#16

/-- Holds in use of a table (R158). -/
def holdsInUse (t : Vector (Option Hold) 8) : Nat := (t.toList.filter Option.isSome).length

/-- The STATUS result (R158, R164). -/
def State.statusBytes (s : State) (n : Port) : List Byte :=
  let x := s.sessions[n]
  [x.state.code, x.role.code] ++ be16 (s.leaseRemaining n) ++
    [byteOf x.threshold, byteOf s.queues[n].length] ++ be16 (BitVec.ofNat 16 s.queues[n].lostCount) ++
    [byteOf (holdsInUse s.holds[n]), byteOf (s.requests.pendingOf n).length,
     byteOf (s.requests.undeliveredOf n).length] ++
    (match s.ports[n].lastAbandoned with
     | some c => [0x01#8, c.tag, c.code]
     | none => [0x00#8, 0x00#8, 0x00#8])

/-- STATUS (R158): it changes nothing. -/
def statusTaken (n : Port) (s : State) : State × Reply := (s, .done .ok (s.statusBytes n))

/-- ADOPT (R128). -/
def adoptTaken (n : Port) (p : PostNo) (s : State) : State × Reply :=
  match s.posts[p] with
  | none => (s, .done .nopost [])
  | some r =>
    match r.binding with
    | .bound _ => (s, .done .badstate [])
    | .orphaned former =>
      ((s.setPost p (some { r with binding := .bound n })).notify (.adopted p r.key n .adopt) r.key .lifecycle
          (some n) none,
        .done .ok ([portByte former] ++ be16 r.generation ++ [r.condition.code]))

/-- The SOLICIT of a TAKEOVER to the new producer `n` (R112): one, if PENDING entries on the post remain, naming the
oldest ticket and counting them. -/
def State.resolicit (s : State) (n : Port) (p : PostNo) (k : Half) : State :=
  match s.requests.pendingOn p with
  | [] => s
  | e :: es => s.notifyPort n (.solicit p k e.ticket (e :: es).length)

/-- TAKEOVER (R130, R131). -/
def takeoverTaken (n : Port) (p : PostNo) (s : State) : State × Reply :=
  match s.posts[p] with
  | none => (s, .done .nopost [])
  | some r =>
    match r.binding with
    | .orphaned _ => (s, .done .badstate [])
    | .bound q =>
      if q = n then (s, .done .badstate [])
      else
        let t := s.setPost p (some
          { r with binding := .bound n, condition := r.condition.demoted, deadline := none, inFlight := none })
        let t := t.overtakeInFlight r.inFlight .takeover
        let t := t.notify (.adopted p r.key n .takeover) r.key .lifecycle (some n) (some q)
        let t := t.purgeSolicit q p
        (t.resolicit n p r.key, .done .ok ([portByte q] ++ be16 r.generation))

/-- REVOKE (R133). -/
def revokeTaken (n : Port) (p : PostNo) (s : State) : State × Reply :=
  match s.posts[p] with
  | none => (s, .done .nopost [])
  | some r => (s.vacate p r .supervisor n, .done .ok (be16 r.key ++ be16 r.generation))

end Sys2Proof.Machine
end

