-- ==== Sys2Proof/Machine/Transactions.lean ====
section
/-! DEFINITION. The transactions of a host port (chapter 9): the judging of a frame, the taking of a command, the
bytes that are clocked in and out, and the rises and falls of CSn and RSTn. -/

namespace Sys2Proof.Machine

open Sys2Proof

/-- A request that has passed the common acceptance and the role check goes to the block that owns it. -/
def runRequest (n : Port) (r : Request) (s : State) : State × Reply :=
  match r with
  | .attach role lease threshold => attachTaken n role lease threshold s
  | .detach => detachTaken n s
  | .ping => pingTaken n s
  | .status => statusTaken n s
  | .declare sel key capacity period mode => declareTaken n sel key capacity period mode s
  | .withdraw p => withdrawTaken n p s
  | .describe name => describeTaken name s
  | .publish p payload => publishTaken n p payload s
  | .read p => readTaken n p s
  | .snapshot ps => snapshotTaken n ps s
  | .readHeld h => readHeldTaken n h s
  | .release mask => releaseTaken n mask s
  | .ask p maxAge timeout => askTaken n p maxAge timeout s
  | .cancel ticket => cancelTaken n ticket s
  | .filterSet i f => filterSetTaken n i f s
  | .filterClear i => filterClearTaken n i s
  | .take count => takeTaken n count s
  | .adopt p => adoptTaken n p s
  | .takeover p => takeoverTaken n p s
  | .revoke p => revokeTaken n p s
  | .poolStatus => poolStatusTaken s
  | .setPoolMark mark => setPoolMarkTaken mark s

/-- A command of port `n` is taken: BADARG on its arguments alone, NOTATTACHED on the session, NOTPERMITTED on the
role, then the command's own checks (R120, R154). -/
def takeCommand (n : Port) (c : Command) (args : List Byte) (s : State) : State × Reply :=
  match parseRequest c args with
  | none => (s, .done .badarg [])
  | some r =>
    if r.needsSession && !s.attached n then (s, .done .notattached [])
    else if r.needsSupervisor && decide (s.sessions[n].role ≠ .supervisor) then (s, .done .notpermitted [])
    else runRequest n r s

/-- A good request is judged (R154, steps 2 to 4): the lease report first, then BADCMD, BUSY, or the taking. -/
def State.judgeGood (s : State) (n : Port) (code tag : Byte) (args : List Byte) : State :=
  let s := s.renewLease n
  match Command.ofCode code with
  | none => s.answerUntaken n .badcmd tag
  | some c =>
    if s.ports[n].outstanding.isSome then s.answerUntaken n .busy tag
    else
      let r := takeCommand n c args s
      r.1.afterTaking n { tag := tag, code := code } r.2

/-- A complete frame is judged (R151, R154): BADFRAME above 72 argument bytes, BADCHECK on a wrong CRC. -/
def State.judge (s : State) (n : Port) (frame : List Byte) : State :=
  match frame with
  | code :: tag :: len :: rest =>
    if Config.maxArgumentLength < len.toNat then s.answerUntaken n .badframe tag
    else
      let args := rest.take len.toNat
      if rest.drop len.toNat = be16 (crc16 (code :: tag :: len :: args)) then s.judgeGood n code tag args
      else s.answerUntaken n .badcheck tag
  | _ => s

/-- The bytes still expected after `b` has been taken in with `x` (R148, R150, R151): once the length byte L is in,
L + 2 bytes follow. -/
def PortInterface.expectedAfter (x : PortInterface) (b : Byte) : Nat :=
  if x.rx.length = 2 then b.toNat + 2 else x.expected - 1

/-- A byte of a request is taken in; the frame's last one has it judged (R150, R154). -/
def State.takeInByte (s : State) (n : Port) (b : Byte) : State :=
  let x := s.ports[n]
  if x.expectedAfter b = 0 then (s.setPort n { x with rx := [], expected := 0 }).judge n (x.rx ++ [b])
  else s.setPort n { x with rx := x.rx ++ [b], expected := x.expectedAfter b }

/-- A byte of READY and the response frame is shifted out (R155); with the last CRC byte the response is finished
with, and after it only filler follows. -/
def State.shiftOutByte (s : State) (n : Port) : State :=
  let x := s.ports[n]
  match x.response with
  | none => s
  | some h =>
    if h.clocked < h.frame.length then s.setPort n { x with response := some { h with clocked := h.clocked + 1 } }
    else s.finishResponse n

/-- The byte that the part shifts out on SDOn with the next eight clocks (R150, R155, R157, R161). -/
def State.sdoByte (s : State) (n : Port) : Byte :=
  let x := s.ports[n]
  if x.isReceiving then fillerByte
  else if x.isAnswering then
    match x.response with
    | some h => (readyByte :: h.frame).getD h.clocked fillerByte
    | none => fillerByte
  else if x.state = .executing then pendingByte
  else fillerByte

/-- Eight clocks on port `n` (R150, R155): the byte `b` is shifted in, and taken in while a request is received; while
an answer is shifted out, one byte of it goes. In every other state the byte is ignored. -/
def State.clockByte (n : Port) (s : State) (b : Byte) : State :=
  if s.selected n then
    if s.ports[n].isReceiving then s.takeInByte n b
    else if s.ports[n].isAnswering then s.shiftOutByte n
    else s
  else s

/-- Bytes clocked one after another. -/
def State.clockBytes (s : State) (n : Port) (bs : List Byte) : State := bs.foldl (State.clockByte n) s

/-- The request frame of a command arrives on port `n`, byte by byte, with a good CRC. -/
def State.arriveRequest (s : State) (n : Port) (c : Command) (tag : Byte) (args : List Byte) : State :=
  s.clockBytes n (requestFrame c.code tag args)

/-! ### CSn (R150, R152, R156, R157) -/

/-- A fall of CSn begins a transaction on an IDLE port and a side transaction on a DRAINING one. The shortest frame
has 5 bytes (log 18). -/
def PortInterface.fall (x : PortInterface) : PortInterface :=
  match x.state with
  | .idle => { x with state := .receiving, rx := [], expected := 5 }
  | .draining => { x with side := .receiving, rx := [], expected := 5 }
  | _ => x

/-- CSn falls. During device reset, or with RSTn low, only the level changes (R159, R160). -/
def State.csFalls (s : State) (n : Port) : State :=
  let t := s.setPins { s.pins with cs := put s.pins.cs n false }
  if t.selected n then t.setPort n t.ports[n].fall else t

/-- The rise of CSn on the interface (R152, R156, R157). In RESPONDING an unfinished response is abandoned: it is
recorded if it was that of a taken command, and finished with. -/
def State.endTransaction (s : State) (n : Port) : State :=
  let x := s.ports[n]
  match x.state with
  | .idle => s
  | .receiving => s.setPort n { x with state := .idle, rx := [], expected := 0 }
  | .executing =>
    s.setPort n { x with state := .draining, side := .none, discard := true, lastAbandoned := x.outstanding }
  | .responding =>
    let record := match x.response with
      | some h => (match h.command with | some c => some c | none => x.lastAbandoned)
      | none => x.lastAbandoned
    (s.setPort n { x with state := .idle, lastAbandoned := record }).finishResponse n
  | .draining => s.setPort n { x with side := .none, rx := [], expected := 0, response := none }

/-- CSn rises. -/
def State.csRises (s : State) (n : Port) : State :=
  let t := s.setPins { s.pins with cs := put s.pins.cs n true }
  if s.selected n then t.endTransaction n else t

/-! ### RSTn (R125, R159) -/

/-- The port interface is reset (R159): the response held is discarded, and finished with for the reading unit. -/
def State.resetInterface (s : State) (n : Port) : State :=
  let s := s.finishResponse n
  let x := s.ports[n]
  s.setPort n
    { x with
      state := if x.outstanding.isSome then .draining else .idle
      side := .none
      rx := []
      expected := 0
      discard := x.outstanding.isSome
      lastAbandoned := none }

/-- RSTn goes low (R125, R159): an ATTACHED port detaches with cause PORTRESET, and the interface is reset. During
device reset it has no effect but the level (R160). -/
def State.rstFalls (s : State) (n : Port) : State :=
  let t := s.setPins { s.pins with rst := put s.pins.rst n false }
  if t.inDeviceReset then t
  else (if t.attached n then t.detachPort n .portreset else t).resetInterface n

end Sys2Proof.Machine
end

