-- ==== Sys2Proof/Machine/Commands.lean ====
section
/-! DEFINITION. The meanings of the 22 host commands and of the two requests that take nothing. Each is the arrival
of the row's frame on its port; what the command does when it is taken stands in the family files under the name
<command>Taken, which `runRequest` calls. -/

namespace Sys2Proof.Machine

open Sys2Proof

/-- ATTACH (R117 to R119): the event finds the SUPn strap at the level `sup` (log 2). -/
def execAttach (n : Port) (tag : Byte) (args : List Byte) (sup : Bool) (s : State) :
    Host.Outcome State Fault Refusal :=
  .next ((s.setPins { s.pins with sup := put s.pins.sup n sup }).arriveRequest n .attach tag args)

/-- DETACH (R124). -/
def execDetach (n : Port) (tag : Byte) (args : List Byte) (s : State) : Host.Outcome State Fault Refusal :=
  .next (s.arriveRequest n .detach tag args)

/-- PING (R123). -/
def execPing (n : Port) (tag : Byte) (args : List Byte) (s : State) : Host.Outcome State Fault Refusal :=
  .next (s.arriveRequest n .ping tag args)

/-- STATUS (R158). -/
def execStatus (n : Port) (tag : Byte) (args : List Byte) (s : State) : Host.Outcome State Fault Refusal :=
  .next (s.arriveRequest n .status tag args)

/-- DECLARE (R12, R13). -/
def execDeclare (n : Port) (tag : Byte) (args : List Byte) (s : State) : Host.Outcome State Fault Refusal :=
  .next (s.arriveRequest n .declare tag args)

/-- WITHDRAW (R15). -/
def execWithdraw (n : Port) (tag : Byte) (args : List Byte) (s : State) : Host.Outcome State Fault Refusal :=
  .next (s.arriveRequest n .withdraw tag args)

/-- DESCRIBE (R18, R19). -/
def execDescribe (n : Port) (tag : Byte) (args : List Byte) (s : State) : Host.Outcome State Fault Refusal :=
  .next (s.arriveRequest n .describe tag args)

/-- PUBLISH (R28, R29). -/
def execPublish (n : Port) (tag : Byte) (args : List Byte) (s : State) : Host.Outcome State Fault Refusal :=
  .next (s.arriveRequest n .publish tag args)

/-- READ (R63, R64). -/
def execRead (n : Port) (tag : Byte) (args : List Byte) (s : State) : Host.Outcome State Fault Refusal :=
  .next (s.arriveRequest n .read tag args)

/-- SNAPSHOT (R70, R71). -/
def execSnapshot (n : Port) (tag : Byte) (args : List Byte) (s : State) : Host.Outcome State Fault Refusal :=
  .next (s.arriveRequest n .snapshot tag args)

/-- READ HELD (R73). -/
def execReadHeld (n : Port) (tag : Byte) (args : List Byte) (s : State) : Host.Outcome State Fault Refusal :=
  .next (s.arriveRequest n .readHeld tag args)

/-- RELEASE (R75). -/
def execRelease (n : Port) (tag : Byte) (args : List Byte) (s : State) : Host.Outcome State Fault Refusal :=
  .next (s.arriveRequest n .release tag args)

/-- ASK (R101 to R103). -/
def execAsk (n : Port) (tag : Byte) (args : List Byte) (s : State) : Host.Outcome State Fault Refusal :=
  .next (s.arriveRequest n .ask tag args)

/-- CANCEL (R111). -/
def execCancel (n : Port) (tag : Byte) (args : List Byte) (s : State) : Host.Outcome State Fault Refusal :=
  .next (s.arriveRequest n .cancel tag args)

/-- FILTER SET (R82). -/
def execFilterSet (n : Port) (tag : Byte) (args : List Byte) (s : State) : Host.Outcome State Fault Refusal :=
  .next (s.arriveRequest n .filterSet tag args)

/-- FILTER CLEAR (R83). -/
def execFilterClear (n : Port) (tag : Byte) (args : List Byte) (s : State) : Host.Outcome State Fault Refusal :=
  .next (s.arriveRequest n .filterClear tag args)

/-- TAKE (R93). -/
def execTake (n : Port) (tag : Byte) (args : List Byte) (s : State) : Host.Outcome State Fault Refusal :=
  .next (s.arriveRequest n .take tag args)

/-- ADOPT (R128). -/
def execAdopt (n : Port) (tag : Byte) (args : List Byte) (s : State) : Host.Outcome State Fault Refusal :=
  .next (s.arriveRequest n .adopt tag args)

/-- TAKEOVER (R130, R131). -/
def execTakeover (n : Port) (tag : Byte) (args : List Byte) (s : State) : Host.Outcome State Fault Refusal :=
  .next (s.arriveRequest n .takeover tag args)

/-- REVOKE (R133). -/
def execRevoke (n : Port) (tag : Byte) (args : List Byte) (s : State) : Host.Outcome State Fault Refusal :=
  .next (s.arriveRequest n .revoke tag args)

/-- POOL STATUS (R59). -/
def execPoolStatus (n : Port) (tag : Byte) (args : List Byte) (s : State) : Host.Outcome State Fault Refusal :=
  .next (s.arriveRequest n .poolStatus tag args)

/-- SET POOL MARK (R57). -/
def execSetPoolMark (n : Port) (tag : Byte) (args : List Byte) (s : State) : Host.Outcome State Fault Refusal :=
  .next (s.arriveRequest n .setPoolMark tag args)

/-- UNTAKEN_REQUEST (R154): the bytes of the frame are clocked in, and the frame is judged (log 6). -/
def execUntakenRequest (n : Port) (bytes : List Byte) (s : State) : Host.Outcome State Fault Refusal :=
  .next (s.clockBytes n bytes)

/-- BADFRAME (R151): the bytes are clocked in, and the request is read on to its end (log 6). -/
def execBadframe (n : Port) (bytes : List Byte) (s : State) : Host.Outcome State Fault Refusal :=
  .next (s.clockBytes n bytes)

end Sys2Proof.Machine
end

