-- ==== Sys2Proof/Machine/Events.lean ====
section
/-! DEFINITION. The meanings of the events: chip selects, the end of a response, resets, the time base, timers, the
arbiter and the completions of the array. An event that cannot occur in the present state changes nothing (log 4). -/

namespace Sys2Proof.Machine

open Sys2Proof

/-- CS_FALL (R150, R157): a fall of a line that is high. -/
def execCsFall (n : Port) (s : State) : Host.Outcome State Fault Refusal :=
  .next (if s.pins.cs[n] then s.csFalls n else s)

/-- CS_RISE (R152, R156, R157): a rise of a line that is low. -/
def execCsRise (n : Port) (s : State) : Host.Outcome State Fault Refusal :=
  .next (if s.pins.cs[n] then s else s.csRises n)

/-- RESPONSE_FINISHED (R155): all the bytes of the response held have been shifted out. -/
def execResponseFinished (n : Port) (s : State) : Host.Outcome State Fault Refusal :=
  .next (if s.selected n && s.ports[n].isAnswering then s.finishResponse n else s)

/-- PORT_RESET (R125, R159): RSTn, which was high, is driven low. -/
def execPortReset (n : Port) (s : State) : Host.Outcome State Fault Refusal :=
  .next (if s.pins.rst[n] then s.rstFalls n else s)

/-- PORT_RESET_RELEASE (R159): RSTn is driven high. The interface answers again in the state it has reached. -/
def execPortResetRelease (n : Port) (s : State) : Host.Outcome State Fault Refusal :=
  .next (s.setPins { s.pins with rst := put s.pins.rst n true })

/-- DEVICE_RESET (R160): nRESET, which was high, is driven low. -/
def execDeviceReset (s : State) : Host.Outcome State Fault Refusal :=
  .next (if s.pins.nReset then (s.setPins { s.pins with nReset := false }).enterReset else s)

/-- DEVICE_RESET_RELEASE (R146, R147): nRESET, which was low, is driven high. The CLKSEL value 3 still holds the
part in reset. -/
def execDeviceResetRelease (s : State) : Host.Outcome State Fault Refusal :=
  .next
    (if s.pins.nReset then s
     else
       let t := s.setPins { s.pins with nReset := true }
       if t.inDeviceReset then t else t.leaveReset)

/-- CLKSEL_CHANGE (R147): a change to 3 enters device reset at once, a change away from 3 with nRESET high releases
it, and any other change has no effect until the next device reset. -/
def execClkselChange (value : Fin 4) (s : State) : Host.Outcome State Fault Refusal :=
  .next
    (let t := s.setPins { s.pins with clksel := value }
     if t.inDeviceReset && !s.inDeviceReset then t.enterReset
     else if !t.inDeviceReset && s.inDeviceReset then t.leaveReset
     else t)

/-- REFRESH_TICK (R141, R146). -/
def execRefreshTick (s : State) : Host.Outcome State Fault Refusal :=
  .next (if s.tickComes then s.refreshTick else s)

/-- LAPSE (R144): the tick that finds the debt at 8. -/
def execLapse (s : State) : Host.Outcome State Fault Refusal :=
  .next (if s.tickComes && decide (Config.lapseDebt ≤ s.refresh.debt) then s.refreshTick else s)

/-- MILLISECOND_BOUNDARY (R146): at the sixteenth tick. -/
def execMillisecondBoundary (s : State) : Host.Outcome State Fault Refusal :=
  .next (if s.boundaryComes then s.millisecond else s)

/-- FRESHNESS_EXPIRY (R11). -/
def execFreshnessExpiry (p : PostNo) (s : State) : Host.Outcome State Fault Refusal :=
  .next (s.expireFreshness p)

/-- ASK_DEADLINE_EXPIRY (R107). -/
def execAskDeadlineExpiry (ticket : Byte) (s : State) : Host.Outcome State Fault Refusal :=
  .next (s.expireAsk ticket)

/-- LEASE_EXPIRY (R122): the armed lease timer of an ATTACHED port expires. -/
def execLeaseExpiry (n : Port) (s : State) : Host.Outcome State Fault Refusal :=
  .next
    (match s.sessions[n].timer with
     | some e => if s.attached n && reached e s.now then s.detachPort n .lease else s
     | none => s)

/-- ARRAY_GRANT (R138): the array is free. -/
def execArrayGrant (s : State) : Host.Outcome State Fault Refusal :=
  .next (if s.array.access.isSome then s else s.grant)

/-- WRITE_COMPLETION (R31, R136): the access in progress is a write. -/
def execWriteCompletion (disturb : List Byte) (s : State) : Host.Outcome State Fault Refusal :=
  .next
    (match s.array.access with
     | some (.write n) => s.completeWrite n disturb
     | _ => s)

/-- READ_COMPLETION (R65, R74, R77, R136): the access in progress is a read. -/
def execReadCompletion (disturb : List Byte) (s : State) : Host.Outcome State Fault Refusal :=
  .next
    (match s.array.access with
     | some (.read n) => s.completeRead n disturb
     | _ => s)

/-- REFRESH_COMPLETION (R143): the access in progress is a refresh. -/
def execRefreshCompletion (s : State) : Host.Outcome State Fault Refusal :=
  .next
    (match s.array.access with
     | some (.refresh _) => s.completeRefresh
     | _ => s)

end Sys2Proof.Machine
end

