-- ==== Sys2Proof/Machine/Dispatch.lean ====
section
/-! DEFINITION. exec: one arm per command, each one direct call of its meaning. -/

namespace Sys2Proof.Machine

open Sys2Proof

def exec (i : Instr) (s : State) : Host.Outcome State Fault Refusal :=
  match i with
  | .attach n tag args sup => Sys2Proof.Machine.execAttach n tag args sup s
  | .detach n tag args => Sys2Proof.Machine.execDetach n tag args s
  | .ping n tag args => Sys2Proof.Machine.execPing n tag args s
  | .status n tag args => Sys2Proof.Machine.execStatus n tag args s
  | .declare n tag args => Sys2Proof.Machine.execDeclare n tag args s
  | .withdraw n tag args => Sys2Proof.Machine.execWithdraw n tag args s
  | .describe n tag args => Sys2Proof.Machine.execDescribe n tag args s
  | .publish n tag args => Sys2Proof.Machine.execPublish n tag args s
  | .read n tag args => Sys2Proof.Machine.execRead n tag args s
  | .snapshot n tag args => Sys2Proof.Machine.execSnapshot n tag args s
  | .readHeld n tag args => Sys2Proof.Machine.execReadHeld n tag args s
  | .release n tag args => Sys2Proof.Machine.execRelease n tag args s
  | .ask n tag args => Sys2Proof.Machine.execAsk n tag args s
  | .cancel n tag args => Sys2Proof.Machine.execCancel n tag args s
  | .filterSet n tag args => Sys2Proof.Machine.execFilterSet n tag args s
  | .filterClear n tag args => Sys2Proof.Machine.execFilterClear n tag args s
  | .take n tag args => Sys2Proof.Machine.execTake n tag args s
  | .adopt n tag args => Sys2Proof.Machine.execAdopt n tag args s
  | .takeover n tag args => Sys2Proof.Machine.execTakeover n tag args s
  | .revoke n tag args => Sys2Proof.Machine.execRevoke n tag args s
  | .poolStatus n tag args => Sys2Proof.Machine.execPoolStatus n tag args s
  | .setPoolMark n tag args => Sys2Proof.Machine.execSetPoolMark n tag args s
  | .untakenRequest n bytes => Sys2Proof.Machine.execUntakenRequest n bytes s
  | .badframe n bytes => Sys2Proof.Machine.execBadframe n bytes s
  | .csFall n => Sys2Proof.Machine.execCsFall n s
  | .csRise n => Sys2Proof.Machine.execCsRise n s
  | .responseFinished n => Sys2Proof.Machine.execResponseFinished n s
  | .portReset n => Sys2Proof.Machine.execPortReset n s
  | .portResetRelease n => Sys2Proof.Machine.execPortResetRelease n s
  | .deviceReset => Sys2Proof.Machine.execDeviceReset s
  | .deviceResetRelease => Sys2Proof.Machine.execDeviceResetRelease s
  | .clkselChange value => Sys2Proof.Machine.execClkselChange value s
  | .refreshTick => Sys2Proof.Machine.execRefreshTick s
  | .lapse => Sys2Proof.Machine.execLapse s
  | .millisecondBoundary => Sys2Proof.Machine.execMillisecondBoundary s
  | .freshnessExpiry p => Sys2Proof.Machine.execFreshnessExpiry p s
  | .askDeadlineExpiry ticket => Sys2Proof.Machine.execAskDeadlineExpiry ticket s
  | .leaseExpiry n => Sys2Proof.Machine.execLeaseExpiry n s
  | .arrayGrant => Sys2Proof.Machine.execArrayGrant s
  | .writeCompletion disturb => Sys2Proof.Machine.execWriteCompletion disturb s
  | .readCompletion disturb => Sys2Proof.Machine.execReadCompletion disturb s
  | .refreshCompletion => Sys2Proof.Machine.execRefreshCompletion s

end Sys2Proof.Machine
end

