-- ==== Sys2Proof/Safety.lean ====
section
/-! DEFINITION. The laws that the spec says its blocks keep, as predicates on a state: what a safe run keeps. -/

namespace Sys2Proof.Machine

open Sys2Proof

/-! ### Posts (R2, R4, R10, R23) -/

/-- The law of one occupied record (R2): EMPTY, generation 0 and no current frame come together, and a damage cause
is present exactly while the condition is DAMAGED (R1). -/
abbrev Post.lawful (r : Post) : Prop :=
  (r.condition = .empty ↔ r.generation = 0#16) ∧ (r.condition = .empty ↔ r.current = none) ∧
    (r.condition = .damaged ↔ r.cause.isSome)

/-- The freshness deadline is armed only while the post is BOUND, FRESH and its period is not 0 (R10). -/
abbrev Post.deadlineLawful (r : Post) : Prop :=
  r.deadline.isSome → r.binding.boundPort.isSome ∧ r.condition = .fresh ∧ r.period ≠ 0#16

/-- Every occupied record keeps R2 and R10. -/
def State.PostsLawful (s : State) : Prop :=
  ∀ (p : PostNo) (r : Post), s.posts[p] = some r → r.lawful ∧ r.deadlineLawful

/-- No two occupied posts have the same key (R4). -/
def State.KeysDistinct (s : State) : Prop :=
  ∀ (p q : PostNo) (r t : Post), s.posts[p] = some r → s.posts[q] = some t → r.key = t.key → p = q

/-- Every occupied post whose binding is BOUND names a port that is ATTACHED (R23). -/
def State.BoundAttached (s : State) : Prop :=
  ∀ (p : PostNo) (r : Post) (n : Port), s.posts[p] = some r → r.binding = .bound n → s.attached n = true

/-! ### Queues and lines (R87, R97) -/

/-- The law of one queue (R87): at most 31 ordinary entries, at most one UPDATE and one SOLICIT per post, and a lost
count of 1 to 65535. -/
def NoticeQueue.Lawful (q : NoticeQueue) : Prop :=
  q.entries.length ≤ Config.ordinaryPlaces ∧
    (∀ p : PostNo, (q.entries.filter (Notice.isUpdateOf p)).length ≤ 1) ∧
    (∀ p : PostNo, (q.entries.filter (Notice.isSolicitOf p)).length ≤ 1) ∧
    (∀ k, q.lost = some k → 1 ≤ k ∧ k ≤ Config.maxLost)

/-- Every queue keeps its law, and the queue of a DETACHED port is empty (R87). -/
def State.QueuesLawful (s : State) : Prop :=
  ∀ n : Port, s.queues[n].Lawful ∧ (s.attached n = false → s.queues[n] = NoticeQueue.empty)

/-- Every ATTNn line stands as its condition gives it (R97). -/
def State.LinesLawful (s : State) : Prop := s.pins.attn = attentionLines s.sessions s.queues

/-! ### Sessions (R116) -/

/-- A DETACHED port holds the detached values, and the lease timer of an ATTACHED port is armed exactly when its
lease period is not 0 (R116). -/
def Session.Lawful (x : Session) : Prop :=
  (x.state = .detached → x = Session.detachedValues) ∧
    (x.state = .attached → (x.timer.isSome ↔ x.lease ≠ 0#16)) ∧ 1 ≤ x.threshold ∧ x.threshold ≤ 31

/-- Every session record keeps R116. -/
def State.SessionsLawful (s : State) : Prop := ∀ n : Port, s.sessions[n].Lawful

/-! ### The time base and the timers (R146) -/

/-- The expiry of a timer is still to be taken: the freshness deadline of a post, the deadline of an ask ("when device
time becomes the entry's deadline plus one", R107) or the lease timer of an ATTACHED port stands at its expiry time. -/
def State.ExpiryToTake (s : State) : Prop :=
  (∃ (p : PostNo) (r : Post), s.posts[p] = some r ∧ r.deadline = some s.now) ∨
    (∃ a ∈ s.requests.pending, a.deadline + 1#32 = s.now) ∨
    ∃ n : Port, s.attached n = true ∧ s.sessions[n].timer = some s.now

/-- Every armed timer expires within the next 65536 milliseconds (R19), none having been passed: at its expiry time an
expiry is taken before time goes on (R146). -/
def State.TimersAhead (s : State) : Prop :=
  (∀ (p : PostNo) (r : Post) (e : Time), s.posts[p] = some r → r.deadline = some e → (e - s.now).toNat ≤ 65536) ∧
    (∀ a ∈ s.requests.pending, (a.deadline + 1#32 - s.now).toNat ≤ 65536) ∧
    ∀ (n : Port) (e : Time), s.attached n = true → s.sessions[n].timer = some e → (e - s.now).toNat ≤ 65536

/-- The law of the time base (R146, R147): at most sixteen ticks are counted to one millisecond, and none while an expiry
of its boundary is still to be taken or its own tick is owed; device time is 0 during device reset; no armed timer has
been passed. -/
def State.TimeLawful (s : State) : Prop :=
  s.time.phase ≤ 16 ∧ (s.time.tickOwed = true ∨ s.ExpiryToTake → s.time.phase = 0) ∧
    (s.inDeviceReset = true → s.now = 0#32) ∧ s.TimersAhead

/-! ### Requests (R99) -/

/-- The requesters and posts of the table's entries. -/
def RequestTable.askers (x : RequestTable) : List (Port × PostNo) :=
  x.pending.map (fun e => (e.requester, e.post)) ++ x.undelivered.map (fun e => (e.requester, e.post))

/-- The law of R99: at most 16 entries, at most 8 with the same requester, at most one per requester and post, every
requester ATTACHED, and every PENDING entry's post occupied and BOUND. -/
def State.RequestsLawful (s : State) : Prop :=
  s.requests.size ≤ Config.tablePlaces ∧
    (∀ n : Port, (s.requests.pendingOf n).length + (s.requests.undeliveredOf n).length ≤ Config.portPlaces) ∧
    s.requests.askers.Nodup ∧
    (∀ a ∈ s.requests.askers, s.attached a.1 = true) ∧
    (∀ e ∈ s.requests.pending, ∃ r n, s.posts[e.post] = some r ∧ r.binding = .bound n)

/-! ### Array and refresh (R135, R140, R141, R143) -/

/-- The refresh debt lies between 0 and 8, and the refresh request stands exactly while it is not 0 (R137, R140). -/
def State.RefreshLawful (s : State) : Prop :=
  s.refresh.debt ≤ Config.lapseDebt ∧ (s.arbiter.refreshPlace = true ↔ s.refresh.debt ≠ 0)

/-- The bytes of the storage array stand in their canonical form. -/
def State.MemoryLawful (s : State) : Prop := Memory.wf s.array.mem

/-! ### Commands in progress (R26, R27, R62, R137, R148, R149) -/

/-- A read record whose read has not completed. -/
def ReadRecord.running (r : ReadRecord) : Bool := decide (r.phase ≠ .answering)

/-- The command is a READ or a READ HELD. -/
def CommandTag.isRead (c : CommandTag) : Prop := c.code = Command.read.code ∨ c.code = Command.readHeld.code

/-- A record's response is held by the interface: a whole response of a READ or a READ HELD. -/
def PortInterface.holdsReadResponse (x : PortInterface) : Prop :=
  ∃ h c, x.response = some h ∧ h.command = some c ∧ c.isRead

/-- What the transaction state says of an interface (R148, R157). -/
def PortInterface.Lawful (x : PortInterface) : Prop :=
  (x.outstanding.isSome ↔ x.state = .executing ∨ x.state = .draining) ∧
    (x.discard = true ↔ x.state = .draining) ∧
    (x.side ≠ .none → x.state = .draining) ∧
    (x.response.isSome → x.state = .responding ∨ (x.state = .draining ∧ x.side = .answering)) ∧
    (x.state = .draining → ∀ h, x.response = some h → h.command = none)

/-- A transaction, or a side transaction, is in progress only on a port whose CSn is low (R148), whose RSTn is high
(R159) and outside device reset (R160). -/
def State.TransactionsLawful (s : State) : Prop :=
  ∀ n : Port, s.pins.cs[n] = true ∨ s.pins.rst[n] = false ∨ s.inDeviceReset = true →
    s.ports[n].inTransaction = false

/-- Slot, read record and interface of one port agree on the one command in progress (R26, R62, R149). A read record
keeps its pin unless it is cut off (R76). -/
def State.PortBusyLawful (s : State) (n : Port) : Prop :=
  s.ports[n].Lawful ∧
    (s.slots[n].isSome → s.reads[n] = none) ∧
    (s.ports[n].outstanding.isSome ↔
      s.slots[n].isSome ∨ ∃ r, s.reads[n] = some r ∧ r.running = true) ∧
    (∀ r, s.reads[n] = some r →
      (r.pin = !r.cutOff) ∧
        (r.running = true → ∃ c, s.ports[n].outstanding = some c ∧ c.isRead) ∧
        (r.running = false → s.ports[n].state = .responding ∧ s.ports[n].holdsReadResponse))

/-- Each port has at most one command taken and not yet completed (R149). -/
def State.BusyLawful (s : State) : Prop := ∀ n : Port, s.PortBusyLawful n

/-- What a port asks of the arbiter and has of the array agrees with the phases of its publication and its read
(R26, R30, R62, R65, R137): a request waits exactly while the phase is WAITING, and the access in progress is the
port's exactly while the phase is WRITING or READING. -/
def State.AccessLawful (s : State) : Prop :=
  ∀ n : Port,
    (s.arbiter.places[n] = some .write ↔ s.slots[n].map Publication.phase = some .waiting) ∧
      (s.arbiter.places[n] = some .read ↔ s.reads[n].map ReadRecord.phase = some .waiting) ∧
      (s.array.access = some (.write n) ↔ s.slots[n].map Publication.phase = some .writing) ∧
      (s.array.access = some (.read n) ↔ s.reads[n].map ReadRecord.phase = some .reading)

/-- The agreement of R27: a publication that is not overtaken is named by its post's publication-in-flight field,
with the same staging frame and the publishing port, to which the post is BOUND, and the field of a post names such a
publication. -/
def State.FlightLawful (s : State) : Prop :=
  (∀ (n : Port) (x : Publication), s.slots[n] = some x → x.overtaken = none →
    ∃ r, s.posts[x.post] = some r ∧ r.inFlight = some { frame := x.frame, port := n } ∧ r.binding = .bound n) ∧
    (∀ (p : PostNo) (r : Post) (i : InFlight), s.posts[p] = some r → r.inFlight = some i →
      ∃ x, s.slots[i.port] = some x ∧ x.post = p ∧ x.frame = i.frame ∧ x.overtaken = none)

/-! ### The accounts of the frame pool (R45) -/

/-- Posts whose current frame is `f`. -/
def State.postRefs (s : State) (f : FrameNo) : Nat :=
  (s.posts.toList.filter fun o => decide ((o.bind Post.current).map Current.frame = some f)).length

/-- Publications staging frame `f`. -/
def State.stagingRefs (s : State) (f : FrameNo) : Nat :=
  (s.slots.toList.filter fun o => decide (o.map Publication.frame = some f)).length

/-- Holds on frame `f`. -/
def State.holdRefs (s : State) (f : FrameNo) : Nat :=
  (s.holds.toList.map fun t => (t.toList.filter fun o => decide (o.map Hold.frame = some f)).length).sum

/-- Read pins on frame `f`. -/
def State.pinRefs (s : State) (f : FrameNo) : Nat :=
  (s.reads.toList.filter fun o => decide (pinFrame o = [f])).length

/-- The law of R45: every frame's count is the sum of its uses, and a frame is on the free list exactly when the
count is 0, once, with a clear suspect flag. -/
def State.PoolLawful (s : State) : Prop :=
  s.pool.free.Nodup ∧
    ∀ f : FrameNo,
      s.pool.frames[f].refs = s.postRefs f + s.stagingRefs f + s.holdRefs f + s.pinRefs f ∧
        (f ∈ s.pool.free ↔ s.pool.frames[f].refs = 0) ∧
        (s.pool.frames[f].refs = 0 → s.pool.frames[f].suspect = false)

/-- The tickets of the table's entries are distinct and none is 0 (R99, R100). -/
def State.TicketsLawful (s : State) : Prop := s.requests.tickets.Nodup ∧ 0#8 ∉ s.requests.tickets

/-- Holds and pins of DETACHED ports (R76): none. -/
def State.HoldsLawful (s : State) : Prop :=
  ∀ n : Port, s.attached n = false →
    (∀ h : HoldNo, s.holds[n][h] = none) ∧ pinFrame s.reads[n] = []

/-! ### What two states share: the vocabulary of the frame statements -/

/-- The parts of State, for saying which of them a command may change. `inputs` are the input pins; the ATTNn lines
are no block of their own: they follow from sessions and queues (`LinesLawful`). -/
inductive Block where
  | posts | slots | pool | holds | reads | filters | queues | requests | sessions | array | arbiter | refresh
  | time | ports | inputs | epoch | pending
  deriving DecidableEq, Repr

/-- The part has the same value in both states. -/
def Block.same (s t : State) : Block → Prop
  | .posts => t.posts = s.posts
  | .slots => t.slots = s.slots
  | .pool => t.pool = s.pool
  | .holds => t.holds = s.holds
  | .reads => t.reads = s.reads
  | .filters => t.filters = s.filters
  | .queues => t.queues = s.queues
  | .requests => t.requests = s.requests
  | .sessions => t.sessions = s.sessions
  | .array => t.array = s.array
  | .arbiter => t.arbiter = s.arbiter
  | .refresh => t.refresh = s.refresh
  | .time => t.time = s.time
  | .ports => t.ports = s.ports
  | .inputs => t.pins.cs = s.pins.cs ∧ t.pins.rst = s.pins.rst ∧ t.pins.sup = s.pins.sup ∧
      t.pins.nReset = s.pins.nReset ∧ t.pins.clksel = s.pins.clksel
  | .epoch => t.epoch = s.epoch
  | .pending => t.pending = s.pending

/-- Every part of State but those listed is the same in `t` as in `s`. -/
def Unchanged (s t : State) (changed : List Block) : Prop := ∀ b : Block, b ∉ changed → b.same s t

/-- Port `n` is at the start of receiving a frame, in a transaction or in a side transaction: CSn has fallen and no
byte has been taken in (R150, R157). -/
abbrev State.Listening (s : State) (n : Port) : Prop :=
  s.selected n = true ∧ s.ports[n].isReceiving = true ∧ s.ports[n].rx = [] ∧ s.ports[n].expected = 5

/-- Port `n` is at the start of a transaction in which a command can be taken: RECEIVING, no byte in yet, and no
command outstanding (R148, R149). -/
abbrev State.Ready (s : State) (n : Port) : Prop :=
  s.selected n = true ∧ s.ports[n].state = .receiving ∧ s.ports[n].rx = [] ∧ s.ports[n].expected = 5 ∧
    s.ports[n].outstanding = none

/-- In `t`, port `n` holds the whole response of the command `c` that it took with tag `tag`, and is RESPONDING; no
other interface, and nothing else of this one, differs from `s` (R154, R155). -/
def Answered (s t : State) (n : Port) (tag : Byte) (c : Command) (status : Status) (result : List Byte) : Prop :=
  t.ports = put s.ports n
    { s.ports[n] with
      state := .responding, rx := [], expected := 0,
      response := some
        { frame := responseFrame status tag result, clocked := 0, command := some { tag := tag, code := c.code } } }

/-- In `t`, the command `c` that port `n` took with tag `tag` is outstanding and the port is EXECUTING; nothing else
of the interfaces differs from `s` (R154). -/
def Executing (s t : State) (n : Port) (tag : Byte) (c : Command) : Prop :=
  t.ports = put s.ports n
    { s.ports[n] with
      state := .executing, rx := [], expected := 0, outstanding := some { tag := tag, code := c.code } }

/-- In `t`, the answer `status` to a frame that took nothing is held for port `n` (R154, R157): a port that was
DRAINING stays so, with its side transaction in its answering phase. -/
def AnsweredUntaken (s t : State) (n : Port) (tag : Byte) (status : Status) : Prop :=
  t.ports = put s.ports n
    { s.ports[n] with
      state := if s.ports[n].state = .draining then .draining else .responding
      side := if s.ports[n].state = .draining then .answering else s.ports[n].side
      rx := [], expected := 0,
      response := some { frame := responseFrame status tag [], clocked := 0, command := none } }

/-- The only session record that differs is that of port `n`: its armed lease timer has been restarted (R121). -/
def LeaseRenewed (s t : State) (n : Port) : Prop :=
  t.sessions = put s.sessions n (s.sessions[n].renewed s.now)

/-- The command was answered with `status` and `result`; besides the lease report, only the listed parts of the
state have changed, and the ATTNn lines follow their condition (R97, R121, R154). -/
def AnsweredChanging (s t : State) (n : Port) (tag : Byte) (c : Command) (status : Status) (result : List Byte)
    (changed : List Block) : Prop :=
  Answered s t n tag c status result ∧ LeaseRenewed s t n ∧ t.LinesLawful ∧
    Unchanged s t (.ports :: .sessions :: changed)

/-- The command was answered with `status` and `result`, and had no effect but the lease report (R121, R154). -/
def AnsweredOnly (s t : State) (n : Port) (tag : Byte) (c : Command) (status : Status) (result : List Byte) : Prop :=
  AnsweredChanging s t n tag c status result []

/-- The command has been taken and is outstanding; besides the lease report, only the listed parts of the state have
changed, and the ATTNn lines follow their condition (R97, R121, R154). -/
def ExecutingChanging (s t : State) (n : Port) (tag : Byte) (c : Command) (changed : List Block) : Prop :=
  Executing s t n tag c ∧ LeaseRenewed s t n ∧ t.LinesLawful ∧ Unchanged s t (.ports :: .sessions :: changed)

/-- The outstanding command of port `n` has completed with `status` and `result` (R155, R156, R157): its response is
held, or discarded where the discard mark was set; a side transaction in progress goes on as a transaction. -/
def CompletedWith (s t : State) (n : Port) (status : Status) (result : List Byte) : Prop :=
  ∀ c, s.ports[n].outstanding = some c →
    t.ports = put s.ports n
      (if s.ports[n].discard then
        { s.ports[n] with
          outstanding := none, discard := false, side := .none,
          state := (match s.ports[n].side with | .none => .idle | .receiving => .receiving | .answering => .responding) }
      else
        { s.ports[n] with
          outstanding := none, state := .responding,
          response := some { frame := responseFrame status c.tag result, clocked := 0, command := some c } })

/-- One notice has reached the queues of the ports that it concerns, and no other queue has changed (R84). -/
def NoticeSent (s t : State) (x : Notice) (k : Half) (flag : FilterFlag) (acting fixed : Option Port) : Prop :=
  ∀ m : Port, t.queues[m] = if s.recipients k flag acting fixed m then s.queues[m].arrive x else s.queues[m]

/-- What one event brings to one port's queue: a notice handed to it, or the offer of a completed ask's ANSWER. -/
inductive Arrival where
  | notice (x : Notice)
  | offer (u : UndeliveredAsk)
  deriving DecidableEq, Repr

/-- The queue of a port, ATTACHED or not, after `arrivals` in their order, with the entries whose offers it refused:
a notice arrives as R88 to R90 say, and an ANSWER that is offered is the newest entry where fewer than 31 ordinary
entries wait and no marker is present, and is refused otherwise (R91). -/
def NoticeQueue.receives (attached : Bool) (q : NoticeQueue) : List Arrival → NoticeQueue × List UndeliveredAsk
  | [] => (q, [])
  | .notice x :: rest => (q.arrive x).receives attached rest
  | .offer u :: rest =>
    if attached = true ∧ q.entries.length < 31 ∧ q.lost = none then
      NoticeQueue.receives attached { q with entries := q.entries ++ [u.answer] } rest
    else ((q.receives attached rest).1, u :: (q.receives attached rest).2)

/-- The queue of every port `m`, which stood at `start m`, has received its arrivals and nothing else; the entries
whose offers were refused, which are among `offered` and stand in that order, follow the entries `kept` that were
UNDELIVERED before (R84, R90 to R92, R109). -/
def Received (s t : State) (start : Port → NoticeQueue) (kept offered : List UndeliveredAsk)
    (arrivals : Port → List Arrival) : Prop :=
  (∀ m : Port, t.queues[m] = ((start m).receives (s.attached m) (arrivals m)).1) ∧
    ∃ refused : List UndeliveredAsk, t.requests.undelivered = kept ++ refused ∧ refused.Sublist offered ∧
      ∀ m : Port, refused.filter (fun u => decide (u.requester = m)) =
        ((start m).receives (s.attached m) (arrivals m)).2

/-- The PENDING entries on post `p`, in the order of asking, each with outcome `o`. -/
def completions (asks : List PendingAsk) (p : PostNo) (o : AskOutcome) : List UndeliveredAsk :=
  (asks.filter fun e => decide (e.post = p)).map fun e => e.completed o

/-- The offers among `us` that are made to port `m`. -/
def offersTo (us : List UndeliveredAsk) (m : Port) : List Arrival :=
  (us.filter fun u => decide (u.requester = m)).map Arrival.offer

/-- The command that a request frame of `c` is: the constructor of the table's row. -/
def Command.instr (c : Command) (n : Port) (tag : Byte) (args : List Byte) (sup : Bool) : Instr :=
  match c with
  | .attach => .attach n tag args sup
  | .detach => .detach n tag args
  | .ping => .ping n tag args
  | .status => .status n tag args
  | .declare => .declare n tag args
  | .withdraw => .withdraw n tag args
  | .describe => .describe n tag args
  | .publish => .publish n tag args
  | .read => .read n tag args
  | .snapshot => .snapshot n tag args
  | .readHeld => .readHeld n tag args
  | .release => .release n tag args
  | .ask => .ask n tag args
  | .cancel => .cancel n tag args
  | .filterSet => .filterSet n tag args
  | .filterClear => .filterClear n tag args
  | .take => .take n tag args
  | .adopt => .adopt n tag args
  | .takeover => .takeover n tag args
  | .revoke => .revoke n tag args
  | .poolStatus => .poolStatus n tag args
  | .setPoolMark => .setPoolMark n tag args

/-- The asks of the other ports that a detach of port `n` completes ORPHANED, by post in ascending order and then in
the order of asking (R92, R106). -/
def orphanedAsks (s : State) (n : Port) : List UndeliveredAsk :=
  (List.finRange 64).flatMap fun p : PostNo => match s.posts[p] with
    | none => []
    | some r => if r.binding = .bound n then
        completions (s.requests.pending.filter fun e => decide (e.requester ≠ n)) p .orphaned else []

/-- What a detach of port `n` brings to the queue of another port `m`: for each post BOUND to port `n`, in ascending
order, the ORPHANED notice if it concerns port `m`, and then the ANSWERs of its asks on the post (R23, R84, R92). -/
def orphanArrivals (s : State) (n : Port) (cause : DetachCause) (m : Port) : List Arrival :=
  (List.finRange 64).flatMap fun p : PostNo => match s.posts[p] with
    | none => []
    | some r => if r.binding = .bound n then
        (if s.recipients r.key .lifecycle none none m then [.notice (.orphaned p r.key n cause)] else []) ++
          offersTo (completions s.requests.pending p .orphaned) m
      else []

/-- What a detach of port `n` with cause `cause` leaves (R126): the session at the detached values; every post BOUND
to the port ORPHANED from it, a FRESH one STALE; its publication overtaken with cause SESSION; no hold and no pin,
the frames released in the order of R50; an unfinished read cut off; none of its requests, filters or notices; no
PENDING entry on the orphaned posts; and each other port's queue with the ORPHANED notices that concern it and the
ANSWERs of its asks on the orphaned posts, and with nothing else. -/
def DetachedFrom (s t : State) (n : Port) (cause : DetachCause) : Prop :=
  t.sessions = put s.sessions n Session.detachedValues ∧
    (∀ p : PostNo, t.posts[p] = (s.posts[p]).map fun r =>
      if r.binding = .bound n then
        { r with
          binding := .orphaned n, condition := (if r.condition = .fresh then .stale else r.condition),
          deadline := none, inFlight := none }
      else r) ∧
    (∀ m : Port, t.slots[m] =
      if m = n then (s.slots[m]).map (fun x => { x with overtaken := some .session }) else s.slots[m]) ∧
    t.pool = s.pool.releaseAll (holdFrames s.holds[n] ++ pinFrame s.reads[n]) ∧
    (∀ (m : Port) (h : HoldNo), t.holds[m][h] = if m = n then none else s.holds[m][h]) ∧
    (∀ m : Port, t.reads[m] =
      if m = n then (s.reads[m]).bind (fun r =>
        if r.phase = .answering then none else some { r with pin := false, cutOff := true })
      else s.reads[m]) ∧
    (∀ (m : Port) (i : FilterNo), t.filters[m][i] = if m = n then none else s.filters[m][i]) ∧
    t.requests.pending = s.requests.pending.filter (fun e =>
      decide (e.requester ≠ n ∧ (s.posts[e.post]).map Post.binding ≠ some (.bound n))) ∧
    Received s t (fun m => if m = n then NoticeQueue.empty else s.queues[m])
      (s.requests.undelivered.filter fun u => decide (u.requester ≠ n)) (orphanedAsks s n)
      (fun m => if m = n then [] else orphanArrivals s n cause m) ∧
    t.requests.counter = s.requests.counter ∧ t.LinesLawful ∧
    Unchanged s t [.sessions, .posts, .slots, .pool, .holds, .reads, .filters, .queues, .requests, .ports, .inputs]

/-- What the vacate event (R16) of post `p`, whose record was `r`, leaves, `by_` saying who vacated it by the command
of port `acting`: the post VACANT, its reference to its frame released, its publication overtaken (by a WITHDRAW with
the cause of a REVOKE: the model's choice, log 13), the asks on it completed WITHDRAWN, and in each queue the UPDATE and
SOLICIT entries for it purged, then the ANSWERs of the port's asks on it, then the WITHDRAWN notice if it concerns the
port, and nothing else. -/
def Vacated (s t : State) (p : PostNo) (r : Post) (by_ : VacateBy) (acting : Port) : Prop :=
  t.posts = put s.posts p none ∧
    t.pool = (match r.current with | some c => s.pool.release c.frame | none => s.pool) ∧
    (∀ m : Port, t.slots[m] =
      if r.inFlight.map InFlight.port = some m then
        (s.slots[m]).map (fun x => { x with overtaken := some .revoke })
      else s.slots[m]) ∧
    t.requests.pending = s.requests.pending.filter (fun e => decide (e.post ≠ p)) ∧
    t.requests.counter = s.requests.counter ∧
    Received s t
      (fun m =>
        { entries := (s.queues[m]).entries.filter fun e => !(e.isUpdateOf p || e.isSolicitOf p),
          lost := (s.queues[m]).lost })
      s.requests.undelivered (completions s.requests.pending p .withdrawn)
      (fun m => offersTo (completions s.requests.pending p .withdrawn) m ++
        (if s.recipients r.key .lifecycle (some acting)
            (match by_ with | .supervisor => r.binding.boundPort | .producer => none) m
          then [.notice (.withdrawn p r.key by_)] else []))

end Sys2Proof.Machine
end

