-- ==== Sys2Proof/Certificates/Slice0/Obligations.lean ====
section
/-! DEFINITION. The statements for the provers: what each command does, in terms of exec; what the operations that
the commands share do; and the laws of the spec that every step keeps. -/

open Sys2Proof Sys2Proof.Machine

/-! ### The queue of commands, reset -/

/-- A step takes the command at the front of the queue and runs it on the state with the queue's rest; on an
empty queue the block idles (the model's choice, log 3), and no command touches the queue. -/
def Obligations.StepTakesFrontCommand : Prop :=
  (∀ (s : State) (c : Instr) (rest : List Instr), s.pending = c :: rest → step s = exec c (s.setPending rest)) ∧
    (∀ s : State, s.pending = [] → step s = .next s) ∧
    ∀ (s t : State) (c : Instr), exec c s = .next t → t.pending = s.pending

/-- The values after device reset that the spec gives: all posts VACANT, all slots, holds, read records,
filters, queues and the request table empty, all 96 frames free in ascending order, mark 8 and armed, all
sessions at the detached values, no access and no request at the arbiter with port 3 last granted, pointer,
debt, lapse count and device time 0, every port interface IDLE and empty, every ATTNn line released (R3, R26,
R46, R61, R62, R80, R87, R99, R100, R116, R138, R140, R146, R148). The spec leaves the rows of the array undefined
(R135): that State lists none of their bytes is the model's choice (log 7). -/
def Obligations.ResetValues : Prop :=
  (∀ p : PostNo, State.reset.posts[p] = none) ∧
    (∀ n : Port, State.reset.slots[n] = none ∧ (∀ h : HoldNo, State.reset.holds[n][h] = none) ∧
      State.reset.reads[n] = none ∧ (∀ i : FilterNo, State.reset.filters[n][i] = none) ∧
      State.reset.queues[n] = { entries := [], lost := none } ∧
      State.reset.sessions[n] =
        { state := .detached, role := .normal, lease := 0#16, timer := none, threshold := 1 } ∧
      State.reset.arbiter.places[n] = none ∧
      State.reset.ports[n] =
        { state := .idle, side := .none, rx := [], expected := 0, outstanding := none, response := none,
          discard := false, lastAbandoned := none } ∧
      State.reset.pins.attn[n] = false) ∧
    (∀ f : FrameNo, State.reset.pool.frames[f] = { refs := 0, suspect := false }) ∧
    State.reset.pool.free = List.finRange 96 ∧ State.reset.pool.mark = 8 ∧ State.reset.pool.armed = true ∧
    State.reset.requests = { pending := [], undelivered := [], counter := 0#8 } ∧
    State.reset.array = { mem := [], access := none } ∧ State.reset.arbiter.refreshPlace = false ∧
    State.reset.arbiter.lastGranted = 3 ∧ State.reset.refresh = { pointer := 0, debt := 0, lapseCount := 0 } ∧
    State.reset.time.deviceTime = 0#32

/-- State.reset keeps every law of the spec that the steps are said to keep below. -/
def Obligations.ResetKeepsLaws : Prop :=
  State.reset.PostsLawful ∧ State.reset.KeysDistinct ∧ State.reset.BoundAttached ∧ State.reset.QueuesLawful ∧
    State.reset.LinesLawful ∧ State.reset.SessionsLawful ∧ State.reset.RequestsLawful ∧
    State.reset.TicketsLawful ∧ State.reset.RefreshLawful ∧ State.reset.MemoryLawful ∧ State.reset.BusyLawful ∧
    State.reset.AccessLawful ∧ State.reset.FlightLawful ∧ State.reset.PoolLawful ∧ State.reset.HoldsLawful ∧
    State.reset.TimeLawful ∧ State.reset.TransactionsLawful

/-! ### Laws that every step keeps -/

/-- Every step keeps the laws of the post records: generation 0, EMPTY and no current frame come together, a
damage cause is present exactly on a DAMAGED post (R2), and a freshness deadline is armed only on a BOUND, FRESH
post with a period (R10). The agreement of publications and posts (R27) is a premise: a commit arms the deadline
of a post that R27 says is BOUND. -/
def Obligations.StepKeepsPostLaw : Prop :=
  ∀ s t : State, s.PostsLawful → s.FlightLawful → step s = .next t → t.PostsLawful

/-- Every step keeps the keys of the occupied posts distinct (R4). Every step keeps every BOUND post bound to an
ATTACHED port (R23). -/
def Obligations.StepKeepsKeysAndBindings : Prop :=
  (∀ s t : State, s.KeysDistinct → step s = .next t → t.KeysDistinct) ∧
    (∀ s t : State, s.BoundAttached → step s = .next t → t.BoundAttached)

/-- Every step keeps the law of the notice queues: at most 31 ordinary entries, one UPDATE and one SOLICIT per
post, a lost count of 1 to 65535, and nothing in the queue of a DETACHED port (R87, R95). -/
def Obligations.StepKeepsQueueLaw : Prop :=
  ∀ s t : State, s.QueuesLawful → step s = .next t → t.QueuesLawful

/-- Every step leaves each ATTNn line as its condition gives it (R97). -/
def Obligations.StepKeepsAttentionLines : Prop :=
  ∀ s t : State, s.LinesLawful → step s = .next t → t.LinesLawful

/-- Every step keeps the session records: the detached values on a DETACHED port, the lease timer of an ATTACHED
port armed exactly with a lease, a threshold of 1 to 31 (R116). -/
def Obligations.StepKeepsSessionLaw : Prop :=
  ∀ s t : State, s.SessionsLawful → step s = .next t → t.SessionsLawful

/-- Every step keeps the law of the request table: at most 16 entries, at most 8 of one port, at most one per
port and post, ATTACHED requesters, PENDING entries on BOUND posts only (R99). Every step keeps the tickets in
the request table distinct and none of them 0 (R100). -/
def Obligations.StepKeepsRequestTableLaws : Prop :=
  (∀ s t : State, s.RequestsLawful → step s = .next t → t.RequestsLawful) ∧
    (∀ s t : State, s.TicketsLawful → step s = .next t → t.TicketsLawful)

/-- Every step keeps the refresh debt from 0 to 8, and the refresh request standing exactly while it is not 0
(R137, R140). -/
def Obligations.StepKeepsRefreshLaw : Prop :=
  ∀ s t : State, s.RefreshLawful → step s = .next t → t.RefreshLawful

/-- Every step keeps the bytes of the storage array in their canonical form, within the 96 rows (R135). -/
def Obligations.StepKeepsMemoryForm : Prop :=
  ∀ s t : State, s.MemoryLawful → step s = .next t → t.MemoryLawful

/-- Every step keeps each port at one command taken and not completed, known alike to its interface, its
publication slot, its read record, the arbiter and the array (R26, R62, R137, R148, R149), and every port whose CSn is
high or whose RSTn is low, and every port in device reset, without a transaction in progress (R148, R159, R160). -/
def Obligations.StepKeepsOneCommandPerPort : Prop :=
  ∀ s t : State, s.BusyLawful → s.AccessLawful → s.TransactionsLawful → step s = .next t →
    t.BusyLawful ∧ t.AccessLawful ∧ t.TransactionsLawful

/-- Every step keeps the agreement between the publications that are not overtaken and the publication-in-flight
fields of the posts (R27). -/
def Obligations.StepKeepsFlightAgreement : Prop :=
  ∀ s t : State, s.BusyLawful → s.FlightLawful → step s = .next t → t.FlightLawful

/-- Every step keeps the accounts of the frame pool: each frame's count is the number of posts, publications,
holds and pins on it, and it is on the free list, once and unsuspected, exactly at count 0 (R45). -/
def Obligations.StepKeepsPoolAccounts : Prop :=
  ∀ s t : State, s.BusyLawful → s.PoolLawful → step s = .next t → t.PoolLawful

/-- Every step keeps the DETACHED ports without holds and pins (R76). -/
def Obligations.StepKeepsDetachedPortsWithoutHolds : Prop :=
  ∀ s t : State, s.HoldsLawful → step s = .next t → t.HoldsLawful

/-! ### Frames and arguments -/

/-- Arguments agree both ways: the argument bytes of every request whose fields are all in range are read as
that request, and argument bytes that are accepted for a command are the bytes of exactly one such request
(R162, R163). -/
def Obligations.ArgumentsRoundTrip : Prop :=
  (∀ r : Request, r.legal = true → parseRequest r.command r.args = some r) ∧
    ∀ (c : Command) (args : List Byte) (r : Request), parseRequest c args = some r →
      r.command = c ∧ r.legal = true ∧ r.args = args

/-- A taken command whose argument bytes are those of no request in range is refused BADARG, before any state is
looked at, with no effect but the lease report: so for each of the 22 commands (R154, R162, R163). -/
def Obligations.BadArgumentsRefused : Prop :=
  ∀ (s : State) (n : Port) (tag : Byte) (c : Command) (args : List Byte),
    s.Ready n → args.length ≤ 72 → (∀ r : Request, r.legal = true → r.command = c → r.args ≠ args) →
      ∃ t, exec (c.instr n tag args s.pins.sup[n]) s = .next t ∧ AnsweredOnly s t n tag c .badarg []

/-- Each of the 19 commands other than PING, STATUS and ATTACH is refused NOTATTACHED on a DETACHED port, with
no effect (R154). TAKEOVER, REVOKE and SET POOL MARK are refused NOTPERMITTED on an ATTACHED port whose role is
NORMAL, with no effect but the lease report (R120). -/
def Obligations.SessionAndRoleRefusals : Prop :=
  (∀ (s : State) (n : Port) (tag : Byte) (r : Request),
     s.Ready n → s.attached n = false → r.legal = true → r.command ≠ .ping → r.command ≠ .status →
       r.command ≠ .attach →
         ∃ t, exec (r.command.instr n tag r.args s.pins.sup[n]) s = .next t ∧
           AnsweredOnly s t n tag r.command .notattached []) ∧
    (∀ (s : State) (n : Port) (tag : Byte) (r : Request),
       s.Ready n → s.attached n = true → s.sessions[n].role = .normal → r.legal = true →
         (r.command = .takeover ∨ r.command = .revoke ∨ r.command = .setPoolMark) →
           ∃ t, exec (r.command.instr n tag r.args s.pins.sup[n]) s = .next t ∧
             AnsweredOnly s t n tag r.command .notpermitted [])

/-- UNTAKEN_REQUEST: a whole frame with at most 72 argument bytes that arrives at the start of a transaction or
a side transaction is answered BADCHECK on a wrong CRC, with no effect; BADCMD on a code that is none of the 22,
and BUSY while a command of the port is outstanding, with no effect but the lease report (R121, R154, R157).
BADFRAME: a request with a length byte above 72 is read on for that many bytes and two more, none of them
checked, and is answered BADFRAME with the tag it carried; nothing else changes and no lease is renewed (R151).
-/
def Obligations.UntakenAndLongRequestsAnswered : Prop :=
  (∀ (s : State) (n : Port) (code tag : Byte) (args check : List Byte),
     s.Listening n → args.length ≤ 72 → check.length = 2 →
       let bytes := code :: tag :: byteOf args.length :: args ++ check
       let good := check = be16 (crc16 (code :: tag :: byteOf args.length :: args))
       (¬ good → ∃ t, exec (.untakenRequest n bytes) s = .next t ∧ AnsweredUntaken s t n tag .badcheck ∧
           Unchanged s t [.ports] ∧ t.pins = s.pins) ∧
         (good → (∀ c : Command, c.code ≠ code) → ∃ t, exec (.untakenRequest n bytes) s = .next t ∧
           AnsweredUntaken s t n tag .badcmd ∧ LeaseRenewed s t n ∧ t.LinesLawful ∧
           Unchanged s t [.ports, .sessions]) ∧
         (good → (∃ c : Command, c.code = code) → s.ports[n].outstanding.isSome → ∃ t,
           exec (.untakenRequest n bytes) s = .next t ∧ AnsweredUntaken s t n tag .busy ∧ LeaseRenewed s t n ∧
           t.LinesLawful ∧ Unchanged s t [.ports, .sessions])) ∧
    (∀ (s : State) (n : Port) (code tag len : Byte) (rest : List Byte),
       s.Listening n → 72 < len.toNat → rest.length = len.toNat + 2 →
         ∃ t, exec (.badframe n (code :: tag :: len :: rest)) s = .next t ∧ AnsweredUntaken s t n tag .badframe ∧
           Unchanged s t [.ports] ∧ t.pins = s.pins)

/-! ### Transactions -/

/-- CS_FALL of a line that is high: the line is low; outside resets an IDLE port is RECEIVING with no byte in, a
DRAINING one has a side transaction in its receiving phase, and an IDLE port with no command outstanding is
ready to take one (R148, R150, R157). During device reset, or with RSTn low, no interface changes (R159, R160).
That the count of bytes expected starts at 5, and that the level is tracked during device reset, are the model's
choices (logs 18 and 24). -/
def Obligations.CsFallBeginsTransaction : Prop :=
  ∀ (s : State) (n : Port), s.pins.cs[n] = true →
    ∃ t, exec (.csFall n) s = .next t ∧ t.pins = { s.pins with cs := put s.pins.cs n false } ∧
      Unchanged s t [.inputs, .ports] ∧
      (s.inDeviceReset = true ∨ s.pins.rst[n] = false → t.ports = s.ports) ∧
      (s.inDeviceReset = false → s.pins.rst[n] = true →
        (s.ports[n].state = .idle →
          t.ports = put s.ports n { s.ports[n] with state := .receiving, rx := [], expected := 5 } ∧
            (s.ports[n].outstanding = none → t.Ready n)) ∧
        (s.ports[n].state = .draining →
          t.ports = put s.ports n { s.ports[n] with side := .receiving, rx := [], expected := 5 } ∧ t.Listening n))

/-- CS_RISE of a selected port, state by state: IDLE changes nothing; RECEIVING discards the bytes (R152);
EXECUTING drains, with the discard mark set and the outstanding command recorded as abandoned (R156); RESPONDING
goes IDLE, a response not finished with being discarded, recorded if it answered a taken command, and finished
with for the reading unit if it answered a READ or READ HELD (R68, R156); DRAINING ends its side transaction
(R157). -/
def Obligations.CsRiseEndsTransaction : Prop :=
  ∀ (s : State) (n : Port), s.pins.cs[n] = false → s.selected n = true →
    ∃ t, exec (.csRise n) s = .next t ∧ t.pins = { s.pins with cs := put s.pins.cs n true } ∧
      Unchanged s t [.inputs, .ports, .reads, .pool] ∧
      (s.ports[n].state = .idle → t.ports = s.ports) ∧
      (s.ports[n].state = .receiving →
        t.ports = put s.ports n { s.ports[n] with state := .idle, rx := [], expected := 0 }) ∧
      (s.ports[n].state = .executing →
        t.ports = put s.ports n
          { s.ports[n] with
            state := .draining, side := .none, discard := true, lastAbandoned := s.ports[n].outstanding }) ∧
      (s.ports[n].state = .responding →
        t.ports = put s.ports n
          { s.ports[n] with
            state := .idle, response := none,
            lastAbandoned := ((s.ports[n].response.bind HeldResponse.command).or s.ports[n].lastAbandoned) }) ∧
      (s.ports[n].state = .draining →
        t.ports = put s.ports n { s.ports[n] with side := .none, rx := [], expected := 0, response := none }) ∧
      (s.ports[n].state = .responding →
        (∃ c, s.ports[n].response.bind HeldResponse.command = some c ∧ c.isRead) →
        t.reads = put s.reads n (finishedRecord s.reads[n]) ∧
          t.pool = s.pool.releaseAll (finishedFrames s.reads[n])) ∧
      (s.ports[n].state ≠ .responding ∨
          (∀ c, s.ports[n].response.bind HeldResponse.command = some c → ¬ c.isRead) →
        t.reads = s.reads ∧ t.pool = s.pool)

/-- RESPONSE_FINISHED: the response held goes and the transaction state stays; the read pin of a completed READ
or READ HELD is released and its record emptied; an answer to anything else, or to a READ whose record a detach has
already emptied, leaves both (R68, R76, R155). What is shifted out before it: SDOn is driven while a transaction is in
progress (R148), with filler while a request is received (R150, R157), PENDING while EXECUTING, and, while an answer is
delivered, READY, the frame's bytes in order, and then filler; each of these bytes counts one, and the last one
finishes the response with the effect of the event (R155, R161). That the count kept of the bytes shifted out takes
READY in is the model's choice (log 17). -/
def Obligations.FinishedResponseReleasesPin : Prop :=
  (∀ (s : State) (n : Port) (h : HeldResponse),
     s.selected n = true → s.ports[n].isAnswering = true → s.ports[n].response = some h →
       ∃ t, exec (.responseFinished n) s = .next t ∧
         t.ports = put s.ports n { s.ports[n] with response := none } ∧
         Unchanged s t [.ports, .reads, .pool] ∧ t.pins = s.pins ∧
         (∀ c, h.command = some c → c.isRead → ∀ r, s.reads[n] = some r → r.phase = .answering →
           t.reads = put s.reads n none ∧ t.pool = (if r.pin then s.pool.release r.frame else s.pool)) ∧
         ((∀ c, h.command = some c → ¬ c.isRead) ∨ (∀ r, s.reads[n] = some r → r.phase ≠ .answering) →
           t.reads = s.reads ∧ t.pool = s.pool)) ∧
    (∀ (s : State) (n : Port),
       let x := s.ports[n]
       let answering := x.state = .responding ∨ (x.state = .draining ∧ x.side = .answering)
       (s.sdoDriven n = true ↔ s.inDeviceReset = false ∧ s.pins.rst[n] = true ∧ s.pins.cs[n] = false ∧
         x.state ≠ .idle ∧ (x.state = .draining → x.side ≠ .none)) ∧
       (x.state = .receiving ∨ (x.state = .draining ∧ x.side = .receiving) → s.sdoByte n = 0x00#8) ∧
       (x.state = .executing → s.sdoByte n = 0x0F#8 ∧ ∀ b : Byte, s.clockByte n b = s) ∧
       (answering → x.response = none → s.sdoByte n = 0x00#8 ∧ ∀ b : Byte, s.clockByte n b = s) ∧
       (answering → ∀ h, x.response = some h →
         s.sdoByte n = (if h.clocked = 0 then 0xF0#8 else h.frame.getD (h.clocked - 1) 0x00#8) ∧
         (s.selected n = true → ∀ b : Byte,
           (h.clocked < h.frame.length →
             s.clockByte n b = s.setPort n { x with response := some { h with clocked := h.clocked + 1 } }) ∧
           (h.frame.length ≤ h.clocked → exec (.responseFinished n) s = .next (s.clockByte n b)))))

/-- PORT_RESET outside device reset: RSTn is low; an ATTACHED port detaches with cause PORTRESET, each other port's
queue taking the ORPHANED notices and ANSWERs that concern it, and nothing else (R92, R125, R126), and a DETACHED one
keeps its session and an unfinished read's record; the interface holds no request, no response, no side transaction
and no abandoned record, and is DRAINING with the discard mark set exactly if a command is outstanding (R159).
PORT_RESET_RELEASE changes the level of RSTn and nothing else (R125, R159). -/
def Obligations.PortResetDetachesAndClears : Prop :=
  (∀ (s : State) (n : Port), s.pins.rst[n] = true → s.inDeviceReset = false →
     ∃ t, exec (.portReset n) s = .next t ∧
       t.ports = put s.ports n
         { s.ports[n] with
           state := if s.ports[n].outstanding.isSome then .draining else .idle
           side := .none, rx := [], expected := 0, response := none
           discard := s.ports[n].outstanding.isSome, lastAbandoned := none } ∧
       t.pins.rst = put s.pins.rst n false ∧ t.pins.cs = s.pins.cs ∧ t.pins.sup = s.pins.sup ∧
       t.pins.nReset = s.pins.nReset ∧ t.pins.clksel = s.pins.clksel ∧
       (s.attached n = true → DetachedFrom s t n .portreset) ∧
       (s.attached n = false → s.HoldsLawful →
         t.pins.attn = s.pins.attn ∧ Unchanged s t [.inputs, .ports, .reads] ∧
           (s.ports[n].holdsReadResponse → t.reads = put s.reads n (finishedRecord s.reads[n])) ∧
           (¬ s.ports[n].holdsReadResponse → t.reads = s.reads))) ∧
    (∀ (s : State) (n : Port), ∃ t, exec (.portResetRelease n) s = .next t ∧
       t.pins = { s.pins with rst := put s.pins.rst n true } ∧ Unchanged s t [.inputs])

/-- DEVICE_RESET, and a CLKSEL_CHANGE to 3 outside device reset: every block takes its values after device
reset and the ATTNn lines are released (R3, R41, R46, R78, R146, R147, R160). During device reset CLKSEL_CHANGE to 3
changes the straps alone. The model's choices here: that the queue of commands stays (log 3), that no byte of the rows
is listed and the count of device resets rises (log 7), that the division of CLKIN stays until the release (log 16). -/
def Obligations.DeviceResetClearsEveryBlock : Prop :=
  ∀ s : State,
    let cleared (t : State) : Prop :=
      Unchanged State.reset t [.time, .inputs, .epoch, .pending] ∧
        t.time = { deviceTime := 0#32, phase := 0, tickOwed := false, division := s.time.division } ∧
        t.epoch = s.epoch + 1 ∧ t.pending = s.pending
    (s.pins.nReset = true → ∃ t, exec .deviceReset s = .next t ∧ cleared t ∧
        t.pins = { s.pins with nReset := false, attn := Vector.replicate 4 false }) ∧
      (s.inDeviceReset = false → ∃ t, exec (.clkselChange 3) s = .next t ∧ cleared t ∧
        t.pins = { s.pins with clksel := 3, attn := Vector.replicate 4 false }) ∧
      (s.inDeviceReset = true → ∃ t, exec (.clkselChange 3) s = .next t ∧ t.pins = { s.pins with clksel := 3 } ∧
        Unchanged s t [.inputs])

/-- The release of device reset, by nRESET with the straps at 0, 1 or 2, or by the straps' leaving 3 with nRESET
high: device time and the tick count start from 0 with the division that the straps select, and nothing else
changes but the level. A strap change in operation, or a release of nRESET with the straps at 3, changes the
level alone (R146, R147). -/
def Obligations.DeviceResetReleaseStartsTime : Prop :=
  ∀ (s : State) (v : Fin 4), v ≠ 3 →
    (s.pins.nReset = false → s.pins.clksel = v → ∃ t, exec .deviceResetRelease s = .next t ∧
        t.pins = { s.pins with nReset := true } ∧
        t.time = { deviceTime := 0#32, phase := 0, tickOwed := false, division := Config.division v } ∧
        Unchanged s t [.inputs, .time]) ∧
      (s.pins.nReset = true → s.pins.clksel = 3 → ∃ t, exec (.clkselChange v) s = .next t ∧
        t.pins = { s.pins with clksel := v } ∧
        t.time = { deviceTime := 0#32, phase := 0, tickOwed := false, division := Config.division v } ∧
        Unchanged s t [.inputs, .time]) ∧
      (s.inDeviceReset = false ∨ s.pins.nReset = false → ∃ t, exec (.clkselChange v) s = .next t ∧
        t.pins = { s.pins with clksel := v } ∧ Unchanged s t [.inputs]) ∧
      (s.pins.nReset = false → s.pins.clksel = 3 → ∃ t, exec .deviceResetRelease s = .next t ∧
        t.pins = { s.pins with nReset := true } ∧ Unchanged s t [.inputs])

/-! ### Sessions -/

/-- ATTACH with arguments in range: asking for SUPERVISOR with the strap low it is refused NOTPERMITTED and
keeps the session (R117); otherwise the port is ATTACHED with the role, lease and threshold of the command and
its timer armed exactly with a lease, and the answer says whether it was ATTACHED before (R118, R119). That the
command carries the strap's level as an operand, which is stored, is the model's choice (log 2). -/
def Obligations.AttachSetsSession : Prop :=
  ∀ (s : State) (n : Port) (tag : Byte) (role : Role) (lease : Half) (threshold : Nat) (sup : Bool),
    s.Ready n → (Request.attach role lease threshold).legal = true →
      ∃ t, exec (.attach n tag ([role.code] ++ be16 lease ++ [byteOf threshold]) sup) s = .next t ∧
        t.pins.cs = s.pins.cs ∧ t.pins.rst = s.pins.rst ∧ t.pins.sup = put s.pins.sup n sup ∧
        t.pins.nReset = s.pins.nReset ∧ t.pins.clksel = s.pins.clksel ∧ t.LinesLawful ∧
        Unchanged s t [.ports, .sessions, .inputs] ∧
        (role = .supervisor ∧ sup = false →
          Answered s t n tag .attach .notpermitted [] ∧ LeaseRenewed s t n) ∧
        (role = .normal ∨ sup = true →
          Answered s t n tag .attach .ok [portByte n, if s.attached n then 0x01#8 else 0x00#8] ∧
            t.sessions = put s.sessions n
              { state := .attached, role := role, lease := lease, threshold := threshold,
                timer := if lease = 0#16 then none else some (s.now + lease.zeroExtend 32 + 1#32) })

/-- PING: OK with the session state, the role and the lease period on an ATTACHED port, and with the session
state alone on a DETACHED one; with an argument it is refused BADARG. It changes nothing beyond the lease
renewal (R123). -/
def Obligations.PingReportsSession : Prop :=
  ∀ (s : State) (n : Port) (tag : Byte), s.Ready n →
    (s.attached n = true → ∃ t, exec (.ping n tag []) s = .next t ∧
        AnsweredOnly s t n tag .ping .ok
          ([0x01#8, (match s.sessions[n].role with | .normal => 0x00#8 | .supervisor => 0x01#8)] ++
            be16 s.sessions[n].lease)) ∧
      (s.attached n = false → ∃ t, exec (.ping n tag []) s = .next t ∧
        AnsweredOnly s t n tag .ping .ok [0x00#8]) ∧
      ∀ args : List Byte, args ≠ [] → args.length ≤ 72 → ∃ t, exec (.ping n tag args) s = .next t ∧
        AnsweredOnly s t n tag .ping .badarg []

/-- STATUS: OK in either session state, with the 14 bytes of the layout: session state, role, lease remaining
(that of the lease which this request restarts, one more than the period; 0 without a lease), threshold, queue
length, lost count, holds in use, PENDING and UNDELIVERED entries, last abandoned record. It changes nothing
else (R158, R164). That all the values are those of one state is the model's choice (log 15). -/
def Obligations.StatusReportsPort : Prop :=
  ∀ (s : State) (n : Port) (tag : Byte), s.Ready n → s.SessionsLawful →
    ∃ t, exec (.status n tag []) s = .next t ∧
      AnsweredOnly s t n tag .status .ok
        ([s.sessions[n].state.code, s.sessions[n].role.code] ++
          be16 (if s.sessions[n].lease = 0#16 then 0#16 else s.sessions[n].lease + 1#16) ++
          [byteOf s.sessions[n].threshold,
            byteOf (s.queues[n].entries.length + (if s.queues[n].lost.isSome then 1 else 0))] ++
          be16 (BitVec.ofNat 16 (s.queues[n].lost.getD 0)) ++
          [byteOf (s.holds[n].toList.countP Option.isSome),
            byteOf (s.requests.pending.countP fun e => decide (e.requester = n)),
            byteOf (s.requests.undelivered.countP fun e => decide (e.requester = n))] ++
          (match s.ports[n].lastAbandoned with
            | some c => [0x01#8, c.tag, c.code]
            | none => [0x00#8, 0x00#8, 0x00#8]))

/-- DETACH on an ATTACHED port: answered OK, and the port detaches with cause DETACH: every block does its part, and
each other port's queue takes the ORPHANED notices and ANSWERs that concern it, in the order of R92, and nothing else
(R23, R76, R92, R113, R124, R126). -/
def Obligations.DetachCommandDetaches : Prop :=
  ∀ (s : State) (n : Port) (tag : Byte), s.Ready n → s.attached n = true →
    ∃ t, exec (.detach n tag []) s = .next t ∧ Answered s t n tag .detach .ok [] ∧
      DetachedFrom s t n .detach ∧ Block.inputs.same s t

/-- LEASE_EXPIRY: when device time comes to the expiry time of the armed lease timer of an ATTACHED port, the
port detaches with cause LEASE, each other port's queue taking the ORPHANED notices and ANSWERs that concern it, and
nothing else, and no port interface changes (R92, R122, R126, R127). -/
def Obligations.LeaseExpiryDetaches : Prop :=
  ∀ (s : State) (n : Port) (e : Time), s.attached n = true → s.sessions[n].timer = some e → s.now = e →
    ∃ t, exec (.leaseExpiry n) s = .next t ∧ DetachedFrom s t n .lease ∧ t.ports = s.ports ∧
      Block.inputs.same s t

/-- A timer expires at its expiry time alone: at any other device time the lease expiry of a port, the freshness
expiry of a post and the deadline expiry of an ask change nothing (R11, R107, R122, R146). That an expiry taken at a
time at which it cannot occur changes nothing, and that it is taken before device time rises again, are the model's
choices (logs 4 and 11). -/
def Obligations.TimersDoNotExpireEarly : Prop :=
  ∀ (s : State) (e : Time), s.now ≠ e →
    (∀ n : Port, s.sessions[n].timer = some e → exec (.leaseExpiry n) s = .next s) ∧
      (∀ (p : PostNo) (r : Post), s.posts[p] = some r → r.deadline = some e →
        exec (.freshnessExpiry p) s = .next s) ∧
      (∀ ticket : Byte, (∀ a ∈ s.requests.pending, a.ticket = ticket → a.deadline + 1#32 = e) → s.LinesLawful →
        exec (.askDeadlineExpiry ticket) s = .next s)

/-- ADOPT of an ORPHANED post: it is BOUND to the adopting port and keeps the rest, ADOPTED goes to the
LIFECYCLE subscribers, and the answer carries the former producer, the generation and the condition; a VACANT
post is refused NOPOST and a BOUND one BADSTATE, with no effect (R128, R164). -/
def Obligations.AdoptBindsOrphanedPost : Prop :=
  ∀ (s : State) (n : Port) (tag : Byte) (p : PostNo), s.Ready n → s.attached n = true →
    (s.posts[p] = none → ∃ t, exec (.adopt n tag [postByte p]) s = .next t ∧
        AnsweredOnly s t n tag .adopt .nopost []) ∧
      (∀ (r : Post) (q : Port), s.posts[p] = some r → r.binding = .bound q →
        ∃ t, exec (.adopt n tag [postByte p]) s = .next t ∧ AnsweredOnly s t n tag .adopt .badstate []) ∧
      ∀ (r : Post) (q : Port), s.posts[p] = some r → r.binding = .orphaned q →
        ∃ t, exec (.adopt n tag [postByte p]) s = .next t ∧
          AnsweredChanging s t n tag .adopt .ok ([portByte q] ++ be16 r.generation ++ [r.condition.code])
            [.posts, .queues] ∧
          t.posts = put s.posts p (some { r with binding := .bound n }) ∧
          NoticeSent s t (.adopted p r.key n .adopt) r.key .lifecycle (some n) none

/-- TAKEOVER by a supervisor: NOPOST on a VACANT post, BADSTATE on an ORPHANED one and on one BOUND to itself,
with no effect; otherwise the post is BOUND to the supervisor, a FRESH one STALE, its deadline disarmed and its
publication overtaken with cause TAKEOVER; ADOPTED goes to the subscribers and to the displaced producer, whose
SOLICIT for the post is purged; if PENDING asks on the post remain, one SOLICIT with the oldest ticket and their
count goes to the supervisor (R112, R130, R131, R164). -/
def Obligations.TakeoverRebindsPost : Prop :=
  ∀ (s : State) (n : Port) (tag : Byte) (p : PostNo), s.Ready n → s.attached n = true →
    s.sessions[n].role = .supervisor →
    (s.posts[p] = none → ∃ t, exec (.takeover n tag [postByte p]) s = .next t ∧
        AnsweredOnly s t n tag .takeover .nopost []) ∧
      (∀ r : Post, s.posts[p] = some r → (r.binding = .bound n ∨ ∃ q, r.binding = .orphaned q) →
        ∃ t, exec (.takeover n tag [postByte p]) s = .next t ∧ AnsweredOnly s t n tag .takeover .badstate []) ∧
      ∀ (r : Post) (q : Port), s.posts[p] = some r → r.binding = .bound q → q ≠ n →
        ∃ t, exec (.takeover n tag [postByte p]) s = .next t ∧
          AnsweredChanging s t n tag .takeover .ok ([portByte q] ++ be16 r.generation) [.posts, .slots, .queues] ∧
          t.posts = put s.posts p (some
            { r with
              binding := .bound n, condition := (if r.condition = .fresh then .stale else r.condition),
              deadline := none, inFlight := none }) ∧
          (∀ m : Port, t.slots[m] =
            if r.inFlight.map InFlight.port = some m then
              (s.slots[m]).map (fun x => { x with overtaken := some .takeover })
            else s.slots[m]) ∧
          ∀ m : Port,
            let told := if s.recipients r.key .lifecycle (some n) (some q) m then
                s.queues[m].arrive (.adopted p r.key n .takeover) else s.queues[m]
            t.queues[m] =
              if m = q then { told with entries := told.entries.filter fun e => !e.isSolicitOf p }
              else if m = n then
                (match s.requests.pending.filter (fun e => decide (e.post = p)) with
                  | [] => told
                  | e :: es => told.arrive (.solicit p r.key e.ticket (es.length + 1)))
              else told

/-- REVOKE by a supervisor vacates any occupied post, answering its key and generation, and is refused NOPOST on
a VACANT one; WITHDRAW vacates a post BOUND to its port, and is refused NOPOST on a VACANT post and NOTPRODUCER
on any other, with no effect (R15, R16, R133, R164). Each queue loses its UPDATE and SOLICIT entries for the post and
takes the ANSWERs and the WITHDRAWN notice that concern its port, and nothing else (R84, R94, R106). That a WITHDRAW that finds a publication in flight overtakes it
with the cause of a REVOKE is the model's choice (log 13). -/
def Obligations.RevokeAndWithdrawVacate : Prop :=
  ∀ (s : State) (n : Port) (tag : Byte) (p : PostNo), s.Ready n → s.attached n = true →
    (s.posts[p] = none → ∃ t, exec (.withdraw n tag [postByte p]) s = .next t ∧
        AnsweredOnly s t n tag .withdraw .nopost []) ∧
      (∀ r : Post, s.posts[p] = some r → r.binding ≠ .bound n → ∃ t,
        exec (.withdraw n tag [postByte p]) s = .next t ∧ AnsweredOnly s t n tag .withdraw .notproducer []) ∧
      (∀ r : Post, s.posts[p] = some r → r.binding = .bound n → ∃ t,
        exec (.withdraw n tag [postByte p]) s = .next t ∧
          AnsweredChanging s t n tag .withdraw .ok [] [.posts, .slots, .pool, .queues, .requests] ∧
          Vacated s t p r .producer n) ∧
      (s.sessions[n].role = .supervisor → s.posts[p] = none → ∃ t,
        exec (.revoke n tag [postByte p]) s = .next t ∧ AnsweredOnly s t n tag .revoke .nopost []) ∧
      (s.sessions[n].role = .supervisor → ∀ r : Post, s.posts[p] = some r → ∃ t,
        exec (.revoke n tag [postByte p]) s = .next t ∧
          AnsweredChanging s t n tag .revoke .ok (be16 r.key ++ be16 r.generation)
            [.posts, .slots, .pool, .queues, .requests] ∧
          Vacated s t p r .supervisor n)

/-! ### The post table -/

/-- DECLARE of a key that no occupied post holds, for a named VACANT post or, under ANY, the lowest VACANT one:
the post is OCCUPIED with the key, BOUND to the port, EMPTY, generation 0 and the fields of the command;
APPEARED goes to the LIFECYCLE subscribers; the answer is the post number (R12, R13, R164). DECLARE is refused,
in this order and with no effect: KEYINUSE, with the post's number, for a key that an occupied post holds;
BADSTATE for a named post that is OCCUPIED; NOPOSTFREE for ANY with no post VACANT (R12). -/
def Obligations.DeclareOccupiesOrIsRefused : Prop :=
  (∀ (s : State) (n : Port) (tag : Byte) (sel : Selector) (key : Half) (capacity : Nat) (period : Half)
     (mode : AnswerMode) (p : PostNo),
     s.Ready n → s.attached n = true → (Request.declare sel key capacity period mode).legal = true →
       (∀ (q : PostNo) (r : Post), s.posts[q] = some r → r.key ≠ key) → s.posts[p] = none →
       (sel = .post p ∨ sel = .any ∧ ∀ q : PostNo, q < p → s.posts[q] ≠ none) →
         ∃ t, exec (.declare n tag (Request.declare sel key capacity period mode).args) s = .next t ∧
           AnsweredChanging s t n tag .declare .ok [postByte p] [.posts, .queues] ∧
           t.posts = put s.posts p (some
             { key := key, binding := .bound n, condition := .empty, cause := none, generation := 0#16,
               current := none, capacity := capacity, period := period, deadline := none, mode := mode,
               inFlight := none }) ∧
           NoticeSent s t (.appeared p key n) key .lifecycle (some n) none) ∧
    (∀ (s : State) (n : Port) (tag : Byte) (sel : Selector) (key : Half) (capacity : Nat) (period : Half)
       (mode : AnswerMode),
       s.Ready n → s.attached n = true → (Request.declare sel key capacity period mode).legal = true →
         (∀ (q : PostNo) (r : Post), s.KeysDistinct → s.posts[q] = some r → r.key = key →
           ∃ t, exec (.declare n tag (Request.declare sel key capacity period mode).args) s = .next t ∧
             AnsweredOnly s t n tag .declare .keyinuse [postByte q]) ∧
         ((∀ (q : PostNo) (r : Post), s.posts[q] = some r → r.key ≠ key) → ∀ p : PostNo, sel = .post p →
           s.posts[p] ≠ none →
           ∃ t, exec (.declare n tag (Request.declare sel key capacity period mode).args) s = .next t ∧
             AnsweredOnly s t n tag .declare .badstate []) ∧
         ((∀ (q : PostNo) (r : Post), s.posts[q] = some r → r.key ≠ key) → sel = .any →
           (∀ p : PostNo, s.posts[p] ≠ none) →
           ∃ t, exec (.declare n tag (Request.declare sel key capacity period mode).args) s = .next t ∧
             AnsweredOnly s t n tag .declare .nopostfree []))

/-- DESCRIBE by number, or by the key of an occupied post, answers OK with the 29 bytes of the post's record as
it stands, those of a VACANT post being the absent values; DESCRIBE by a key that no post holds is refused
NOPOST. It changes nothing (R18, R19, R164). The time remaining to an armed deadline is from 1 to 65536; that it is 1
while the expiry of this very boundary is still to be taken is the model's choice (log 11). -/
def Obligations.DescribeReportsPost : Prop :=
  ∀ (s : State) (n : Port) (tag : Byte) (p : PostNo) (key : Half), s.Ready n → s.attached n = true →
    let left (e : Time) : Time := if e = s.now then 1#32 else e - s.now
    let record (r : Post) : List Byte :=
      [postByte p, 0x01#8] ++ be16 r.key ++
        [(match r.binding with | .bound m => portByte m | .orphaned m => 0x80#8 + portByte m),
          (match r.condition with | .empty => 0x00#8 | .fresh => 0x01#8 | .stale => 0x02#8 | .damaged => 0x03#8),
          (match r.cause with | none => 0x00#8 | some .check => 0x01#8 | some .lapse => 0x02#8)] ++
        be16 r.generation ++
        [(match r.current with | some c => byteOf c.frame.val | none => 0xFF#8),
          (match r.current with | some c => byteOf c.length | none => 0x00#8), byteOf r.capacity] ++
        be32 (match r.current with | some c => c.stamp | none => 0#32) ++
        be32 (match r.current with | some c => s.now - c.stamp | none => 0#32) ++ be16 r.period ++
        [(match r.mode with | .auto => 0x00#8 | .forward => 0x01#8)] ++
        be32 (match r.deadline with | some e => left e | none => 0#32) ++
        [(match r.inFlight with | some i => portByte i.port | none => 0xFF#8),
          byteOf (s.requests.pending.countP fun e => decide (e.post = p))]
    (∀ r : Post, s.posts[p] = some r → ∃ t, exec (.describe n tag [postByte p]) s = .next t ∧
        AnsweredOnly s t n tag .describe .ok (record r) ∧ (record r).length = 29) ∧
      (∀ (r : Post) (e : Time), s.TimersAhead → s.posts[p] = some r → r.deadline = some e →
        1 ≤ (left e).toNat ∧ (left e).toNat ≤ 65536) ∧
      (s.posts[p] = none → ∃ t, exec (.describe n tag [postByte p]) s = .next t ∧
        AnsweredOnly s t n tag .describe .ok
          ([postByte p, 0x00#8, 0x00#8, 0x00#8, 0xFF#8, 0xFF#8, 0x00#8, 0x00#8, 0x00#8, 0xFF#8, 0x00#8, 0x00#8] ++
            List.replicate 10 0x00#8 ++ [0xFF#8] ++ List.replicate 4 0x00#8 ++ [0xFF#8, 0x00#8])) ∧
      (isKey key = true → ∀ r : Post, s.KeysDistinct → s.posts[p] = some r → r.key = key →
        ∃ t, exec (.describe n tag (be16 key)) s = .next t ∧ AnsweredOnly s t n tag .describe .ok (record r)) ∧
      (isKey key = true → (∀ (q : PostNo) (r : Post), s.posts[q] = some r → r.key ≠ key) →
        ∃ t, exec (.describe n tag (be16 key)) s = .next t ∧ AnsweredOnly s t n tag .describe .nopost [])

/-- FRESHNESS_EXPIRY: when device time comes to the expiry time of a post's armed freshness deadline, the post
becomes STALE and its deadline is disarmed, and STALE goes to the LIFECYCLE subscribers and to the port to which
the post is BOUND; nothing else changes (R10, R11). -/
def Obligations.FreshnessExpiryMakesStale : Prop :=
  ∀ (s : State) (p : PostNo) (r : Post) (e : Time), s.posts[p] = some r → r.deadline = some e → s.now = e →
    ∃ t, exec (.freshnessExpiry p) s = .next t ∧
      t.posts = put s.posts p (some { r with condition := .stale, deadline := none }) ∧
      NoticeSent s t (.stale p r.key) r.key .lifecycle none
        (match r.binding with | .bound n => some n | .orphaned _ => none) ∧
      t.LinesLawful ∧ Unchanged s t [.posts, .queues]

/-! ### Publishing -/

/-- PUBLISH of a post BOUND to the port, with a payload within its capacity and a frame free: the head of the
free list is the staging frame with count 1, the post names it in flight, the port's slot holds the publication,
WAITING, and its place with the arbiter a write; if the notice is armed, the mark not 0 and the free count left
at most the mark, POOL_LOW goes to every ATTACHED port and the notice is disarmed. The command is outstanding
(R28, R29, R48, R54, R56). PUBLISH is refused, in this order and with no effect: NOPOST on a VACANT post,
NOTPRODUCER on one not BOUND to the port, TOOLONG above the post's capacity, NOFRAME with an empty free list
(R28, R53). -/
def Obligations.PublishStagesFrameOrIsRefused : Prop :=
  (∀ (s : State) (n : Port) (tag : Byte) (p : PostNo) (r : Post) (payload : List Byte) (f : FrameNo)
     (rest : List FrameNo),
     s.Ready n → s.attached n = true → s.posts[p] = some r → r.binding = .bound n → payload.length ≤ 60 →
       payload.length ≤ r.capacity → s.pool.free = f :: rest →
         ∃ t, exec (.publish n tag (postByte p :: payload)) s = .next t ∧
           ExecutingChanging s t n tag .publish [.posts, .slots, .pool, .arbiter, .queues] ∧
           t.posts = put s.posts p (some { r with inFlight := some { frame := f, port := n } }) ∧
           t.slots = put s.slots n (some
             { post := p, frame := f, payload := payload, phase := .waiting, overtaken := none }) ∧
           t.arbiter = { s.arbiter with places := put s.arbiter.places n (some .write) } ∧
           t.pool.frames = put s.pool.frames f { refs := 1, suspect := s.pool.frames[f].suspect } ∧
           t.pool.free = rest ∧ t.pool.mark = s.pool.mark ∧
           (s.pool.armed = true ∧ s.pool.mark ≠ 0 ∧ rest.length ≤ s.pool.mark →
             t.pool.armed = false ∧
               ∀ m : Port, t.queues[m] =
                 if s.attached m then s.queues[m].arrive (.poolLow rest.length) else s.queues[m]) ∧
           (¬ (s.pool.armed = true ∧ s.pool.mark ≠ 0 ∧ rest.length ≤ s.pool.mark) →
             t.pool.armed = s.pool.armed ∧ t.queues = s.queues)) ∧
    (∀ (s : State) (n : Port) (tag : Byte) (p : PostNo) (payload : List Byte),
       s.Ready n → s.attached n = true → payload.length ≤ 60 →
         (s.posts[p] = none → ∃ t, exec (.publish n tag (postByte p :: payload)) s = .next t ∧
           AnsweredOnly s t n tag .publish .nopost []) ∧
         ∀ r : Post, s.posts[p] = some r →
           (r.binding ≠ .bound n → ∃ t, exec (.publish n tag (postByte p :: payload)) s = .next t ∧
             AnsweredOnly s t n tag .publish .notproducer []) ∧
           (r.binding = .bound n → r.capacity < payload.length →
             ∃ t, exec (.publish n tag (postByte p :: payload)) s = .next t ∧
               AnsweredOnly s t n tag .publish .toolong []) ∧
           (r.binding = .bound n → payload.length ≤ r.capacity → s.pool.free = [] →
             ∃ t, exec (.publish n tag (postByte p :: payload)) s = .next t ∧
               AnsweredOnly s t n tag .publish .noframe []))

/-- WRITE_COMPLETION that is GOOD, of a publication not overtaken: the commit. The row holds the four parts of
R30 and every byte outside it is as before; the staging frame becomes the post's current frame with a clear
suspect flag, the generation rises by one, 65535 being followed by 1, the length and stamp are the
publication's, the post is FRESH without a damage cause, its deadline armed exactly with a period; the former
frame is released; each port's queue receives the UPDATE if it concerns the port, then the ANSWERs of its asks on the
post, completed DELIVERED in the order of asking, and nothing else, an ANSWER that is refused leaving its entry
UNDELIVERED; the command completes OK with the generation (R30, R31, R33, R34, R91, R105, R109). The slot is that of a
port whose outstanding command is the publication, so its read record is empty (R26). That a pattern gives the bytes
read back is the model's choice (log 8), as is the byte order of the check word (log 25). -/
def Obligations.GoodWriteCommits : Prop :=
  ∀ (s : State) (n : Port) (x : Publication) (r : Post) (disturb : List Byte),
    s.array.access = some (.write n) → s.slots[n] = some x → x.overtaken = none → s.posts[x.post] = some r →
      s.ports[n].outstanding.isSome → s.reads[n] = none →
      disturbed (rowOf x.post x.payload) disturb = rowOf x.post x.payload →
        let g := if r.generation = 0xFFFF#16 then 0x0001#16 else r.generation + 1#16
        ∃ t, exec (.writeCompletion disturb) s = .next t ∧
          t.array.access = none ∧ readRow t.epoch x.frame t.array.mem = rowOf x.post x.payload ∧
          (∀ a : Nat, a < rowAddress x.frame ∨ rowAddress x.frame + 64 ≤ a →
            Memory.read a t.array.mem = Memory.read a s.array.mem) ∧
          t.posts = put s.posts x.post (some
            { r with
              current := some { frame := x.frame, length := x.payload.length, stamp := s.now }
              generation := g, condition := .fresh, cause := none
              deadline := if r.period = 0#16 then none else some (s.now + r.period.zeroExtend 32 + 1#32)
              inFlight := none }) ∧
          t.slots = put s.slots n none ∧
          (let cleared := { s.pool with
              frames := put s.pool.frames x.frame { s.pool.frames[x.frame] with suspect := false } };
            t.pool = match r.current with | some c => cleared.release c.frame | none => cleared) ∧
          t.requests.pending = s.requests.pending.filter (fun e => decide (e.post ≠ x.post)) ∧
          t.requests.counter = s.requests.counter ∧
          Received s t (fun m => s.queues[m]) s.requests.undelivered
            (completions s.requests.pending x.post (.delivered g))
            (fun m =>
              (if s.recipients r.key .updates (some n) none m then [.notice (.update x.post r.key g 1)] else []) ++
                offersTo (completions s.requests.pending x.post (.delivered g)) m) ∧
          CompletedWith s t n .ok (be16 g) ∧ t.LinesLawful ∧
          Unchanged s t [.array, .posts, .slots, .pool, .queues, .requests, .ports]

/-- WRITE_COMPLETION of an overtaken publication, GOOD or FAULT, commits nothing: its staging frame is released
and the command completes REVOKED after a REVOKE or a TAKEOVER and SESSIONLOST after a detach (R37). A FAULT
completion of one not overtaken fails it: the post loses its publication-in-flight field alone, the frame is
released, the answer is ARRAYFAULT (R32). The row holds the bytes that the array read back, and every byte
outside it is as before. That a pattern gives these bytes, and that they stand in the row from then on, are the model's
choices (log 8), as is the byte order of the check word (log 25). -/
def Obligations.FaultyOrOvertakenWriteCommitsNothing : Prop :=
  ∀ (s : State) (n : Port) (x : Publication) (disturb : List Byte),
    s.array.access = some (.write n) → s.slots[n] = some x → s.ports[n].outstanding.isSome → s.reads[n] = none →
      (x.overtaken ≠ none ∨ disturbed (rowOf x.post x.payload) disturb ≠ rowOf x.post x.payload) →
        ∃ t, exec (.writeCompletion disturb) s = .next t ∧
          t.array.access = none ∧
          readRow t.epoch x.frame t.array.mem = disturbed (rowOf x.post x.payload) disturb ∧
          (∀ a : Nat, a < rowAddress x.frame ∨ rowAddress x.frame + 64 ≤ a →
            Memory.read a t.array.mem = Memory.read a s.array.mem) ∧
          t.slots = put s.slots n none ∧
          (let flagged := { s.pool with
              frames := put s.pool.frames x.frame
                { s.pool.frames[x.frame] with
                  suspect := decide (disturbed (rowOf x.post x.payload) disturb ≠ rowOf x.post x.payload) } };
            t.pool = flagged.release x.frame) ∧
          (x.overtaken ≠ none → t.posts = s.posts) ∧
          (x.overtaken = none → ∀ r, s.posts[x.post] = some r →
            t.posts = put s.posts x.post (some { r with inFlight := none })) ∧
          CompletedWith s t n
            (match x.overtaken with
              | none => .arrayfault | some .revoke => .revoked | some .takeover => .revoked
              | some .session => .sessionlost) [] ∧
          Unchanged s t [.array, .posts, .slots, .pool, .ports] ∧ t.pins = s.pins

/-! ### Reading -/

/-- READ of a post with a current frame: one more reference on the frame, the port's read record filled from the
post, WAITING and with its pin, and a read in its place with the arbiter; the command is outstanding. NOPOST on
a VACANT post and NODATA on one without a current frame, with no effect (R63, R64). READ HELD of a hold in use:
one more reference on the held frame, the read record filled from the hold, and a read in the port's place with
the arbiter; the command is outstanding and the hold stays. An unused hold is refused NOHOLD, with no effect
(R73). -/
def Obligations.ReadAndReadHeldPinFrame : Prop :=
  (∀ (s : State) (n : Port) (tag : Byte) (p : PostNo), s.Ready n → s.attached n = true →
     (s.posts[p] = none → ∃ t, exec (.read n tag [postByte p]) s = .next t ∧
         AnsweredOnly s t n tag .read .nopost []) ∧
       (∀ r : Post, s.posts[p] = some r → r.current = none → ∃ t, exec (.read n tag [postByte p]) s = .next t ∧
         AnsweredOnly s t n tag .read .nodata []) ∧
       ∀ (r : Post) (c : Current), s.posts[p] = some r → r.current = some c →
         ∃ t, exec (.read n tag [postByte p]) s = .next t ∧
           ExecutingChanging s t n tag .read [.pool, .reads, .arbiter] ∧
           t.pool = { s.pool with
             frames := put s.pool.frames c.frame
               { s.pool.frames[c.frame] with refs := s.pool.frames[c.frame].refs + 1 } } ∧
           t.reads = put s.reads n (some
             { kind := .post r.binding r.condition, post := p, key := r.key, frame := c.frame,
               generation := r.generation, length := c.length, phase := .waiting, pin := true, cutOff := false }) ∧
           t.arbiter = { s.arbiter with places := put s.arbiter.places n (some .read) }) ∧
    (∀ (s : State) (n : Port) (tag : Byte) (h : HoldNo), s.Ready n → s.attached n = true →
       (s.holds[n][h] = none → ∃ t, exec (.readHeld n tag [byteOf h.val]) s = .next t ∧
           AnsweredOnly s t n tag .readHeld .nohold []) ∧
         ∀ x : Hold, s.holds[n][h] = some x →
           ∃ t, exec (.readHeld n tag [byteOf h.val]) s = .next t ∧
             ExecutingChanging s t n tag .readHeld [.pool, .reads, .arbiter] ∧
             t.pool = { s.pool with
               frames := put s.pool.frames x.frame
                 { s.pool.frames[x.frame] with refs := s.pool.frames[x.frame].refs + 1 } } ∧
             t.reads = put s.reads n (some
               { kind := .held h, post := x.post, key := x.key, frame := x.frame, generation := x.generation,
                 length := x.length, phase := .waiting, pin := true, cutOff := false }) ∧
             t.arbiter = { s.arbiter with places := put s.arbiter.places n (some .read) })

/-- READ_COMPLETION of a read that is not cut off. The row read is GOOD when its check word, length and post
number agree with its bytes and the record; GOOD on an unsuspected frame answers OK with the payload, anything
else answers DAMAGED, sets the frame's flag, and damages the post if the frame is still its current one and it
is not DAMAGED, with cause LAPSE if the frame was suspect before and CHECK otherwise, when DAMAGED goes to the
subscribers and the producer (R20, R65 to R67, R74, R136, R164). The array's bytes do not change.
READ_COMPLETION of a read that a detach has cut off: whatever the row holds, the read record is emptied and the
command completes SESSIONLOST; pool, posts and queues are as before (R77). That the row read is the stored row under a
pattern, which leaves the array's bytes as they were, is the model's choice (log 8), as are the value of a byte that
nothing has written (log 7) and the byte order of the check word (log 25). -/
def Obligations.ReadCompletionAnswers : Prop :=
  (∀ (s : State) (n : Port) (r : ReadRecord) (disturb : List Byte),
     s.array.access = some (.read n) → s.reads[n] = some r → r.phase = .reading → r.cutOff = false →
       s.ports[n].outstanding.isSome →
         let row := disturbed (readRow s.epoch r.frame s.array.mem) disturb
         let good := row.drop 62 = be16 (crc16 (row.take 62)) ∧ row[60]? = some (byteOf r.length) ∧
           row[61]? = some (postByte r.post)
         let suspect := s.pool.frames[r.frame].suspect
         let header : List Byte := match r.kind with
           | .post _ _ => [postByte r.post] ++ be16 r.key ++ be16 r.generation
           | .held h => [byteOf h.val, postByte r.post] ++ be16 r.key ++ be16 r.generation ++
               be16 (match s.posts[r.post] with | some o => if o.key = r.key then o.generation else 0#16 | none => 0#16)
         let recorded : List Byte := match r.kind with
           | .post b c => [b.code, c.code, byteOf r.length]
           | .held h => [byteOf r.length, (match s.holds[n][h] with | some x => x.condition.code | none => 0xFF#8)]
         ∃ t, exec (.readCompletion disturb) s = .next t ∧
           t.array = { s.array with access := none } ∧ (s.LinesLawful → t.LinesLawful) ∧
           (good ∧ suspect = false →
             CompletedWith s t n .ok (header ++ recorded ++ row.take r.length) ∧
               Unchanged s t [.array, .reads, .pool, .ports]) ∧
           (¬ good ∨ suspect = true →
             CompletedWith s t n .damaged
                 (header ++ match r.kind with | .post _ _ => [byteOf r.length] | .held _ => recorded) ∧
               Unchanged s t [.array, .reads, .pool, .ports, .posts, .queues] ∧
               (∀ o, s.posts[r.post] = some o → o.current.map Current.frame = some r.frame →
                 o.condition ≠ .damaged →
                   t.posts = put s.posts r.post (some
                     { o with
                       condition := .damaged, cause := some (if suspect then .lapse else .check),
                       deadline := none }) ∧
                   (suspect = true → t.queues = s.queues) ∧
                   (suspect = false → NoticeSent s t (.damaged r.post o.key .check) o.key .lifecycle none
                     (match o.binding with | .bound m => some m | .orphaned _ => none))) ∧
               ((∀ o, s.posts[r.post] = some o →
                   o.current.map Current.frame ≠ some r.frame ∨ o.condition = .damaged) →
                 t.posts = s.posts ∧ t.queues = s.queues)) ∧
           (let flagged := { s.pool with
               frames := put s.pool.frames r.frame
                 { s.pool.frames[r.frame] with suspect := suspect || !decide good } };
             (s.ports[n].discard = false →
               t.reads = put s.reads n (some { r with phase := .answering }) ∧ t.pool = flagged) ∧
             (s.ports[n].discard = true →
               t.reads = put s.reads n none ∧
                 t.pool = if r.pin then flagged.release r.frame else flagged))) ∧
    (∀ (s : State) (n : Port) (r : ReadRecord) (disturb : List Byte),
       s.array.access = some (.read n) → s.reads[n] = some r → r.cutOff = true → s.ports[n].outstanding.isSome →
         ∃ t, exec (.readCompletion disturb) s = .next t ∧ t.array = { s.array with access := none } ∧
           t.reads = put s.reads n none ∧ CompletedWith s t n .sessionlost [] ∧
           Unchanged s t [.array, .reads, .ports] ∧ t.pins = s.pins)

/-- SNAPSHOT of a list of 1 to 8 different posts, with as many hold entries unused: taken as one event. The
posts that are OCCUPIED with a current frame are held, in the order of the list, in the lowest unused entries in
ascending order, and each adds a reference to its frame; the answer has one entry per listed post, in list
order; holds in use stay. With fewer entries unused it is refused HOLDSFULL, with no effect (R70, R71, R164). -/
def Obligations.SnapshotHoldsListedPosts : Prop :=
  ∀ (s : State) (n : Port) (tag : Byte) (ps : List PostNo),
    s.Ready n → s.attached n = true → 1 ≤ ps.length → ps.length ≤ 8 → ps.Nodup →
      let unused := (List.finRange 8).filter fun h : HoldNo => (s.holds[n][h]).isNone
      let hasData := fun p : PostNo => ((s.posts[p]).bind Post.current).isSome
      let held := ps.filter hasData
      (unused.length < ps.length → ∃ t, exec (.snapshot n tag (ps.map postByte)) s = .next t ∧
        AnsweredOnly s t n tag .snapshot .holdsfull []) ∧
      (ps.length ≤ unused.length → ∃ t, exec (.snapshot n tag (ps.map postByte)) s = .next t ∧
        AnsweredChanging s t n tag .snapshot .ok
          (ps.flatMap fun p => match s.posts[p] with
            | none => [postByte p, 0x08#8, 0xFF#8, 0x00#8, 0x00#8, 0xFF#8]
            | some r =>
              if hasData p then
                [postByte p, 0x00#8, byteOf ((unused.getD (held.idxOf p) 0).val)] ++ be16 r.generation ++
                  [r.condition.code]
              else [postByte p, 0x0F#8, 0xFF#8, 0x00#8, 0x00#8, 0xFF#8])
          [.pool, .holds] ∧
        (∀ p ∈ held, ∀ (r : Post) (c : Current), s.posts[p] = some r → r.current = some c →
          t.holds[n][unused.getD (held.idxOf p) 0] = some
            { post := p, key := r.key, frame := c.frame, generation := r.generation, length := c.length,
              condition := r.condition }) ∧
        (∀ h : HoldNo, h ∉ unused.take held.length → t.holds[n][h] = s.holds[n][h]) ∧
        (∀ m : Port, m ≠ n → t.holds[m] = s.holds[m]) ∧
        t.pool.free = s.pool.free ∧ t.pool.mark = s.pool.mark ∧ t.pool.armed = s.pool.armed ∧
        ∀ f : FrameNo, t.pool.frames[f].suspect = s.pool.frames[f].suspect ∧
          t.pool.frames[f].refs = s.pool.frames[f].refs +
            held.countP fun p => decide (((s.posts[p]).bind Post.current).map Current.frame = some f))

/-- RELEASE: the flagged holds in use become unused, their frames are released in ascending order of hold
number, and the answer is the mask of the holds released (R50, R75). -/
def Obligations.ReleaseFreesFlaggedHolds : Prop :=
  ∀ (s : State) (n : Port) (tag mask : Byte), s.Ready n → s.attached n = true →
    ∃ t released, exec (.release n tag [mask]) s = .next t ∧
      (∀ k : Nat, k < 8 → ((released : Byte).getLsbD k = true ↔
        mask.getLsbD k = true ∧ ∃ h : HoldNo, h.val = k ∧ (s.holds[n][h]).isSome)) ∧
      AnsweredChanging s t n tag .release .ok [released] [.pool, .holds] ∧
      (∀ h : HoldNo, t.holds[n][h] = if mask.getLsbD h.val then none else s.holds[n][h]) ∧
      (∀ m : Port, m ≠ n → t.holds[m] = s.holds[m]) ∧
      t.pool = s.pool.releaseAll ((List.finRange 8).filterMap fun h : HoldNo =>
        if mask.getLsbD h.val then (s.holds[n][h]).map Hold.frame else none)

/-! ### Filters and notice queues -/

/-- A filter matches a key exactly when the key and the filter's key value agree in every bit that is set in its
mask; a mask of 0000h matches every key, and with a mask of FFFFh the key value alone (R81). A filtered notice
about key k goes to an ATTACHED port exactly if it is the notice's fixed recipient, or one of its valid filters
matches the key, has the flag that the kind requires and, for the port's own action, ECHO (R84). -/
def Obligations.MatchUnitChoosesRecipients : Prop :=
  (∀ (f : Filter) (k : Half),
     (f.matchesKey k = true ↔ ∀ i : Nat, i < 16 → f.mask.getLsbD i = true → k.getLsbD i = f.value.getLsbD i) ∧
       (f.mask = 0x0000#16 → f.matchesKey k = true) ∧
       (f.mask = 0xFFFF#16 → (f.matchesKey k = true ↔ k = f.value))) ∧
    (∀ (s : State) (k : Half) (flag : FilterFlag) (acting fixed : Option Port) (n : Port),
       s.recipients k flag acting fixed n = true ↔
         s.attached n = true ∧
           (fixed = some n ∨
             ∃ (i : FilterNo) (f : Filter), s.filters[n][i] = some f ∧ k &&& f.mask = f.value &&& f.mask ∧
               (match flag with | .updates => f.updates | .lifecycle => f.lifecycle) = true ∧
               (acting = some n → f.echo = true)))

/-- FILTER SET makes the named filter valid with the fields of the command, replacing what it was; the other
filters, the queues and everything else but the lease stay (R82). FILTER CLEAR makes the named filter invalid,
or all eight for the index FFh; everything else but the lease stays (R83). -/
def Obligations.FilterSetAndClearChangeFilters : Prop :=
  (∀ (s : State) (n : Port) (tag : Byte) (i : FilterNo) (f : Filter), s.Ready n → s.attached n = true →
     ∃ t, exec (.filterSet n tag (Request.filterSet i f).args) s = .next t ∧
       AnsweredChanging s t n tag .filterSet .ok [] [.filters] ∧
       ∀ (m : Port) (j : FilterNo), t.filters[m][j] = if m = n ∧ j = i then some f else s.filters[m][j]) ∧
    (∀ (s : State) (n : Port) (tag : Byte), s.Ready n → s.attached n = true →
       (∀ i : FilterNo, ∃ t, exec (.filterClear n tag [byteOf i.val]) s = .next t ∧
           AnsweredChanging s t n tag .filterClear .ok [] [.filters] ∧
           ∀ (m : Port) (j : FilterNo), t.filters[m][j] = if m = n ∧ j = i then none else s.filters[m][j]) ∧
         ∃ t, exec (.filterClear n tag [0xFF#8]) s = .next t ∧
           AnsweredChanging s t n tag .filterClear .ok [] [.filters] ∧
           ∀ (m : Port) (j : FilterNo), t.filters[m][j] = if m = n then none else s.filters[m][j])

/-- An UPDATE that finds one for the same post waiting merges into it, and a SOLICIT, whatever its own count of
askers, into a waiting SOLICIT: the entry keeps its place (and a SOLICIT its first ticket), takes the new generation,
and counts one more, to at most 255 and 16; every other entry, length and marker stay (R88, R89, R112). -/
def Obligations.WaitingNoticesCoalesce : Prop :=
  ∀ (q : NoticeQueue) (before after : List Notice) (p : PostNo) (k k' : Half),
    (∀ (g g' : Half) (c : Nat), (∀ e ∈ before ++ after, e.isUpdateOf p = false) →
        q.entries = before ++ .update p k g c :: after →
        q.arrive (.update p k' g' 1) =
          { q with entries := before ++ .update p k g' (if c < 255 then c + 1 else 255) :: after }) ∧
      ∀ (t t' : Byte) (a a' : Nat), (∀ e ∈ before ++ after, e.isSolicitOf p = false) →
        q.entries = before ++ .solicit p k t a :: after →
        q.arrive (.solicit p k' t' a') =
          { q with entries := before ++ .solicit p k t (if a < 16 then a + 1 else 16) :: after }

/-- A notice that does not coalesce: with a LOST marker it is dropped and the lost count rises by one, to at
most 65535; without one, on 31 ordinary entries, it is dropped and a marker with count 1 is appended; otherwise
it is the newest entry (R90). -/
def Obligations.NewNoticeAppendedOrCounted : Prop :=
  ∀ (q : NoticeQueue) (x : Notice), (∀ ticket p o g, x ≠ .answer ticket p o g) →
    (∀ p : PostNo, x.isUpdateOf p = true → ∀ e ∈ q.entries, e.isUpdateOf p = false) →
      (∀ p : PostNo, x.isSolicitOf p = true → ∀ e ∈ q.entries, e.isSolicitOf p = false) →
        (∀ k, q.lost = some k → q.arrive x = { q with lost := some (if k < 65535 then k + 1 else 65535) }) ∧
        (q.lost = none → 31 ≤ q.entries.length → q.arrive x = { q with lost := some 1 }) ∧
        (q.lost = none → q.entries.length < 31 → q.arrive x = { q with entries := q.entries ++ [x] })

/-- TAKE of 1 to 4: the oldest entries are removed and returned, the LOST marker counting as the last; then the
port's UNDELIVERED answers are appended, oldest first, while fewer than 31 ordinary entries wait and no marker
is present, and leave the table; the answer carries the number and the entries removed (R91, R93, R110). -/
def Obligations.TakeRemovesOldestThenDelivers : Prop :=
  ∀ (s : State) (n : Port) (tag : Byte) (k : Nat), s.Ready n → s.attached n = true → 1 ≤ k → k ≤ 4 →
    s.TicketsLawful →
      let q := s.queues[n]
      let markerTaken := decide (q.entries.length < k) && q.lost.isSome
      let left := q.entries.drop k
      let lostLeft := if q.entries.length < k then none else q.lost
      let room := if lostLeft.isSome then 0 else 31 - left.length
      let mine := s.requests.undelivered.filter fun e => decide (e.requester = n)
      ∃ t, exec (.take n tag [byteOf k]) s = .next t ∧
        AnsweredChanging s t n tag .take .ok
          (byteOf ((q.entries.take k).length + if markerTaken then 1 else 0) ::
            ((q.entries.take k).map Notice.bytes).flatten ++
              if markerTaken then lostBytes (q.lost.getD 0) else [])
          [.queues, .requests] ∧
        t.queues = put s.queues n
          { entries := left ++ (mine.take room).map UndeliveredAsk.answer, lost := lostLeft } ∧
        t.requests.pending = s.requests.pending ∧ t.requests.counter = s.requests.counter ∧
        t.requests.undelivered = s.requests.undelivered.filter fun e => decide (e ∉ mine.take room)

/-! ### Asking -/

/-- The entry that an ASK makes is issued the first ticket that no entry of the table holds, searching upward
from the value after the last ticket issued and counting 1 to 255, 255 being followed by 1 (R100). -/
def Obligations.TicketIsFirstFreeValue : Prop :=
  ∀ x : RequestTable, x.pending.length + x.undelivered.length < 16 →
    let after (k : Nat) : Byte := BitVec.ofNat 8 ((x.counter.toNat + k) % 255 + 1)
    ∃ k : Nat, k < 16 ∧ x.nextTicket = after k ∧
      x.nextTicket ∉ x.pending.map PendingAsk.ticket ++ x.undelivered.map UndeliveredAsk.ticket ∧
      ∀ j : Nat, j < k → after j ∈ x.pending.map PendingAsk.ticket ++ x.undelivered.map UndeliveredAsk.ticket

/-- ASK of a post BOUND to another port that no check answers or refuses makes a PENDING entry at the end of the
order of asking, with the next ticket, the post's generation and the deadline device time plus timeout; the
producer's queue receives a SOLICIT with that ticket and a count of 1; the answer is QUEUED with the ticket
(R101, R103, R104). -/
def Obligations.AskMakesEntry : Prop :=
  ∀ (s : State) (n : Port) (tag : Byte) (p : PostNo) (maxAge timeout : Half) (r : Post) (q : Port),
    s.Ready n → s.attached n = true → timeout ≠ 0#16 → s.posts[p] = some r → r.binding = .bound q → q ≠ n →
      (∀ c, r.current = some c → r.mode = .auto → r.condition = .fresh → maxAge.toNat < (s.now - c.stamp).toNat) →
      (∀ e ∈ s.requests.pending, e.requester = n → e.post ≠ p) →
      (∀ e ∈ s.requests.undelivered, e.requester = n → e.post ≠ p) →
      s.requests.pending.length + s.requests.undelivered.length < 16 →
      (s.requests.pending.countP fun e => decide (e.requester = n)) +
          (s.requests.undelivered.countP fun e => decide (e.requester = n)) < 8 →
        ∃ t, exec (.ask n tag (Request.ask p maxAge timeout).args) s = .next t ∧
          AnsweredChanging s t n tag .ask .ok [0x02#8, s.requests.nextTicket] [.requests, .queues] ∧
          t.requests.pending = s.requests.pending ++
            [{ ticket := s.requests.nextTicket, requester := n, post := p, genAtAsk := r.generation,
               deadline := s.now + timeout.zeroExtend 32 }] ∧
          t.requests.undelivered = s.requests.undelivered ∧ t.requests.counter = s.requests.nextTicket ∧
          ∀ m : Port, t.queues[m] =
            if m = q ∧ s.attached m = true then s.queues[m].arrive (.solicit p r.key s.requests.nextTicket 1)
            else s.queues[m]

/-- ASK that makes no entry, the checks in their order: NOPOST on a VACANT post, BADSTATE on one BOUND to the
asking port, outcome ORPHANED with the generation on an ORPHANED one, outcome NOW with generation and age on an
AUTO, FRESH post no older than the maximum age, ALREADY with the ticket of the port's entry on the post,
TABLEFULL at 16 entries, PORTLIMIT at 8 of the port. None has an effect but the lease report (R101, R102). -/
def Obligations.AskAnsweredWithoutEntry : Prop :=
  ∀ (s : State) (n : Port) (tag : Byte) (p : PostNo) (maxAge timeout : Half),
    s.Ready n → s.attached n = true → timeout ≠ 0#16 →
      let answered (status : Status) (result : List Byte) : Prop :=
        ∃ t, exec (.ask n tag (Request.ask p maxAge timeout).args) s = .next t ∧
          AnsweredOnly s t n tag .ask status result
      let young (r : Post) (c : Current) : Prop :=
        r.current = some c ∧ r.mode = .auto ∧ r.condition = .fresh ∧ (s.now - c.stamp).toNat ≤ maxAge.toNat
      let mine (ticket : Byte) : Prop :=
        (∃ e ∈ s.requests.pending, e.requester = n ∧ e.post = p ∧ e.ticket = ticket) ∨
          ∃ e ∈ s.requests.undelivered, e.requester = n ∧ e.post = p ∧ e.ticket = ticket
      (s.posts[p] = none → answered .nopost []) ∧
        ∀ r : Post, s.posts[p] = some r →
          (r.binding = .bound n → answered .badstate []) ∧
          (∀ q, r.binding = .orphaned q → answered .ok ([0x01#8] ++ be16 r.generation)) ∧
          ∀ q, r.binding = .bound q → q ≠ n →
            (∀ c, young r c → answered .ok ([0x00#8] ++ be16 r.generation ++ be32 (s.now - c.stamp))) ∧
            ((∀ c, ¬ young r c) →
              ((∃ ticket, mine ticket) → s.requests.askers.Nodup → ∃ ticket, mine ticket ∧ answered .already [ticket]) ∧
              ((∀ ticket, ¬ mine ticket) →
                (16 ≤ s.requests.pending.length + s.requests.undelivered.length → answered .tablefull []) ∧
                (s.requests.pending.length + s.requests.undelivered.length < 16 →
                  8 ≤ (s.requests.pending.countP fun e => decide (e.requester = n)) +
                    (s.requests.undelivered.countP fun e => decide (e.requester = n)) →
                  answered .portlimit [])))

/-- CANCEL by an entry's requester removes the entry, answering the state it was in and, of an UNDELIVERED one,
the outcome and generation that its ANSWER would have carried; with no such entry it is refused NOTICKET, with
no effect (R111). -/
def Obligations.CancelRemovesEntry : Prop :=
  ∀ (s : State) (n : Port) (tag ticket : Byte), s.Ready n → s.attached n = true → ticket ≠ 0#8 → s.TicketsLawful →
    (∀ e ∈ s.requests.pending, e.ticket = ticket → e.requester = n →
      ∃ t, exec (.cancel n tag [ticket]) s = .next t ∧
        AnsweredChanging s t n tag .cancel .ok [0x00#8] [.requests] ∧
        t.requests = { s.requests with pending := s.requests.pending.filter fun a => decide (a ≠ e) }) ∧
      (∀ e ∈ s.requests.undelivered, e.ticket = ticket → e.requester = n →
        ∃ t, exec (.cancel n tag [ticket]) s = .next t ∧
          AnsweredChanging s t n tag .cancel .ok
            ([0x01#8, (match e.outcome with
                | .delivered _ => 0x01#8 | .timeout => 0x02#8 | .withdrawn => 0x03#8 | .orphaned => 0x04#8)] ++
              be16 (match e.outcome with | .delivered g => g | _ => e.genAtAsk)) [.requests] ∧
          t.requests = { s.requests with undelivered := s.requests.undelivered.filter fun a => decide (a ≠ e) }) ∧
      ((∀ e ∈ s.requests.pending, e.ticket = ticket → e.requester ≠ n) →
        (∀ e ∈ s.requests.undelivered, e.ticket = ticket → e.requester ≠ n) →
        ∃ t, exec (.cancel n tag [ticket]) s = .next t ∧ AnsweredOnly s t n tag .cancel .noticket [])

/-- ASK_DEADLINE_EXPIRY: when device time comes to the deadline plus one of a PENDING entry, it completes
TIMEOUT with the generation at ask: a queue with fewer than 31 ordinary entries and no marker takes its ANSWER
as the newest entry and the entry leaves the table; otherwise the queues stay and the entry is UNDELIVERED, last
in the order of completion (R91, R107 to R109). -/
def Obligations.AskDeadlineTimesOut : Prop :=
  ∀ (s : State) (e : PendingAsk), s.TicketsLawful → e ∈ s.requests.pending → s.attached e.requester = true →
    s.now = e.deadline + 1#32 →
      ∃ t, exec (.askDeadlineExpiry e.ticket) s = .next t ∧
        t.requests.pending = s.requests.pending.filter (fun a => decide (a ≠ e)) ∧
        t.requests.counter = s.requests.counter ∧
        (s.queues[e.requester].entries.length < 31 ∧ s.queues[e.requester].lost = none →
          t.queues = put s.queues e.requester
            { s.queues[e.requester] with
              entries := s.queues[e.requester].entries ++ [.answer e.ticket e.post .timeout e.genAtAsk] } ∧
          t.requests.undelivered = s.requests.undelivered) ∧
        (31 ≤ s.queues[e.requester].entries.length ∨ s.queues[e.requester].lost ≠ none →
          t.queues = s.queues ∧
          t.requests.undelivered = s.requests.undelivered ++
            [{ ticket := e.ticket, requester := e.requester, post := e.post, genAtAsk := e.genAtAsk,
               outcome := .timeout }]) ∧
        t.LinesLawful ∧ Unchanged s t [.requests, .queues]

/-! ### The frame pool -/

/-- POOL STATUS answers OK in either role with free count, mark, arming, refresh debt, refresh pointer and lapse
count, and changes nothing (R59, R164). SET POOL MARK by a supervisor sets the mark, arms the notice, and
changes nothing else in the pool (R57). That all six values are those of one state is the model's choice (log 15). -/
def Obligations.PoolStatusAndMark : Prop :=
  ∀ (s : State) (n : Port) (tag : Byte), s.Ready n → s.attached n = true →
    (∃ t, exec (.poolStatus n tag []) s = .next t ∧
        AnsweredOnly s t n tag .poolStatus .ok
          [byteOf s.pool.free.length, byteOf s.pool.mark, if s.pool.armed then 0x01#8 else 0x00#8,
            byteOf s.refresh.debt, byteOf s.refresh.pointer.val, byteOf s.refresh.lapseCount]) ∧
      ∀ mark : Nat, mark ≤ 32 → s.sessions[n].role = .supervisor →
        ∃ t, exec (.setPoolMark n tag [byteOf mark]) s = .next t ∧
          AnsweredChanging s t n tag .setPoolMark .ok [] [.pool] ∧
          t.pool = { s.pool with mark := mark, armed := true }

/-- A release of a frame with a count of 2 or more lowers the count and changes nothing else in the pool; one of
a frame with a count of 1 brings it to 0, clears its suspect flag, appends it to the tail of the free list, and
arms the notice if the free count is then at least the mark plus 4 (R49, R55). -/
def Obligations.ReleaseReturnsFrameAtZero : Prop :=
  ∀ (x : Pool) (f : FrameNo),
    (∀ k, x.frames[f].refs = k + 2 →
        x.release f = { x with frames := put x.frames f { x.frames[f] with refs := k + 1 } }) ∧
      (x.frames[f].refs = 1 →
        x.release f =
          { frames := put x.frames f { refs := 0, suspect := false }, free := x.free ++ [f], mark := x.mark,
            armed := x.armed || decide (x.mark + 4 ≤ x.free.length + 1) })

/-! ### Array, refresh, time -/

/-- ARRAY_GRANT of a free array: at a debt of 5 or more with the refresh request standing, to refresh, for the
row at the pointer; otherwise to the first waiting port in cyclic order from the port after the last one
granted, whose place is emptied, which is recorded as last granted, and whose publication is WRITING or whose
read is READING; with no port waiting, to refresh (R30, R65, R138). That the row's bytes stay at the grant of a write,
and that a grant with no request changes nothing, are the model's choices (logs 9 and 4). -/
def Obligations.ArrayGrantFollowsPolicy : Prop :=
  ∀ s : State, s.array.access = none →
    (s.arbiter.refreshPlace = true → 5 ≤ s.refresh.debt ∨ (∀ n : Port, s.arbiter.places[n] = none) →
      ∃ t, exec .arrayGrant s = .next t ∧ t.array = { s.array with access := some (.refresh s.refresh.pointer) } ∧
        Unchanged s t [.array] ∧ t.pins = s.pins) ∧
      (s.refresh.debt < 5 ∨ s.arbiter.refreshPlace = false → ∀ (j : Fin 4) (n : Port) (k : PortRequest),
        n = s.arbiter.lastGranted + 1 + j → s.arbiter.places[n] = some k →
          (∀ i : Fin 4, i < j → s.arbiter.places[s.arbiter.lastGranted + 1 + i] = none) →
            ∃ t, exec .arrayGrant s = .next t ∧
              t.arbiter = { s.arbiter with places := put s.arbiter.places n none, lastGranted := n } ∧
              (k = .write →
                t.array = { s.array with access := some (.write n) } ∧
                  t.slots = put s.slots n ((s.slots[n]).map fun x => { x with phase := .writing }) ∧
                  Unchanged s t [.array, .arbiter, .slots]) ∧
              (k = .read →
                t.array = { s.array with access := some (.read n) } ∧
                  t.reads = put s.reads n ((s.reads[n]).map fun x => { x with phase := .reading }) ∧
                  Unchanged s t [.array, .arbiter, .reads]) ∧
              t.pins = s.pins) ∧
      (s.arbiter.refreshPlace = false → (∀ n : Port, s.arbiter.places[n] = none) →
        exec .arrayGrant s = .next s)

/-- REFRESH_TICK with the debt below 8 raises it by one and lets the refresh request stand (R141), and the time base
counts it: the count of ticks rises by one, or the tick is the one that the last millisecond boundary was taken ahead
of, and is then no longer owed (R146). No tick comes during device reset (R147), nor while the boundary of sixteen ticks
or an expiry of the last boundary is still to be taken: there the event changes nothing, and that and the owed tick are
the model's choices (logs 4, 10 and 11). REFRESH_COMPLETION frees the array, advances the pointer by one, 95 being
followed by 0, and lowers the debt by one unless it is 0, the request going when it is then 0 (R143). -/
def Obligations.RefreshPaysDebt : Prop :=
  ∀ s : State,
    (s.inDeviceReset = false → s.refresh.debt < 8 →
      s.time.tickOwed = true ∨ (s.time.phase < 16 ∧ ¬ s.ExpiryToTake) → ∃ t, exec .refreshTick s = .next t ∧
        t.refresh = { s.refresh with debt := s.refresh.debt + 1 } ∧
        t.arbiter = { s.arbiter with refreshPlace := true } ∧
        t.time = (if s.time.tickOwed then { s.time with tickOwed := false }
          else { s.time with phase := s.time.phase + 1 }) ∧
        Unchanged s t [.refresh, .arbiter, .time] ∧ t.pins = s.pins) ∧
      (s.inDeviceReset = true ∨ (s.time.tickOwed = false ∧ (16 ≤ s.time.phase ∨ s.ExpiryToTake)) →
        exec .refreshTick s = .next s) ∧
      ∀ row : FrameNo, s.array.access = some (.refresh row) → ∃ t, exec .refreshCompletion s = .next t ∧
        t.array = { s.array with access := none } ∧
        t.refresh = { s.refresh with
          pointer := ⟨(s.refresh.pointer.val + 1) % 96, Nat.mod_lt _ (by decide)⟩
          debt := if 1 ≤ s.refresh.debt then s.refresh.debt - 1 else 0 } ∧
        t.arbiter = { s.arbiter with
          refreshPlace := if s.refresh.debt ≤ 1 then false else s.arbiter.refreshPlace } ∧
        Unchanged s t [.array, .refresh, .arbiter] ∧ t.pins = s.pins

/-- LAPSE, and a REFRESH_TICK, that finds the debt at 8: every frame in use is suspect, every occupied post with
a current frame that is not DAMAGED is DAMAGED with cause LAPSE and its deadline disarmed, the lapse count rises
by one, to at most 255, LAPSE goes to every ATTACHED port, the debt is 0 and the refresh request gone, the
pointer stays (R21, R51, R141, R144, R145), and the time base counts the tick as any other (R146). When a tick comes is
partly the model's choice (logs 10 and 11), and so is that a LAPSE with the debt below 8 changes nothing (log 4). -/
def Obligations.LapseDamagesEverything : Prop :=
  (∀ (s : State) (c : Instr), s.inDeviceReset = false →
     s.time.tickOwed = true ∨ (s.time.phase < 16 ∧ ¬ s.ExpiryToTake) → s.refresh.debt = 8 →
     (c = .lapse ∨ c = .refreshTick) →
     let count := if s.refresh.lapseCount < 255 then s.refresh.lapseCount + 1 else 255
     ∃ t, exec c s = .next t ∧
       (∀ f : FrameNo, t.pool.frames[f] =
         { s.pool.frames[f] with suspect := s.pool.frames[f].suspect || decide (1 ≤ s.pool.frames[f].refs) }) ∧
       t.pool.free = s.pool.free ∧ t.pool.mark = s.pool.mark ∧ t.pool.armed = s.pool.armed ∧
       (∀ p : PostNo, t.posts[p] = (s.posts[p]).map fun r =>
         if r.current.isSome = true ∧ r.condition ≠ .damaged then
           { r with condition := .damaged, cause := some .lapse, deadline := none }
         else r) ∧
       (∀ m : Port, t.queues[m] =
         if s.attached m then s.queues[m].arrive (.lapse count) else s.queues[m]) ∧
       t.refresh = { s.refresh with debt := 0, lapseCount := count } ∧
       t.arbiter = { s.arbiter with refreshPlace := false } ∧
       t.time = (if s.time.tickOwed then { s.time with tickOwed := false }
         else { s.time with phase := s.time.phase + 1 }) ∧
       t.LinesLawful ∧ Unchanged s t [.pool, .posts, .queues, .refresh, .arbiter, .time]) ∧
    ∀ s : State, s.refresh.debt < 8 → exec .lapse s = .next s

/-- MILLISECOND_BOUNDARY at the sixteenth tick since the last boundary (or ahead of that tick, at its moment): device
time rises by one, FFFFFFFFh being followed by 0, the sixteen ticks are taken off the count, the tick is owed if it has
not yet come, and nothing else changes (R146). With fewer ticks, during device reset, or while an expiry of the last
boundary is still to be taken, the event changes nothing. Every step keeps the law of the time base: no more than
sixteen ticks to a millisecond, and no armed timer passed (R146). That the boundary may be taken ahead of its own tick
is the model's choice (log 10), and so are that it waits for the expiries of the last one (log 11) and that it changes
nothing where it cannot occur (log 4). -/
def Obligations.MillisecondFollowsSixteenTicks : Prop :=
  (∀ s : State,
     (s.inDeviceReset = false → s.time.tickOwed = false → 15 ≤ s.time.phase → ¬ s.ExpiryToTake →
       ∃ t, exec .millisecondBoundary s = .next t ∧
         t.time = { s.time with
           deviceTime := s.time.deviceTime + 1#32
           phase := s.time.phase - 16
           tickOwed := decide (s.time.phase < 16) } ∧
         Unchanged s t [.time] ∧ t.pins = s.pins) ∧
       (s.inDeviceReset = true ∨ s.time.tickOwed = true ∨ s.time.phase < 15 ∨ s.ExpiryToTake →
         exec .millisecondBoundary s = .next s)) ∧
    ∀ s t : State, s.TimeLawful → step s = .next t → t.TimeLawful
end

