-- ==== Sys2Proof/Laws/State.lean ====
section
/-! SUPPORT. One lemma per field per setter of State, true by rfl: no later proof unfolds a record update. -/

namespace Sys2Proof.Machine

open Sys2Proof

/-! ### State.setPosts -/

@[simp] theorem State.setPosts_posts (s : State) (x : Vector (Option Post) 64) : (s.setPosts x).posts = x := rfl
@[simp] theorem State.setPosts_slots (s : State) (x : Vector (Option Post) 64) :
    (s.setPosts x).slots = s.slots := rfl
@[simp] theorem State.setPosts_pool (s : State) (x : Vector (Option Post) 64) : (s.setPosts x).pool = s.pool := rfl
@[simp] theorem State.setPosts_holds (s : State) (x : Vector (Option Post) 64) :
    (s.setPosts x).holds = s.holds := rfl
@[simp] theorem State.setPosts_reads (s : State) (x : Vector (Option Post) 64) :
    (s.setPosts x).reads = s.reads := rfl
@[simp] theorem State.setPosts_filters (s : State) (x : Vector (Option Post) 64) :
    (s.setPosts x).filters = s.filters := rfl
@[simp] theorem State.setPosts_queues (s : State) (x : Vector (Option Post) 64) :
    (s.setPosts x).queues = s.queues := rfl
@[simp] theorem State.setPosts_requests (s : State) (x : Vector (Option Post) 64) :
    (s.setPosts x).requests = s.requests := rfl
@[simp] theorem State.setPosts_sessions (s : State) (x : Vector (Option Post) 64) :
    (s.setPosts x).sessions = s.sessions := rfl
@[simp] theorem State.setPosts_array (s : State) (x : Vector (Option Post) 64) :
    (s.setPosts x).array = s.array := rfl
@[simp] theorem State.setPosts_arbiter (s : State) (x : Vector (Option Post) 64) :
    (s.setPosts x).arbiter = s.arbiter := rfl
@[simp] theorem State.setPosts_refresh (s : State) (x : Vector (Option Post) 64) :
    (s.setPosts x).refresh = s.refresh := rfl
@[simp] theorem State.setPosts_time (s : State) (x : Vector (Option Post) 64) : (s.setPosts x).time = s.time := rfl
@[simp] theorem State.setPosts_ports (s : State) (x : Vector (Option Post) 64) :
    (s.setPosts x).ports = s.ports := rfl
@[simp] theorem State.setPosts_pins (s : State) (x : Vector (Option Post) 64) : (s.setPosts x).pins = s.pins := rfl
@[simp] theorem State.setPosts_epoch (s : State) (x : Vector (Option Post) 64) :
    (s.setPosts x).epoch = s.epoch := rfl
@[simp] theorem State.setPosts_pending (s : State) (x : Vector (Option Post) 64) :
    (s.setPosts x).pending = s.pending := rfl
@[simp] theorem State.setPosts_now (s : State) (x : Vector (Option Post) 64) : (s.setPosts x).now = s.now := rfl
@[simp] theorem State.setPosts_attached (s : State) (x : Vector (Option Post) 64) :
    (s.setPosts x).attached = s.attached := rfl
@[simp] theorem State.setPosts_inDeviceReset (s : State) (x : Vector (Option Post) 64) :
    (s.setPosts x).inDeviceReset = s.inDeviceReset := rfl
@[simp] theorem State.setPosts_selected (s : State) (x : Vector (Option Post) 64) :
    (s.setPosts x).selected = s.selected := rfl

/-! ### State.setPost -/

@[simp] theorem State.setPost_posts (s : State) (p : PostNo) (x : Option Post) :
    (s.setPost p x).posts = put s.posts p x := rfl
@[simp] theorem State.setPost_slots (s : State) (p : PostNo) (x : Option Post) :
    (s.setPost p x).slots = s.slots := rfl
@[simp] theorem State.setPost_pool (s : State) (p : PostNo) (x : Option Post) : (s.setPost p x).pool = s.pool := rfl
@[simp] theorem State.setPost_holds (s : State) (p : PostNo) (x : Option Post) :
    (s.setPost p x).holds = s.holds := rfl
@[simp] theorem State.setPost_reads (s : State) (p : PostNo) (x : Option Post) :
    (s.setPost p x).reads = s.reads := rfl
@[simp] theorem State.setPost_filters (s : State) (p : PostNo) (x : Option Post) :
    (s.setPost p x).filters = s.filters := rfl
@[simp] theorem State.setPost_queues (s : State) (p : PostNo) (x : Option Post) :
    (s.setPost p x).queues = s.queues := rfl
@[simp] theorem State.setPost_requests (s : State) (p : PostNo) (x : Option Post) :
    (s.setPost p x).requests = s.requests := rfl
@[simp] theorem State.setPost_sessions (s : State) (p : PostNo) (x : Option Post) :
    (s.setPost p x).sessions = s.sessions := rfl
@[simp] theorem State.setPost_array (s : State) (p : PostNo) (x : Option Post) :
    (s.setPost p x).array = s.array := rfl
@[simp] theorem State.setPost_arbiter (s : State) (p : PostNo) (x : Option Post) :
    (s.setPost p x).arbiter = s.arbiter := rfl
@[simp] theorem State.setPost_refresh (s : State) (p : PostNo) (x : Option Post) :
    (s.setPost p x).refresh = s.refresh := rfl
@[simp] theorem State.setPost_time (s : State) (p : PostNo) (x : Option Post) : (s.setPost p x).time = s.time := rfl
@[simp] theorem State.setPost_ports (s : State) (p : PostNo) (x : Option Post) :
    (s.setPost p x).ports = s.ports := rfl
@[simp] theorem State.setPost_pins (s : State) (p : PostNo) (x : Option Post) : (s.setPost p x).pins = s.pins := rfl
@[simp] theorem State.setPost_epoch (s : State) (p : PostNo) (x : Option Post) :
    (s.setPost p x).epoch = s.epoch := rfl
@[simp] theorem State.setPost_pending (s : State) (p : PostNo) (x : Option Post) :
    (s.setPost p x).pending = s.pending := rfl
@[simp] theorem State.setPost_now (s : State) (p : PostNo) (x : Option Post) : (s.setPost p x).now = s.now := rfl
@[simp] theorem State.setPost_attached (s : State) (p : PostNo) (x : Option Post) :
    (s.setPost p x).attached = s.attached := rfl
@[simp] theorem State.setPost_inDeviceReset (s : State) (p : PostNo) (x : Option Post) :
    (s.setPost p x).inDeviceReset = s.inDeviceReset := rfl
@[simp] theorem State.setPost_selected (s : State) (p : PostNo) (x : Option Post) :
    (s.setPost p x).selected = s.selected := rfl

/-! ### State.setSlots -/

@[simp] theorem State.setSlots_posts (s : State) (x : Vector (Option Publication) 4) :
    (s.setSlots x).posts = s.posts := rfl
@[simp] theorem State.setSlots_slots (s : State) (x : Vector (Option Publication) 4) :
    (s.setSlots x).slots = x := rfl
@[simp] theorem State.setSlots_pool (s : State) (x : Vector (Option Publication) 4) :
    (s.setSlots x).pool = s.pool := rfl
@[simp] theorem State.setSlots_holds (s : State) (x : Vector (Option Publication) 4) :
    (s.setSlots x).holds = s.holds := rfl
@[simp] theorem State.setSlots_reads (s : State) (x : Vector (Option Publication) 4) :
    (s.setSlots x).reads = s.reads := rfl
@[simp] theorem State.setSlots_filters (s : State) (x : Vector (Option Publication) 4) :
    (s.setSlots x).filters = s.filters := rfl
@[simp] theorem State.setSlots_queues (s : State) (x : Vector (Option Publication) 4) :
    (s.setSlots x).queues = s.queues := rfl
@[simp] theorem State.setSlots_requests (s : State) (x : Vector (Option Publication) 4) :
    (s.setSlots x).requests = s.requests := rfl
@[simp] theorem State.setSlots_sessions (s : State) (x : Vector (Option Publication) 4) :
    (s.setSlots x).sessions = s.sessions := rfl
@[simp] theorem State.setSlots_array (s : State) (x : Vector (Option Publication) 4) :
    (s.setSlots x).array = s.array := rfl
@[simp] theorem State.setSlots_arbiter (s : State) (x : Vector (Option Publication) 4) :
    (s.setSlots x).arbiter = s.arbiter := rfl
@[simp] theorem State.setSlots_refresh (s : State) (x : Vector (Option Publication) 4) :
    (s.setSlots x).refresh = s.refresh := rfl
@[simp] theorem State.setSlots_time (s : State) (x : Vector (Option Publication) 4) :
    (s.setSlots x).time = s.time := rfl
@[simp] theorem State.setSlots_ports (s : State) (x : Vector (Option Publication) 4) :
    (s.setSlots x).ports = s.ports := rfl
@[simp] theorem State.setSlots_pins (s : State) (x : Vector (Option Publication) 4) :
    (s.setSlots x).pins = s.pins := rfl
@[simp] theorem State.setSlots_epoch (s : State) (x : Vector (Option Publication) 4) :
    (s.setSlots x).epoch = s.epoch := rfl
@[simp] theorem State.setSlots_pending (s : State) (x : Vector (Option Publication) 4) :
    (s.setSlots x).pending = s.pending := rfl
@[simp] theorem State.setSlots_now (s : State) (x : Vector (Option Publication) 4) :
    (s.setSlots x).now = s.now := rfl
@[simp] theorem State.setSlots_attached (s : State) (x : Vector (Option Publication) 4) :
    (s.setSlots x).attached = s.attached := rfl
@[simp] theorem State.setSlots_inDeviceReset (s : State) (x : Vector (Option Publication) 4) :
    (s.setSlots x).inDeviceReset = s.inDeviceReset := rfl
@[simp] theorem State.setSlots_selected (s : State) (x : Vector (Option Publication) 4) :
    (s.setSlots x).selected = s.selected := rfl

/-! ### State.setSlot -/

@[simp] theorem State.setSlot_posts (s : State) (n : Port) (x : Option Publication) :
    (s.setSlot n x).posts = s.posts := rfl
@[simp] theorem State.setSlot_slots (s : State) (n : Port) (x : Option Publication) :
    (s.setSlot n x).slots = put s.slots n x := rfl
@[simp] theorem State.setSlot_pool (s : State) (n : Port) (x : Option Publication) :
    (s.setSlot n x).pool = s.pool := rfl
@[simp] theorem State.setSlot_holds (s : State) (n : Port) (x : Option Publication) :
    (s.setSlot n x).holds = s.holds := rfl
@[simp] theorem State.setSlot_reads (s : State) (n : Port) (x : Option Publication) :
    (s.setSlot n x).reads = s.reads := rfl
@[simp] theorem State.setSlot_filters (s : State) (n : Port) (x : Option Publication) :
    (s.setSlot n x).filters = s.filters := rfl
@[simp] theorem State.setSlot_queues (s : State) (n : Port) (x : Option Publication) :
    (s.setSlot n x).queues = s.queues := rfl
@[simp] theorem State.setSlot_requests (s : State) (n : Port) (x : Option Publication) :
    (s.setSlot n x).requests = s.requests := rfl
@[simp] theorem State.setSlot_sessions (s : State) (n : Port) (x : Option Publication) :
    (s.setSlot n x).sessions = s.sessions := rfl
@[simp] theorem State.setSlot_array (s : State) (n : Port) (x : Option Publication) :
    (s.setSlot n x).array = s.array := rfl
@[simp] theorem State.setSlot_arbiter (s : State) (n : Port) (x : Option Publication) :
    (s.setSlot n x).arbiter = s.arbiter := rfl
@[simp] theorem State.setSlot_refresh (s : State) (n : Port) (x : Option Publication) :
    (s.setSlot n x).refresh = s.refresh := rfl
@[simp] theorem State.setSlot_time (s : State) (n : Port) (x : Option Publication) :
    (s.setSlot n x).time = s.time := rfl
@[simp] theorem State.setSlot_ports (s : State) (n : Port) (x : Option Publication) :
    (s.setSlot n x).ports = s.ports := rfl
@[simp] theorem State.setSlot_pins (s : State) (n : Port) (x : Option Publication) :
    (s.setSlot n x).pins = s.pins := rfl
@[simp] theorem State.setSlot_epoch (s : State) (n : Port) (x : Option Publication) :
    (s.setSlot n x).epoch = s.epoch := rfl
@[simp] theorem State.setSlot_pending (s : State) (n : Port) (x : Option Publication) :
    (s.setSlot n x).pending = s.pending := rfl
@[simp] theorem State.setSlot_now (s : State) (n : Port) (x : Option Publication) :
    (s.setSlot n x).now = s.now := rfl
@[simp] theorem State.setSlot_attached (s : State) (n : Port) (x : Option Publication) :
    (s.setSlot n x).attached = s.attached := rfl
@[simp] theorem State.setSlot_inDeviceReset (s : State) (n : Port) (x : Option Publication) :
    (s.setSlot n x).inDeviceReset = s.inDeviceReset := rfl
@[simp] theorem State.setSlot_selected (s : State) (n : Port) (x : Option Publication) :
    (s.setSlot n x).selected = s.selected := rfl

/-! ### State.setPool -/

@[simp] theorem State.setPool_posts (s : State) (x : Pool) : (s.setPool x).posts = s.posts := rfl
@[simp] theorem State.setPool_slots (s : State) (x : Pool) : (s.setPool x).slots = s.slots := rfl
@[simp] theorem State.setPool_pool (s : State) (x : Pool) : (s.setPool x).pool = x := rfl
@[simp] theorem State.setPool_holds (s : State) (x : Pool) : (s.setPool x).holds = s.holds := rfl
@[simp] theorem State.setPool_reads (s : State) (x : Pool) : (s.setPool x).reads = s.reads := rfl
@[simp] theorem State.setPool_filters (s : State) (x : Pool) : (s.setPool x).filters = s.filters := rfl
@[simp] theorem State.setPool_queues (s : State) (x : Pool) : (s.setPool x).queues = s.queues := rfl
@[simp] theorem State.setPool_requests (s : State) (x : Pool) : (s.setPool x).requests = s.requests := rfl
@[simp] theorem State.setPool_sessions (s : State) (x : Pool) : (s.setPool x).sessions = s.sessions := rfl
@[simp] theorem State.setPool_array (s : State) (x : Pool) : (s.setPool x).array = s.array := rfl
@[simp] theorem State.setPool_arbiter (s : State) (x : Pool) : (s.setPool x).arbiter = s.arbiter := rfl
@[simp] theorem State.setPool_refresh (s : State) (x : Pool) : (s.setPool x).refresh = s.refresh := rfl
@[simp] theorem State.setPool_time (s : State) (x : Pool) : (s.setPool x).time = s.time := rfl
@[simp] theorem State.setPool_ports (s : State) (x : Pool) : (s.setPool x).ports = s.ports := rfl
@[simp] theorem State.setPool_pins (s : State) (x : Pool) : (s.setPool x).pins = s.pins := rfl
@[simp] theorem State.setPool_epoch (s : State) (x : Pool) : (s.setPool x).epoch = s.epoch := rfl
@[simp] theorem State.setPool_pending (s : State) (x : Pool) : (s.setPool x).pending = s.pending := rfl
@[simp] theorem State.setPool_now (s : State) (x : Pool) : (s.setPool x).now = s.now := rfl
@[simp] theorem State.setPool_attached (s : State) (x : Pool) : (s.setPool x).attached = s.attached := rfl
@[simp] theorem State.setPool_inDeviceReset (s : State) (x : Pool) :
    (s.setPool x).inDeviceReset = s.inDeviceReset := rfl
@[simp] theorem State.setPool_selected (s : State) (x : Pool) : (s.setPool x).selected = s.selected := rfl

/-! ### State.setHolds -/

@[simp] theorem State.setHolds_posts (s : State) (n : Port) (x : Vector (Option Hold) 8) :
    (s.setHolds n x).posts = s.posts := rfl
@[simp] theorem State.setHolds_slots (s : State) (n : Port) (x : Vector (Option Hold) 8) :
    (s.setHolds n x).slots = s.slots := rfl
@[simp] theorem State.setHolds_pool (s : State) (n : Port) (x : Vector (Option Hold) 8) :
    (s.setHolds n x).pool = s.pool := rfl
@[simp] theorem State.setHolds_holds (s : State) (n : Port) (x : Vector (Option Hold) 8) :
    (s.setHolds n x).holds = put s.holds n x := rfl
@[simp] theorem State.setHolds_reads (s : State) (n : Port) (x : Vector (Option Hold) 8) :
    (s.setHolds n x).reads = s.reads := rfl
@[simp] theorem State.setHolds_filters (s : State) (n : Port) (x : Vector (Option Hold) 8) :
    (s.setHolds n x).filters = s.filters := rfl
@[simp] theorem State.setHolds_queues (s : State) (n : Port) (x : Vector (Option Hold) 8) :
    (s.setHolds n x).queues = s.queues := rfl
@[simp] theorem State.setHolds_requests (s : State) (n : Port) (x : Vector (Option Hold) 8) :
    (s.setHolds n x).requests = s.requests := rfl
@[simp] theorem State.setHolds_sessions (s : State) (n : Port) (x : Vector (Option Hold) 8) :
    (s.setHolds n x).sessions = s.sessions := rfl
@[simp] theorem State.setHolds_array (s : State) (n : Port) (x : Vector (Option Hold) 8) :
    (s.setHolds n x).array = s.array := rfl
@[simp] theorem State.setHolds_arbiter (s : State) (n : Port) (x : Vector (Option Hold) 8) :
    (s.setHolds n x).arbiter = s.arbiter := rfl
@[simp] theorem State.setHolds_refresh (s : State) (n : Port) (x : Vector (Option Hold) 8) :
    (s.setHolds n x).refresh = s.refresh := rfl
@[simp] theorem State.setHolds_time (s : State) (n : Port) (x : Vector (Option Hold) 8) :
    (s.setHolds n x).time = s.time := rfl
@[simp] theorem State.setHolds_ports (s : State) (n : Port) (x : Vector (Option Hold) 8) :
    (s.setHolds n x).ports = s.ports := rfl
@[simp] theorem State.setHolds_pins (s : State) (n : Port) (x : Vector (Option Hold) 8) :
    (s.setHolds n x).pins = s.pins := rfl
@[simp] theorem State.setHolds_epoch (s : State) (n : Port) (x : Vector (Option Hold) 8) :
    (s.setHolds n x).epoch = s.epoch := rfl
@[simp] theorem State.setHolds_pending (s : State) (n : Port) (x : Vector (Option Hold) 8) :
    (s.setHolds n x).pending = s.pending := rfl
@[simp] theorem State.setHolds_now (s : State) (n : Port) (x : Vector (Option Hold) 8) :
    (s.setHolds n x).now = s.now := rfl
@[simp] theorem State.setHolds_attached (s : State) (n : Port) (x : Vector (Option Hold) 8) :
    (s.setHolds n x).attached = s.attached := rfl
@[simp] theorem State.setHolds_inDeviceReset (s : State) (n : Port) (x : Vector (Option Hold) 8) :
    (s.setHolds n x).inDeviceReset = s.inDeviceReset := rfl
@[simp] theorem State.setHolds_selected (s : State) (n : Port) (x : Vector (Option Hold) 8) :
    (s.setHolds n x).selected = s.selected := rfl

/-! ### State.setRead -/

@[simp] theorem State.setRead_posts (s : State) (n : Port) (x : Option ReadRecord) :
    (s.setRead n x).posts = s.posts := rfl
@[simp] theorem State.setRead_slots (s : State) (n : Port) (x : Option ReadRecord) :
    (s.setRead n x).slots = s.slots := rfl
@[simp] theorem State.setRead_pool (s : State) (n : Port) (x : Option ReadRecord) :
    (s.setRead n x).pool = s.pool := rfl
@[simp] theorem State.setRead_holds (s : State) (n : Port) (x : Option ReadRecord) :
    (s.setRead n x).holds = s.holds := rfl
@[simp] theorem State.setRead_reads (s : State) (n : Port) (x : Option ReadRecord) :
    (s.setRead n x).reads = put s.reads n x := rfl
@[simp] theorem State.setRead_filters (s : State) (n : Port) (x : Option ReadRecord) :
    (s.setRead n x).filters = s.filters := rfl
@[simp] theorem State.setRead_queues (s : State) (n : Port) (x : Option ReadRecord) :
    (s.setRead n x).queues = s.queues := rfl
@[simp] theorem State.setRead_requests (s : State) (n : Port) (x : Option ReadRecord) :
    (s.setRead n x).requests = s.requests := rfl
@[simp] theorem State.setRead_sessions (s : State) (n : Port) (x : Option ReadRecord) :
    (s.setRead n x).sessions = s.sessions := rfl
@[simp] theorem State.setRead_array (s : State) (n : Port) (x : Option ReadRecord) :
    (s.setRead n x).array = s.array := rfl
@[simp] theorem State.setRead_arbiter (s : State) (n : Port) (x : Option ReadRecord) :
    (s.setRead n x).arbiter = s.arbiter := rfl
@[simp] theorem State.setRead_refresh (s : State) (n : Port) (x : Option ReadRecord) :
    (s.setRead n x).refresh = s.refresh := rfl
@[simp] theorem State.setRead_time (s : State) (n : Port) (x : Option ReadRecord) :
    (s.setRead n x).time = s.time := rfl
@[simp] theorem State.setRead_ports (s : State) (n : Port) (x : Option ReadRecord) :
    (s.setRead n x).ports = s.ports := rfl
@[simp] theorem State.setRead_pins (s : State) (n : Port) (x : Option ReadRecord) :
    (s.setRead n x).pins = s.pins := rfl
@[simp] theorem State.setRead_epoch (s : State) (n : Port) (x : Option ReadRecord) :
    (s.setRead n x).epoch = s.epoch := rfl
@[simp] theorem State.setRead_pending (s : State) (n : Port) (x : Option ReadRecord) :
    (s.setRead n x).pending = s.pending := rfl
@[simp] theorem State.setRead_now (s : State) (n : Port) (x : Option ReadRecord) :
    (s.setRead n x).now = s.now := rfl
@[simp] theorem State.setRead_attached (s : State) (n : Port) (x : Option ReadRecord) :
    (s.setRead n x).attached = s.attached := rfl
@[simp] theorem State.setRead_inDeviceReset (s : State) (n : Port) (x : Option ReadRecord) :
    (s.setRead n x).inDeviceReset = s.inDeviceReset := rfl
@[simp] theorem State.setRead_selected (s : State) (n : Port) (x : Option ReadRecord) :
    (s.setRead n x).selected = s.selected := rfl

/-! ### State.setFilters -/

@[simp] theorem State.setFilters_posts (s : State) (n : Port) (x : Vector (Option Filter) 8) :
    (s.setFilters n x).posts = s.posts := rfl
@[simp] theorem State.setFilters_slots (s : State) (n : Port) (x : Vector (Option Filter) 8) :
    (s.setFilters n x).slots = s.slots := rfl
@[simp] theorem State.setFilters_pool (s : State) (n : Port) (x : Vector (Option Filter) 8) :
    (s.setFilters n x).pool = s.pool := rfl
@[simp] theorem State.setFilters_holds (s : State) (n : Port) (x : Vector (Option Filter) 8) :
    (s.setFilters n x).holds = s.holds := rfl
@[simp] theorem State.setFilters_reads (s : State) (n : Port) (x : Vector (Option Filter) 8) :
    (s.setFilters n x).reads = s.reads := rfl
@[simp] theorem State.setFilters_filters (s : State) (n : Port) (x : Vector (Option Filter) 8) :
    (s.setFilters n x).filters = put s.filters n x := rfl
@[simp] theorem State.setFilters_queues (s : State) (n : Port) (x : Vector (Option Filter) 8) :
    (s.setFilters n x).queues = s.queues := rfl
@[simp] theorem State.setFilters_requests (s : State) (n : Port) (x : Vector (Option Filter) 8) :
    (s.setFilters n x).requests = s.requests := rfl
@[simp] theorem State.setFilters_sessions (s : State) (n : Port) (x : Vector (Option Filter) 8) :
    (s.setFilters n x).sessions = s.sessions := rfl
@[simp] theorem State.setFilters_array (s : State) (n : Port) (x : Vector (Option Filter) 8) :
    (s.setFilters n x).array = s.array := rfl
@[simp] theorem State.setFilters_arbiter (s : State) (n : Port) (x : Vector (Option Filter) 8) :
    (s.setFilters n x).arbiter = s.arbiter := rfl
@[simp] theorem State.setFilters_refresh (s : State) (n : Port) (x : Vector (Option Filter) 8) :
    (s.setFilters n x).refresh = s.refresh := rfl
@[simp] theorem State.setFilters_time (s : State) (n : Port) (x : Vector (Option Filter) 8) :
    (s.setFilters n x).time = s.time := rfl
@[simp] theorem State.setFilters_ports (s : State) (n : Port) (x : Vector (Option Filter) 8) :
    (s.setFilters n x).ports = s.ports := rfl
@[simp] theorem State.setFilters_pins (s : State) (n : Port) (x : Vector (Option Filter) 8) :
    (s.setFilters n x).pins = s.pins := rfl
@[simp] theorem State.setFilters_epoch (s : State) (n : Port) (x : Vector (Option Filter) 8) :
    (s.setFilters n x).epoch = s.epoch := rfl
@[simp] theorem State.setFilters_pending (s : State) (n : Port) (x : Vector (Option Filter) 8) :
    (s.setFilters n x).pending = s.pending := rfl
@[simp] theorem State.setFilters_now (s : State) (n : Port) (x : Vector (Option Filter) 8) :
    (s.setFilters n x).now = s.now := rfl
@[simp] theorem State.setFilters_attached (s : State) (n : Port) (x : Vector (Option Filter) 8) :
    (s.setFilters n x).attached = s.attached := rfl
@[simp] theorem State.setFilters_inDeviceReset (s : State) (n : Port) (x : Vector (Option Filter) 8) :
    (s.setFilters n x).inDeviceReset = s.inDeviceReset := rfl
@[simp] theorem State.setFilters_selected (s : State) (n : Port) (x : Vector (Option Filter) 8) :
    (s.setFilters n x).selected = s.selected := rfl

/-! ### State.setQueues -/

@[simp] theorem State.setQueues_posts (s : State) (x : Vector NoticeQueue 4) :
    (s.setQueues x).posts = s.posts := rfl
@[simp] theorem State.setQueues_slots (s : State) (x : Vector NoticeQueue 4) :
    (s.setQueues x).slots = s.slots := rfl
@[simp] theorem State.setQueues_pool (s : State) (x : Vector NoticeQueue 4) : (s.setQueues x).pool = s.pool := rfl
@[simp] theorem State.setQueues_holds (s : State) (x : Vector NoticeQueue 4) :
    (s.setQueues x).holds = s.holds := rfl
@[simp] theorem State.setQueues_reads (s : State) (x : Vector NoticeQueue 4) :
    (s.setQueues x).reads = s.reads := rfl
@[simp] theorem State.setQueues_filters (s : State) (x : Vector NoticeQueue 4) :
    (s.setQueues x).filters = s.filters := rfl
@[simp] theorem State.setQueues_queues (s : State) (x : Vector NoticeQueue 4) : (s.setQueues x).queues = x := rfl
@[simp] theorem State.setQueues_requests (s : State) (x : Vector NoticeQueue 4) :
    (s.setQueues x).requests = s.requests := rfl
@[simp] theorem State.setQueues_sessions (s : State) (x : Vector NoticeQueue 4) :
    (s.setQueues x).sessions = s.sessions := rfl
@[simp] theorem State.setQueues_array (s : State) (x : Vector NoticeQueue 4) :
    (s.setQueues x).array = s.array := rfl
@[simp] theorem State.setQueues_arbiter (s : State) (x : Vector NoticeQueue 4) :
    (s.setQueues x).arbiter = s.arbiter := rfl
@[simp] theorem State.setQueues_refresh (s : State) (x : Vector NoticeQueue 4) :
    (s.setQueues x).refresh = s.refresh := rfl
@[simp] theorem State.setQueues_time (s : State) (x : Vector NoticeQueue 4) : (s.setQueues x).time = s.time := rfl
@[simp] theorem State.setQueues_ports (s : State) (x : Vector NoticeQueue 4) :
    (s.setQueues x).ports = s.ports := rfl
@[simp] theorem State.setQueues_pins (s : State) (x : Vector NoticeQueue 4) :
    (s.setQueues x).pins = { s.pins with attn := attentionLines s.sessions x } := rfl
@[simp] theorem State.setQueues_epoch (s : State) (x : Vector NoticeQueue 4) :
    (s.setQueues x).epoch = s.epoch := rfl
@[simp] theorem State.setQueues_pending (s : State) (x : Vector NoticeQueue 4) :
    (s.setQueues x).pending = s.pending := rfl
@[simp] theorem State.setQueues_now (s : State) (x : Vector NoticeQueue 4) : (s.setQueues x).now = s.now := rfl
@[simp] theorem State.setQueues_attached (s : State) (x : Vector NoticeQueue 4) :
    (s.setQueues x).attached = s.attached := rfl
@[simp] theorem State.setQueues_inDeviceReset (s : State) (x : Vector NoticeQueue 4) :
    (s.setQueues x).inDeviceReset = s.inDeviceReset := rfl
@[simp] theorem State.setQueues_selected (s : State) (x : Vector NoticeQueue 4) :
    (s.setQueues x).selected = s.selected := rfl

/-! ### State.setRequests -/

@[simp] theorem State.setRequests_posts (s : State) (x : RequestTable) : (s.setRequests x).posts = s.posts := rfl
@[simp] theorem State.setRequests_slots (s : State) (x : RequestTable) : (s.setRequests x).slots = s.slots := rfl
@[simp] theorem State.setRequests_pool (s : State) (x : RequestTable) : (s.setRequests x).pool = s.pool := rfl
@[simp] theorem State.setRequests_holds (s : State) (x : RequestTable) : (s.setRequests x).holds = s.holds := rfl
@[simp] theorem State.setRequests_reads (s : State) (x : RequestTable) : (s.setRequests x).reads = s.reads := rfl
@[simp] theorem State.setRequests_filters (s : State) (x : RequestTable) :
    (s.setRequests x).filters = s.filters := rfl
@[simp] theorem State.setRequests_queues (s : State) (x : RequestTable) : (s.setRequests x).queues = s.queues := rfl
@[simp] theorem State.setRequests_requests (s : State) (x : RequestTable) : (s.setRequests x).requests = x := rfl
@[simp] theorem State.setRequests_sessions (s : State) (x : RequestTable) :
    (s.setRequests x).sessions = s.sessions := rfl
@[simp] theorem State.setRequests_array (s : State) (x : RequestTable) : (s.setRequests x).array = s.array := rfl
@[simp] theorem State.setRequests_arbiter (s : State) (x : RequestTable) :
    (s.setRequests x).arbiter = s.arbiter := rfl
@[simp] theorem State.setRequests_refresh (s : State) (x : RequestTable) :
    (s.setRequests x).refresh = s.refresh := rfl
@[simp] theorem State.setRequests_time (s : State) (x : RequestTable) : (s.setRequests x).time = s.time := rfl
@[simp] theorem State.setRequests_ports (s : State) (x : RequestTable) : (s.setRequests x).ports = s.ports := rfl
@[simp] theorem State.setRequests_pins (s : State) (x : RequestTable) : (s.setRequests x).pins = s.pins := rfl
@[simp] theorem State.setRequests_epoch (s : State) (x : RequestTable) : (s.setRequests x).epoch = s.epoch := rfl
@[simp] theorem State.setRequests_pending (s : State) (x : RequestTable) :
    (s.setRequests x).pending = s.pending := rfl
@[simp] theorem State.setRequests_now (s : State) (x : RequestTable) : (s.setRequests x).now = s.now := rfl
@[simp] theorem State.setRequests_attached (s : State) (x : RequestTable) :
    (s.setRequests x).attached = s.attached := rfl
@[simp] theorem State.setRequests_inDeviceReset (s : State) (x : RequestTable) :
    (s.setRequests x).inDeviceReset = s.inDeviceReset := rfl
@[simp] theorem State.setRequests_selected (s : State) (x : RequestTable) :
    (s.setRequests x).selected = s.selected := rfl

/-! ### State.setSession -/

@[simp] theorem State.setSession_posts (s : State) (n : Port) (x : Session) :
    (s.setSession n x).posts = s.posts := rfl
@[simp] theorem State.setSession_slots (s : State) (n : Port) (x : Session) :
    (s.setSession n x).slots = s.slots := rfl
@[simp] theorem State.setSession_pool (s : State) (n : Port) (x : Session) : (s.setSession n x).pool = s.pool := rfl
@[simp] theorem State.setSession_holds (s : State) (n : Port) (x : Session) :
    (s.setSession n x).holds = s.holds := rfl
@[simp] theorem State.setSession_reads (s : State) (n : Port) (x : Session) :
    (s.setSession n x).reads = s.reads := rfl
@[simp] theorem State.setSession_filters (s : State) (n : Port) (x : Session) :
    (s.setSession n x).filters = s.filters := rfl
@[simp] theorem State.setSession_queues (s : State) (n : Port) (x : Session) :
    (s.setSession n x).queues = s.queues := rfl
@[simp] theorem State.setSession_requests (s : State) (n : Port) (x : Session) :
    (s.setSession n x).requests = s.requests := rfl
@[simp] theorem State.setSession_sessions (s : State) (n : Port) (x : Session) :
    (s.setSession n x).sessions = put s.sessions n x := rfl
@[simp] theorem State.setSession_array (s : State) (n : Port) (x : Session) :
    (s.setSession n x).array = s.array := rfl
@[simp] theorem State.setSession_arbiter (s : State) (n : Port) (x : Session) :
    (s.setSession n x).arbiter = s.arbiter := rfl
@[simp] theorem State.setSession_refresh (s : State) (n : Port) (x : Session) :
    (s.setSession n x).refresh = s.refresh := rfl
@[simp] theorem State.setSession_time (s : State) (n : Port) (x : Session) : (s.setSession n x).time = s.time := rfl
@[simp] theorem State.setSession_ports (s : State) (n : Port) (x : Session) :
    (s.setSession n x).ports = s.ports := rfl
@[simp] theorem State.setSession_pins (s : State) (n : Port) (x : Session) :
    (s.setSession n x).pins = { s.pins with attn := attentionLines (put s.sessions n x) s.queues } := rfl
@[simp] theorem State.setSession_epoch (s : State) (n : Port) (x : Session) :
    (s.setSession n x).epoch = s.epoch := rfl
@[simp] theorem State.setSession_pending (s : State) (n : Port) (x : Session) :
    (s.setSession n x).pending = s.pending := rfl
@[simp] theorem State.setSession_now (s : State) (n : Port) (x : Session) : (s.setSession n x).now = s.now := rfl
@[simp] theorem State.setSession_inDeviceReset (s : State) (n : Port) (x : Session) :
    (s.setSession n x).inDeviceReset = s.inDeviceReset := rfl
@[simp] theorem State.setSession_selected (s : State) (n : Port) (x : Session) :
    (s.setSession n x).selected = s.selected := rfl

/-! ### State.setArray -/

@[simp] theorem State.setArray_posts (s : State) (x : StorageArray) : (s.setArray x).posts = s.posts := rfl
@[simp] theorem State.setArray_slots (s : State) (x : StorageArray) : (s.setArray x).slots = s.slots := rfl
@[simp] theorem State.setArray_pool (s : State) (x : StorageArray) : (s.setArray x).pool = s.pool := rfl
@[simp] theorem State.setArray_holds (s : State) (x : StorageArray) : (s.setArray x).holds = s.holds := rfl
@[simp] theorem State.setArray_reads (s : State) (x : StorageArray) : (s.setArray x).reads = s.reads := rfl
@[simp] theorem State.setArray_filters (s : State) (x : StorageArray) : (s.setArray x).filters = s.filters := rfl
@[simp] theorem State.setArray_queues (s : State) (x : StorageArray) : (s.setArray x).queues = s.queues := rfl
@[simp] theorem State.setArray_requests (s : State) (x : StorageArray) : (s.setArray x).requests = s.requests := rfl
@[simp] theorem State.setArray_sessions (s : State) (x : StorageArray) : (s.setArray x).sessions = s.sessions := rfl
@[simp] theorem State.setArray_array (s : State) (x : StorageArray) : (s.setArray x).array = x := rfl
@[simp] theorem State.setArray_arbiter (s : State) (x : StorageArray) : (s.setArray x).arbiter = s.arbiter := rfl
@[simp] theorem State.setArray_refresh (s : State) (x : StorageArray) : (s.setArray x).refresh = s.refresh := rfl
@[simp] theorem State.setArray_time (s : State) (x : StorageArray) : (s.setArray x).time = s.time := rfl
@[simp] theorem State.setArray_ports (s : State) (x : StorageArray) : (s.setArray x).ports = s.ports := rfl
@[simp] theorem State.setArray_pins (s : State) (x : StorageArray) : (s.setArray x).pins = s.pins := rfl
@[simp] theorem State.setArray_epoch (s : State) (x : StorageArray) : (s.setArray x).epoch = s.epoch := rfl
@[simp] theorem State.setArray_pending (s : State) (x : StorageArray) : (s.setArray x).pending = s.pending := rfl
@[simp] theorem State.setArray_now (s : State) (x : StorageArray) : (s.setArray x).now = s.now := rfl
@[simp] theorem State.setArray_attached (s : State) (x : StorageArray) : (s.setArray x).attached = s.attached := rfl
@[simp] theorem State.setArray_inDeviceReset (s : State) (x : StorageArray) :
    (s.setArray x).inDeviceReset = s.inDeviceReset := rfl
@[simp] theorem State.setArray_selected (s : State) (x : StorageArray) : (s.setArray x).selected = s.selected := rfl

/-! ### State.setArbiter -/

@[simp] theorem State.setArbiter_posts (s : State) (x : Arbiter) : (s.setArbiter x).posts = s.posts := rfl
@[simp] theorem State.setArbiter_slots (s : State) (x : Arbiter) : (s.setArbiter x).slots = s.slots := rfl
@[simp] theorem State.setArbiter_pool (s : State) (x : Arbiter) : (s.setArbiter x).pool = s.pool := rfl
@[simp] theorem State.setArbiter_holds (s : State) (x : Arbiter) : (s.setArbiter x).holds = s.holds := rfl
@[simp] theorem State.setArbiter_reads (s : State) (x : Arbiter) : (s.setArbiter x).reads = s.reads := rfl
@[simp] theorem State.setArbiter_filters (s : State) (x : Arbiter) : (s.setArbiter x).filters = s.filters := rfl
@[simp] theorem State.setArbiter_queues (s : State) (x : Arbiter) : (s.setArbiter x).queues = s.queues := rfl
@[simp] theorem State.setArbiter_requests (s : State) (x : Arbiter) : (s.setArbiter x).requests = s.requests := rfl
@[simp] theorem State.setArbiter_sessions (s : State) (x : Arbiter) : (s.setArbiter x).sessions = s.sessions := rfl
@[simp] theorem State.setArbiter_array (s : State) (x : Arbiter) : (s.setArbiter x).array = s.array := rfl
@[simp] theorem State.setArbiter_arbiter (s : State) (x : Arbiter) : (s.setArbiter x).arbiter = x := rfl
@[simp] theorem State.setArbiter_refresh (s : State) (x : Arbiter) : (s.setArbiter x).refresh = s.refresh := rfl
@[simp] theorem State.setArbiter_time (s : State) (x : Arbiter) : (s.setArbiter x).time = s.time := rfl
@[simp] theorem State.setArbiter_ports (s : State) (x : Arbiter) : (s.setArbiter x).ports = s.ports := rfl
@[simp] theorem State.setArbiter_pins (s : State) (x : Arbiter) : (s.setArbiter x).pins = s.pins := rfl
@[simp] theorem State.setArbiter_epoch (s : State) (x : Arbiter) : (s.setArbiter x).epoch = s.epoch := rfl
@[simp] theorem State.setArbiter_pending (s : State) (x : Arbiter) : (s.setArbiter x).pending = s.pending := rfl
@[simp] theorem State.setArbiter_now (s : State) (x : Arbiter) : (s.setArbiter x).now = s.now := rfl
@[simp] theorem State.setArbiter_attached (s : State) (x : Arbiter) : (s.setArbiter x).attached = s.attached := rfl
@[simp] theorem State.setArbiter_inDeviceReset (s : State) (x : Arbiter) :
    (s.setArbiter x).inDeviceReset = s.inDeviceReset := rfl
@[simp] theorem State.setArbiter_selected (s : State) (x : Arbiter) : (s.setArbiter x).selected = s.selected := rfl

/-! ### State.setRefresh -/

@[simp] theorem State.setRefresh_posts (s : State) (x : RefreshController) : (s.setRefresh x).posts = s.posts := rfl
@[simp] theorem State.setRefresh_slots (s : State) (x : RefreshController) : (s.setRefresh x).slots = s.slots := rfl
@[simp] theorem State.setRefresh_pool (s : State) (x : RefreshController) : (s.setRefresh x).pool = s.pool := rfl
@[simp] theorem State.setRefresh_holds (s : State) (x : RefreshController) : (s.setRefresh x).holds = s.holds := rfl
@[simp] theorem State.setRefresh_reads (s : State) (x : RefreshController) : (s.setRefresh x).reads = s.reads := rfl
@[simp] theorem State.setRefresh_filters (s : State) (x : RefreshController) :
    (s.setRefresh x).filters = s.filters := rfl
@[simp] theorem State.setRefresh_queues (s : State) (x : RefreshController) :
    (s.setRefresh x).queues = s.queues := rfl
@[simp] theorem State.setRefresh_requests (s : State) (x : RefreshController) :
    (s.setRefresh x).requests = s.requests := rfl
@[simp] theorem State.setRefresh_sessions (s : State) (x : RefreshController) :
    (s.setRefresh x).sessions = s.sessions := rfl
@[simp] theorem State.setRefresh_array (s : State) (x : RefreshController) : (s.setRefresh x).array = s.array := rfl
@[simp] theorem State.setRefresh_arbiter (s : State) (x : RefreshController) :
    (s.setRefresh x).arbiter = s.arbiter := rfl
@[simp] theorem State.setRefresh_refresh (s : State) (x : RefreshController) : (s.setRefresh x).refresh = x := rfl
@[simp] theorem State.setRefresh_time (s : State) (x : RefreshController) : (s.setRefresh x).time = s.time := rfl
@[simp] theorem State.setRefresh_ports (s : State) (x : RefreshController) : (s.setRefresh x).ports = s.ports := rfl
@[simp] theorem State.setRefresh_pins (s : State) (x : RefreshController) : (s.setRefresh x).pins = s.pins := rfl
@[simp] theorem State.setRefresh_epoch (s : State) (x : RefreshController) : (s.setRefresh x).epoch = s.epoch := rfl
@[simp] theorem State.setRefresh_pending (s : State) (x : RefreshController) :
    (s.setRefresh x).pending = s.pending := rfl
@[simp] theorem State.setRefresh_now (s : State) (x : RefreshController) : (s.setRefresh x).now = s.now := rfl
@[simp] theorem State.setRefresh_attached (s : State) (x : RefreshController) :
    (s.setRefresh x).attached = s.attached := rfl
@[simp] theorem State.setRefresh_inDeviceReset (s : State) (x : RefreshController) :
    (s.setRefresh x).inDeviceReset = s.inDeviceReset := rfl
@[simp] theorem State.setRefresh_selected (s : State) (x : RefreshController) :
    (s.setRefresh x).selected = s.selected := rfl

/-! ### State.setTime -/

@[simp] theorem State.setTime_posts (s : State) (x : TimeBase) : (s.setTime x).posts = s.posts := rfl
@[simp] theorem State.setTime_slots (s : State) (x : TimeBase) : (s.setTime x).slots = s.slots := rfl
@[simp] theorem State.setTime_pool (s : State) (x : TimeBase) : (s.setTime x).pool = s.pool := rfl
@[simp] theorem State.setTime_holds (s : State) (x : TimeBase) : (s.setTime x).holds = s.holds := rfl
@[simp] theorem State.setTime_reads (s : State) (x : TimeBase) : (s.setTime x).reads = s.reads := rfl
@[simp] theorem State.setTime_filters (s : State) (x : TimeBase) : (s.setTime x).filters = s.filters := rfl
@[simp] theorem State.setTime_queues (s : State) (x : TimeBase) : (s.setTime x).queues = s.queues := rfl
@[simp] theorem State.setTime_requests (s : State) (x : TimeBase) : (s.setTime x).requests = s.requests := rfl
@[simp] theorem State.setTime_sessions (s : State) (x : TimeBase) : (s.setTime x).sessions = s.sessions := rfl
@[simp] theorem State.setTime_array (s : State) (x : TimeBase) : (s.setTime x).array = s.array := rfl
@[simp] theorem State.setTime_arbiter (s : State) (x : TimeBase) : (s.setTime x).arbiter = s.arbiter := rfl
@[simp] theorem State.setTime_refresh (s : State) (x : TimeBase) : (s.setTime x).refresh = s.refresh := rfl
@[simp] theorem State.setTime_time (s : State) (x : TimeBase) : (s.setTime x).time = x := rfl
@[simp] theorem State.setTime_ports (s : State) (x : TimeBase) : (s.setTime x).ports = s.ports := rfl
@[simp] theorem State.setTime_pins (s : State) (x : TimeBase) : (s.setTime x).pins = s.pins := rfl
@[simp] theorem State.setTime_epoch (s : State) (x : TimeBase) : (s.setTime x).epoch = s.epoch := rfl
@[simp] theorem State.setTime_pending (s : State) (x : TimeBase) : (s.setTime x).pending = s.pending := rfl
@[simp] theorem State.setTime_attached (s : State) (x : TimeBase) : (s.setTime x).attached = s.attached := rfl
@[simp] theorem State.setTime_inDeviceReset (s : State) (x : TimeBase) :
    (s.setTime x).inDeviceReset = s.inDeviceReset := rfl
@[simp] theorem State.setTime_selected (s : State) (x : TimeBase) : (s.setTime x).selected = s.selected := rfl

/-! ### State.setPort -/

@[simp] theorem State.setPort_posts (s : State) (n : Port) (x : PortInterface) :
    (s.setPort n x).posts = s.posts := rfl
@[simp] theorem State.setPort_slots (s : State) (n : Port) (x : PortInterface) :
    (s.setPort n x).slots = s.slots := rfl
@[simp] theorem State.setPort_pool (s : State) (n : Port) (x : PortInterface) : (s.setPort n x).pool = s.pool := rfl
@[simp] theorem State.setPort_holds (s : State) (n : Port) (x : PortInterface) :
    (s.setPort n x).holds = s.holds := rfl
@[simp] theorem State.setPort_reads (s : State) (n : Port) (x : PortInterface) :
    (s.setPort n x).reads = s.reads := rfl
@[simp] theorem State.setPort_filters (s : State) (n : Port) (x : PortInterface) :
    (s.setPort n x).filters = s.filters := rfl
@[simp] theorem State.setPort_queues (s : State) (n : Port) (x : PortInterface) :
    (s.setPort n x).queues = s.queues := rfl
@[simp] theorem State.setPort_requests (s : State) (n : Port) (x : PortInterface) :
    (s.setPort n x).requests = s.requests := rfl
@[simp] theorem State.setPort_sessions (s : State) (n : Port) (x : PortInterface) :
    (s.setPort n x).sessions = s.sessions := rfl
@[simp] theorem State.setPort_array (s : State) (n : Port) (x : PortInterface) :
    (s.setPort n x).array = s.array := rfl
@[simp] theorem State.setPort_arbiter (s : State) (n : Port) (x : PortInterface) :
    (s.setPort n x).arbiter = s.arbiter := rfl
@[simp] theorem State.setPort_refresh (s : State) (n : Port) (x : PortInterface) :
    (s.setPort n x).refresh = s.refresh := rfl
@[simp] theorem State.setPort_time (s : State) (n : Port) (x : PortInterface) : (s.setPort n x).time = s.time := rfl
@[simp] theorem State.setPort_ports (s : State) (n : Port) (x : PortInterface) :
    (s.setPort n x).ports = put s.ports n x := rfl
@[simp] theorem State.setPort_pins (s : State) (n : Port) (x : PortInterface) : (s.setPort n x).pins = s.pins := rfl
@[simp] theorem State.setPort_epoch (s : State) (n : Port) (x : PortInterface) :
    (s.setPort n x).epoch = s.epoch := rfl
@[simp] theorem State.setPort_pending (s : State) (n : Port) (x : PortInterface) :
    (s.setPort n x).pending = s.pending := rfl
@[simp] theorem State.setPort_now (s : State) (n : Port) (x : PortInterface) : (s.setPort n x).now = s.now := rfl
@[simp] theorem State.setPort_attached (s : State) (n : Port) (x : PortInterface) :
    (s.setPort n x).attached = s.attached := rfl
@[simp] theorem State.setPort_inDeviceReset (s : State) (n : Port) (x : PortInterface) :
    (s.setPort n x).inDeviceReset = s.inDeviceReset := rfl
@[simp] theorem State.setPort_selected (s : State) (n : Port) (x : PortInterface) :
    (s.setPort n x).selected = s.selected := rfl

/-! ### State.setPins -/

@[simp] theorem State.setPins_posts (s : State) (x : Pins) : (s.setPins x).posts = s.posts := rfl
@[simp] theorem State.setPins_slots (s : State) (x : Pins) : (s.setPins x).slots = s.slots := rfl
@[simp] theorem State.setPins_pool (s : State) (x : Pins) : (s.setPins x).pool = s.pool := rfl
@[simp] theorem State.setPins_holds (s : State) (x : Pins) : (s.setPins x).holds = s.holds := rfl
@[simp] theorem State.setPins_reads (s : State) (x : Pins) : (s.setPins x).reads = s.reads := rfl
@[simp] theorem State.setPins_filters (s : State) (x : Pins) : (s.setPins x).filters = s.filters := rfl
@[simp] theorem State.setPins_queues (s : State) (x : Pins) : (s.setPins x).queues = s.queues := rfl
@[simp] theorem State.setPins_requests (s : State) (x : Pins) : (s.setPins x).requests = s.requests := rfl
@[simp] theorem State.setPins_sessions (s : State) (x : Pins) : (s.setPins x).sessions = s.sessions := rfl
@[simp] theorem State.setPins_array (s : State) (x : Pins) : (s.setPins x).array = s.array := rfl
@[simp] theorem State.setPins_arbiter (s : State) (x : Pins) : (s.setPins x).arbiter = s.arbiter := rfl
@[simp] theorem State.setPins_refresh (s : State) (x : Pins) : (s.setPins x).refresh = s.refresh := rfl
@[simp] theorem State.setPins_time (s : State) (x : Pins) : (s.setPins x).time = s.time := rfl
@[simp] theorem State.setPins_ports (s : State) (x : Pins) : (s.setPins x).ports = s.ports := rfl
@[simp] theorem State.setPins_pins (s : State) (x : Pins) :
    (s.setPins x).pins = { x with attn := s.pins.attn } := rfl
@[simp] theorem State.setPins_epoch (s : State) (x : Pins) : (s.setPins x).epoch = s.epoch := rfl
@[simp] theorem State.setPins_pending (s : State) (x : Pins) : (s.setPins x).pending = s.pending := rfl
@[simp] theorem State.setPins_now (s : State) (x : Pins) : (s.setPins x).now = s.now := rfl
@[simp] theorem State.setPins_attached (s : State) (x : Pins) : (s.setPins x).attached = s.attached := rfl

/-! ### State.setPending -/

@[simp] theorem State.setPending_posts (s : State) (x : List Instr) : (s.setPending x).posts = s.posts := rfl
@[simp] theorem State.setPending_slots (s : State) (x : List Instr) : (s.setPending x).slots = s.slots := rfl
@[simp] theorem State.setPending_pool (s : State) (x : List Instr) : (s.setPending x).pool = s.pool := rfl
@[simp] theorem State.setPending_holds (s : State) (x : List Instr) : (s.setPending x).holds = s.holds := rfl
@[simp] theorem State.setPending_reads (s : State) (x : List Instr) : (s.setPending x).reads = s.reads := rfl
@[simp] theorem State.setPending_filters (s : State) (x : List Instr) : (s.setPending x).filters = s.filters := rfl
@[simp] theorem State.setPending_queues (s : State) (x : List Instr) : (s.setPending x).queues = s.queues := rfl
@[simp] theorem State.setPending_requests (s : State) (x : List Instr) :
    (s.setPending x).requests = s.requests := rfl
@[simp] theorem State.setPending_sessions (s : State) (x : List Instr) :
    (s.setPending x).sessions = s.sessions := rfl
@[simp] theorem State.setPending_array (s : State) (x : List Instr) : (s.setPending x).array = s.array := rfl
@[simp] theorem State.setPending_arbiter (s : State) (x : List Instr) : (s.setPending x).arbiter = s.arbiter := rfl
@[simp] theorem State.setPending_refresh (s : State) (x : List Instr) : (s.setPending x).refresh = s.refresh := rfl
@[simp] theorem State.setPending_time (s : State) (x : List Instr) : (s.setPending x).time = s.time := rfl
@[simp] theorem State.setPending_ports (s : State) (x : List Instr) : (s.setPending x).ports = s.ports := rfl
@[simp] theorem State.setPending_pins (s : State) (x : List Instr) : (s.setPending x).pins = s.pins := rfl
@[simp] theorem State.setPending_epoch (s : State) (x : List Instr) : (s.setPending x).epoch = s.epoch := rfl
@[simp] theorem State.setPending_pending (s : State) (x : List Instr) : (s.setPending x).pending = x := rfl
@[simp] theorem State.setPending_now (s : State) (x : List Instr) : (s.setPending x).now = s.now := rfl
@[simp] theorem State.setPending_attached (s : State) (x : List Instr) :
    (s.setPending x).attached = s.attached := rfl
@[simp] theorem State.setPending_inDeviceReset (s : State) (x : List Instr) :
    (s.setPending x).inDeviceReset = s.inDeviceReset := rfl
@[simp] theorem State.setPending_selected (s : State) (x : List Instr) :
    (s.setPending x).selected = s.selected := rfl

/-! ### State.notify -/

@[simp] theorem State.notify_posts (s : State) (x : Notice) (k : Half) (g : FilterFlag) (a f : Option Port) :
    (s.notify x k g a f).posts = s.posts := rfl
@[simp] theorem State.notify_slots (s : State) (x : Notice) (k : Half) (g : FilterFlag) (a f : Option Port) :
    (s.notify x k g a f).slots = s.slots := rfl
@[simp] theorem State.notify_pool (s : State) (x : Notice) (k : Half) (g : FilterFlag) (a f : Option Port) :
    (s.notify x k g a f).pool = s.pool := rfl
@[simp] theorem State.notify_holds (s : State) (x : Notice) (k : Half) (g : FilterFlag) (a f : Option Port) :
    (s.notify x k g a f).holds = s.holds := rfl
@[simp] theorem State.notify_reads (s : State) (x : Notice) (k : Half) (g : FilterFlag) (a f : Option Port) :
    (s.notify x k g a f).reads = s.reads := rfl
@[simp] theorem State.notify_filters (s : State) (x : Notice) (k : Half) (g : FilterFlag) (a f : Option Port) :
    (s.notify x k g a f).filters = s.filters := rfl
@[simp] theorem State.notify_queues (s : State) (x : Notice) (k : Half) (g : FilterFlag) (a f : Option Port) :
    (s.notify x k g a f).queues =
    deliver (s.recipients k g a f) x s.queues := rfl
@[simp] theorem State.notify_requests (s : State) (x : Notice) (k : Half) (g : FilterFlag) (a f :
    Option Port) : (s.notify x k g a f).requests = s.requests := rfl
@[simp] theorem State.notify_sessions (s : State) (x : Notice) (k : Half) (g : FilterFlag) (a f :
    Option Port) : (s.notify x k g a f).sessions = s.sessions := rfl
@[simp] theorem State.notify_array (s : State) (x : Notice) (k : Half) (g : FilterFlag) (a f : Option Port) :
    (s.notify x k g a f).array = s.array := rfl
@[simp] theorem State.notify_arbiter (s : State) (x : Notice) (k : Half) (g : FilterFlag) (a f : Option Port) :
    (s.notify x k g a f).arbiter = s.arbiter := rfl
@[simp] theorem State.notify_refresh (s : State) (x : Notice) (k : Half) (g : FilterFlag) (a f : Option Port) :
    (s.notify x k g a f).refresh = s.refresh := rfl
@[simp] theorem State.notify_time (s : State) (x : Notice) (k : Half) (g : FilterFlag) (a f : Option Port) :
    (s.notify x k g a f).time = s.time := rfl
@[simp] theorem State.notify_ports (s : State) (x : Notice) (k : Half) (g : FilterFlag) (a f : Option Port) :
    (s.notify x k g a f).ports = s.ports := rfl
theorem State.notify_attn (s : State) (x : Notice) (k : Half) (g : FilterFlag) (a f : Option Port) :
    (s.notify x k g a f).pins.attn = attentionLines (s.notify x k g a f).sessions (s.notify x k g a f).queues := rfl
@[simp] theorem State.notify_cs (s : State) (x : Notice) (k : Half) (g : FilterFlag) (a f : Option Port) :
    (s.notify x k g a f).pins.cs = s.pins.cs := rfl
@[simp] theorem State.notify_rst (s : State) (x : Notice) (k : Half) (g : FilterFlag) (a f : Option Port) :
    (s.notify x k g a f).pins.rst = s.pins.rst := rfl
@[simp] theorem State.notify_sup (s : State) (x : Notice) (k : Half) (g : FilterFlag) (a f : Option Port) :
    (s.notify x k g a f).pins.sup = s.pins.sup := rfl
@[simp] theorem State.notify_nReset (s : State) (x : Notice) (k : Half) (g : FilterFlag) (a f : Option Port) :
    (s.notify x k g a f).pins.nReset = s.pins.nReset := rfl
@[simp] theorem State.notify_clksel (s : State) (x : Notice) (k : Half) (g : FilterFlag) (a f : Option Port) :
    (s.notify x k g a f).pins.clksel = s.pins.clksel := rfl
@[simp] theorem State.notify_epoch (s : State) (x : Notice) (k : Half) (g : FilterFlag) (a f : Option Port) :
    (s.notify x k g a f).epoch = s.epoch := rfl
@[simp] theorem State.notify_pending (s : State) (x : Notice) (k : Half) (g : FilterFlag) (a f : Option Port) :
    (s.notify x k g a f).pending = s.pending := rfl
@[simp] theorem State.notify_now (s : State) (x : Notice) (k : Half) (g : FilterFlag) (a f : Option Port) :
    (s.notify x k g a f).now = s.now := rfl
@[simp] theorem State.notify_attached (s : State) (x : Notice) (k : Half) (g : FilterFlag) (a f :
    Option Port) : (s.notify x k g a f).attached = s.attached := rfl
@[simp] theorem State.notify_inDeviceReset (s : State) (x : Notice) (k : Half) (g : FilterFlag) (a f :
    Option Port) : (s.notify x k g a f).inDeviceReset = s.inDeviceReset := rfl
@[simp] theorem State.notify_selected (s : State) (x : Notice) (k : Half) (g : FilterFlag) (a f :
    Option Port) : (s.notify x k g a f).selected = s.selected := rfl

/-! ### State.notifyAttached -/

@[simp] theorem State.notifyAttached_posts (s : State) (x : Notice) : (s.notifyAttached x).posts = s.posts := rfl
@[simp] theorem State.notifyAttached_slots (s : State) (x : Notice) : (s.notifyAttached x).slots = s.slots := rfl
@[simp] theorem State.notifyAttached_pool (s : State) (x : Notice) : (s.notifyAttached x).pool = s.pool := rfl
@[simp] theorem State.notifyAttached_holds (s : State) (x : Notice) : (s.notifyAttached x).holds = s.holds := rfl
@[simp] theorem State.notifyAttached_reads (s : State) (x : Notice) : (s.notifyAttached x).reads = s.reads := rfl
@[simp] theorem State.notifyAttached_filters (s : State) (x : Notice) :
    (s.notifyAttached x).filters = s.filters := rfl
@[simp] theorem State.notifyAttached_queues (s : State) (x : Notice) :
    (s.notifyAttached x).queues =
    deliver s.attached x s.queues := rfl
@[simp] theorem State.notifyAttached_requests (s : State) (x : Notice) :
    (s.notifyAttached x).requests = s.requests := rfl
@[simp] theorem State.notifyAttached_sessions (s : State) (x : Notice) :
    (s.notifyAttached x).sessions = s.sessions := rfl
@[simp] theorem State.notifyAttached_array (s : State) (x : Notice) : (s.notifyAttached x).array = s.array := rfl
@[simp] theorem State.notifyAttached_arbiter (s : State) (x : Notice) :
    (s.notifyAttached x).arbiter = s.arbiter := rfl
@[simp] theorem State.notifyAttached_refresh (s : State) (x : Notice) :
    (s.notifyAttached x).refresh = s.refresh := rfl
@[simp] theorem State.notifyAttached_time (s : State) (x : Notice) : (s.notifyAttached x).time = s.time := rfl
@[simp] theorem State.notifyAttached_ports (s : State) (x : Notice) : (s.notifyAttached x).ports = s.ports := rfl
theorem State.notifyAttached_attn (s : State) (x : Notice) :
    (s.notifyAttached x).pins.attn = attentionLines (s.notifyAttached x).sessions (s.notifyAttached x).queues := rfl
@[simp] theorem State.notifyAttached_cs (s : State) (x : Notice) : (s.notifyAttached x).pins.cs = s.pins.cs := rfl
@[simp] theorem State.notifyAttached_rst (s : State) (x : Notice) :
    (s.notifyAttached x).pins.rst = s.pins.rst := rfl
@[simp] theorem State.notifyAttached_sup (s : State) (x : Notice) :
    (s.notifyAttached x).pins.sup = s.pins.sup := rfl
@[simp] theorem State.notifyAttached_nReset (s : State) (x : Notice) :
    (s.notifyAttached x).pins.nReset = s.pins.nReset := rfl
@[simp] theorem State.notifyAttached_clksel (s : State) (x : Notice) :
    (s.notifyAttached x).pins.clksel = s.pins.clksel := rfl
@[simp] theorem State.notifyAttached_epoch (s : State) (x : Notice) : (s.notifyAttached x).epoch = s.epoch := rfl
@[simp] theorem State.notifyAttached_pending (s : State) (x : Notice) :
    (s.notifyAttached x).pending = s.pending := rfl
@[simp] theorem State.notifyAttached_now (s : State) (x : Notice) : (s.notifyAttached x).now = s.now := rfl
@[simp] theorem State.notifyAttached_attached (s : State) (x : Notice) :
    (s.notifyAttached x).attached = s.attached := rfl
@[simp] theorem State.notifyAttached_inDeviceReset (s : State) (x : Notice) :
    (s.notifyAttached x).inDeviceReset = s.inDeviceReset := rfl
@[simp] theorem State.notifyAttached_selected (s : State) (x : Notice) :
    (s.notifyAttached x).selected = s.selected := rfl

/-! ### State.notifyPort -/

@[simp] theorem State.notifyPort_posts (s : State) (n : Port) (x : Notice) :
    (s.notifyPort n x).posts = s.posts := rfl
@[simp] theorem State.notifyPort_slots (s : State) (n : Port) (x : Notice) :
    (s.notifyPort n x).slots = s.slots := rfl
@[simp] theorem State.notifyPort_pool (s : State) (n : Port) (x : Notice) : (s.notifyPort n x).pool = s.pool := rfl
@[simp] theorem State.notifyPort_holds (s : State) (n : Port) (x : Notice) :
    (s.notifyPort n x).holds = s.holds := rfl
@[simp] theorem State.notifyPort_reads (s : State) (n : Port) (x : Notice) :
    (s.notifyPort n x).reads = s.reads := rfl
@[simp] theorem State.notifyPort_filters (s : State) (n : Port) (x : Notice) :
    (s.notifyPort n x).filters = s.filters := rfl
@[simp] theorem State.notifyPort_queues (s : State) (n : Port) (x : Notice) :
    (s.notifyPort n x).queues =
    deliver (fun m => decide (m = n) && s.attached m) x s.queues := rfl
@[simp] theorem State.notifyPort_requests (s : State) (n : Port) (x : Notice) :
    (s.notifyPort n x).requests = s.requests := rfl
@[simp] theorem State.notifyPort_sessions (s : State) (n : Port) (x : Notice) :
    (s.notifyPort n x).sessions = s.sessions := rfl
@[simp] theorem State.notifyPort_array (s : State) (n : Port) (x : Notice) :
    (s.notifyPort n x).array = s.array := rfl
@[simp] theorem State.notifyPort_arbiter (s : State) (n : Port) (x : Notice) :
    (s.notifyPort n x).arbiter = s.arbiter := rfl
@[simp] theorem State.notifyPort_refresh (s : State) (n : Port) (x : Notice) :
    (s.notifyPort n x).refresh = s.refresh := rfl
@[simp] theorem State.notifyPort_time (s : State) (n : Port) (x : Notice) : (s.notifyPort n x).time = s.time := rfl
@[simp] theorem State.notifyPort_ports (s : State) (n : Port) (x : Notice) :
    (s.notifyPort n x).ports = s.ports := rfl
theorem State.notifyPort_attn (s : State) (n : Port) (x : Notice) :
    (s.notifyPort n x).pins.attn = attentionLines (s.notifyPort n x).sessions (s.notifyPort n x).queues := rfl
@[simp] theorem State.notifyPort_cs (s : State) (n : Port) (x : Notice) :
    (s.notifyPort n x).pins.cs = s.pins.cs := rfl
@[simp] theorem State.notifyPort_rst (s : State) (n : Port) (x : Notice) :
    (s.notifyPort n x).pins.rst = s.pins.rst := rfl
@[simp] theorem State.notifyPort_sup (s : State) (n : Port) (x : Notice) :
    (s.notifyPort n x).pins.sup = s.pins.sup := rfl
@[simp] theorem State.notifyPort_nReset (s : State) (n : Port) (x : Notice) :
    (s.notifyPort n x).pins.nReset = s.pins.nReset := rfl
@[simp] theorem State.notifyPort_clksel (s : State) (n : Port) (x : Notice) :
    (s.notifyPort n x).pins.clksel = s.pins.clksel := rfl
@[simp] theorem State.notifyPort_epoch (s : State) (n : Port) (x : Notice) :
    (s.notifyPort n x).epoch = s.epoch := rfl
@[simp] theorem State.notifyPort_pending (s : State) (n : Port) (x : Notice) :
    (s.notifyPort n x).pending = s.pending := rfl
@[simp] theorem State.notifyPort_now (s : State) (n : Port) (x : Notice) : (s.notifyPort n x).now = s.now := rfl
@[simp] theorem State.notifyPort_attached (s : State) (n : Port) (x : Notice) :
    (s.notifyPort n x).attached = s.attached := rfl
@[simp] theorem State.notifyPort_inDeviceReset (s : State) (n : Port) (x : Notice) :
    (s.notifyPort n x).inDeviceReset = s.inDeviceReset := rfl
@[simp] theorem State.notifyPort_selected (s : State) (n : Port) (x : Notice) :
    (s.notifyPort n x).selected = s.selected := rfl

/-! ### State.purgePost -/

@[simp] theorem State.purgePost_posts (s : State) (p : PostNo) : (s.purgePost p).posts = s.posts := rfl
@[simp] theorem State.purgePost_slots (s : State) (p : PostNo) : (s.purgePost p).slots = s.slots := rfl
@[simp] theorem State.purgePost_pool (s : State) (p : PostNo) : (s.purgePost p).pool = s.pool := rfl
@[simp] theorem State.purgePost_holds (s : State) (p : PostNo) : (s.purgePost p).holds = s.holds := rfl
@[simp] theorem State.purgePost_reads (s : State) (p : PostNo) : (s.purgePost p).reads = s.reads := rfl
@[simp] theorem State.purgePost_filters (s : State) (p : PostNo) : (s.purgePost p).filters = s.filters := rfl
@[simp] theorem State.purgePost_queues (s : State) (p : PostNo) :
    (s.purgePost p).queues =
    perPort fun n => s.queues[n].purge fun e => e.isUpdateOf p || e.isSolicitOf p := rfl
@[simp] theorem State.purgePost_requests (s : State) (p : PostNo) : (s.purgePost p).requests = s.requests := rfl
@[simp] theorem State.purgePost_sessions (s : State) (p : PostNo) : (s.purgePost p).sessions = s.sessions := rfl
@[simp] theorem State.purgePost_array (s : State) (p : PostNo) : (s.purgePost p).array = s.array := rfl
@[simp] theorem State.purgePost_arbiter (s : State) (p : PostNo) : (s.purgePost p).arbiter = s.arbiter := rfl
@[simp] theorem State.purgePost_refresh (s : State) (p : PostNo) : (s.purgePost p).refresh = s.refresh := rfl
@[simp] theorem State.purgePost_time (s : State) (p : PostNo) : (s.purgePost p).time = s.time := rfl
@[simp] theorem State.purgePost_ports (s : State) (p : PostNo) : (s.purgePost p).ports = s.ports := rfl
theorem State.purgePost_attn (s : State) (p : PostNo) :
    (s.purgePost p).pins.attn = attentionLines (s.purgePost p).sessions (s.purgePost p).queues := rfl
@[simp] theorem State.purgePost_cs (s : State) (p : PostNo) : (s.purgePost p).pins.cs = s.pins.cs := rfl
@[simp] theorem State.purgePost_rst (s : State) (p : PostNo) : (s.purgePost p).pins.rst = s.pins.rst := rfl
@[simp] theorem State.purgePost_sup (s : State) (p : PostNo) : (s.purgePost p).pins.sup = s.pins.sup := rfl
@[simp] theorem State.purgePost_nReset (s : State) (p : PostNo) : (s.purgePost p).pins.nReset = s.pins.nReset := rfl
@[simp] theorem State.purgePost_clksel (s : State) (p : PostNo) : (s.purgePost p).pins.clksel = s.pins.clksel := rfl
@[simp] theorem State.purgePost_epoch (s : State) (p : PostNo) : (s.purgePost p).epoch = s.epoch := rfl
@[simp] theorem State.purgePost_pending (s : State) (p : PostNo) : (s.purgePost p).pending = s.pending := rfl
@[simp] theorem State.purgePost_now (s : State) (p : PostNo) : (s.purgePost p).now = s.now := rfl
@[simp] theorem State.purgePost_attached (s : State) (p : PostNo) : (s.purgePost p).attached = s.attached := rfl
@[simp] theorem State.purgePost_inDeviceReset (s : State) (p : PostNo) :
    (s.purgePost p).inDeviceReset = s.inDeviceReset := rfl
@[simp] theorem State.purgePost_selected (s : State) (p : PostNo) : (s.purgePost p).selected = s.selected := rfl

/-! ### State.purgeSolicit -/

@[simp] theorem State.purgeSolicit_posts (s : State) (n : Port) (p : PostNo) :
    (s.purgeSolicit n p).posts = s.posts := rfl
@[simp] theorem State.purgeSolicit_slots (s : State) (n : Port) (p : PostNo) :
    (s.purgeSolicit n p).slots = s.slots := rfl
@[simp] theorem State.purgeSolicit_pool (s : State) (n : Port) (p : PostNo) :
    (s.purgeSolicit n p).pool = s.pool := rfl
@[simp] theorem State.purgeSolicit_holds (s : State) (n : Port) (p : PostNo) :
    (s.purgeSolicit n p).holds = s.holds := rfl
@[simp] theorem State.purgeSolicit_reads (s : State) (n : Port) (p : PostNo) :
    (s.purgeSolicit n p).reads = s.reads := rfl
@[simp] theorem State.purgeSolicit_filters (s : State) (n : Port) (p : PostNo) :
    (s.purgeSolicit n p).filters = s.filters := rfl
@[simp] theorem State.purgeSolicit_queues (s : State) (n : Port) (p : PostNo) :
    (s.purgeSolicit n p).queues =
    put s.queues n (s.queues[n].purge fun e => e.isSolicitOf p) := rfl
@[simp] theorem State.purgeSolicit_requests (s : State) (n : Port) (p : PostNo) :
    (s.purgeSolicit n p).requests = s.requests := rfl
@[simp] theorem State.purgeSolicit_sessions (s : State) (n : Port) (p : PostNo) :
    (s.purgeSolicit n p).sessions = s.sessions := rfl
@[simp] theorem State.purgeSolicit_array (s : State) (n : Port) (p : PostNo) :
    (s.purgeSolicit n p).array = s.array := rfl
@[simp] theorem State.purgeSolicit_arbiter (s : State) (n : Port) (p : PostNo) :
    (s.purgeSolicit n p).arbiter = s.arbiter := rfl
@[simp] theorem State.purgeSolicit_refresh (s : State) (n : Port) (p : PostNo) :
    (s.purgeSolicit n p).refresh = s.refresh := rfl
@[simp] theorem State.purgeSolicit_time (s : State) (n : Port) (p : PostNo) :
    (s.purgeSolicit n p).time = s.time := rfl
@[simp] theorem State.purgeSolicit_ports (s : State) (n : Port) (p : PostNo) :
    (s.purgeSolicit n p).ports = s.ports := rfl
theorem State.purgeSolicit_attn (s : State) (n : Port) (p : PostNo) :
    (s.purgeSolicit n p).pins.attn = attentionLines (s.purgeSolicit n p).sessions (s.purgeSolicit n p).queues := rfl
@[simp] theorem State.purgeSolicit_cs (s : State) (n : Port) (p : PostNo) :
    (s.purgeSolicit n p).pins.cs = s.pins.cs := rfl
@[simp] theorem State.purgeSolicit_rst (s : State) (n : Port) (p : PostNo) :
    (s.purgeSolicit n p).pins.rst = s.pins.rst := rfl
@[simp] theorem State.purgeSolicit_sup (s : State) (n : Port) (p : PostNo) :
    (s.purgeSolicit n p).pins.sup = s.pins.sup := rfl
@[simp] theorem State.purgeSolicit_nReset (s : State) (n : Port) (p : PostNo) :
    (s.purgeSolicit n p).pins.nReset = s.pins.nReset := rfl
@[simp] theorem State.purgeSolicit_clksel (s : State) (n : Port) (p : PostNo) :
    (s.purgeSolicit n p).pins.clksel = s.pins.clksel := rfl
@[simp] theorem State.purgeSolicit_epoch (s : State) (n : Port) (p : PostNo) :
    (s.purgeSolicit n p).epoch = s.epoch := rfl
@[simp] theorem State.purgeSolicit_pending (s : State) (n : Port) (p : PostNo) :
    (s.purgeSolicit n p).pending = s.pending := rfl
@[simp] theorem State.purgeSolicit_now (s : State) (n : Port) (p : PostNo) : (s.purgeSolicit n p).now = s.now := rfl
@[simp] theorem State.purgeSolicit_attached (s : State) (n : Port) (p : PostNo) :
    (s.purgeSolicit n p).attached = s.attached := rfl
@[simp] theorem State.purgeSolicit_inDeviceReset (s : State) (n : Port) (p : PostNo) :
    (s.purgeSolicit n p).inDeviceReset = s.inDeviceReset := rfl
@[simp] theorem State.purgeSolicit_selected (s : State) (n : Port) (p : PostNo) :
    (s.purgeSolicit n p).selected = s.selected := rfl

/-! ### State.completeAsks -/

@[simp] theorem State.completeAsks_posts (s : State) (c : PendingAsk → Bool) (o : AskOutcome) :
    (s.completeAsks c o).posts = s.posts := rfl
@[simp] theorem State.completeAsks_slots (s : State) (c : PendingAsk → Bool) (o : AskOutcome) :
    (s.completeAsks c o).slots = s.slots := rfl
@[simp] theorem State.completeAsks_pool (s : State) (c : PendingAsk → Bool) (o : AskOutcome) :
    (s.completeAsks c o).pool = s.pool := rfl
@[simp] theorem State.completeAsks_holds (s : State) (c : PendingAsk → Bool) (o : AskOutcome) :
    (s.completeAsks c o).holds = s.holds := rfl
@[simp] theorem State.completeAsks_reads (s : State) (c : PendingAsk → Bool) (o : AskOutcome) :
    (s.completeAsks c o).reads = s.reads := rfl
@[simp] theorem State.completeAsks_filters (s : State) (c : PendingAsk → Bool) (o : AskOutcome) :
    (s.completeAsks c o).filters = s.filters := rfl
@[simp] theorem State.completeAsks_queues (s : State) (c : PendingAsk → Bool) (o : AskOutcome) :
    (s.completeAsks c o).queues =
    (completeEntries s.attached (s.requests.pending.filter c) o (s.queues, s.requests.undelivered)).1 := rfl
@[simp] theorem State.completeAsks_requests (s : State) (c : PendingAsk → Bool) (o : AskOutcome) :
    (s.completeAsks c o).requests =
    { s.requests with
      pending := s.requests.pending.filter (fun e => !c e)
      undelivered := (completeEntries s.attached (s.requests.pending.filter c) o (s.queues,
          s.requests.undelivered)).2 } := rfl
@[simp] theorem State.completeAsks_sessions (s : State) (c : PendingAsk → Bool) (o : AskOutcome) :
    (s.completeAsks c o).sessions = s.sessions := rfl
@[simp] theorem State.completeAsks_array (s : State) (c : PendingAsk → Bool) (o : AskOutcome) :
    (s.completeAsks c o).array = s.array := rfl
@[simp] theorem State.completeAsks_arbiter (s : State) (c : PendingAsk → Bool) (o : AskOutcome) :
    (s.completeAsks c o).arbiter = s.arbiter := rfl
@[simp] theorem State.completeAsks_refresh (s : State) (c : PendingAsk → Bool) (o : AskOutcome) :
    (s.completeAsks c o).refresh = s.refresh := rfl
@[simp] theorem State.completeAsks_time (s : State) (c : PendingAsk → Bool) (o : AskOutcome) :
    (s.completeAsks c o).time = s.time := rfl
@[simp] theorem State.completeAsks_ports (s : State) (c : PendingAsk → Bool) (o : AskOutcome) :
    (s.completeAsks c o).ports = s.ports := rfl
theorem State.completeAsks_attn (s : State) (c : PendingAsk → Bool) (o : AskOutcome) :
    (s.completeAsks c o).pins.attn = attentionLines (s.completeAsks c o).sessions (s.completeAsks c o).queues := rfl
@[simp] theorem State.completeAsks_cs (s : State) (c : PendingAsk → Bool) (o : AskOutcome) :
    (s.completeAsks c o).pins.cs = s.pins.cs := rfl
@[simp] theorem State.completeAsks_rst (s : State) (c : PendingAsk → Bool) (o : AskOutcome) :
    (s.completeAsks c o).pins.rst = s.pins.rst := rfl
@[simp] theorem State.completeAsks_sup (s : State) (c : PendingAsk → Bool) (o : AskOutcome) :
    (s.completeAsks c o).pins.sup = s.pins.sup := rfl
@[simp] theorem State.completeAsks_nReset (s : State) (c : PendingAsk → Bool) (o : AskOutcome) :
    (s.completeAsks c o).pins.nReset = s.pins.nReset := rfl
@[simp] theorem State.completeAsks_clksel (s : State) (c : PendingAsk → Bool) (o : AskOutcome) :
    (s.completeAsks c o).pins.clksel = s.pins.clksel := rfl
@[simp] theorem State.completeAsks_epoch (s : State) (c : PendingAsk → Bool) (o : AskOutcome) :
    (s.completeAsks c o).epoch = s.epoch := rfl
@[simp] theorem State.completeAsks_pending (s : State) (c : PendingAsk → Bool) (o : AskOutcome) :
    (s.completeAsks c o).pending = s.pending := rfl
@[simp] theorem State.completeAsks_now (s : State) (c : PendingAsk → Bool) (o : AskOutcome) :
    (s.completeAsks c o).now = s.now := rfl
@[simp] theorem State.completeAsks_attached (s : State) (c : PendingAsk → Bool) (o : AskOutcome) :
    (s.completeAsks c o).attached = s.attached := rfl
@[simp] theorem State.completeAsks_inDeviceReset (s : State) (c : PendingAsk → Bool) (o : AskOutcome) :
    (s.completeAsks c o).inDeviceReset = s.inDeviceReset := rfl
@[simp] theorem State.completeAsks_selected (s : State) (c : PendingAsk → Bool) (o : AskOutcome) :
    (s.completeAsks c o).selected = s.selected := rfl

/-! ### State.overtake -/

@[simp] theorem State.overtake_posts (s : State) (n : Port) (c : OvertakeCause) :
    (s.overtake n c).posts = s.posts := rfl
@[simp] theorem State.overtake_slots (s : State) (n : Port) (c : OvertakeCause) :
    (s.overtake n c).slots =
    put s.slots n (s.slots[n].map (Publication.overtakenBy c)) := rfl
@[simp] theorem State.overtake_pool (s : State) (n : Port) (c : OvertakeCause) :
    (s.overtake n c).pool = s.pool := rfl
@[simp] theorem State.overtake_holds (s : State) (n : Port) (c : OvertakeCause) :
    (s.overtake n c).holds = s.holds := rfl
@[simp] theorem State.overtake_reads (s : State) (n : Port) (c : OvertakeCause) :
    (s.overtake n c).reads = s.reads := rfl
@[simp] theorem State.overtake_filters (s : State) (n : Port) (c : OvertakeCause) :
    (s.overtake n c).filters = s.filters := rfl
@[simp] theorem State.overtake_queues (s : State) (n : Port) (c : OvertakeCause) :
    (s.overtake n c).queues = s.queues := rfl
@[simp] theorem State.overtake_requests (s : State) (n : Port) (c : OvertakeCause) :
    (s.overtake n c).requests = s.requests := rfl
@[simp] theorem State.overtake_sessions (s : State) (n : Port) (c : OvertakeCause) :
    (s.overtake n c).sessions = s.sessions := rfl
@[simp] theorem State.overtake_array (s : State) (n : Port) (c : OvertakeCause) :
    (s.overtake n c).array = s.array := rfl
@[simp] theorem State.overtake_arbiter (s : State) (n : Port) (c : OvertakeCause) :
    (s.overtake n c).arbiter = s.arbiter := rfl
@[simp] theorem State.overtake_refresh (s : State) (n : Port) (c : OvertakeCause) :
    (s.overtake n c).refresh = s.refresh := rfl
@[simp] theorem State.overtake_time (s : State) (n : Port) (c : OvertakeCause) :
    (s.overtake n c).time = s.time := rfl
@[simp] theorem State.overtake_ports (s : State) (n : Port) (c : OvertakeCause) :
    (s.overtake n c).ports = s.ports := rfl
@[simp] theorem State.overtake_pins (s : State) (n : Port) (c : OvertakeCause) :
    (s.overtake n c).pins = s.pins := rfl
@[simp] theorem State.overtake_epoch (s : State) (n : Port) (c : OvertakeCause) :
    (s.overtake n c).epoch = s.epoch := rfl
@[simp] theorem State.overtake_pending (s : State) (n : Port) (c : OvertakeCause) :
    (s.overtake n c).pending = s.pending := rfl
@[simp] theorem State.overtake_now (s : State) (n : Port) (c : OvertakeCause) : (s.overtake n c).now = s.now := rfl
@[simp] theorem State.overtake_attached (s : State) (n : Port) (c : OvertakeCause) :
    (s.overtake n c).attached = s.attached := rfl
@[simp] theorem State.overtake_inDeviceReset (s : State) (n : Port) (c : OvertakeCause) :
    (s.overtake n c).inDeviceReset = s.inDeviceReset := rfl
@[simp] theorem State.overtake_selected (s : State) (n : Port) (c : OvertakeCause) :
    (s.overtake n c).selected = s.selected := rfl

/-! ### State.overtakeInFlight -/

@[simp] theorem State.overtakeInFlight_posts (s : State) (i : Option InFlight) (c : OvertakeCause) :
    (s.overtakeInFlight i c).posts = s.posts := rfl
@[simp] theorem State.overtakeInFlight_slots (s : State) (i : Option InFlight) (c : OvertakeCause) :
    (s.overtakeInFlight i c).slots =
    overtakeSlots i c s.slots := rfl
@[simp] theorem State.overtakeInFlight_pool (s : State) (i : Option InFlight) (c : OvertakeCause) :
    (s.overtakeInFlight i c).pool = s.pool := rfl
@[simp] theorem State.overtakeInFlight_holds (s : State) (i : Option InFlight) (c : OvertakeCause) :
    (s.overtakeInFlight i c).holds = s.holds := rfl
@[simp] theorem State.overtakeInFlight_reads (s : State) (i : Option InFlight) (c : OvertakeCause) :
    (s.overtakeInFlight i c).reads = s.reads := rfl
@[simp] theorem State.overtakeInFlight_filters (s : State) (i : Option InFlight) (c : OvertakeCause) :
    (s.overtakeInFlight i c).filters = s.filters := rfl
@[simp] theorem State.overtakeInFlight_queues (s : State) (i : Option InFlight) (c : OvertakeCause) :
    (s.overtakeInFlight i c).queues = s.queues := rfl
@[simp] theorem State.overtakeInFlight_requests (s : State) (i : Option InFlight) (c : OvertakeCause) :
    (s.overtakeInFlight i c).requests = s.requests := rfl
@[simp] theorem State.overtakeInFlight_sessions (s : State) (i : Option InFlight) (c : OvertakeCause) :
    (s.overtakeInFlight i c).sessions = s.sessions := rfl
@[simp] theorem State.overtakeInFlight_array (s : State) (i : Option InFlight) (c : OvertakeCause) :
    (s.overtakeInFlight i c).array = s.array := rfl
@[simp] theorem State.overtakeInFlight_arbiter (s : State) (i : Option InFlight) (c : OvertakeCause) :
    (s.overtakeInFlight i c).arbiter = s.arbiter := rfl
@[simp] theorem State.overtakeInFlight_refresh (s : State) (i : Option InFlight) (c : OvertakeCause) :
    (s.overtakeInFlight i c).refresh = s.refresh := rfl
@[simp] theorem State.overtakeInFlight_time (s : State) (i : Option InFlight) (c : OvertakeCause) :
    (s.overtakeInFlight i c).time = s.time := rfl
@[simp] theorem State.overtakeInFlight_ports (s : State) (i : Option InFlight) (c : OvertakeCause) :
    (s.overtakeInFlight i c).ports = s.ports := rfl
@[simp] theorem State.overtakeInFlight_pins (s : State) (i : Option InFlight) (c : OvertakeCause) :
    (s.overtakeInFlight i c).pins = s.pins := rfl
@[simp] theorem State.overtakeInFlight_epoch (s : State) (i : Option InFlight) (c : OvertakeCause) :
    (s.overtakeInFlight i c).epoch = s.epoch := rfl
@[simp] theorem State.overtakeInFlight_pending (s : State) (i : Option InFlight) (c : OvertakeCause) :
    (s.overtakeInFlight i c).pending = s.pending := rfl
@[simp] theorem State.overtakeInFlight_now (s : State) (i : Option InFlight) (c : OvertakeCause) :
    (s.overtakeInFlight i c).now = s.now := rfl
@[simp] theorem State.overtakeInFlight_attached (s : State) (i : Option InFlight) (c : OvertakeCause) :
    (s.overtakeInFlight i c).attached = s.attached := rfl
@[simp] theorem State.overtakeInFlight_inDeviceReset (s : State) (i : Option InFlight) (c : OvertakeCause) :
    (s.overtakeInFlight i c).inDeviceReset = s.inDeviceReset := rfl
@[simp] theorem State.overtakeInFlight_selected (s : State) (i : Option InFlight) (c : OvertakeCause) :
    (s.overtakeInFlight i c).selected = s.selected := rfl

/-! ### State.renewLease -/

@[simp] theorem State.renewLease_posts (s : State) (n : Port) : (s.renewLease n).posts = s.posts := rfl
@[simp] theorem State.renewLease_slots (s : State) (n : Port) : (s.renewLease n).slots = s.slots := rfl
@[simp] theorem State.renewLease_pool (s : State) (n : Port) : (s.renewLease n).pool = s.pool := rfl
@[simp] theorem State.renewLease_holds (s : State) (n : Port) : (s.renewLease n).holds = s.holds := rfl
@[simp] theorem State.renewLease_reads (s : State) (n : Port) : (s.renewLease n).reads = s.reads := rfl
@[simp] theorem State.renewLease_filters (s : State) (n : Port) : (s.renewLease n).filters = s.filters := rfl
@[simp] theorem State.renewLease_queues (s : State) (n : Port) : (s.renewLease n).queues = s.queues := rfl
@[simp] theorem State.renewLease_requests (s : State) (n : Port) : (s.renewLease n).requests = s.requests := rfl
@[simp] theorem State.renewLease_sessions (s : State) (n : Port) :
    (s.renewLease n).sessions =
    put s.sessions n (s.sessions[n].renewed s.now) := rfl
@[simp] theorem State.renewLease_array (s : State) (n : Port) : (s.renewLease n).array = s.array := rfl
@[simp] theorem State.renewLease_arbiter (s : State) (n : Port) : (s.renewLease n).arbiter = s.arbiter := rfl
@[simp] theorem State.renewLease_refresh (s : State) (n : Port) : (s.renewLease n).refresh = s.refresh := rfl
@[simp] theorem State.renewLease_time (s : State) (n : Port) : (s.renewLease n).time = s.time := rfl
@[simp] theorem State.renewLease_ports (s : State) (n : Port) : (s.renewLease n).ports = s.ports := rfl
theorem State.renewLease_attn (s : State) (n : Port) :
    (s.renewLease n).pins.attn = attentionLines (s.renewLease n).sessions (s.renewLease n).queues := rfl
@[simp] theorem State.renewLease_cs (s : State) (n : Port) : (s.renewLease n).pins.cs = s.pins.cs := rfl
@[simp] theorem State.renewLease_rst (s : State) (n : Port) : (s.renewLease n).pins.rst = s.pins.rst := rfl
@[simp] theorem State.renewLease_sup (s : State) (n : Port) : (s.renewLease n).pins.sup = s.pins.sup := rfl
@[simp] theorem State.renewLease_nReset (s : State) (n : Port) : (s.renewLease n).pins.nReset = s.pins.nReset := rfl
@[simp] theorem State.renewLease_clksel (s : State) (n : Port) : (s.renewLease n).pins.clksel = s.pins.clksel := rfl
@[simp] theorem State.renewLease_epoch (s : State) (n : Port) : (s.renewLease n).epoch = s.epoch := rfl
@[simp] theorem State.renewLease_pending (s : State) (n : Port) : (s.renewLease n).pending = s.pending := rfl
@[simp] theorem State.renewLease_now (s : State) (n : Port) : (s.renewLease n).now = s.now := rfl
@[simp] theorem State.renewLease_inDeviceReset (s : State) (n : Port) :
    (s.renewLease n).inDeviceReset = s.inDeviceReset := rfl
@[simp] theorem State.renewLease_selected (s : State) (n : Port) : (s.renewLease n).selected = s.selected := rfl

/-! ### State.readFinished -/

@[simp] theorem State.readFinished_posts (s : State) (n : Port) : (s.readFinished n).posts = s.posts := rfl
@[simp] theorem State.readFinished_slots (s : State) (n : Port) : (s.readFinished n).slots = s.slots := rfl
@[simp] theorem State.readFinished_pool (s : State) (n : Port) :
    (s.readFinished n).pool =
    s.pool.releaseAll (finishedFrames s.reads[n]) := rfl
@[simp] theorem State.readFinished_holds (s : State) (n : Port) : (s.readFinished n).holds = s.holds := rfl
@[simp] theorem State.readFinished_reads (s : State) (n : Port) :
    (s.readFinished n).reads =
    put s.reads n (finishedRecord s.reads[n]) := rfl
@[simp] theorem State.readFinished_filters (s : State) (n : Port) : (s.readFinished n).filters = s.filters := rfl
@[simp] theorem State.readFinished_queues (s : State) (n : Port) : (s.readFinished n).queues = s.queues := rfl
@[simp] theorem State.readFinished_requests (s : State) (n : Port) : (s.readFinished n).requests = s.requests := rfl
@[simp] theorem State.readFinished_sessions (s : State) (n : Port) : (s.readFinished n).sessions = s.sessions := rfl
@[simp] theorem State.readFinished_array (s : State) (n : Port) : (s.readFinished n).array = s.array := rfl
@[simp] theorem State.readFinished_arbiter (s : State) (n : Port) : (s.readFinished n).arbiter = s.arbiter := rfl
@[simp] theorem State.readFinished_refresh (s : State) (n : Port) : (s.readFinished n).refresh = s.refresh := rfl
@[simp] theorem State.readFinished_time (s : State) (n : Port) : (s.readFinished n).time = s.time := rfl
@[simp] theorem State.readFinished_ports (s : State) (n : Port) : (s.readFinished n).ports = s.ports := rfl
@[simp] theorem State.readFinished_pins (s : State) (n : Port) : (s.readFinished n).pins = s.pins := rfl
@[simp] theorem State.readFinished_epoch (s : State) (n : Port) : (s.readFinished n).epoch = s.epoch := rfl
@[simp] theorem State.readFinished_pending (s : State) (n : Port) : (s.readFinished n).pending = s.pending := rfl
@[simp] theorem State.readFinished_now (s : State) (n : Port) : (s.readFinished n).now = s.now := rfl
@[simp] theorem State.readFinished_attached (s : State) (n : Port) : (s.readFinished n).attached = s.attached := rfl
@[simp] theorem State.readFinished_inDeviceReset (s : State) (n : Port) :
    (s.readFinished n).inDeviceReset = s.inDeviceReset := rfl
@[simp] theorem State.readFinished_selected (s : State) (n : Port) : (s.readFinished n).selected = s.selected := rfl

/-! ### State.detachReading -/

@[simp] theorem State.detachReading_posts (s : State) (n : Port) : (s.detachReading n).posts = s.posts := rfl
@[simp] theorem State.detachReading_slots (s : State) (n : Port) : (s.detachReading n).slots = s.slots := rfl
@[simp] theorem State.detachReading_pool (s : State) (n : Port) :
    (s.detachReading n).pool =
    s.pool.releaseAll (holdFrames s.holds[n] ++ pinFrame s.reads[n]) := rfl
@[simp] theorem State.detachReading_holds (s : State) (n : Port) :
    (s.detachReading n).holds =
    put s.holds n (Vector.replicate 8 none) := rfl
@[simp] theorem State.detachReading_reads (s : State) (n : Port) :
    (s.detachReading n).reads =
    put s.reads n (s.reads[n].bind ReadRecord.detached) := rfl
@[simp] theorem State.detachReading_filters (s : State) (n : Port) : (s.detachReading n).filters = s.filters := rfl
@[simp] theorem State.detachReading_queues (s : State) (n : Port) : (s.detachReading n).queues = s.queues := rfl
@[simp] theorem State.detachReading_requests (s : State) (n : Port) :
    (s.detachReading n).requests = s.requests := rfl
@[simp] theorem State.detachReading_sessions (s : State) (n : Port) :
    (s.detachReading n).sessions = s.sessions := rfl
@[simp] theorem State.detachReading_array (s : State) (n : Port) : (s.detachReading n).array = s.array := rfl
@[simp] theorem State.detachReading_arbiter (s : State) (n : Port) : (s.detachReading n).arbiter = s.arbiter := rfl
@[simp] theorem State.detachReading_refresh (s : State) (n : Port) : (s.detachReading n).refresh = s.refresh := rfl
@[simp] theorem State.detachReading_time (s : State) (n : Port) : (s.detachReading n).time = s.time := rfl
@[simp] theorem State.detachReading_ports (s : State) (n : Port) : (s.detachReading n).ports = s.ports := rfl
@[simp] theorem State.detachReading_pins (s : State) (n : Port) : (s.detachReading n).pins = s.pins := rfl
@[simp] theorem State.detachReading_epoch (s : State) (n : Port) : (s.detachReading n).epoch = s.epoch := rfl
@[simp] theorem State.detachReading_pending (s : State) (n : Port) : (s.detachReading n).pending = s.pending := rfl
@[simp] theorem State.detachReading_now (s : State) (n : Port) : (s.detachReading n).now = s.now := rfl
@[simp] theorem State.detachReading_attached (s : State) (n : Port) :
    (s.detachReading n).attached = s.attached := rfl
@[simp] theorem State.detachReading_inDeviceReset (s : State) (n : Port) :
    (s.detachReading n).inDeviceReset = s.inDeviceReset := rfl
@[simp] theorem State.detachReading_selected (s : State) (n : Port) :
    (s.detachReading n).selected = s.selected := rfl

/-! ### State.requestAccess -/

@[simp] theorem State.requestAccess_posts (s : State) (n : Port) (k : PortRequest) :
    (s.requestAccess n k).posts = s.posts := rfl
@[simp] theorem State.requestAccess_slots (s : State) (n : Port) (k : PortRequest) :
    (s.requestAccess n k).slots = s.slots := rfl
@[simp] theorem State.requestAccess_pool (s : State) (n : Port) (k : PortRequest) :
    (s.requestAccess n k).pool = s.pool := rfl
@[simp] theorem State.requestAccess_holds (s : State) (n : Port) (k : PortRequest) :
    (s.requestAccess n k).holds = s.holds := rfl
@[simp] theorem State.requestAccess_reads (s : State) (n : Port) (k : PortRequest) :
    (s.requestAccess n k).reads = s.reads := rfl
@[simp] theorem State.requestAccess_filters (s : State) (n : Port) (k : PortRequest) :
    (s.requestAccess n k).filters = s.filters := rfl
@[simp] theorem State.requestAccess_queues (s : State) (n : Port) (k : PortRequest) :
    (s.requestAccess n k).queues = s.queues := rfl
@[simp] theorem State.requestAccess_requests (s : State) (n : Port) (k : PortRequest) :
    (s.requestAccess n k).requests = s.requests := rfl
@[simp] theorem State.requestAccess_sessions (s : State) (n : Port) (k : PortRequest) :
    (s.requestAccess n k).sessions = s.sessions := rfl
@[simp] theorem State.requestAccess_array (s : State) (n : Port) (k : PortRequest) :
    (s.requestAccess n k).array = s.array := rfl
@[simp] theorem State.requestAccess_arbiter (s : State) (n : Port) (k : PortRequest) :
    (s.requestAccess n k).arbiter =
    { s.arbiter with places := put s.arbiter.places n (some k) } := rfl
@[simp] theorem State.requestAccess_refresh (s : State) (n : Port) (k : PortRequest) :
    (s.requestAccess n k).refresh = s.refresh := rfl
@[simp] theorem State.requestAccess_time (s : State) (n : Port) (k : PortRequest) :
    (s.requestAccess n k).time = s.time := rfl
@[simp] theorem State.requestAccess_ports (s : State) (n : Port) (k : PortRequest) :
    (s.requestAccess n k).ports = s.ports := rfl
@[simp] theorem State.requestAccess_pins (s : State) (n : Port) (k : PortRequest) :
    (s.requestAccess n k).pins = s.pins := rfl
@[simp] theorem State.requestAccess_epoch (s : State) (n : Port) (k : PortRequest) :
    (s.requestAccess n k).epoch = s.epoch := rfl
@[simp] theorem State.requestAccess_pending (s : State) (n : Port) (k : PortRequest) :
    (s.requestAccess n k).pending = s.pending := rfl
@[simp] theorem State.requestAccess_now (s : State) (n : Port) (k : PortRequest) :
    (s.requestAccess n k).now = s.now := rfl
@[simp] theorem State.requestAccess_attached (s : State) (n : Port) (k : PortRequest) :
    (s.requestAccess n k).attached = s.attached := rfl
@[simp] theorem State.requestAccess_inDeviceReset (s : State) (n : Port) (k : PortRequest) :
    (s.requestAccess n k).inDeviceReset = s.inDeviceReset := rfl
@[simp] theorem State.requestAccess_selected (s : State) (n : Port) (k : PortRequest) :
    (s.requestAccess n k).selected = s.selected := rfl

/-! ### State.answerUntaken -/

@[simp] theorem State.answerUntaken_posts (s : State) (n : Port) (e : Status) (t : Byte) :
    (s.answerUntaken n e t).posts = s.posts := rfl
@[simp] theorem State.answerUntaken_slots (s : State) (n : Port) (e : Status) (t : Byte) :
    (s.answerUntaken n e t).slots = s.slots := rfl
@[simp] theorem State.answerUntaken_pool (s : State) (n : Port) (e : Status) (t : Byte) :
    (s.answerUntaken n e t).pool = s.pool := rfl
@[simp] theorem State.answerUntaken_holds (s : State) (n : Port) (e : Status) (t : Byte) :
    (s.answerUntaken n e t).holds = s.holds := rfl
@[simp] theorem State.answerUntaken_reads (s : State) (n : Port) (e : Status) (t : Byte) :
    (s.answerUntaken n e t).reads = s.reads := rfl
@[simp] theorem State.answerUntaken_filters (s : State) (n : Port) (e : Status) (t : Byte) :
    (s.answerUntaken n e t).filters = s.filters := rfl
@[simp] theorem State.answerUntaken_queues (s : State) (n : Port) (e : Status) (t : Byte) :
    (s.answerUntaken n e t).queues = s.queues := rfl
@[simp] theorem State.answerUntaken_requests (s : State) (n : Port) (e : Status) (t : Byte) :
    (s.answerUntaken n e t).requests = s.requests := rfl
@[simp] theorem State.answerUntaken_sessions (s : State) (n : Port) (e : Status) (t : Byte) :
    (s.answerUntaken n e t).sessions = s.sessions := rfl
@[simp] theorem State.answerUntaken_array (s : State) (n : Port) (e : Status) (t : Byte) :
    (s.answerUntaken n e t).array = s.array := rfl
@[simp] theorem State.answerUntaken_arbiter (s : State) (n : Port) (e : Status) (t : Byte) :
    (s.answerUntaken n e t).arbiter = s.arbiter := rfl
@[simp] theorem State.answerUntaken_refresh (s : State) (n : Port) (e : Status) (t : Byte) :
    (s.answerUntaken n e t).refresh = s.refresh := rfl
@[simp] theorem State.answerUntaken_time (s : State) (n : Port) (e : Status) (t : Byte) :
    (s.answerUntaken n e t).time = s.time := rfl
@[simp] theorem State.answerUntaken_ports (s : State) (n : Port) (e : Status) (t : Byte) :
    (s.answerUntaken n e t).ports =
    put s.ports n (s.ports[n].answering (responseFrame e t []) none) := rfl
@[simp] theorem State.answerUntaken_pins (s : State) (n : Port) (e : Status) (t : Byte) :
    (s.answerUntaken n e t).pins = s.pins := rfl
@[simp] theorem State.answerUntaken_epoch (s : State) (n : Port) (e : Status) (t : Byte) :
    (s.answerUntaken n e t).epoch = s.epoch := rfl
@[simp] theorem State.answerUntaken_pending (s : State) (n : Port) (e : Status) (t : Byte) :
    (s.answerUntaken n e t).pending = s.pending := rfl
@[simp] theorem State.answerUntaken_now (s : State) (n : Port) (e : Status) (t : Byte) :
    (s.answerUntaken n e t).now = s.now := rfl
@[simp] theorem State.answerUntaken_attached (s : State) (n : Port) (e : Status) (t : Byte) :
    (s.answerUntaken n e t).attached = s.attached := rfl
@[simp] theorem State.answerUntaken_inDeviceReset (s : State) (n : Port) (e : Status) (t : Byte) :
    (s.answerUntaken n e t).inDeviceReset = s.inDeviceReset := rfl
@[simp] theorem State.answerUntaken_selected (s : State) (n : Port) (e : Status) (t : Byte) :
    (s.answerUntaken n e t).selected = s.selected := rfl

end Sys2Proof.Machine
end

