-- ==== Sys2Proof/Laws/Transactions.lean ====
section
/-! SUPPORT. The arrival of a request frame: what clocking in a whole frame does, and the taking of a command. -/

namespace Sys2Proof.Machine
open Sys2Proof

theorem put_put {α : Type} {k : Nat} (v : Vector α k) (i : Fin k) (x y : α) : put (put v i x) i y = put v i y := by
  simp [put]

theorem getElem_put_self {α : Type} {k : Nat} (v : Vector α k) (i : Fin k) (x : α) : (put v i x)[i] = x := by
  simp

theorem getElem_put_of_ne {α : Type} {k : Nat} (v : Vector α k) {i j : Fin k} (x : α) (h : j ≠ i) :
    (put v i x)[j] = v[j] := by
  simp [Fin.val_ne_of_ne h.symm]

theorem put_self {α : Type} {k : Nat} (v : Vector α k) (i : Fin k) : put v i v[i] = v := by
  simp [put]

theorem State.setPort_setPort (s : State) (n : Port) (x y : PortInterface) :
    (s.setPort n x).setPort n y = s.setPort n y := by
  simp [State.setPort, put_put]

/-- The interface of a port with no byte of a request in (R148). -/
def PortInterface.cleared (x : PortInterface) : PortInterface := { x with rx := [], expected := 0 }

theorem clockBytes_nil (s : State) (n : Port) : s.clockBytes n [] = s := rfl
theorem clockBytes_cons (s : State) (n : Port) (b : Byte) (bs : List Byte) :
    s.clockBytes n (b :: bs) = (s.clockByte n b).clockBytes n bs := rfl

theorem clockByte_receiving {s : State} {n : Port} (hs : s.selected n = true) (hr : s.ports[n].isReceiving = true)
    (b : Byte) : s.clockByte n b = s.takeInByte n b := by
  simp only [State.clockByte, hs, hr, if_true]

theorem clockBytes_rest {bs : List Byte} {s : State} {n : Port} (hs : s.selected n = true)
    (hr : s.ports[n].isReceiving = true) (h3 : 3 ≤ s.ports[n].rx.length)
    (hb : bs.length = s.ports[n].expected) (hne : bs ≠ []) :
    s.clockBytes n bs = (s.setPort n s.ports[n].cleared).judge n (s.ports[n].rx ++ bs) := by
  induction bs generalizing s with
  | nil => exact absurd rfl hne
  | cons b bs ih =>
    have hx : s.ports[n].expectedAfter b = bs.length := by
      simp only [PortInterface.expectedAfter, List.length_cons] at *
      rw [if_neg (by omega)]
      omega
    rw [clockBytes_cons, clockByte_receiving hs hr, State.takeInByte]
    simp only [hx]
    cases bs with
    | nil => simp [PortInterface.cleared, clockBytes_nil]
    | cons c cs =>
      simp only [List.length_cons, Nat.add_one_ne_zero, if_false]
      rw [ih (by simpa using hs) (by simpa [PortInterface.isReceiving] using hr)
        (by simp only [Fin.getElem_fin] at *; simp; omega) (by simp) (by simp)]
      simp [State.setPort_setPort, PortInterface.cleared]

/-- A port at the start of a frame takes the whole frame in and judges it. -/
theorem clockBytes_frame {s : State} {n : Port} (h : s.Listening n) (code tag len : Byte) (rest : List Byte)
    (hl : rest.length = len.toNat + 2) :
    s.clockBytes n (code :: tag :: len :: rest) =
      (s.setPort n s.ports[n].cleared).judge n (code :: tag :: len :: rest) := by
  obtain ⟨hs, hr, hx, he⟩ := h
  simp only [Fin.getElem_fin] at hx he
  have h1 : s.clockByte n code = s.setPort n { s.ports[n] with rx := [code], expected := 4 } := by
    rw [clockByte_receiving hs hr, State.takeInByte]
    simp [PortInterface.expectedAfter, hx, he]
  have h2 : (s.clockByte n code).clockByte n tag = s.setPort n { s.ports[n] with rx := [code, tag], expected := 3 } := by
    rw [h1, clockByte_receiving (by simpa using hs) (by simpa [PortInterface.isReceiving] using hr),
        State.takeInByte]
    simp [PortInterface.expectedAfter, State.setPort_setPort]
  have h3 : ((s.clockByte n code).clockByte n tag).clockByte n len =
      s.setPort n { s.ports[n] with rx := [code, tag, len], expected := len.toNat + 2 } := by
    rw [h2, clockByte_receiving (by simpa using hs) (by simpa [PortInterface.isReceiving] using hr),
        State.takeInByte]
    simp [PortInterface.expectedAfter, State.setPort_setPort]
  rw [clockBytes_cons, clockBytes_cons, clockBytes_cons, h3,
    clockBytes_rest (by simpa using hs) (by simpa [PortInterface.isReceiving] using hr) (by simp) (by simp [hl])
      (by intro h; simp [h] at hl)]
  simp [State.setPort_setPort, PortInterface.cleared]

theorem byteOf_toNat {k : Nat} (h : k < 256) : (byteOf k).toNat = k := by
  simp [byteOf]; omega

theorem judge_requestFrame (s : State) (n : Port) (code tag : Byte) {args : List Byte}
    (h : args.length ≤ Config.maxArgumentLength) :
    s.judge n (requestFrame code tag args) = s.judgeGood n code tag args := by
  have h' : args.length ≤ 72 := h
  have ht : (byteOf args.length).toNat = args.length := byteOf_toNat (by omega)
  simp only [requestFrame, State.judge, List.cons_append, ht]
  rw [if_neg (by simp only [Config.maxArgumentLength]; omega)]
  simp

/-- The request frame of a command arrives whole on a port at the start of a frame: the command is judged. -/
theorem arriveRequest_eq {s : State} {n : Port} (h : s.Listening n) (c : Command) (tag : Byte) {args : List Byte}
    (ha : args.length ≤ Config.maxArgumentLength) :
    s.arriveRequest n c tag args = (s.setPort n s.ports[n].cleared).judgeGood n c.code tag args := by
  have h' : args.length ≤ 72 := ha
  have ht : (byteOf args.length).toNat = args.length := byteOf_toNat (by omega)
  rw [State.arriveRequest, ← judge_requestFrame _ _ _ _ ha]
  exact clockBytes_frame h c.code tag (byteOf args.length) _ (by simp [be16, ht])

theorem ofCode_code (c : Command) : Command.ofCode c.code = some c := by cases c <;> rfl

theorem State.Ready.listening {s : State} {n : Port} (h : s.Ready n) : s.Listening n :=
  ⟨h.1, by rw [PortInterface.isReceiving, h.2.1]; rfl, h.2.2.1, h.2.2.2.1⟩

/-- A command is taken: the port's interface is cleared, the lease is reported, the command runs, and its reply goes
to the interface (R121, R154). -/
theorem arriveRequest_ready {s : State} {n : Port} (h : s.Ready n) (c : Command) (tag : Byte) {args : List Byte}
    (ha : args.length ≤ Config.maxArgumentLength) :
    s.arriveRequest n c tag args =
      (let t := (s.setPort n s.ports[n].cleared).renewLease n
       let r := takeCommand n c args t
       r.1.afterTaking n { tag := tag, code := c.code } r.2) := by
  have ho : (s.ports[n.val].cleared).outstanding = none := h.2.2.2.2
  rw [arriveRequest_eq h.listening c tag ha, State.judgeGood, ofCode_code]
  simp [ho]

end Sys2Proof.Machine
end

