-- ==== Sys2Proof/Laws/Completion.lean ====
section
/-! SUPPORT. The end of a command and the end of a response: what each can do, said once, and what each leaves. -/

namespace Sys2Proof.Machine
open Sys2Proof

/-- The end of a response (R68, R155): none is held; one of a READ or a READ HELD,
    of which the reading unit is told;
or another one. -/
theorem finishResponse_cases (s : State) (n : Port) :
    (s.ports[n].response = none ∧ s.finishResponse n = s) ∨
      (∃ h, s.ports[n].response = some h ∧ (∃ c, h.command = some c ∧ c.isRead) ∧
        s.finishResponse n = (s.setPort n { s.ports[n] with response := none }).readFinished n) ∨
      (∃ h, s.ports[n].response = some h ∧ (∀ c, h.command = some c → ¬ c.isRead) ∧
        s.finishResponse n = s.setPort n { s.ports[n] with response := none }) := by
  cases hr : s.ports[n].response with
  | none => exact .inl ⟨rfl, by simp only [State.finishResponse, hr]⟩
  | some h =>
    right
    cases hc : h.command with
    | none => exact .inr ⟨h, rfl, by simp [hc], by simp only [State.finishResponse, hr, hc]⟩
    | some c =>
      by_cases hi : c.isRead
      · refine .inl ⟨h, rfl, ⟨c, hc, hi⟩, ?_⟩
        simp only [State.finishResponse, hr, hc]
        exact if_pos hi
      · refine .inr ⟨h, rfl, by simpa [hc] using hi, ?_⟩
        simp only [State.finishResponse, hr, hc]
        exact if_neg hi

/-- The end of a command (R155, R156, R157): none is outstanding; its response is held; or it is discarded, and the
reading unit is told. -/
theorem completeCommand_cases (s : State) (n : Port) (st : Status) (res : List Byte) :
    (s.ports[n].outstanding = none ∧ s.completeCommand n st res = s) ∨
      (∃ c, s.ports[n].outstanding = some c ∧ s.ports[n].discard = false ∧
        s.completeCommand n st res = s.setPort n
          { s.ports[n] with
            outstanding := none, state := .responding,
            response := some { frame := responseFrame st c.tag res, clocked := 0, command := some c } }) ∨
      (∃ c, s.ports[n].outstanding = some c ∧ s.ports[n].discard = true ∧
        s.completeCommand n st res =
          (s.setPort n
            { s.ports[n] with
              outstanding := none, discard := false, state := s.ports[n].side.resumed, side :=
                  .none }).readFinished n) := by
  unfold State.completeCommand
  cases h : s.ports[n].outstanding with
  | none => exact .inl ⟨rfl, by simp only [h]⟩
  | some c =>
    right
    cases hd : s.ports[n].discard with
    | false => exact .inl ⟨c, rfl, rfl, by simp only [h, hd]; rfl⟩
    | true => exact .inr ⟨c, rfl, rfl, by simp only [h, hd]; rfl⟩

/-- A command that completes does what `CompletedWith` says. -/
theorem completeCommand_completed (s : State) (n : Port) (st : Status) (res : List Byte) :
    CompletedWith s (s.completeCommand n st res) n st res := by
  intro c hc
  rcases completeCommand_cases s n st res with ⟨h, -⟩ | ⟨d, h, hd, he⟩ | ⟨d, h, hd, he⟩
  · rw [hc] at h
    simp at h
  · rw [hc, Option.some_inj] at h
    subst h
    rw [he, hd]
    rfl
  · rw [he, hd]
    cases h : s.ports[n].side <;> simp only [h] <;> rfl

/-- `CompletedWith` speaks of the interfaces alone. -/
theorem completedWith_congr {s s' t t' : State} {n : Port} {st : Status} {res : List Byte}
    (h : CompletedWith s t n st res) (h1 : s'.ports = s.ports) (h2 : t'.ports = t.ports) :
    CompletedWith s' t' n st res := by
  unfold CompletedWith at *
  simpa only [h1, h2] using h

/-- With an empty read record, the end of a command touches the interface alone. -/
theorem completeCommand_of_no_read {s : State} {n : Port} (h : s.reads[n] = none) (st : Status) (res : List Byte) :
    (s.completeCommand n st res).reads = s.reads ∧ (s.completeCommand n st res).pool = s.pool := by
  rcases completeCommand_cases s n st res with ⟨-, h2⟩ | ⟨c, -, -, h2⟩ | ⟨c, -, -, h2⟩ <;> rw [h2]
  · exact ⟨rfl, rfl⟩
  · exact ⟨rfl, rfl⟩
  · refine ⟨?_, ?_⟩
    · show put s.reads n (finishedRecord s.reads[n]) = s.reads
      rw [h]
      show put s.reads n none = _
      rw [← h, put_self]
    · show s.pool.releaseAll (finishedFrames s.reads[n]) = s.pool
      rw [h]
      rfl

@[simp] theorem State.completeCommand_posts (s : State) (n : Port) (st : Status) (res : List Byte) :
    (s.completeCommand n st res).posts = s.posts := by
  rcases completeCommand_cases s n st res with ⟨-, h⟩ | ⟨c, -, -, h⟩ | ⟨c, -, -, h⟩ <;> rw [h] <;> rfl

@[simp] theorem State.completeCommand_slots (s : State) (n : Port) (st : Status) (res : List Byte) :
    (s.completeCommand n st res).slots = s.slots := by
  rcases completeCommand_cases s n st res with ⟨-, h⟩ | ⟨c, -, -, h⟩ | ⟨c, -, -, h⟩ <;> rw [h] <;> rfl

@[simp] theorem State.completeCommand_holds (s : State) (n : Port) (st : Status) (res : List Byte) :
    (s.completeCommand n st res).holds = s.holds := by
  rcases completeCommand_cases s n st res with ⟨-, h⟩ | ⟨c, -, -, h⟩ | ⟨c, -, -, h⟩ <;> rw [h] <;> rfl

@[simp] theorem State.completeCommand_filters (s : State) (n : Port) (st : Status) (res : List Byte) :
    (s.completeCommand n st res).filters = s.filters := by
  rcases completeCommand_cases s n st res with ⟨-, h⟩ | ⟨c, -, -, h⟩ | ⟨c, -, -, h⟩ <;> rw [h] <;> rfl

@[simp] theorem State.completeCommand_queues (s : State) (n : Port) (st : Status) (res : List Byte) :
    (s.completeCommand n st res).queues = s.queues := by
  rcases completeCommand_cases s n st res with ⟨-, h⟩ | ⟨c, -, -, h⟩ | ⟨c, -, -, h⟩ <;> rw [h] <;> rfl

@[simp] theorem State.completeCommand_requests (s : State) (n : Port) (st : Status) (res : List Byte) :
    (s.completeCommand n st res).requests = s.requests := by
  rcases completeCommand_cases s n st res with ⟨-, h⟩ | ⟨c, -, -, h⟩ | ⟨c, -, -, h⟩ <;> rw [h] <;> rfl

@[simp] theorem State.completeCommand_sessions (s : State) (n : Port) (st : Status) (res : List Byte) :
    (s.completeCommand n st res).sessions = s.sessions := by
  rcases completeCommand_cases s n st res with ⟨-, h⟩ | ⟨c, -, -, h⟩ | ⟨c, -, -, h⟩ <;> rw [h] <;> rfl

@[simp] theorem State.completeCommand_array (s : State) (n : Port) (st : Status) (res : List Byte) :
    (s.completeCommand n st res).array = s.array := by
  rcases completeCommand_cases s n st res with ⟨-, h⟩ | ⟨c, -, -, h⟩ | ⟨c, -, -, h⟩ <;> rw [h] <;> rfl

@[simp] theorem State.completeCommand_arbiter (s : State) (n : Port) (st : Status) (res : List Byte) :
    (s.completeCommand n st res).arbiter = s.arbiter := by
  rcases completeCommand_cases s n st res with ⟨-, h⟩ | ⟨c, -, -, h⟩ | ⟨c, -, -, h⟩ <;> rw [h] <;> rfl

@[simp] theorem State.completeCommand_refresh (s : State) (n : Port) (st : Status) (res : List Byte) :
    (s.completeCommand n st res).refresh = s.refresh := by
  rcases completeCommand_cases s n st res with ⟨-, h⟩ | ⟨c, -, -, h⟩ | ⟨c, -, -, h⟩ <;> rw [h] <;> rfl

@[simp] theorem State.completeCommand_time (s : State) (n : Port) (st : Status) (res : List Byte) :
    (s.completeCommand n st res).time = s.time := by
  rcases completeCommand_cases s n st res with ⟨-, h⟩ | ⟨c, -, -, h⟩ | ⟨c, -, -, h⟩ <;> rw [h] <;> rfl

@[simp] theorem State.completeCommand_pins (s : State) (n : Port) (st : Status) (res : List Byte) :
    (s.completeCommand n st res).pins = s.pins := by
  rcases completeCommand_cases s n st res with ⟨-, h⟩ | ⟨c, -, -, h⟩ | ⟨c, -, -, h⟩ <;> rw [h] <;> rfl

@[simp] theorem State.completeCommand_epoch (s : State) (n : Port) (st : Status) (res : List Byte) :
    (s.completeCommand n st res).epoch = s.epoch := by
  rcases completeCommand_cases s n st res with ⟨-, h⟩ | ⟨c, -, -, h⟩ | ⟨c, -, -, h⟩ <;> rw [h] <;> rfl

@[simp] theorem State.completeCommand_pending (s : State) (n : Port) (st : Status) (res : List Byte) :
    (s.completeCommand n st res).pending = s.pending := by
  rcases completeCommand_cases s n st res with ⟨-, h⟩ | ⟨c, -, -, h⟩ | ⟨c, -, -, h⟩ <;> rw [h] <;> rfl

@[simp] theorem State.finishResponse_posts (s : State) (n : Port) : (s.finishResponse n).posts = s.posts := by
  rcases finishResponse_cases s n with ⟨-, h⟩ | ⟨x, -, -, h⟩ | ⟨x, -, -, h⟩ <;> rw [h] <;> rfl

@[simp] theorem State.finishResponse_slots (s : State) (n : Port) : (s.finishResponse n).slots = s.slots := by
  rcases finishResponse_cases s n with ⟨-, h⟩ | ⟨x, -, -, h⟩ | ⟨x, -, -, h⟩ <;> rw [h] <;> rfl

@[simp] theorem State.finishResponse_holds (s : State) (n : Port) : (s.finishResponse n).holds = s.holds := by
  rcases finishResponse_cases s n with ⟨-, h⟩ | ⟨x, -, -, h⟩ | ⟨x, -, -, h⟩ <;> rw [h] <;> rfl

@[simp] theorem State.finishResponse_filters (s : State) (n : Port) : (s.finishResponse n).filters = s.filters := by
  rcases finishResponse_cases s n with ⟨-, h⟩ | ⟨x, -, -, h⟩ | ⟨x, -, -, h⟩ <;> rw [h] <;> rfl

@[simp] theorem State.finishResponse_queues (s : State) (n : Port) : (s.finishResponse n).queues = s.queues := by
  rcases finishResponse_cases s n with ⟨-, h⟩ | ⟨x, -, -, h⟩ | ⟨x, -, -, h⟩ <;> rw [h] <;> rfl

@[simp] theorem State.finishResponse_requests (s : State) (n : Port) :
    (s.finishResponse n).requests = s.requests := by
  rcases finishResponse_cases s n with ⟨-, h⟩ | ⟨x, -, -, h⟩ | ⟨x, -, -, h⟩ <;> rw [h] <;> rfl

@[simp] theorem State.finishResponse_sessions (s : State) (n : Port) :
    (s.finishResponse n).sessions = s.sessions := by
  rcases finishResponse_cases s n with ⟨-, h⟩ | ⟨x, -, -, h⟩ | ⟨x, -, -, h⟩ <;> rw [h] <;> rfl

@[simp] theorem State.finishResponse_array (s : State) (n : Port) : (s.finishResponse n).array = s.array := by
  rcases finishResponse_cases s n with ⟨-, h⟩ | ⟨x, -, -, h⟩ | ⟨x, -, -, h⟩ <;> rw [h] <;> rfl

@[simp] theorem State.finishResponse_arbiter (s : State) (n : Port) : (s.finishResponse n).arbiter = s.arbiter := by
  rcases finishResponse_cases s n with ⟨-, h⟩ | ⟨x, -, -, h⟩ | ⟨x, -, -, h⟩ <;> rw [h] <;> rfl

@[simp] theorem State.finishResponse_refresh (s : State) (n : Port) : (s.finishResponse n).refresh = s.refresh := by
  rcases finishResponse_cases s n with ⟨-, h⟩ | ⟨x, -, -, h⟩ | ⟨x, -, -, h⟩ <;> rw [h] <;> rfl

@[simp] theorem State.finishResponse_time (s : State) (n : Port) : (s.finishResponse n).time = s.time := by
  rcases finishResponse_cases s n with ⟨-, h⟩ | ⟨x, -, -, h⟩ | ⟨x, -, -, h⟩ <;> rw [h] <;> rfl

@[simp] theorem State.finishResponse_pins (s : State) (n : Port) : (s.finishResponse n).pins = s.pins := by
  rcases finishResponse_cases s n with ⟨-, h⟩ | ⟨x, -, -, h⟩ | ⟨x, -, -, h⟩ <;> rw [h] <;> rfl

@[simp] theorem State.finishResponse_epoch (s : State) (n : Port) : (s.finishResponse n).epoch = s.epoch := by
  rcases finishResponse_cases s n with ⟨-, h⟩ | ⟨x, -, -, h⟩ | ⟨x, -, -, h⟩ <;> rw [h] <;> rfl

@[simp] theorem State.finishResponse_pending (s : State) (n : Port) : (s.finishResponse n).pending = s.pending := by
  rcases finishResponse_cases s n with ⟨-, h⟩ | ⟨x, -, -, h⟩ | ⟨x, -, -, h⟩ <;> rw [h] <;> rfl

end Sys2Proof.Machine
end

