-- ==== Sys2Proof/Laws/Memory.lean ====
section
/-! SUPPORT. The memory of the storage array: a read after a write,
    and the canonical form that every write keeps. -/

namespace Sys2Proof.Machine
open Sys2Proof

/-- A read at the first address listed, or further on. -/
theorem Memory.read_cons (a x : Nat) (v : Byte) (m : List Host.Cell) :
    Memory.read a ((x, v) :: m) = if a = x then some v else Memory.read a m := rfl

/-- A read after one write. -/
theorem Memory.read_write (a b : Nat) (v : Byte) (m : List Host.Cell) :
    Memory.read a (Memory.write b v m) = if a = b then some v else Memory.read a m := by
  induction m with
  | nil => simp [Memory.write, Memory.read_cons]
  | cons c m ih =>
    obtain ⟨x, w⟩ := c
    unfold Memory.write
    split_ifs <;> simp_all [Memory.read_cons]

theorem Memory.write_mem {b : Nat} {v : Byte} {m : List Host.Cell} {c : Host.Cell}
    (h : c ∈ Memory.write b v m) : c = (b, v) ∨ c ∈ m := by
  induction m with
  | nil => simpa [Memory.write] using h
  | cons d m ih =>
    obtain ⟨x, w⟩ := d
    unfold Memory.write at h
    split_ifs at h <;> simp at h ⊢ <;> tauto

/-- A write within the 96 rows keeps the canonical form. -/
theorem Memory.write_wf {b : Nat} {v : Byte} {m : List Host.Cell} (hb : b < 96 * Config.rowBytes)
    (h : Memory.wf m) : Memory.wf (Memory.write b v m) := by
  obtain ⟨hs, hr⟩ := h
  refine ⟨?_, fun c hc => ?_⟩
  · clear hr
    induction m with
    | nil => simp [Memory.write]
    | cons d m ih =>
      obtain ⟨x, w⟩ := d
      rw [List.pairwise_cons] at hs
      unfold Memory.write
      split_ifs with h1 h2
      · refine List.pairwise_cons.2 ⟨?_, List.pairwise_cons.2 hs⟩
        intro c hc
        rcases List.mem_cons.1 hc with rfl | hc
        · exact h1
        · exact lt_trans h1 (hs.1 c hc)
      · subst h2
        exact List.pairwise_cons.2 hs
      · refine List.pairwise_cons.2 ⟨?_, ih hs.2⟩
        intro c hc
        rcases Memory.write_mem hc with rfl | hc
        · show x < b
          omega
        · exact hs.1 c hc
  · rcases Memory.write_mem hc with rfl | hc
    · exact hb
    · exact hr c hc

/-- Writes within the 96 rows keep the canonical form. -/
theorem Memory.writeAll_wf {bs : List Byte} {a : Nat} {m : List Host.Cell}
    (ha : a + bs.length ≤ 96 * Config.rowBytes) (h : Memory.wf m) : Memory.wf (Memory.writeAll a bs m) := by
  induction bs generalizing a m with
  | nil => exact h
  | cons b bs ih =>
    simp only [List.length_cons] at ha
    exact ih (by omega) (Memory.write_wf (by omega) h)

/-- A read after a run of writes: the byte written there, and every other address as before. -/
theorem Memory.read_writeAll (bs : List Byte) (a x : Nat) (m : List Host.Cell) :
    Memory.read x (Memory.writeAll a bs m) =
      if h : a ≤ x ∧ x < a + bs.length then some (bs[x - a]'(by omega)) else Memory.read x m := by
  induction bs generalizing a m with
  | nil => simp [Memory.writeAll]
  | cons b bs ih =>
    rw [Memory.writeAll, ih, Memory.read_write]
    simp only [List.length_cons]
    by_cases h1 : x = a
    · subst h1
      rw [dif_neg (by omega), dif_pos (by omega)]
      simp
    · by_cases h2 : a + 1 ≤ x ∧ x < a + 1 + bs.length
      · rw [dif_pos h2, dif_pos (by omega)]
        congr 1
        rw [List.getElem_cons, dif_neg (by omega)]
        congr 1
      · rw [dif_neg h2, dif_neg (by omega), if_neg h1]

theorem rowOf_length (p : PostNo) (payload : List Byte) : (rowOf p payload).length = Config.rowBytes := by
  simp [rowOf, padPayload, be16, Config.maxPayload, Config.rowBytes]

theorem disturbed_length (row d : List Byte) : (disturbed row d).length = row.length := by
  induction row generalizing d with
  | nil => rfl
  | cons b row ih => cases d <;> simp [disturbed, ih]

theorem disturbed_nil (row : List Byte) : disturbed row [] = row := by cases row <;> rfl

theorem readRow_length (e : Nat) (f : FrameNo) (m : List Host.Cell) : (readRow e f m).length = Config.rowBytes := by
  simp [readRow]

/-- A row written whole reads back as it was written (R136). -/
theorem readRow_writeAll (e : Nat) (f : FrameNo) (row : List Byte) (m : List Host.Cell)
    (h : row.length = Config.rowBytes) :
    readRow e f (Memory.writeAll (rowAddress f) row m) = row := by
  apply List.ext_getElem
  · simp [readRow, h]
  · intro i h1 h2
    simp only [readRow, List.getElem_map, List.getElem_range, Memory.read_writeAll]
    rw [dif_pos (by omega)]
    simp

/-- Writing one row leaves every other row. -/
theorem readRow_writeAll_of_ne {f g : FrameNo} (e : Nat) (row : List Byte) (m : List Host.Cell)
    (h : row.length = Config.rowBytes) (hfg : f ≠ g) :
    readRow e g (Memory.writeAll (rowAddress f) row m) = readRow e g m := by
  have hne : f.val ≠ g.val := fun h => hfg (Fin.ext h)
  apply List.map_congr_left
  intro i hi
  rw [List.mem_range] at hi
  rw [Memory.read_writeAll, dif_neg]
  simp only [rowAddress, Config.rowBytes] at *
  omega

theorem rowAddress_bound (f : FrameNo) : rowAddress f + Config.rowBytes ≤ 96 * Config.rowBytes := by
  have := f.isLt
  simp only [rowAddress, Config.rowBytes]
  omega

/-- Nothing is listed after device reset. -/
theorem Memory.wf_nil : Memory.wf [] := by simp [Memory.wf]

end Sys2Proof.Machine
end

