-- ==== Sys2Proof/Laws/Array.lean ====
section
/-! SUPPORT. The ends of array accesses: what each can do, said once. -/

namespace Sys2Proof.Machine
open Sys2Proof

/-- What a damage request can do (R20), said once. -/
theorem damageRequest_cases (s : State) (p : PostNo) (f : FrameNo) (c : DamageCause) :
    (s.damageRequest p f c = s ∧ ∀ r, s.posts[p] = some r →
        r.current.map Current.frame ≠ some f ∨ r.condition = .damaged) ∨
      ∃ r, s.posts[p] = some r ∧ r.current.map Current.frame = some f ∧ r.condition ≠ .damaged ∧
        s.damageRequest p f c =
          (match c with
            | .check => (s.setPost p (some { r with condition := .damaged, cause := some .check, deadline := none })).notify
                (.damaged p r.key .check) r.key .lifecycle none r.binding.boundPort
            | .lapse => s.setPost p (some { r with condition := .damaged, cause := some .lapse, deadline := none })) := by
  unfold State.damageRequest
  cases hp : s.posts[p] with
  | none => exact .inl ⟨rfl, by simp⟩
  | some r =>
    by_cases h : r.current.map Current.frame = some f ∧ r.condition ≠ .damaged
    · right
      refine ⟨r, rfl, h.1, h.2, ?_⟩
      simp only [h, and_self, if_true, ne_eq, not_false_eq_true]
      cases c <;> rfl
    · left
      refine ⟨by simp only [h, if_false], fun r' hr' => ?_⟩
      simp only [Option.some_inj] at hr'
      subst hr'
      by_contra hh
      push Not at hh
      exact h hh

/-- The end of a write access (R136): the port has no publication; or the row holds what the array read back,
    and the
publication ends. -/
theorem completeWrite_cases (s : State) (n : Port) (d : List Byte) :
    (s.slots[n] = none ∧ s.completeWrite n d = s.freeArray) ∨
    ∃ x, s.slots[n] = some x ∧ s.completeWrite n d =
      (s.setArray { mem := Memory.writeAll (rowAddress x.frame) (disturbed (rowOf x.post x.payload) d) s.array.mem, access := none }).endPublication n x
        (decide (disturbed (rowOf x.post x.payload) d = rowOf x.post x.payload)) := by
  unfold State.completeWrite
  cases hs : s.slots[n] with
  | none => exact .inl ⟨rfl, by simp only [show s.freeArray.slots = s.slots from rfl, hs]⟩
  | some x => exact .inr ⟨x, rfl, by simp only [show s.freeArray.slots = s.slots from rfl, hs]; rfl⟩

/-- The ends of a publication (R31 to R34, R37): dropped, failed, committed. -/
theorem endPublication_cases (s : State) (n : Port) (x : Publication) (good : Bool) :
    (∃ st, s.endPublication n x good = (((s.setPool (s.pool.setSuspect x.frame (!good))).setSlot n none).setPool
       ((s.pool.setSuspect x.frame (!good)).release x.frame)).completeCommand n st [] ∧
           (x.overtaken ≠ none ∨ s.posts[x.post] = none)) ∨
    (good = false ∧ x.overtaken = none ∧
        s.endPublication n x good = ((((s.setPool (s.pool.setSuspect x.frame true)).setSlot n none).setPost x.post
       (s.posts[x.post].map fun r => { r with inFlight := none })).setPool ((s.pool.setSuspect x.frame true).release x.frame)).completeCommand n .arrayfault []) ∨
    (good = true ∧ x.overtaken = none ∧ ∃ r, s.posts[x.post] = some r ∧ s.endPublication n x good =
      (((((s.setPool (s.pool.setSuspect x.frame false)).setSlot n none).setPost x.post (some (r.committed x.frame x.payload.length s.now))).setPool
        ((s.pool.setSuspect x.frame false).releaseCurrent r.current)).notify (.update x.post r.key (nextGeneration r.generation) 1) r.key .updates (some n) none
        |>.completeAsks (fun e => decide (e.post = x.post)) (.delivered (nextGeneration r.generation))).completeCommand n .ok (be16 (nextGeneration r.generation))) := by
  unfold State.endPublication
  simp only
  cases hov : x.overtaken with
  | some c => left; exact ⟨c.status, rfl, by simp⟩
  | none =>
    cases good with
    | false => right; left; exact ⟨rfl, rfl, rfl⟩
    | true =>
      simp only [if_true]
      unfold State.commit
      cases hp : s.posts[x.post] with
      | none => left; refine ⟨.revoked, ?_, by simp⟩; simp only [State.setSlot_posts, State.setPool_posts, hp]; rfl
      | some r => right; right; refine ⟨trivial, trivial, r, rfl, ?_⟩; simp only [State.setSlot_posts,
          State.setPool_posts, hp]; rfl

/-- A GOOD read of an unsuspected frame (R65, R66). -/
theorem endRead_good {s : State} {n : Port} {r : ReadRecord} {row : List Byte} (hc : r.cutOff = false) (hs :
    s.pool.frames[r.frame].suspect = false) :
    s.endRead n r row true = (s.setRead n (some { r with phase := .answering })).completeCommand n .ok
      ((s.setRead n (some { r with phase := .answering })).readResult n r (some (row.take r.length))) := by
  unfold State.endRead
  rw [if_neg (by simp [hc])]
  simp only [hs]
  rfl

/-- A FAULT, or a read of a suspect frame (R65, R67). -/
theorem endRead_bad {s : State} {n : Port} {r : ReadRecord} {row : List Byte} {good : Bool} (hc : r.cutOff = false)
    (hbad : (s.pool.frames[r.frame].suspect || !good) = true) {w : State}
    (hw : w = (if good then s.setRead n (some { r with phase := .answering }) else
      (s.setRead n (some { r with phase := .answering })).setPool (s.pool.setSuspect r.frame true)).damageRequest r.post r.frame
        (if s.pool.frames[r.frame].suspect then .lapse else .check)) :
    s.endRead n r row good = w.completeCommand n .damaged (w.readResult n r none) := by
  subst hw
  unfold State.endRead
  rw [if_neg (by simp [hc])]
  simp only [hbad, if_true]
  rfl


/-- The ends of a read (R65 to R67, R74, R77). -/
theorem endRead_cases (s : State) (n : Port) (r : ReadRecord) (row : List Byte) (good : Bool) :
    (r.cutOff = true ∧ s.endRead n r row good = (s.setRead n none).completeCommand n .sessionlost []) ∨
    (r.cutOff = false ∧ ∃ st res b w, s.endRead n r row good = w.completeCommand n st res ∧
      (w = (s.setRead n (some { r with phase := .answering })).setPool (s.pool.setSuspect r.frame b) ∨
       ∃ c, w = ((s.setRead n (some { r with phase := .answering })).setPool (s.pool.setSuspect r.frame b)).damageRequest r.post r.frame c)) := by
  by_cases hct : r.cutOff = true
  · left; exact ⟨hct, by unfold State.endRead; rw [if_pos hct]⟩
  · right
    have hc : r.cutOff = false := by simpa using hct
    refine ⟨hc, ?_⟩
    have hsame :
        (s.setRead n (some { r with phase := .answering })).setPool (s.pool.setSuspect r.frame (s.pool.frames[r.frame].suspect)) = s.setRead n (some { r with phase := .answering }) := by
      unfold Pool.setSuspect
      have : ({ s.pool.frames[r.frame] with suspect := s.pool.frames[r.frame].suspect } :
          FrameEntry) = s.pool.frames[r.frame] := rfl
      rw [this, put_self]; rfl
    by_cases hbad : (s.pool.frames[r.frame].suspect || !good) = true
    · cases hg : good with
      | true =>
        rw [hg] at hbad
        refine ⟨_, _, s.pool.frames[r.frame].suspect, _, endRead_bad hc hbad rfl,
            .inr ⟨(if s.pool.frames[r.frame].suspect then .lapse else .check), ?_⟩⟩
        rw [hsame]; rfl
      | false =>
        rw [hg] at hbad
        refine ⟨_, _, true, _, endRead_bad hc hbad rfl,
            .inr ⟨(if s.pool.frames[r.frame].suspect then .lapse else .check), rfl⟩⟩
    · simp only [Bool.or_eq_true, Bool.not_eq_true', not_or, Bool.not_eq_false, Bool.not_eq_true] at hbad
      rw [hbad.2]
      refine ⟨_, _, s.pool.frames[r.frame].suspect, _, endRead_good hc hbad.1, .inl ?_⟩
      rw [hsame]

/-- The end of a read access (R136). -/
theorem completeRead_cases (s : State) (n : Port) (d : List Byte) :
    (s.reads[n] = none ∧ s.completeRead n d = s.freeArray) ∨ ∃ r row good, s.reads[n] = some r ∧
        s.completeRead n d = s.freeArray.endRead n r row good := by
  unfold State.completeRead
  cases hs : s.reads[n] with
  | none => exact .inl ⟨rfl, by simp only [show s.freeArray.reads = s.reads from rfl, hs]⟩
  | some x => exact .inr ⟨x, _, _, rfl, by simp only [show s.freeArray.reads = s.reads from rfl, hs]; rfl⟩
end Sys2Proof.Machine
end

