-- ==== Sys2Proof/Laws/Queues.lean ====
section
/-! SUPPORT. Notice queues, deliveries and completions: what each shared operation can do, said once. -/

namespace Sys2Proof.Machine
open Sys2Proof

/-- What an append can do (R90): the entry is appended, or it is counted as lost. -/
theorem NoticeQueue.append_cases (q : NoticeQueue) (x : Notice) :
    (q.lost = none ∧ q.entries.length < Config.ordinaryPlaces ∧
        q.append x = { entries := q.entries ++ [x], lost := none }) ∨
      (q.lost = none ∧ Config.ordinaryPlaces ≤ q.entries.length ∧
          q.append x = { entries := q.entries, lost := some 1 }) ∨
      ∃ k, q.lost = some k ∧ q.append x = { entries := q.entries, lost := some (min (k + 1) Config.maxLost) } := by
  unfold NoticeQueue.append
  cases hq : q.lost with
  | some k => exact .inr (.inr ⟨k, rfl, rfl⟩)
  | none =>
    by_cases h : q.entries.length < Config.ordinaryPlaces
    · exact .inl ⟨rfl, h, by simp [h]⟩
    · exact .inr (.inl ⟨rfl, by omega, by simp [h]⟩)

/-- The entries of a queue stay, in their places, through an append. -/
theorem NoticeQueue.append_entries (q : NoticeQueue) (x : Notice) :
    ∃ l, (q.append x).entries = q.entries ++ l ∧ ∀ y ∈ l, y = x := by
  rcases q.append_cases x with ⟨-, -, h⟩ | ⟨-, -, h⟩ | ⟨k, -, h⟩ <;> rw [h]
  · exact ⟨[x], rfl, by simp⟩
  · exact ⟨[], by simp, by simp⟩
  · exact ⟨[], by simp, by simp⟩

/-- A queue without a marker after an append had none before, and has taken the entry. -/
theorem NoticeQueue.append_of_lost_none {q : NoticeQueue} {x : Notice} (h : (q.append x).lost = none) :
    q.lost = none ∧ q.append x = { entries := q.entries ++ [x], lost := none } := by
  rcases q.append_cases x with ⟨h1, -, h2⟩ | ⟨-, -, h2⟩ | ⟨k, -, h2⟩
  · exact ⟨h1, h2⟩
  · rw [h2] at h; simp at h
  · rw [h2] at h; simp at h

theorem NoticeQueue.accepts_iff (q : NoticeQueue) :
    q.accepts = true ↔ q.entries.length < Config.ordinaryPlaces ∧ q.lost = none := by
  simp [NoticeQueue.accepts]

/-- A queue that accepts an offer appends it (R91). -/
theorem NoticeQueue.append_of_accepts {q : NoticeQueue} (h : q.accepts = true) (x : Notice) :
    q.append x = { entries := q.entries ++ [x], lost := none } := by
  obtain ⟨h1, h2⟩ := q.accepts_iff.1 h
  simp [NoticeQueue.append, h1, h2]

/-- What an offer can do (R109): the ANSWER is the requester's newest entry, or the entry is UNDELIVERED. -/
theorem offerAnswer_cases (att : Port → Bool) (e : UndeliveredAsk) (d : AnswerDesk) :
    (att e.requester = true ∧ d.1[e.requester].accepts = true ∧
        offerAnswer att e d =
          (put d.1 e.requester { entries := d.1[e.requester].entries ++ [e.answer], lost := none }, d.2)) ∨
      ((att e.requester = false ∨ d.1[e.requester].accepts = false) ∧ offerAnswer att e d = (d.1, d.2 ++ [e])) := by
  unfold offerAnswer
  by_cases h : att e.requester = true ∧ d.1[e.requester].accepts = true
  · refine .inl ⟨h.1, h.2, ?_⟩
    rw [if_pos (by simpa using h), NoticeQueue.append_of_accepts h.2]
  · refine .inr ⟨?_, by rw [if_neg (by simpa using h)]⟩
    by_cases h1 : att e.requester = true
    · right; simpa [h1] using h
    · left; simpa using h1

/-- Everything that the completion of the entries `es` with outcome `o` can do to the queues and to the UNDELIVERED
entries (R105, R109). -/
theorem completeEntries_spec (att : Port → Bool) (es : List PendingAsk) (o : AskOutcome) (d : AnswerDesk) :
    (∀ m : Port, ∃ l, (completeEntries att es o d).1[m] = { entries := d.1[m].entries ++ l, lost := d.1[m].lost } ∧
        ∀ x ∈ l, ∃ e ∈ es, e.requester = m ∧ x = (e.completed o).answer) ∧
      (∃ l, (completeEntries att es o d).2 = d.2 ++ l ∧ (∀ u ∈ l, ∃ e ∈ es, u = e.completed o) ∧
        ∀ e ∈ es, e.completed o ∈ l ∨ (e.completed o).answer ∈ (completeEntries att es o d).1[e.requester].entries) ∧
      ∀ m : Port, att m = false → (completeEntries att es o d).1[m] = d.1[m] := by
  induction es generalizing d with
  | nil => exact ⟨fun m => ⟨[], by simp [completeEntries], by simp⟩, ⟨[], by simp [completeEntries]⟩,
      fun m _ => rfl⟩
  | cons e es ih =>
    have hstep :
        completeEntries att (e :: es) o d = completeEntries att es o (offerAnswer att (e.completed o) d) := rfl
    rw [hstep]
    obtain ⟨hq, ⟨l, hl, hl1, hl2⟩, hn⟩ := ih (offerAnswer att (e.completed o) d)
    rcases offerAnswer_cases att (e.completed o) d with ⟨ha, hacc, he⟩ | ⟨-, he⟩
    · rw [he] at hq hl hl2 hn ⊢
      have hreq : (e.completed o).requester = e.requester := rfl
      have hlost : d.1[e.requester].lost = none := ((NoticeQueue.accepts_iff _).1 hacc).2
      refine ⟨fun m => ?_, ⟨l, hl, fun u hu => ?_, fun a ha' => ?_⟩, fun m hm => ?_⟩
      · obtain ⟨k, hk, hk1⟩ := hq m
        by_cases hm : m = e.requester
        · subst hm
          refine ⟨(e.completed o).answer :: k, ?_, ?_⟩
          · rw [hk]
            simp only [Fin.getElem_fin] at hlost
            simp [hreq, hlost]
          · intro x hx
            rcases List.mem_cons.1 hx with rfl | hx
            · exact ⟨e, by simp, rfl, rfl⟩
            · obtain ⟨a, ha1, ha2⟩ := hk1 x hx
              exact ⟨a, by simp [ha1], ha2⟩
        · refine ⟨k, ?_, ?_⟩
          · rw [hk]
            have hne : e.requester.val ≠ m.val := fun h => hm (Fin.ext h.symm)
            simp [hreq, hne]
          · intro x hx
            obtain ⟨a, ha1, ha2⟩ := hk1 x hx
            exact ⟨a, by simp [ha1], ha2⟩
      · obtain ⟨a, ha1, ha2⟩ := hl1 u hu
        exact ⟨a, by simp [ha1], ha2⟩
      · rcases List.mem_cons.1 ha' with rfl | ha'
        · right
          obtain ⟨k, hk, -⟩ := hq a.requester
          rw [hk]
          simp [hreq]
        · exact hl2 a ha'
      · rw [hn m hm]
        have hne : e.requester.val ≠ m.val := by
          intro h
          rw [hreq, Fin.ext h, hm] at ha
          simp at ha
        simp [hreq, hne]
    · rw [he] at hq hl hl2 hn ⊢
      refine ⟨fun m => ?_, ⟨e.completed o :: l, by rw [hl]; simp, fun u hu => ?_, fun a ha' => ?_⟩, hn⟩
      · obtain ⟨k, hk, hk1⟩ := hq m
        refine ⟨k, hk, fun x hx => ?_⟩
        obtain ⟨a, ha1, ha2⟩ := hk1 x hx
        exact ⟨a, by simp [ha1], ha2⟩
      · rcases List.mem_cons.1 hu with rfl | hu
        · exact ⟨e, by simp, rfl⟩
        · obtain ⟨a, ha1, ha2⟩ := hl1 u hu
          exact ⟨a, by simp [ha1], ha2⟩
      · rcases List.mem_cons.1 ha' with rfl | ha'
        · left; simp
        · rcases hl2 a ha' with h | h
          · left; simp [h]
          · right; exact h

/-- What a delivery leaves in each queue. -/
theorem getElem_deliver (sel : Port → Bool) (x : Notice) (qs : Vector NoticeQueue 4) (m : Port) :
    (deliver sel x qs)[m] = if sel m then qs[m].arrive x else qs[m] := by
  simp [deliver]

end Sys2Proof.Machine
end

