-- ==== Sys2Proof/Laws/Arrivals.lean ====
section
/-! SUPPORT. What one event brings to each queue, in its order: offers, deliveries and completions as arrivals. -/

namespace Sys2Proof.Machine
open Sys2Proof

theorem NoticeQueue.receives_append (a : Bool) (q : NoticeQueue) (xs ys : List Arrival) :
    q.receives a (xs ++ ys) =
      (((q.receives a xs).1.receives a ys).1, (q.receives a xs).2 ++ ((q.receives a xs).1.receives a ys).2) := by
  induction xs generalizing q with
  | nil => simp [NoticeQueue.receives]
  | cons x xs ih =>
    cases x with
    | notice x => simp only [List.cons_append, NoticeQueue.receives, ih]
    | offer u =>
      simp only [List.cons_append, NoticeQueue.receives]
      split_ifs <;> simp only [ih, List.cons_append]

/-- The desk `d'` is the desk `d` after each port's `arrivals`; `offered` are the entries whose ANSWERs were offered. -/
def DeskReceived (att : Port → Bool) (d d' : AnswerDesk) (offered : List UndeliveredAsk)
    (arrivals : Port → List Arrival) : Prop :=
  (∀ m : Port, d'.1[m] = (d.1[m].receives (att m) (arrivals m)).1) ∧
    ∃ refused : List UndeliveredAsk, d'.2 = d.2 ++ refused ∧ refused.Sublist offered ∧
      ∀ m : Port, refused.filter (fun u => decide (u.requester = m)) = (d.1[m].receives (att m) (arrivals m)).2

theorem DeskReceived.refl (att : Port → Bool) (d : AnswerDesk) : DeskReceived att d d [] fun _ => [] :=
  ⟨fun _ => rfl, [], by simp, .slnil, fun _ => rfl⟩

theorem DeskReceived.trans {att : Port → Bool} {d d' d'' : AnswerDesk} {o o' : List UndeliveredAsk}
    {a a' : Port → List Arrival} (h : DeskReceived att d d' o a) (h' : DeskReceived att d' d'' o' a') :
    DeskReceived att d d'' (o ++ o') fun m => a m ++ a' m := by
  obtain ⟨h1, r, h2, h3, h4⟩ := h
  obtain ⟨k1, r', k2, k3, k4⟩ := h'
  refine ⟨fun m => ?_, r ++ r', by rw [k2, h2, List.append_assoc], h3.append k3, fun m => ?_⟩
  · rw [NoticeQueue.receives_append, k1 m, h1 m]
  · rw [NoticeQueue.receives_append, List.filter_append, h4 m, k4 m, h1 m]

/-- A delivery is the arrival of the notice at each port that it goes to. -/
theorem DeskReceived.deliver (att sel : Port → Bool) (x : Notice) (d : AnswerDesk) :
    DeskReceived att d (deliver sel x d.1, d.2) [] fun m => if sel m then [.notice x] else [] := by
  refine ⟨fun m => ?_, [], by simp, .slnil, fun m => ?_⟩
  · rw [show (Machine.deliver sel x d.1, d.2).1 = Machine.deliver sel x d.1 from rfl, getElem_deliver]
    by_cases h : sel m = true <;> simp only [h, if_true] <;> rfl
  · by_cases h : sel m = true <;> simp only [h, if_true] <;> rfl

/-- An offer is the arrival of the ANSWER at its requester's queue. -/
theorem DeskReceived.offer (att : Port → Bool) (u : UndeliveredAsk) (d : AnswerDesk) :
    DeskReceived att d (offerAnswer att u d) [u] (offersTo [u]) := by
  have none_to {m : Port} (h : u.requester ≠ m) : offersTo [u] m = [] := by simp [offersTo, h]
  have one_to : offersTo [u] u.requester = [.offer u] := by simp [offersTo]
  rcases offerAnswer_cases att u d with ⟨ha, hacc, he⟩ | ⟨hrej, he⟩ <;> rw [he]
  · obtain ⟨hlen, hlost⟩ := (NoticeQueue.accepts_iff _).1 hacc
    have hc : att u.requester = true ∧ d.1[u.requester].entries.length < 31 ∧ d.1[u.requester].lost = none :=
      ⟨ha, hlen, hlost⟩
    refine ⟨fun m => ?_, [], by simp, List.nil_sublist _, fun m => ?_⟩ <;> by_cases hm : u.requester = m
    · subst hm
      rw [one_to, getElem_put_self, NoticeQueue.receives, if_pos hc, ← hlost]
      rfl
    · rw [none_to hm, getElem_put_of_ne _ _ (fun h => hm h.symm)]
      rfl
    · subst hm
      rw [one_to, NoticeQueue.receives, if_pos hc]
      rfl
    · rw [none_to hm]
      rfl
  · have hc : ¬ (att u.requester = true ∧ d.1[u.requester].entries.length < 31 ∧ d.1[u.requester].lost = none) := by
      rintro ⟨h1, h2, h3⟩
      have := (NoticeQueue.accepts_iff _).2 ⟨h2, h3⟩
      rcases hrej with h | h <;> simp_all
    refine ⟨fun m => ?_, [u], rfl, List.Sublist.refl _, fun m => ?_⟩ <;> by_cases hm : u.requester = m
    · subst hm
      rw [one_to, NoticeQueue.receives, if_neg hc]
      rfl
    · rw [none_to hm]
      rfl
    · subst hm
      rw [one_to, NoticeQueue.receives, if_neg hc]
      simp [NoticeQueue.receives]
    · rw [none_to hm]
      simp [NoticeQueue.receives, hm]

theorem offersTo_cons (u : UndeliveredAsk) (us : List UndeliveredAsk) (m : Port) :
    offersTo (u :: us) m = offersTo [u] m ++ offersTo us m := by
  unfold offersTo
  rw [← List.map_append, ← List.filter_append]
  rfl

/-- The completion of the entries `es`, one after another, is the offer of each one's ANSWER in that order (R105). -/
theorem completeEntries_received (att : Port → Bool) (es : List PendingAsk) (o : AskOutcome) (d : AnswerDesk) :
    DeskReceived att d (completeEntries att es o d) (es.map fun e => e.completed o)
      (offersTo (es.map fun e => e.completed o)) := by
  induction es generalizing d with
  | nil => exact DeskReceived.refl att d
  | cons e es ih =>
    have h := (DeskReceived.offer att (e.completed o) d).trans (ih _)
    rw [List.map_cons, show offersTo (_ :: _) = _ from funext (offersTo_cons _ _)]
    exact h

/-- The queues and the UNDELIVERED entries after the completion of the PENDING entries that `sel` picks. -/
theorem completeAsks_received (s : State) (sel : PendingAsk → Bool) (o : AskOutcome) :
    DeskReceived s.attached (s.queues, s.requests.undelivered)
      ((s.completeAsks sel o).queues, (s.completeAsks sel o).requests.undelivered)
      ((s.requests.pending.filter sel).map fun e => e.completed o)
      (offersTo ((s.requests.pending.filter sel).map fun e => e.completed o)) :=
  completeEntries_received _ _ _ _

/-- What one post hands on at the detach of port `n` (R23, R92). -/
theorem orphanHandOn_received (s : State) (n : Port) (c : DetachCause) (d : AnswerDesk) (p : PostNo) :
    DeskReceived s.attached d (s.orphanHandOn n c d p)
      (match s.posts[p] with
        | none => []
        | some r => if r.binding = .bound n then completions s.requests.pending p .orphaned else [])
      (fun m => match s.posts[p] with
        | none => []
        | some r => if r.binding = .bound n then
            (if s.recipients r.key .lifecycle none none m then [.notice (.orphaned p r.key n c)] else []) ++
              offersTo (completions s.requests.pending p .orphaned) m
          else []) := by
  unfold State.orphanHandOn
  cases hp : s.posts[p] with
  | none => exact DeskReceived.refl _ _
  | some r =>
    simp only [Post.boundTo, decide_eq_true_eq]
    split_ifs with hb
    · exact (DeskReceived.deliver _ _ _ d).trans (completeEntries_received _ _ _ _)
    · exact DeskReceived.refl _ _

/-- What all the posts of a list hand on at a detach (R23, R92). -/
theorem orphanFold_received (s : State) (n : Port) (c : DetachCause) (ps : List PostNo) (d : AnswerDesk) :
    DeskReceived s.attached d (ps.foldl (s.orphanHandOn n c) d)
      (ps.flatMap fun p => match s.posts[p] with
        | none => []
        | some r => if r.binding = .bound n then completions s.requests.pending p .orphaned else [])
      (fun m => ps.flatMap fun p => match s.posts[p] with
        | none => []
        | some r => if r.binding = .bound n then
            (if s.recipients r.key .lifecycle none none m then [.notice (.orphaned p r.key n c)] else []) ++
              offersTo (completions s.requests.pending p .orphaned) m
          else []) := by
  induction ps generalizing d with
  | nil => exact DeskReceived.refl _ _
  | cons p ps ih =>
    simp only [List.flatMap_cons, List.foldl_cons]
    exact (orphanHandOn_received s n c d p).trans (ih _)

end Sys2Proof.Machine
end

