-- ==== Sys2Proof/Laws/Detach.lean ====
section
/-! SUPPORT. The detach: what it leaves of every block. -/

namespace Sys2Proof.Machine
open Sys2Proof

theorem mem_allPosts (p : PostNo) : p ∈ allPosts := List.mem_finRange p

theorem Post.orphanedFrom_eq (n : Port) (r : Post) :
    r.orphanedFrom n = if r.binding = .bound n then
      { r with
        binding := .orphaned n, condition := (if r.condition = .fresh then .stale else r.condition),
        deadline := none, inFlight := none }
      else r := by
  unfold Post.orphanedFrom Post.boundTo
  by_cases h : r.binding = .bound n
  · simp only [h, decide_true, if_true]
    cases r.condition <;> rfl
  · simp [h]

/-- Everything that a detach leaves (R126). -/
theorem detachPort_detached (s : State) (n : Port) (c : DetachCause) :
    DetachedFrom s (s.detachPort n c) n c ∧ (s.detachPort n c).ports = s.ports ∧
        Block.inputs.same s (s.detachPort n c) := by
  set u : State := (((((s.setSession n Session.detachedValues).overtake n .session).detachReading n).setRequests
      (s.requests.without n)).setFilters n (Vector.replicate 8 none)).setQueues (put s.queues n NoticeQueue.empty) with hu
  have hd : s.detachPort n c = u.orphanPosts n c := rfl
  have hatt : ∀ m : Port, u.attached m = if m = n then false else s.attached m := by
    intro m
    simp only [hu, State.attached, State.setQueues_sessions, State.setFilters_sessions, State.setRequests_sessions,
      State.detachReading_sessions, State.overtake_sessions, State.setSession_sessions, Fin.getElem_fin,
          getElem_put]
    by_cases h : m = n
    · simp [h, Session.detachedValues, Session.isAttached]
    · have hne : n.val ≠ m.val := fun h' => h (Fin.ext h'.symm)
      simp [h, hne]
  have hrec : ∀ (k : Half) (g : FilterFlag) (m : Port),
      u.recipients k g none none m = if m = n then false else s.recipients k g none none m := by
    intro k g m
    by_cases h : m = n
    · simp [State.recipients, hatt, h]
    · have hf : u.filters[m.val] = s.filters[m.val] := by
        have hne : n.val ≠ m.val := fun h' => h (Fin.ext h'.symm)
        simp [hu, hne]
      simp [State.recipients, hatt, h, hf]
  have hposts : u.posts = s.posts := rfl
  have hpend : u.requests.pending = s.requests.pending.filter fun e => decide (e.requester ≠ n) := rfl
  have hqueue : ∀ m : Port, u.queues[m] = if m = n then NoticeQueue.empty else s.queues[m] := by
    intro m
    by_cases h : m = n
    · simp [hu, h]
    · have hne : n.val ≠ m.val := fun h' => h (Fin.ext h'.symm)
      simp [hu, h, hne]
  have hoff : ∀ (p : PostNo) (m : Port),
      offersTo (completions (s.requests.pending.filter fun e => decide (e.requester ≠ n)) p .orphaned) m =
        if m = n then [] else offersTo (completions s.requests.pending p .orphaned) m := by
    intro p m
    simp only [offersTo, completions, List.filter_map, List.filter_filter, Function.comp_def, PendingAsk.completed]
    by_cases h : m = n
    · subst h
      rw [if_pos rfl, List.filter_eq_nil_iff.2 (by simp +contextual)]
      rfl
    · rw [if_neg h, List.filter_congr fun e _ => ?_]
      by_cases he : e.requester = m <;> simp [he, h]
  obtain ⟨i1, l, i2, i3, i4⟩ := orphanFold_received u n c allPosts (u.queues, u.requests.undelivered)
  have harr : ∀ m : Port, (allPosts.flatMap fun p => match u.posts[p] with
      | none => []
      | some r => if r.binding = .bound n then
          (if u.recipients r.key .lifecycle none none m then [.notice (.orphaned p r.key n c)] else []) ++
            offersTo (completions u.requests.pending p .orphaned) m
        else []) = if m = n then [] else orphanArrivals s n c m := by
    intro m
    simp only [hrec, hposts, hpend, hoff]
    by_cases h : m = n
    · simp only [h, if_true, List.flatMap_eq_nil_iff]
      intro p _
      split <;> simp
    · simp only [h, if_false]
      rfl
  have hrecv : ∀ (m : Port) (a : List Arrival), a = (if m = n then [] else orphanArrivals s n c m) →
      u.queues[m].receives (u.attached m) a = (if m = n then NoticeQueue.empty else s.queues[m]).receives
        (s.attached m) (if m = n then [] else orphanArrivals s n c m) := by
    intro m a ha
    rw [ha, hqueue, hatt]
    by_cases h : m = n
    · simp [h, NoticeQueue.receives]
    · simp [h]
  rw [hd]
  refine ⟨⟨rfl, fun p => ?_, fun m => ?_, rfl, fun m h => ?_, fun m => ?_, fun m i => ?_, ?_,
      ⟨fun m => ?_, l, i2, i3, fun m => ?_⟩, rfl, rfl, ?_⟩, rfl, ⟨rfl, rfl, rfl, rfl, rfl⟩⟩
  · have : (u.orphanPosts n c).posts = mapTable (Option.map (Post.orphanedFrom n)) s.posts := rfl
    rw [this]
    simp only [Fin.getElem_fin, getElem_mapTable]
    congr 1
    funext r
    exact Post.orphanedFrom_eq n r
  · have : (u.orphanPosts n c).slots = put s.slots n (s.slots[n].map (Publication.overtakenBy .session)) := rfl
    rw [this]
    by_cases h : m = n
    · subst h; simp; rfl
    · have hne : n.val ≠ m.val := fun h' => h (Fin.ext h'.symm)
      simp [h, hne]
  · have : (u.orphanPosts n c).holds = put s.holds n (Vector.replicate 8 none) := rfl
    rw [this]
    by_cases h' : m = n
    · subst h'; simp
    · have hne : n.val ≠ m.val := fun h => h' (Fin.ext h.symm)
      simp [h', hne]
  · have : (u.orphanPosts n c).reads = put s.reads n (s.reads[n].bind ReadRecord.detached) := rfl
    rw [this]
    by_cases h' : m = n
    · subst h'
      simp only [Fin.getElem_fin, getElem_put, if_true]
      congr 1
      funext r
      unfold ReadRecord.detached
      cases r.phase <;> rfl
    · have hne : n.val ≠ m.val := fun h => h' (Fin.ext h.symm)
      simp [h', hne]
  · have : (u.orphanPosts n c).filters = put s.filters n (Vector.replicate 8 none) := rfl
    rw [this]
    by_cases h' : m = n
    · subst h'; simp
    · have hne : n.val ≠ m.val := fun h => h' (Fin.ext h.symm)
      simp [h', hne]
  · have : (u.orphanPosts n c).requests.pending =
        (s.requests.without n).pending.filter (fun e => !postBoundTo s.posts[e.post] n) := rfl
    rw [this, RequestTable.without, List.filter_filter]
    refine List.filter_congr fun e _ => ?_
    unfold postBoundTo Post.boundTo
    cases s.posts[e.post] <;> simp [Bool.and_comm]
  · exact (i1 m).trans (congrArg Prod.fst (hrecv m _ (harr m)))
  · exact (i4 m).trans (congrArg Prod.snd (hrecv m _ (harr m)))
  · intro b hb
    cases b <;> simp at hb <;> rfl

end Sys2Proof.Machine
end

