-- ==== Sys2Proof/Laws/Holds.lean ====
section
/-! SUPPORT. Holds and reads: what RELEASE and SNAPSHOT do to a hold table, what a damage request leaves,
    and how a read completes. -/

namespace Sys2Proof.Machine
open Sys2Proof

/-- What the releases of a RELEASE do, hold by hold: the flagged holds in use become unused, their frames are
released in order, and the answer mask names them (R75). -/
theorem releaseFold_spec (mask : Byte) (hs : List HoldNo) (hnd : hs.Nodup) (d d' : ReleaseDesk)
    (hd' : d' = hs.foldl (releaseHold mask) d) :
    (∀ h : HoldNo, d'.table[h] = if h ∈ hs ∧ mask.getLsbD h.val = true then none else d.table[h]) ∧
      d'.pool = d.pool.releaseAll (hs.filterMap fun h : HoldNo =>
        if mask.getLsbD h.val then (d.table[h]).map Hold.frame else none) ∧
      ∀ k : Nat, k < 8 → (d'.mask.getLsbD k = true ↔ d.mask.getLsbD k = true ∨
        mask.getLsbD k = true ∧ ∃ h ∈ hs, h.val = k ∧ (d.table[h]).isSome) := by
  induction hs generalizing d with
  | nil => subst hd'; simp [Pool.releaseAll]
  | cons a hs ih =>
    have hnm : a ∉ hs := (List.nodup_cons.1 hnd).1
    obtain ⟨i1, i2, i3⟩ := ih (List.nodup_cons.1 hnd).2 (releaseHold mask d a) hd'
    -- what one does
    rcases hda : d.table[a] with _ | x
    · have hone : releaseHold mask d a = d := by simp only [releaseHold, hda]
      rw [hone] at i1 i2 i3
      refine ⟨fun h => ?_, ?_, fun k hk => ?_⟩
      · rw [i1]
        by_cases hh : h = a
        · subst hh; simp only [hda]; simp
        · simp [hh]
      · rw [i2, List.filterMap_cons]
        simp only [hda]; simp
      · rw [i3 k hk]
        refine or_congr_right (and_congr_right fun _ => ?_)
        constructor
        · rintro ⟨h, h1, h2⟩; exact ⟨h, by simp [h1], h2⟩
        · rintro ⟨h, h1, h2, h3⟩
          rcases List.mem_cons.1 h1 with rfl | h1
          · rw [hda] at h3; simp at h3
          · exact ⟨h, h1, h2, h3⟩
    · by_cases hm : mask.getLsbD a.val = true
      · have hone :
          releaseHold mask d a = { table := put d.table a none, pool := d.pool.release x.frame, mask := d.mask ||| (1#8 <<< a.val) } := by
          simp only [releaseHold, hda, hm, if_true]
        rw [hone] at i1 i2 i3
        refine ⟨fun h => ?_, ?_, fun k hk => ?_⟩
        · rw [i1]
          by_cases hh : h = a
          · subst hh; simp [hm]
          · have : a.val ≠ h.val := fun h' => hh (Fin.ext h'.symm)
            simp [hh, this]
        · rw [i2, List.filterMap_cons]
          simp only [hda, hm, if_true, Option.map_some]
          show Pool.releaseAll _ _ = Pool.releaseAll (d.pool.release x.frame) _
          congr 1
          apply List.filterMap_congr
          intro h hh
          have : a.val ≠ h.val := fun h' => hnm (by rw [Fin.ext h']; exact hh)
          simp [this]
        · rw [i3 k hk]
          have hbit : (d.mask ||| (1#8 <<< a.val)).getLsbD k = (d.mask.getLsbD k || decide (k = a.val)) := by
            have ha := a.isLt
            simp only [BitVec.getLsbD_or, BitVec.getLsbD_shiftLeft, BitVec.getLsbD_one]
            congr 1
            rw [Bool.eq_iff_iff]
            simp
            omega
          rw [hbit]
          constructor
          · rintro (h | ⟨h1, h, h2, h3, h4⟩)
            · rw [Bool.or_eq_true, decide_eq_true_eq] at h
              rcases h with h | rfl
              · exact .inl h
              · exact .inr ⟨hm, a, by simp, rfl, by rw [hda]; rfl⟩
            · right
              have : a.val ≠ h.val := fun h' => hnm (by rw [Fin.ext h']; exact h2)
              exact ⟨h1, h, by simp [h2], h3, by simpa [this] using h4⟩
          · rintro (h | ⟨h1, h, h2, h3, h4⟩)
            · left; simp [h]
            · rcases List.mem_cons.1 h2 with rfl | h2
              · left; simp [h3]
              · right
                have : a.val ≠ h.val := fun h' => hnm (by rw [Fin.ext h']; exact h2)
                exact ⟨h1, h, h2, h3, by simpa [this] using h4⟩
      · have hone : releaseHold mask d a = d := by simp only [releaseHold, hda, hm]; rfl
        rw [hone] at i1 i2 i3
        refine ⟨fun h => ?_, ?_, fun k hk => ?_⟩
        · rw [i1]
          by_cases hh : h = a
          · subst hh; simp only [hm]; simp
          · simp [hh]
        · rw [i2, List.filterMap_cons]
          simp only [hm]; simp
        · rw [i3 k hk]
          refine or_congr_right (and_congr_right fun hkm => ?_)
          constructor
          · rintro ⟨h, h1, h2⟩; exact ⟨h, by simp [h1], h2⟩
          · rintro ⟨h, h1, h2, h3⟩
            rcases List.mem_cons.1 h1 with rfl | h1
            · rw [h2] at hm; exact absurd hkm hm
            · exact ⟨h, h1, h2, h3⟩

/-- Unused entries of a hold table, in ascending order. -/
def unusedList (t : Vector (Option Hold) 8) : List HoldNo := (List.finRange 8).filter fun h :
    HoldNo => (t[h]).isNone

/-- The list of a table is that of its entries in ascending order. -/
theorem vec_toList {α : Type} {k : Nat} (v : Vector α k) : v.toList = (List.finRange k).map fun i => v[i] := by
  apply List.ext_getElem
  · simp
  · intro i h1 h2
    simp

/-- The number of unused entries is the length of their list. -/
theorem unusedHolds_eq (t : Vector (Option Hold) 8) : unusedHolds t = (unusedList t).length := by
  unfold unusedHolds unusedList
  rw [vec_toList, List.filter_map, List.length_map]
  rfl

/-- The hold numbers are all numbers below 8. -/
theorem allHolds_eq : allHolds = List.finRange 8 := by decide

/-- The lowest unused entry is the first of the list. -/
theorem lowestUnused_eq (t : Vector (Option Hold) 8) : lowestUnused t = (unusedList t).head? := by
  unfold lowestUnused unusedList
  rw [allHolds_eq, List.head?_filter]

/-- After the lowest unused entry is used, the others stay unused. -/
theorem unusedList_put {t : Vector (Option Hold) 8} {h : HoldNo} {u : List HoldNo} (x : Hold) (hu :
    unusedList t = h :: u) :
    unusedList (put t h (some x)) = u := by
  have hnd : (unusedList t).Nodup := (List.nodup_finRange 8).filter _
  have : unusedList (put t h (some x)) = (unusedList t).filter fun y => decide (y ≠ h) := by
    unfold unusedList
    rw [List.filter_filter]
    apply List.filter_congr
    intro y _
    by_cases hy : y = h
    · subst hy; simp
    · have : h.val ≠ y.val := fun h' => hy (Fin.ext h'.symm)
      simp [hy, this]
  rw [this, hu]
  rw [hu] at hnd
  have hn := (List.nodup_cons.1 hnd).1
  rw [List.filter_cons]
  simp only [ne_eq, not_true_eq_false, decide_false, Bool.false_eq_true, if_false]
  rw [List.filter_eq_self]
  intro a ha
  simp
  rintro rfl
  exact hn ha

/-- The post is OCCUPIED with a current frame. -/
def hasDataOf (posts : Vector (Option Post) 64) (p : PostNo) : Bool := ((posts[p]).bind Post.current).isSome

/-- The bytes that a SNAPSHOT answers for post `p`, its hold being that of its place among the posts held
(R164). -/
def entryOf (posts : Vector (Option Post) 64) (unused : List HoldNo) (held : List PostNo) (p : PostNo) :
    List Byte :=
  match posts[p] with
            | none => [postByte p, 0x08#8, 0xFF#8, 0x00#8, 0x00#8, 0xFF#8]
            | some r =>
              if hasDataOf posts p then
                [postByte p, 0x00#8, byteOf ((unused.getD (held.idxOf p) 0).val)] ++ be16 r.generation ++
                  [r.condition.code]
              else [postByte p, 0x0F#8, 0xFF#8, 0x00#8, 0x00#8, 0xFF#8]

/-- What a SNAPSHOT does to its desk: the answer, the holds taken, the others kept, and the references added
(R70, R71). -/
theorem snap_spec (posts : Vector (Option Post) 64) (ps : List PostNo) (hnd : ps.Nodup) (d : SnapDesk)
    (held : List PostNo) (hh : held = ps.filter (hasDataOf posts))
    (hlen : held.length ≤ (unusedList d.table).length) (d' : SnapDesk) (hd' : d' = snapshotPosts posts ps d) :
    d'.out = d.out ++ ps.flatMap (entryOf posts (unusedList d.table) held) ∧
    (∀ p ∈ held, ∀ (r : Post) (c : Current), posts[p] = some r → r.current = some c →
      d'.table[(unusedList d.table).getD (held.idxOf p) 0] = some { post := p, key := r.key, frame := c.frame, generation := r.generation, length := c.length, condition := r.condition }) ∧
    (∀ h : HoldNo, h ∉ (unusedList d.table).take held.length → d'.table[h] = d.table[h]) ∧
    d'.pool.free = d.pool.free ∧ d'.pool.mark = d.pool.mark ∧ d'.pool.armed = d.pool.armed ∧
    ∀ f : FrameNo, d'.pool.frames[f].suspect = d.pool.frames[f].suspect ∧
      d'.pool.frames[f].refs = d.pool.frames[f].refs + held.countP fun p => decide (((posts[p]).bind Post.current).map Current.frame = some f) := by
  induction ps generalizing d held with
  | nil => subst hd'; subst hh; simp
  | cons p ps ih =>
    have hpn := (List.nodup_cons.1 hnd).1
    have hnd' := (List.nodup_cons.1 hnd).2
    have hd2 : d' = snapshotPosts posts ps (snapshotPost posts d p) := hd'
    by_cases hdat : hasDataOf posts p = true
    · -- data
      obtain ⟨c, hc⟩ := Option.isSome_iff_exists.1 hdat
      obtain ⟨r, hr, hrc⟩ := Option.bind_eq_some_iff.1 hc
      rw [List.filter_cons_of_pos hdat] at hh
      subst hh
      simp only [List.length_cons] at hlen ⊢
      obtain ⟨h, u, hu⟩ : ∃ h u, unusedList d.table = h :: u := by
        cases hx : unusedList d.table with
        | nil => rw [hx] at hlen; simp at hlen
        | cons a b => exact ⟨a, b, rfl⟩
      have hlow : lowestUnused d.table = some h := by rw [lowestUnused_eq, hu]; rfl
      set x : Hold :=
          { post := p, key := r.key, frame := c.frame, generation := r.generation, length := c.length, condition := r.condition } with hx
      have hone :
          snapshotPost posts d p = { table := put d.table h (some x), pool := d.pool.addRef c.frame, out := d.out ++ ([postByte p, Status.ok.code, byteOf h.val] ++ be16 r.generation ++ [r.condition.code]) } := by
        simp only [snapshotPost, hr, hrc, hlow]
        simp [hx]
      have hu' := unusedList_put x hu
      rw [hone] at hd2
      obtain ⟨i1, i2, i3, i4, i5, i6, i7⟩ :=
          ih hnd' _ _ rfl (by simp only [hu']; rw [hu] at hlen; simpa using hlen) hd2
      simp only [hu'] at i1 i2 i3
      have hidx : ∀ q ∈ ps,
          (p :: ps.filter (hasDataOf posts)).idxOf q = (ps.filter (hasDataOf posts)).idxOf q + 1 := by
        intro q hq
        have : p ≠ q := fun h => hpn (h ▸ hq)
        rw [List.idxOf_cons_ne _ this]
      have key : ∀ a b : HoldNo, a = b → d'.table[a] = d'.table[b] := by rintro a _ rfl; rfl
      refine ⟨?_, fun q hq r' c' hr' hc' => ?_, fun k hk => ?_, i4, i5, i6, fun f => ⟨?_, ?_⟩⟩
      · rw [i1, List.flatMap_cons, List.append_assoc]
        congr 1
        congr 1
        · simp only [entryOf, hr, hdat, if_true, hu, List.idxOf_cons_self, List.getD_cons_zero]
          rfl
        · rw [List.flatMap_congr]
          intro q hq
          simp only [entryOf, hidx q hq, hu, List.getD_cons_succ]
      · rcases List.mem_cons.1 hq with rfl | hq
        · have e1 : r' = r := by rw [hr] at hr'; simpa using hr'.symm
          subst e1
          have e2 : c' = c := by rw [hrc] at hc'; simpa using hc'.symm
          subst e2
          rw [key _ h (by rw [List.idxOf_cons_self, hu, List.getD_cons_zero]), i3 h]
          · show (put d.table h (some x))[h] = _
            rw [getElem_put_self]
          · intro hm
            have hnd2 : (unusedList d.table).Nodup := (List.nodup_finRange 8).filter _
            rw [hu] at hnd2
            exact (List.nodup_cons.1 hnd2).1 (List.mem_of_mem_take hm)
        · have hqp : q ∈ ps := (List.mem_filter.1 hq).1
          rw [key _ _ (by rw [hidx q hqp, hu, List.getD_cons_succ])]
          exact i2 q hq r' c' hr' hc'
      · rw [hu, List.take_succ_cons, List.mem_cons, not_or] at hk
        rw [i3 k hk.2]
        show (put d.table h (some x))[k] = _
        rw [getElem_put_of_ne _ _ hk.1]
      · rw [(i7 f).1]
        show (put d.pool.frames c.frame _)[f].suspect = _
        by_cases hf : f = c.frame
        · subst hf; rw [getElem_put_self]
        · rw [getElem_put_of_ne _ _ hf]
      · rw [(i7 f).2, List.countP_cons]
        show (put d.pool.frames c.frame _)[f].refs + _ = _
        simp only [hr, Option.bind_some, hrc, Option.map_some, Option.some_inj]
        by_cases hf : f = c.frame
        · subst hf; rw [getElem_put_self]; simp; omega
        · rw [getElem_put_of_ne _ _ hf]
          have : ¬ c.frame = f := fun h => hf h.symm
          simp [this]
    · rw [List.filter_cons_of_neg hdat] at hh
      subst hh
      obtain ⟨o, hone, ho⟩ : ∃ o, snapshotPost posts d p = { d with out := d.out ++ o } ∧
          o = entryOf posts (unusedList d.table) (ps.filter (hasDataOf posts)) p := by
        cases hr : posts[p] with
        | none =>
          refine ⟨[postByte p, 0x08#8, 0xFF#8, 0x00#8, 0x00#8, 0xFF#8], ?_, by simp only [entryOf, hr]⟩
          simp only [snapshotPost, hr]; rfl
        | some r =>
          have hrc : r.current = none := by
            cases hrc : r.current with
            | none => rfl
            | some c => exfalso; apply hdat; simp only [hasDataOf, hr, Option.bind_some, hrc]; rfl
          refine ⟨[postByte p, 0x0F#8, 0xFF#8, 0x00#8, 0x00#8, 0xFF#8], ?_, ?_⟩
          · simp only [snapshotPost, hr, hrc]; rfl
          · simp only [entryOf, hr, hdat]; rfl
      rw [hone] at hd2
      obtain ⟨i1, i2, i3, i4, i5, i6, i7⟩ := ih hnd' { d with out := d.out ++ o } _ rfl hlen hd2
      refine ⟨?_, i2, i3, i4, i5, i6, i7⟩
      rw [i1, List.flatMap_cons, ho, List.append_assoc]

/-- A damage request changes posts and queues alone (R20). -/
theorem damageRequest_frame (s : State) (p : PostNo) (f : FrameNo) (c : DamageCause) :
    let t := s.damageRequest p f c
    t.ports = s.ports ∧ t.reads = s.reads ∧ t.pool = s.pool ∧ t.array = s.array ∧ t.holds = s.holds ∧
      (∀ q k, t.presentGeneration q k = s.presentGeneration q k) ∧ Unchanged s t [.posts, .queues] ∧
      (s.LinesLawful → t.LinesLawful) := by
  intro t
  rcases damageRequest_cases s p f c with ⟨h, -⟩ | ⟨r, hp, -, -, h⟩
  · rw [show t = s from h]
    exact ⟨rfl, rfl, rfl, rfl, rfl, fun _ _ => rfl, fun b _ => by cases b <;> first | rfl | exact ⟨rfl, rfl,
        rfl, rfl, rfl⟩, id⟩
  · have hpg : ∀ x : Post, x.key = r.key → x.generation = r.generation → ∀ t' : State,
      t'.posts = put s.posts p (some x) → ∀ q k, t'.presentGeneration q k = s.presentGeneration q k := by
      intro x h1 h2 t' ht q k
      unfold State.presentGeneration
      rw [ht]
      by_cases hq : q = p
      · subst hq
        rw [getElem_put_self, hp]; simp only [h1, h2]
      · rw [getElem_put_of_ne _ _ hq]
    cases c with
    | check =>
      simp only at h
      rw [show t = _ from h]
      exact ⟨rfl, rfl, rfl, rfl, rfl,
          hpg { r with condition := .damaged, cause := some .check, deadline := none } rfl rfl _ rfl,
          fun b hb => by cases b <;> first | rfl | exact ⟨rfl, rfl, rfl, rfl, rfl⟩ | (simp at hb), fun _ => rfl⟩
    | lapse =>
      simp only at h
      rw [show t = _ from h]
      exact ⟨rfl, rfl, rfl, rfl, rfl,
          hpg { r with condition := .damaged, cause := some .lapse, deadline := none } rfl rfl _ rfl,
          fun b hb => by cases b <;> first | rfl | exact ⟨rfl, rfl, rfl, rfl, rfl⟩ | (simp at hb), id⟩

/-- The result of a read looks at the holds and at the present generations alone (R66, R74). -/
theorem readResult_congr {s t : State} (n : Port) (r : ReadRecord) (x : Option (List Byte)) (h1 : t.holds = s.holds)
    (h2 : ∀ q k, t.presentGeneration q k = s.presentGeneration q k) : t.readResult n r x = s.readResult n r x := by
  unfold State.readResult State.heldCondition
  rw [h1]
  cases r.kind <;> simp only [h2]

/-- The end of a read that is answered: its record stays until its response is finished with, or goes at once
with its pin when the response is discarded (R68, R156). -/
theorem complete_read {w : State} {n : Port} {r : ReadRecord} (hr :
    w.reads[n] = some { r with phase := .answering }) (ho : w.ports[n].outstanding.isSome)
    (st : Status) (res : List Byte) :
    (w.ports[n].discard = false → (w.completeCommand n st res).reads = w.reads ∧
        (w.completeCommand n st res).pool = w.pool) ∧
    (w.ports[n].discard = true → (w.completeCommand n st res).reads = put w.reads n none ∧
      (w.completeCommand n st res).pool = if r.pin then w.pool.release r.frame else w.pool) := by
  rcases completeCommand_cases w n st res with ⟨h, -⟩ | ⟨c, -, hd, h2⟩ | ⟨c, -, hd, h2⟩
  · rw [h] at ho; simp at ho
  · rw [h2, hd]; exact ⟨fun _ => ⟨rfl, rfl⟩, by simp⟩
  · rw [h2, hd]
    refine ⟨by simp, fun _ => ⟨?_, ?_⟩⟩
    · show put w.reads n (finishedRecord w.reads[n]) = _
      rw [hr]; rfl
    · show w.pool.releaseAll (finishedFrames w.reads[n]) = _
      rw [hr]
      simp only [finishedFrames, if_true, pinFrame]
      split_ifs <;> rfl

/-- `Unchanged` is transitive. -/
theorem Unchanged.trans {s t u : State} {l : List Block} (h1 : Unchanged s t l) (h2 : Unchanged t u l) :
    Unchanged s u l := by
  intro b hb
  have a := h1 b hb
  have c := h2 b hb
  cases b
  case inputs =>
    obtain ⟨c1, c2, c3, c4, c5⟩ := c
    obtain ⟨a1, a2, a3, a4, a5⟩ := a
    exact ⟨c1.trans a1, c2.trans a2, c3.trans a3, c4.trans a4, c5.trans a5⟩
  all_goals exact Eq.trans c a

end Sys2Proof.Machine
end

