-- ==== Sys2Proof/Laws/Lookups.lean ====
section
/-! SUPPORT. Searches: posts by key and by number, tickets,
    the port in turn; and the round of answers that a TAKE makes. -/

namespace Sys2Proof.Machine
open Sys2Proof

/-- A search finds nothing where no element passes. -/
theorem find_none_of {α : Type} {l : List α} {f : α → Bool} (h : ∀ x ∈ l, f x = false) : l.find? f = none := by
  rw [List.find?_eq_none]; intro x hx; simp [h x hx]

/-- A lookup of a key that no occupied post holds finds no post (R5). -/
theorem findKey_none {posts : Vector (Option Post) 64} {k : Half}
    (h : ∀ (q : PostNo) (r : Post), posts[q] = some r → r.key ≠ k) : findKey posts k = none := by
  apply find_none_of
  intro q _
  cases hq : posts[q] with
  | none => rfl
  | some r => simpa using h q r hq

/-- A search finds the only element that passes. -/
theorem find_unique {α : Type} {l : List α} {f : α → Bool} {a : α} (ha : a ∈ l) (hf : f a = true)
    (hu : ∀ b, f b = true → b = a) : l.find? f = some a := by
  cases h : l.find? f with
  | none => rw [List.find?_eq_none] at h; exact absurd hf (h a ha)
  | some b => rw [hu b (List.find?_some h)]

/-- A lookup of the key of an occupied post finds that post (R4, R5). -/
theorem findKey_some {s : State} {k : Half} (hk : s.KeysDistinct) {q : PostNo} {r : Post} (hq : s.posts[q] = some r)
    (hr : r.key = k) : findKey s.posts k = some q := by
  apply find_unique (mem_allPosts q)
  · simp only [hq]; simpa using hr
  · intro b hb
    cases hb' : s.posts[b] with
    | none => simp only [hb'] at hb; simp at hb
    | some t =>
      simp only [hb'] at hb
      exact hk b q t r hb' hq (by rw [hr]; simpa using hb)

/-- An upward search finds the first number that passes. -/
theorem find_first {k : Nat} {f : Fin k → Bool} {a : Fin k} (hf : f a = true) (hu : ∀ b, b < a → f b = false) :
    (List.finRange k).find? f = some a := by
  rw [List.find?_eq_some_iff_append]
  refine ⟨hf, (List.finRange k).take a.val, (List.finRange k).drop (a.val + 1), ?_, ?_⟩
  · have := List.take_append_drop a.val (List.finRange k)
    conv_lhs => rw [← this]
    rw [List.drop_eq_getElem_cons (by simp)]
    simp
  · intro b hb
    rw [List.mem_take_iff_getElem] at hb
    obtain ⟨i, hi, rfl⟩ := hb
    simp only [List.getElem_finRange]
    rw [hu]; rfl
    simp at hi
    show i < a.val
    omega

/-- A notice that finds none to coalesce with is handed to the queue as a new entry (R90). -/
theorem arrive_append {q : NoticeQueue} {x : Notice}
    (h1 : ∀ p : PostNo, x.isUpdateOf p = true → ∀ e ∈ q.entries, e.isUpdateOf p = false)
    (h2 : ∀ p : PostNo, x.isSolicitOf p = true → ∀ e ∈ q.entries, e.isSolicitOf p = false) :
        q.arrive x = q.append x := by
  cases x <;> try rfl
  · rename_i p _ _ _
    have : q.entries.any (Notice.isUpdateOf p) = false := by
      rw [List.any_eq_false]; intro e he; simp [h1 p (by simp [Notice.isUpdateOf]) e he]
    simp [NoticeQueue.arrive, this]
  · rename_i p _ _ _
    have : q.entries.any (Notice.isSolicitOf p) = false := by
      rw [List.any_eq_false]; intro e he; simp [h2 p (by simp [Notice.isSolicitOf]) e he]
    simp [NoticeQueue.arrive, this]

/-- The ticket value after another, as a number (R100). -/
theorem succTicket_eq (t : Byte) : (succTicket t) = BitVec.ofNat 8 (t.toNat % 255 + 1) := by revert t; decide

/-- What the search for a free ticket finds: every value passed over is held, and the one found is not, unless
the search ended (R100). -/
theorem firstFree_spec (held : List Byte) (c : Nat) (fuel k : Nat)
    (hk : ∀ j, j < k → BitVec.ofNat 8 ((c + j) % 255 + 1) ∈ held) :
    ∃ i, k ≤ i ∧ i ≤ k + fuel ∧
        firstFreeTicket held fuel (BitVec.ofNat 8 ((c + k) % 255 + 1)) = BitVec.ofNat 8 ((c + i) % 255 + 1) ∧
      (∀ j, j < i → BitVec.ofNat 8 ((c + j) % 255 + 1) ∈ held) ∧
      (i < k + fuel → BitVec.ofNat 8 ((c + i) % 255 + 1) ∉ held) := by
  induction fuel generalizing k with
  | zero => exact ⟨k, le_refl _, by omega, rfl, hk, fun h => absurd h (by omega)⟩
  | succ fuel ih =>
    unfold firstFreeTicket
    by_cases hm : BitVec.ofNat 8 ((c + k) % 255 + 1) ∈ held
    · rw [if_pos hm]
      have hs : succTicket (BitVec.ofNat 8 ((c + k) % 255 + 1)) = BitVec.ofNat 8 ((c + (k+1)) % 255 + 1) := by
        rw [succTicket_eq]
        congr 1
        simp only [BitVec.toNat_ofNat]
        omega
      rw [hs]
      obtain ⟨i, h1, h2, h3, h4, h5⟩ := ih (k + 1) (fun j hj => by
        rcases Nat.lt_succ_iff_lt_or_eq.1 hj with h | rfl
        · exact hk j h
        · exact hm)
      exact ⟨i, by omega, by omega, h3, h4, fun h => h5 (by omega)⟩
    · rw [if_neg hm]
      exact ⟨k, le_refl _, by omega, rfl, hk, fun _ => hm⟩

/-- The round of R110 delivers as many answers as there is room for, oldest first. -/
theorem deliverRound_spec (es : List UndeliveredAsk) (q : NoticeQueue) :
    let room := if q.lost.isSome then 0 else 31 - q.entries.length
    deliverRound es q = ({ entries := q.entries ++ (es.take room).map UndeliveredAsk.answer, lost := q.lost },
      (es.take room).map UndeliveredAsk.ticket) := by
  induction es generalizing q with
  | nil => simp [deliverRound]
  | cons e es ih =>
    unfold deliverRound
    by_cases hacc : q.accepts = true
    · rw [if_pos hacc]
      have hap := NoticeQueue.append_of_accepts hacc e.answer
      obtain ⟨h1, h2⟩ := (NoticeQueue.accepts_iff _).1 hacc
      have hlen : (31 - q.entries.length) = (31 - (q.entries.length + 1)) + 1 := by
        have : q.entries.length < 31 := h1
        omega
      have := ih (q.append e.answer)
      simp only [hap] at this ⊢
      rw [this]
      simp [h2, hlen]
    · rw [if_neg hacc]
      have : (if q.lost.isSome then 0 else 31 - q.entries.length) = 0 := by
        rw [NoticeQueue.accepts_iff] at hacc
        split_ifs with h
        · rfl
        · have h' : q.lost = none := by simpa using h
          have : ¬ q.entries.length < 31 := fun hh => hacc ⟨hh, h'⟩
          omega
      simp only [this]
      simp

/-- A ticket names one UNDELIVERED entry (R99). -/
theorem ticket_inj {x : RequestTable} (h : x.tickets.Nodup) {a b : UndeliveredAsk} (ha :
    a ∈ x.undelivered) (hb : b ∈ x.undelivered)
    (ht : a.ticket = b.ticket) : a = b :=
  List.inj_on_of_nodup_map (List.nodup_append.1 h).2.1 ha hb ht

/-- A ticket names one PENDING entry (R99). -/
theorem pticket_inj {x : RequestTable} (h : x.tickets.Nodup) {a b : PendingAsk} (ha : a ∈ x.pending) (hb :
    b ∈ x.pending)
    (ht : a.ticket = b.ticket) : a = b :=
  List.inj_on_of_nodup_map (List.nodup_append.1 h).1 ha hb ht

/-- The search of R138 finds the first waiting port in the cyclic order from the one after port `g`. -/
theorem nextPort_aux (f : Port → Option PortRequest) (g j : Fin 4) (k : PortRequest) (hk : f (g + 1 + j) = some k)
    (hlow : ∀ i, i < j → f (g + 1 + i) = none) :
    [g + 1, g + 2, g + 3, g].findSome? (fun n => (f n).map fun k => (n, k)) = some (g + 1 + j, k) := by
  have e : [g + 1, g + 2, g + 3, g] = [g + 1 + 0, g + 1 + 1, g + 1 + 2, g + 1 + 3] := by
      clear hk hlow; revert g; decide
  rw [e]
  have l0 := hlow 0
  have l1 := hlow 1
  have l2 := hlow 2
  generalize g + 1 = a at *
  fin_cases j
  · simp only [List.findSome?_cons]
    have hk' : f (a + 0) = some k := hk
    rw [hk']; rfl
  · have hk' : f (a + 1) = some k := hk
    simp only [List.findSome?_cons, l0 (by decide), hk', Option.map_none, Option.map_some]; rfl
  · have hk' : f (a + 2) = some k := hk
    simp only [List.findSome?_cons, l0 (by decide), l1 (by decide), hk', Option.map_none, Option.map_some]; rfl
  · have hk' : f (a + 3) = some k := hk
    simp only [List.findSome?_cons, l0 (by decide), l1 (by decide), l2 (by decide), hk', Option.map_none,
        Option.map_some]; rfl

end Sys2Proof.Machine
end

