-- ==== Sys2Proof/Laws/Requests.lean ====
section
/-! SUPPORT. The taking of a command, for the statements about the 22 commands: argument bytes are read as they are
written, and what a command that completes, or goes on, at its taking leaves. -/

namespace Sys2Proof.Machine
open Sys2Proof

theorem postArg_postByte (p : PostNo) : postArg (postByte p) = some p := by
  revert p; decide
theorem holdArg_byteOf (h : HoldNo) : holdArg (byteOf h.val) = some h := by
  revert h; decide
theorem filterArg_byteOf (h : FilterNo) : filterArg (byteOf h.val) = some h := by
  revert h; decide
theorem half_bytes (h : Half) : half (h.extractLsb' 8 8) (h.extractLsb' 0 8) = h := by
  unfold half
  rw [BitVec.extractLsb'_append_extractLsb'_eq_extractLsb' (by decide)]
  simp
theorem roleArg_code (r : Role) : roleArg r.code = some r := by cases r <;> rfl
theorem modeArg_code (r : AnswerMode) : modeArg r.code = some r := by cases r <;> rfl
theorem postArgs_map (ps : List PostNo) : postArgs (ps.map postByte) = some ps := by
  induction ps with
  | nil => rfl
  | cons p ps ih => simp [postArgs, postArg_postByte, ih]

theorem flags_rt (u l e : Bool) : let f : Byte :=
    (if u then 1#8 else 0#8) + (if l then 2#8 else 0#8) + (if e then 4#8 else 0#8)
    f.toNat < 8 ∧ f.getLsbD 0 = u ∧ f.getLsbD 1 = l ∧ f.getLsbD 2 = e := by
  revert u l e; decide

theorem parse_args (r : Request) (h : r.legal = true) : parseRequest r.command r.args = some r := by
  cases r with
  | attach role lease th =>
    simp only [Request.legal, Bool.and_eq_true, isThreshold, decide_eq_true_eq] at h
    have ht : (byteOf th).toNat = th := byteOf_toNat (by omega)
    simp [Request.command, Request.args, parseRequest, be16, parseAttach, roleArg_code, half_bytes, accept, ht,
        isThreshold, h]
  | declare sel key cap per mode =>
    simp only [Request.legal, Bool.and_eq_true, decide_eq_true_eq] at h
    have hc : cap ≤ 60 := h.2
    have ht : (byteOf cap).toNat = cap := byteOf_toNat (by omega)
    have hne : ∀ p : PostNo, postByte p ≠ 0xFF#8 := by decide
    cases sel <;> simp [Request.command, Request.args, parseRequest, be16, parseDeclare, modeArg_code,
        half_bytes, accept, ht, h, hne, postArg_postByte]
  | describe name =>
    cases name with
    | number p => simp [Request.command, Request.args, parseRequest, parseDescribe, postArg_postByte]
    | key k =>
      simp only [Request.legal] at h
      simp [Request.command, Request.args, parseRequest, parseDescribe, be16, half_bytes, accept, h]
  | publish p payload =>
    simp only [Request.legal] at h
    simp [Request.command, Request.args, parseRequest, parsePublish, postArg_postByte, accept, h]
  | snapshot ps =>
    simp only [Request.legal] at h
    simp [Request.command, Request.args, parseRequest, parseSnapshot, postArgs_map, accept, h]
  | readHeld h =>
    simp [Request.command, Request.args, parseRequest, parseReadHeld, holdArg_byteOf]
  | ask p a t =>
    simp only [Request.legal] at h
    simp [Request.command, Request.args, parseRequest, parseAsk, be16, half_bytes, postArg_postByte, accept]
    simpa using h
  | cancel t =>
    simp only [Request.legal] at h
    simp [Request.command, Request.args, parseRequest, parseCancel, accept]
    simpa using h
  | filterSet i f =>
    obtain ⟨v, m, u, l, e⟩ := f
    have := flags_rt u l e
    simp only at this
    simp only [Request.command, Request.args, parseRequest, parseFilterSet, be16, Filter.flagsByte,
        filterArg_byteOf, half_bytes, accept, List.cons_append, List.nil_append, this, decide_true, if_true]
  | filterClear i =>
    cases i with
    | none => simp [Request.command, Request.args, parseRequest, parseFilterClear]
    | some i =>
      have hne : ∀ p : FilterNo, byteOf p.val ≠ 0xFF#8 := by decide
      simp [Request.command, Request.args, parseRequest, parseFilterClear, filterArg_byteOf, hne]
  | take k =>
    simp only [Request.legal, decide_eq_true_eq] at h
    have ht : (byteOf k).toNat = k := byteOf_toNat (by omega)
    simp [Request.command, Request.args, parseRequest, parseTake, accept, ht, h]
  | setPoolMark k =>
    simp only [Request.legal, decide_eq_true_eq] at h
    have ht : (byteOf k).toNat = k := byteOf_toNat (by omega)
    simp [Request.command, Request.args, parseRequest, parseSetPoolMark, accept, ht, h]
  | _ => simp [Request.command, Request.args, parseRequest, parsePost, parseNone, parseRelease, postArg_postByte]

theorem args_length (r : Request) (h : r.legal = true) : r.args.length ≤ Config.maxArgumentLength := by
  cases r <;> simp [Request.args, be16, Config.maxArgumentLength]
  case describe n => cases n <;> simp
  case publish p l => simp only [Request.legal, decide_eq_true_eq] at h; have : l.length ≤ 60 := h; omega
  case snapshot l => simp [Request.legal, isSnapshotList] at h; omega
  case filterClear i => cases i <;> simp

/-! request machinery -/
def State.taking (s : State) (n : Port) : State := (s.setPort n s.ports[n].cleared).renewLease n

theorem renewed_isAttached (x : Session) (now : Time) : (x.renewed now).isAttached = x.isAttached := by
  unfold Session.renewed; split_ifs <;> rfl
theorem renewed_role (x : Session) (now : Time) : (x.renewed now).role = x.role := by
  unfold Session.renewed; split_ifs <;> rfl
theorem renewed_state (x : Session) (now : Time) : (x.renewed now).state = x.state := by
  unfold Session.renewed; split_ifs <;> rfl
theorem renewed_lease (x : Session) (now : Time) : (x.renewed now).lease = x.lease := by
  unfold Session.renewed; split_ifs <;> rfl
theorem renewed_threshold (x : Session) (now : Time) : (x.renewed now).threshold = x.threshold := by
  unfold Session.renewed; split_ifs <;> rfl

theorem renewLease_attached (s : State) (n : Port) : (s.renewLease n).attached = s.attached := by
  funext m
  simp only [State.attached, State.renewLease_sessions, Fin.getElem_fin, getElem_put]
  split_ifs with h
  · have : n = m := Fin.ext h
    subst this
    simp [renewed_isAttached]
  · rfl

theorem recipients_congr {s t : State} (h1 : t.attached = s.attached) (h2 : t.filters = s.filters) :
    t.recipients = s.recipients := by
  funext k g a f n
  simp [State.recipients, h1, h2]

@[simp] theorem taking_attached (s : State) (n : Port) : (s.taking n).attached = s.attached := by
  rw [State.taking, renewLease_attached]; rfl
@[simp] theorem taking_ports (s : State) (n : Port) : (s.taking n).ports = put s.ports n s.ports[n].cleared := rfl
@[simp] theorem taking_sessions (s : State) (n : Port) :
    (s.taking n).sessions = put s.sessions n (s.sessions[n].renewed s.now) := rfl
@[simp] theorem taking_posts (s : State) (n : Port) : (s.taking n).posts = s.posts := rfl
@[simp] theorem taking_slots (s : State) (n : Port) : (s.taking n).slots = s.slots := rfl
@[simp] theorem taking_pool (s : State) (n : Port) : (s.taking n).pool = s.pool := rfl
@[simp] theorem taking_holds (s : State) (n : Port) : (s.taking n).holds = s.holds := rfl
@[simp] theorem taking_reads (s : State) (n : Port) : (s.taking n).reads = s.reads := rfl
@[simp] theorem taking_filters (s : State) (n : Port) : (s.taking n).filters = s.filters := rfl
@[simp] theorem taking_queues (s : State) (n : Port) : (s.taking n).queues = s.queues := rfl
@[simp] theorem taking_requests (s : State) (n : Port) : (s.taking n).requests = s.requests := rfl
@[simp] theorem taking_array (s : State) (n : Port) : (s.taking n).array = s.array := rfl
@[simp] theorem taking_arbiter (s : State) (n : Port) : (s.taking n).arbiter = s.arbiter := rfl
@[simp] theorem taking_refresh (s : State) (n : Port) : (s.taking n).refresh = s.refresh := rfl
@[simp] theorem taking_time (s : State) (n : Port) : (s.taking n).time = s.time := rfl
@[simp] theorem taking_now (s : State) (n : Port) : (s.taking n).now = s.now := rfl
@[simp] theorem taking_epoch (s : State) (n : Port) : (s.taking n).epoch = s.epoch := rfl
@[simp] theorem taking_pending (s : State) (n : Port) : (s.taking n).pending = s.pending := rfl
@[simp] theorem taking_cs (s : State) (n : Port) : (s.taking n).pins.cs = s.pins.cs := rfl
@[simp] theorem taking_rst (s : State) (n : Port) : (s.taking n).pins.rst = s.pins.rst := rfl
@[simp] theorem taking_sup (s : State) (n : Port) : (s.taking n).pins.sup = s.pins.sup := rfl
@[simp] theorem taking_nReset (s : State) (n : Port) : (s.taking n).pins.nReset = s.pins.nReset := rfl
@[simp] theorem taking_clksel (s : State) (n : Port) : (s.taking n).pins.clksel = s.pins.clksel := rfl
theorem taking_lines (s : State) (n : Port) : (s.taking n).LinesLawful := rfl
theorem taking_recipients (s : State) (n : Port) : (s.taking n).recipients = s.recipients :=
  recipients_congr (taking_attached s n) rfl
theorem taking_role (s : State) (n : Port) : (s.taking n).sessions[n].role = s.sessions[n].role := by
  simp [renewed_role]

theorem takeCommand_run {s : State} {n : Port} {c : Command} {args : List Byte} {r : Request}
    (hp : parseRequest c args = some r) (ha : r.needsSession = true → s.attached n = true)
    (hr : r.needsSupervisor = true → s.sessions[n].role = .supervisor) :
    takeCommand n c args s = runRequest n r s := by
  simp only [takeCommand, hp]
  rw [if_neg, if_neg]
  · intro h
    simp only [Bool.and_eq_true, decide_eq_true_eq] at h
    exact h.2 (hr h.1)
  · intro h
    simp only [Bool.and_eq_true, Bool.not_eq_true'] at h
    rw [ha h.1] at h
    simp at h

theorem taken_done {s u : State} {n : Port} (h : s.Ready n) {c : Command} (tag : Byte) {args : List Byte}
    (ha : args.length ≤ Config.maxArgumentLength) {st : Status} {res : List Byte}
    (ht : takeCommand n c args (s.taking n) = (u, .done st res)) (hp : u.ports = (s.taking n).ports) :
    s.arriveRequest n c tag args = u.setPort n
      { s.ports[n] with
        state := .responding, rx := [], expected := 0,
        response := some
          { frame := responseFrame st tag res, clocked := 0, command := some { tag := tag, code := c.code } } } := by
  have h2 : s.ports[n.val].state = .receiving := h.2.1
  rw [arriveRequest_ready h c tag ha]
  show (takeCommand n c args (s.taking n)).1.afterTaking n _ (takeCommand n c args (s.taking n)).2 = _
  rw [ht]
  simp [State.afterTaking, hp, PortInterface.answering, PortInterface.cleared, h2]

theorem taken_executing {s u : State} {n : Port} (h : s.Ready n) {c : Command} (tag : Byte) {args : List Byte}
    (ha : args.length ≤ Config.maxArgumentLength)
    (ht : takeCommand n c args (s.taking n) = (u, .executing)) (hp : u.ports = (s.taking n).ports) :
    s.arriveRequest n c tag args = u.setPort n
      { s.ports[n] with
        state := .executing, rx := [], expected := 0, outstanding := some { tag := tag, code := c.code } } := by
  rw [arriveRequest_ready h c tag ha]
  show (takeCommand n c args (s.taking n)).1.afterTaking n _ (takeCommand n c args (s.taking n)).2 = _
  rw [ht]
  simp [State.afterTaking, hp, PortInterface.cleared]

theorem answeredChanging_of {s u : State} {n : Port} (h : s.Ready n) {c : Command} (tag : Byte) {args : List Byte}
    (ha : args.length ≤ Config.maxArgumentLength) {st : Status} {res : List Byte} {changed : List Block}
    (ht : takeCommand n c args (s.taking n) = (u, .done st res)) (hp : u.ports = (s.taking n).ports)
    (hs : u.sessions = (s.taking n).sessions) (hl : u.LinesLawful)
    (hu : Unchanged s u (.ports :: .sessions :: changed)) :
    AnsweredChanging s (s.arriveRequest n c tag args) n tag c st res changed := by
  rw [taken_done h tag ha ht hp]
  refine ⟨?_, ?_, ?_, ?_⟩
  · simp [Answered, hp, put_put]
  · simp [LeaseRenewed, hs]
  · simpa [State.LinesLawful] using hl
  · intro b hb
    have := hu b hb
    cases b <;> simp_all [Block.same]

theorem executingChanging_of {s u : State} {n : Port} (h : s.Ready n) {c : Command} (tag : Byte) {args : List Byte}
    (ha : args.length ≤ Config.maxArgumentLength) {changed : List Block}
    (ht : takeCommand n c args (s.taking n) = (u, .executing)) (hp : u.ports = (s.taking n).ports)
    (hs : u.sessions = (s.taking n).sessions) (hl : u.LinesLawful)
    (hu : Unchanged s u (.ports :: .sessions :: changed)) :
    ExecutingChanging s (s.arriveRequest n c tag args) n tag c changed := by
  rw [taken_executing h tag ha ht hp]
  refine ⟨?_, ?_, ?_, ?_⟩
  · simp [Executing, hp, put_put]
  · simp [LeaseRenewed, hs]
  · simpa [State.LinesLawful] using hl
  · intro b hb
    have := hu b hb
    cases b <;> simp_all [Block.same]

theorem unchanged_taking (s : State) (n : Port) : Unchanged s (s.taking n) [.ports, .sessions] := by
  intro b hb
  cases b <;> simp_all [Block.same]

theorem unchanged_mono {s t : State} {l l' : List Block} (h : Unchanged s t l) (hl : ∀ b ∈ l, b ∈ l') :
    Unchanged s t l' := fun b hb => h b fun hm => hb (hl b hm)

/-- A command answered with no effect. -/
theorem answeredOnly_of {s : State} {n : Port} (h : s.Ready n) {c : Command} (tag : Byte) {args : List Byte}
    (ha : args.length ≤ Config.maxArgumentLength) {st : Status} {res : List Byte}
    (ht : takeCommand n c args (s.taking n) = (s.taking n, .done st res)) :
    AnsweredOnly s (s.arriveRequest n c tag args) n tag c st res :=
  answeredChanging_of h tag ha ht rfl rfl (taking_lines s n) (unchanged_taking s n)

theorem exec_instr {c : Command} (hc : c ≠ .attach) (n : Port) (tag : Byte) (args : List Byte) (sup :
    Bool) (s : State) :
    exec (c.instr n tag args sup) s = .next (s.arriveRequest n c tag args) := by
  cases c <;> first | exact absurd rfl hc | rfl
@[simp] theorem put_self' {α : Type} {k : Nat} (v : Vector α k) (i : Fin k) : put v i (v[i.val]'i.isLt) = v := by
  simp [put]
theorem setPins_sup_self (s : State) (n : Port) :
    s.setPins { s.pins with sup := put s.pins.sup n s.pins.sup[n] } = s := by
  simp [State.setPins]
theorem exec_instr_strap (c : Command) (n : Port) (tag : Byte) (args : List Byte) (s : State) :
    exec (c.instr n tag args s.pins.sup[n]) s = .next (s.arriveRequest n c tag args) := by
  cases c <;> first | rfl | skip
  show Host.Outcome.next ((s.setPins { s.pins with sup := put s.pins.sup n s.pins.sup[n] }).arriveRequest _ _ _ _) = _
  rw [setPins_sup_self]
theorem run_legal {s : State} {n : Port} {r : Request} {c : Command} (hc : r.command = c) (hl : r.legal = true)
    (ha : r.needsSession = true → s.attached n = true)
    (hr : r.needsSupervisor = true → s.sessions[n].role = .supervisor) :
    takeCommand n c r.args s = runRequest n r s := by
  subst hc
  exact takeCommand_run (parse_args r hl) ha hr

end Sys2Proof.Machine
end

