-- ==== Sys2Proof/Laws/Preserves.lean ====
section
/-! SUPPORT. The induction over the commands, packaged once: a predicate that the shared operations keep is kept by
every command and every step. -/

namespace Sys2Proof.Machine
open Sys2Proof

/-- The interface `y` differs from `x` in bytes taken in and clocked out alone. -/
def PortInterface.Similar (x y : PortInterface) : Prop :=
  y.state = x.state ∧ y.side = x.side ∧ y.outstanding = x.outstanding ∧ y.discard = x.discard ∧
    y.lastAbandoned = x.lastAbandoned ∧ y.response.map HeldResponse.command = x.response.map HeldResponse.command

/-- What a predicate must be kept by to be kept by the bytes clocked on a port (R150 to R157). -/
structure KeptByBytes (P : State → Prop) : Prop where
  bytes : ∀ s n x, s.ports[n].Similar x → P s → P (s.setPort n x)
  lease : ∀ s n, P s → P (s.renewLease n)
  untaken : ∀ s n st tag, s.ports[n].isReceiving = true → P s → P (s.answerUntaken n st tag)
  take : ∀ s n c args tag, s.ports[n].isReceiving = true → s.ports[n].outstanding = none → P s →
    P ((takeCommand n c args s).1.afterTaking n { tag := tag, code := c.code } (takeCommand n c args s).2)
  finish : ∀ s n, s.ports[n].isAnswering = true → P s → P (s.finishResponse n)

theorem ofCode_some {code : Byte} {c : Command} (h : Command.ofCode code = some c) : c.code = code := by
  have := List.find?_some h
  simpa using this

theorem KeptByBytes.judge {P : State → Prop} (h : KeptByBytes P) (s : State) (n : Port) (frame : List Byte)
    (hr : s.ports[n].isReceiving = true) (hs : P s) : P (s.judge n frame) := by
  unfold State.judge
  split
  · rename_i code tag len rest
    simp only
    split_ifs
    · exact h.untaken _ _ _ _ hr hs
    · have hl := h.lease s n hs
      simp only [State.judgeGood]
      cases hc : Command.ofCode code with
      | none => exact h.untaken _ _ _ _ hr hl
      | some c =>
        simp only
        split_ifs with ho
        · exact h.untaken _ _ _ _ hr hl
        · rw [← ofCode_some hc]
          exact h.take _ n c _ tag hr (by simpa using ho) hl
    · exact h.untaken _ _ _ _ hr hs
  · exact hs

theorem KeptByBytes.clockByte {P : State → Prop} (h : KeptByBytes P) (s : State) (n : Port) (b : Byte)
    (hs : P s) : P (s.clockByte n b) := by
  unfold State.clockByte
  split_ifs with _ hr ha
  · unfold State.takeInByte
    simp only
    split_ifs
    · refine h.judge _ _ _ ?_ (h.bytes _ _ _ ⟨rfl, rfl, rfl, rfl, rfl, rfl⟩ hs)
      simpa [PortInterface.isReceiving] using hr
    · exact h.bytes _ _ _ ⟨rfl, rfl, rfl, rfl, rfl, rfl⟩ hs
  · unfold State.shiftOutByte
    simp only
    split
    · exact hs
    · rename_i x hx
      split_ifs
      · exact h.bytes _ _ _ ⟨rfl, rfl, rfl, rfl, rfl, by simp only [hx]; rfl⟩ hs
      · exact h.finish _ _ ha hs
  · exact hs
  · exact hs

theorem KeptByBytes.clockBytes {P : State → Prop} (h : KeptByBytes P) (s : State) (n : Port) (bs : List Byte)
    (hs : P s) : P (s.clockBytes n bs) := by
  induction bs generalizing s with
  | nil => exact hs
  | cons b bs ih => exact ih (s.clockByte n b) (h.clockByte s n b hs)

/-- What a predicate must be kept by, besides, to be kept by every command. -/
structure KeptByEvents (P : State → Prop) : Prop extends KeptByBytes P where
  pins : ∀ s x, (s.setPins x).inDeviceReset = s.inDeviceReset → x.cs = s.pins.cs →
    (∀ n : Port, x.rst[n] = false → s.pins.rst[n] = false) → P s → P (s.setPins x)
  fall : ∀ s n, s.pins.cs[n] = true → P s → P (s.csFalls n)
  rise : ∀ s n, s.pins.cs[n] = false → P s → P (s.csRises n)
  portReset : ∀ s n, P s → P (s.rstFalls n)
  detach : ∀ s n c, P s → P (s.detachPort n c)
  reset : ∀ s x, P s → P (s.setPins x).enterReset
  leave : ∀ s x, s.inDeviceReset = true → P s → P (s.setPins x).leaveReset
  tick : ∀ s, s.tickComes = true → P s → P (s.setTime s.time.tick)
  boundary : ∀ s, s.boundaryComes = true → P s → P s.millisecond
  raise : ∀ s, P s → s.refresh.debt < Config.lapseDebt → P s.raiseDebt
  lapse : ∀ s, P s → P s.doLapse
  fresh : ∀ s p, P s → P (s.expireFreshness p)
  ask : ∀ s k, P s → P (s.expireAsk k)
  grant : ∀ s, P s → s.array.access = none → P s.grant
  read : ∀ s n d, P s → s.array.access = some (.read n) → P (s.completeRead n d)
  refresh : ∀ s f, P s → s.array.access = some (.refresh f) → P s.completeRefresh

theorem KeptByEvents.refreshTick {P : State → Prop} (h : KeptByEvents P) (s : State) (hc : s.tickComes = true)
    (hs : P s) : P s.refreshTick := by
  unfold State.refreshTick
  simp only
  split_ifs with hd
  · exact h.raise _ (h.tick _ hc hs) hd
  · exact h.lapse _ (h.tick _ hc hs)

/-- A predicate that the operations keep is kept by every command; the end of a write is looked at in the state in
which it comes. -/
theorem KeptByEvents.exec {P : State → Prop} (h : KeptByEvents P) (c : Instr) (s t : State) (hs : P s)
    (hw : ∀ n d, s.array.access = some (.write n) → P (s.completeWrite n d)) (he : exec c s = .next t) : P t := by
  have bytes := fun u n bs hu => h.clockBytes u n bs hu
  cases c <;> simp only [Machine.exec, execAttach, execDetach, execPing, execStatus, execDeclare, execWithdraw,
    execDescribe, execPublish, execRead, execSnapshot, execReadHeld, execRelease, execAsk, execCancel,
        execFilterSet,
    execFilterClear, execTake, execAdopt, execTakeover, execRevoke, execPoolStatus, execSetPoolMark,
    execUntakenRequest, execBadframe, execCsFall, execCsRise, execResponseFinished, execPortReset,
    execPortResetRelease, execDeviceReset, execDeviceResetRelease, execClkselChange, execRefreshTick, execLapse,
    execMillisecondBoundary, execFreshnessExpiry, execAskDeadlineExpiry, execLeaseExpiry, execArrayGrant,
    execWriteCompletion, execReadCompletion, execRefreshCompletion, Host.Outcome.next.injEq] at he <;> subst he
  case attach => exact bytes _ _ _ (h.pins _ _ rfl rfl (fun _ h => h) hs)
  case csFall => split_ifs with hc; exacts [h.fall _ _ hc hs, hs]
  case csRise => split_ifs with hc; exacts [hs, h.rise _ _ (by simpa using hc) hs]
  case responseFinished =>
    split_ifs with ha
    · rw [Bool.and_eq_true] at ha
      exact h.finish _ _ ha.2 hs
    · exact hs
  case portReset => split_ifs; exacts [h.portReset _ _ hs, hs]
  case portResetRelease n =>
    refine h.pins _ _ rfl rfl (fun m hm => ?_) hs
    by_cases e : m = n
    · subst e; rw [getElem_put_self] at hm; cases hm
    · rwa [getElem_put_of_ne _ _ e] at hm
  case deviceReset => split_ifs; exacts [h.reset _ _ hs, hs]
  case deviceResetRelease =>
    split_ifs with h1 h2
    · exact hs
    · exact h.pins _ _ (by rw [h2]; simp [State.inDeviceReset, Pins.inDeviceReset, h1]) rfl (fun _ h => h) hs
    · exact h.leave _ _ (by simp [State.inDeviceReset, Pins.inDeviceReset, h1]) hs
  case clkselChange value =>
    set t := s.setPins { s.pins with clksel := value }
    split_ifs with h1 h2
    · exact h.reset _ _ hs
    · rw [Bool.and_eq_true] at h2
      exact h.leave _ _ h2.2 hs
    · refine h.pins _ _ ?_ rfl (fun _ h => h) hs
      change t.inDeviceReset = s.inDeviceReset
      cases ht : t.inDeviceReset <;> cases hs' : s.inDeviceReset <;> simp_all
  case refreshTick => split_ifs with h1; exacts [h.refreshTick _ h1 hs, hs]
  case lapse =>
    split_ifs with h1
    · rw [Bool.and_eq_true] at h1
      exact h.refreshTick _ h1.1 hs
    · exact hs
  case millisecondBoundary => split_ifs with h1; exacts [h.boundary _ h1 hs, hs]
  case freshnessExpiry => exact h.fresh _ _ hs
  case askDeadlineExpiry => exact h.ask _ _ hs
  case leaseExpiry =>
    split
    · split_ifs
      exacts [h.detach _ _ _ hs, hs]
    · exact hs
  case arrayGrant =>
    split_ifs with ha
    exacts [hs, h.grant _ hs (by simpa using ha)]
  case writeCompletion =>
    split
    · exact hw _ _ ‹_›
    · exact hs
  case readCompletion =>
    split
    · exact h.read _ _ _ hs ‹_›
    · exact hs
  case refreshCompletion =>
    split
    · exact h.refresh _ _ hs ‹_›
    · exact hs
  all_goals exact bytes _ _ _ hs

/-- A predicate that the operations keep, and that does not look at the queue of commands, is kept by every step. -/
theorem KeptByEvents.step {P : State → Prop} (h : KeptByEvents P) (hq : ∀ s x, P s → P (s.setPending x))
    (s t : State) (hs : P s) (hw : ∀ n d x, s.array.access = some (.write n) →
        P ((s.setPending x).completeWrite n d))
    (he : step s = .next t) : P t := by
  unfold Machine.step at he
  split at he
  · simp only [Host.Outcome.next.injEq] at he
    exact he ▸ hs
  · refine h.exec _ _ t ?_ ?_ he
    · exact hq _ _ hs
    · exact fun n d ha => hw n d _ ha

/-- What a predicate that does not look at the port interfaces must be kept by. `run` speaks of a command that has
passed the common acceptance and the role check (R120, R154). -/
structure KeptByBlocks (P : State → Prop) : Prop where
  port : ∀ s n x, P s → P (s.setPort n x)
  finished : ∀ s n, P s → P (s.readFinished n)
  lease : ∀ s n, P s → P (s.renewLease n)
  run : ∀ s n c args r, parseRequest c args = some r → (r.needsSession = true → s.attached n = true) →
    (r.needsSupervisor = true → s.sessions[n].role = .supervisor) → P s → P (runRequest n r s).1
  pins : ∀ s x, (s.setPins x).inDeviceReset = s.inDeviceReset → P s → P (s.setPins x)
  detach : ∀ s n c, P s → P (s.detachPort n c)
  reset : ∀ s x, P s → P (s.setPins x).enterReset
  leave : ∀ s x, s.inDeviceReset = true → P s → P (s.setPins x).leaveReset
  tick : ∀ s, s.tickComes = true → P s → P (s.setTime s.time.tick)
  boundary : ∀ s, s.boundaryComes = true → P s → P s.millisecond
  raise : ∀ s, P s → s.refresh.debt < Config.lapseDebt → P s.raiseDebt
  lapse : ∀ s, P s → P s.doLapse
  fresh : ∀ s p, P s → P (s.expireFreshness p)
  ask : ∀ s k, P s → P (s.expireAsk k)
  grant : ∀ s, P s → s.array.access = none → P s.grant
  read : ∀ s n d, P s → s.array.access = some (.read n) → P (s.completeRead n d)
  refresh : ∀ s f, P s → s.array.access = some (.refresh f) → P s.completeRefresh

theorem KeptByBlocks.finishResponse {P : State → Prop} (h : KeptByBlocks P) (s : State) (n : Port) (hs : P s) :
    P (s.finishResponse n) := by
  rcases finishResponse_cases s n with ⟨-, e⟩ | ⟨x, -, -, e⟩ | ⟨x, -, -, e⟩ <;> rw [e]
  · exact hs
  · exact h.finished _ _ (h.port _ _ _ hs)
  · exact h.port _ _ _ hs

theorem KeptByBlocks.endTransaction {P : State → Prop} (h : KeptByBlocks P) (s : State) (n : Port) (hs : P s) :
    P (s.endTransaction n) := by
  unfold State.endTransaction
  simp only
  split
  · exact hs
  · exact h.port _ _ _ hs
  · exact h.port _ _ _ hs
  · exact h.finishResponse _ _ (h.port _ _ _ hs)
  · exact h.port _ _ _ hs

theorem KeptByBlocks.completeCommand {P : State → Prop} (h : KeptByBlocks P) (s : State) (n : Port) (st : Status)
    (res : List Byte) (hs : P s) : P (s.completeCommand n st res) := by
  rcases completeCommand_cases s n st res with ⟨-, e⟩ | ⟨x, -, -, e⟩ | ⟨x, -, -, e⟩ <;> rw [e]
  · exact hs
  · exact h.port _ _ _ hs
  · exact h.finished _ _ (h.port _ _ _ hs)

theorem KeptByBlocks.takeCommand {P : State → Prop} (h : KeptByBlocks P) (s : State) (n : Port) (c : Command)
    (args : List Byte) (hs : P s) : P (takeCommand n c args s).1 := by
  unfold Machine.takeCommand
  split
  · exact hs
  · rename_i r hp
    split_ifs with h1 h2
    · exact hs
    · exact hs
    · simp only [Bool.and_eq_true, Bool.not_eq_true', not_and, Bool.not_eq_false] at h1
      simp only [Bool.and_eq_true, decide_eq_true_eq, not_and, not_not] at h2
      exact h.run s n c args r hp h1 h2 hs

/-- A predicate that does not look at the port interfaces is kept by the events at them. -/
theorem KeptByBlocks.events {P : State → Prop} (h : KeptByBlocks P) : KeptByEvents P where
  bytes s n x _ hs := h.port s n x hs
  lease := h.lease
  untaken s n _ _ _ hs := h.port s n _ hs
  take s n c args tag _ _ hs := by
    have hr := h.takeCommand s n c args hs
    generalize Machine.takeCommand n c args s = r at hr
    obtain ⟨t, reply⟩ := r
    cases reply <;> exact h.port _ _ _ hr
  finish s n _ hs := h.finishResponse s n hs
  pins s x hr _ _ hs := h.pins s x hr hs
  fall s n _ hs := by
    unfold State.csFalls
    simp only
    split_ifs
    · exact h.port _ n _ (h.pins _ _ rfl hs)
    · exact h.pins _ _ rfl hs
  rise s n _ hs := by
    have hp := h.pins s { s.pins with cs := put s.pins.cs n true } rfl hs
    unfold State.csRises
    simp only
    split_ifs
    · exact h.endTransaction _ n hp
    · exact hp
  portReset s n hs := by
    have hp := h.pins s { s.pins with rst := put s.pins.rst n false } rfl hs
    unfold State.rstFalls
    simp only
    split_ifs
    · exact hp
    · exact h.port _ _ _ (h.finishResponse _ _ (h.detach _ _ _ hp))
    · exact h.port _ _ _ (h.finishResponse _ _ hp)
  detach := h.detach
  reset := h.reset
  leave := h.leave
  tick := h.tick
  boundary := h.boundary
  raise := h.raise
  lapse := h.lapse
  fresh := h.fresh
  ask := h.ask
  grant := h.grant
  read := h.read
  refresh := h.refresh

end Sys2Proof.Machine
end

