-- ==== Sys2Proof/Laws/Records.lean ====
section
/-! SUPPORT. Laws of the single post record: the induction over the commands,
    packaged once for a law `Q` that each change of a record keeps. -/

namespace Sys2Proof.Machine
open Sys2Proof

/-- Every record of the post table satisfies `Q`, which may look at the ports that are ATTACHED. -/
def State.Records (Q : (Port → Bool) → Post → Prop) (s : State) : Prop := ∀ (p : PostNo) (r : Post),
    s.posts[p] = some r → Q s.attached r

/-- What a law of records must be kept by: the changes that the commands make to a record. -/
structure RecordRules (Q : (Port → Bool) → Post → Prop) : Prop where
  mono : ∀ a b r, (∀ m, a m = true → b m = true) → Q a r → Q b r
  declared : ∀ a n k c p m, a n = true → Q a (declaredPost n k c p m)
  flight : ∀ a r i, Q a r → Q a { r with inFlight := i }
  adopt : ∀ a r n m, a n = true → r.binding = .orphaned m → Q a r → Q a { r with binding := .bound n }
  takeover : ∀ a r n, a n = true → Q a r →
      Q a { r with binding := .bound n, condition := r.condition.demoted, deadline := none, inFlight := none }
  orphan : ∀ a b n r, (∀ m, m ≠ n → a m = true → b m = true) → Q a r → Q b (r.orphanedFrom n)
  lapsed : ∀ a r, Q a r → Q a r.lapsed
  stale : ∀ a r e, r.deadline = some e → Q a r → Q a { r with condition := .stale, deadline := none }
  damaged : ∀ a r c, r.current.isSome → r.condition ≠ .damaged → Q a r →
      Q a { r with condition := .damaged, cause := some c, deadline := none }

variable {Q : (Port → Bool) → Post → Prop}

/-- Unchanged posts keep the law. -/
theorem rec_same {s t : State} (R : RecordRules Q) (h : s.Records Q) (hp : t.posts = s.posts) (ha : ∀ m,
    s.attached m = true → t.attached m = true) : t.Records Q := by
  intro p r hr
  rw [hp] at hr
  exact R.mono _ _ _ ha (h p r hr)

/-- One changed record that satisfies the law keeps it. -/
theorem rec_put {s t : State} (_R : RecordRules Q) (h : s.Records Q) {p : PostNo} {o : Option Post} (hp :
    t.posts = put s.posts p o) (ha : t.attached = s.attached)
    (ho : ∀ r, o = some r → Q s.attached r) : t.Records Q := by
  intro q r hr
  rw [hp] at hr
  rw [ha]
  by_cases hq : q = p
  · subst hq; rw [getElem_put_self] at hr; exact ho r hr
  · rw [getElem_put_of_ne _ _ hq] at hr; exact h q r hr

/-- Which ports are ATTACHED after a session record has been set. -/
theorem setSession_attached (s : State) (n : Port) (x : Session) (m : Port) :
    (s.setSession n x).attached m = if m = n then x.isAttached else s.attached m := by
  show ((put s.sessions n x)[m]).isAttached = _
  by_cases h : m = n
  · subst h; rw [getElem_put_self]; simp
  · rw [getElem_put_of_ne _ _ h]; simp [h]; rfl

/-- The vacate event keeps the law. -/
theorem rec_vacate {s : State} (R : RecordRules Q) (h : s.Records Q) (p r b n) : (s.vacate p r b n).Records Q :=
  rec_put R h (p := p) (o := none) rfl rfl (by simp)

/-- A detach keeps the law. -/
theorem rec_detach {s : State} (R : RecordRules Q) (h : s.Records Q) (n : Port) (c : DetachCause) :
    (s.detachPort n c).Records Q := by
  intro p r hr
  have hp : (s.detachPort n c).posts = mapTable (Option.map (Post.orphanedFrom n)) s.posts := rfl
  rw [hp] at hr
  simp only [Fin.getElem_fin, getElem_mapTable] at hr
  obtain ⟨r0, h0, rfl⟩ := Option.map_eq_some_iff.1 hr
  refine R.orphan s.attached _ n r0 (fun m hm ha => ?_) (h p r0 h0)
  have : (s.detachPort n c).attached m = (s.setSession n Session.detachedValues).attached m := rfl
  rw [this, setSession_attached, if_neg hm]; exact ha

/-- A damage request keeps the law. -/
theorem rec_damage {s : State} (R : RecordRules Q) (h : s.Records Q) (p f c) :
    (s.damageRequest p f c).Records Q := by
  rcases damageRequest_cases s p f c with ⟨e, -⟩ | ⟨r, hp, hc, hd, e⟩ <;> rw [e]
  · exact h
  · have hcur : r.current.isSome := by cases hx : r.current <;> simp_all
    cases c
    · exact rec_put R h (p := p) (o :=
        some { r with condition := .damaged, cause := some .check, deadline := none }) rfl rfl (fun r' hr' => by
        simp only [Option.some_inj] at hr'; subst hr'; exact R.damaged _ _ _ hcur hd (h p r hp))
    · exact rec_put R h (p := p) (o :=
        some { r with condition := .damaged, cause := some .lapse, deadline := none }) rfl rfl (fun r' hr' => by
        simp only [Option.some_inj] at hr'; subst hr'; exact R.damaged _ _ _ hcur hd (h p r hp))

/-- RELEASE leaves posts and sessions. -/
theorem releaseTaken_same (n : Port) (mask : Byte) (s : State) : (releaseTaken n mask s).1.posts = s.posts ∧
    (releaseTaken n mask s).1.sessions = s.sessions := by
  unfold releaseTaken
  generalize releaseHolds mask _ = d
  exact ⟨rfl, rfl⟩

/-- Restates a lookup, so that it can be found by its type. -/
theorem hit {s : State} {p : PostNo} {r : Post} (h : s.posts[p] = some r) : s.posts[p] = some r := h

/-- A law of records that the changes keep is kept by every command but the end of a write. -/
theorem records_kept (R : RecordRules Q) : KeptByBlocks (State.Records Q) where
  port _ _ _ h := h
  finished _ _ h := h
  lease s n h := rec_same R h rfl (by rw [renewLease_attached]; exact fun _ h => h)
  run s n c args r hp ha hro h := by
    cases r <;> simp only [runRequest]
    case release mask =>
      refine rec_same R h (releaseTaken_same n mask s).1 (fun m hm => ?_)
      unfold State.attached; rw [(releaseTaken_same n mask s).2]; exact hm
    case attach role lease th =>
      unfold attachTaken
      by_cases hc : role = .supervisor ∧ s.pins.sup[n] = false
      · rw [if_pos hc]; exact h
      · rw [if_neg hc]
        refine rec_same R h rfl (fun m hm => ?_)
        show (s.setSession n _).attached m = true
        rw [setSession_attached]
        by_cases hmn : m = n
        · rw [if_pos hmn]; rfl
        · rw [if_neg hmn]; exact hm
    case detach => exact rec_detach R h n _
    case declare sel k cap per m =>
      unfold declareTaken; repeat' split
      · exact h
      · exact h
      · exact rec_put R h rfl rfl (fun r hr => by simp only [Option.some_inj] at hr; subst hr; exact R.declared _ _ _ _ _ _ (ha rfl))
    case withdraw =>
      unfold withdrawTaken; repeat' split
      · exact h
      · exact rec_vacate R h _ _ _ _
      · exact h
    case revoke =>
      unfold revokeTaken; repeat' split
      · exact h
      · exact rec_vacate R h _ _ _ _
    case publish =>
      unfold publishTaken; repeat' split
      all_goals first | exact h | skip
      have hh := h _ _ ‹_›
      unfold State.takePublish
      split
      · exact rec_put R h rfl rfl (fun r hr => by simp only [Option.some_inj] at hr; subst hr; exact R.flight _ _ _ hh)
      · exact rec_put R h rfl rfl (fun r hr => by simp only [Option.some_inj] at hr; subst hr; exact R.flight _ _ _ hh)
    case adopt =>
      unfold adoptTaken; repeat' split
      all_goals first | exact h | skip
      have hh := h _ _ ‹_›
      exact rec_put R h rfl rfl (fun r hr => by simp only [Option.some_inj] at hr; subst hr; exact R.adopt _ _ _ _ (ha rfl) ‹_› hh)
    case takeover =>
      unfold takeoverTaken; repeat' split
      all_goals first | exact h | skip
      have hh := h _ _ ‹_›
      simp only [State.resolicit]
      split
      · exact rec_put R h rfl rfl (fun r hr => by simp only [Option.some_inj] at hr; subst hr; exact R.takeover _ _ _ (ha rfl) hh)
      · exact rec_put R h rfl rfl (fun r hr => by simp only [Option.some_inj] at hr; subst hr; exact R.takeover _ _ _ (ha rfl) hh)
    all_goals
      simp only [pingTaken, statusTaken, describeTaken, readTaken, snapshotTaken, readHeldTaken,
        askTaken, cancelTaken, filterSetTaken, filterClearTaken, takeTaken, poolStatusTaken, setPoolMarkTaken]
      first | exact h | (repeat' split)
    all_goals exact h
  pins _ _ _ h := h
  detach s n c h := rec_detach R h n c
  reset s x h := by intro p r hr; simp [State.enterReset, State.afterDeviceReset] at hr
  leave _ _ _ h := h
  tick _ _ h := h
  boundary _ _ h := h
  raise _ h _ := h
  lapse s h := by
    intro p r hr
    have hp : s.doLapse.posts = mapTable (Option.map Post.lapsed) s.posts := rfl
    rw [hp] at hr
    simp only [Fin.getElem_fin, getElem_mapTable] at hr
    obtain ⟨r0, h0, rfl⟩ := Option.map_eq_some_iff.1 hr
    exact R.lapsed _ _ (h p r0 h0)
  fresh s p h := by
    unfold State.expireFreshness; repeat' split
    all_goals first | exact h | skip
    have hh := h _ _ ‹_›
    exact rec_put R h rfl rfl (fun r hr => by simp only [Option.some_inj] at hr; subst hr; exact R.stale _ _ _ ‹_› hh)
  ask _ _ h := h
  grant s h _ := by
    unfold State.grant; repeat' split
    all_goals first | exact h | (unfold State.grantPort; split <;> exact h)
  read s n d h _ := by
    have hc : ∀ (u : State) n st res, u.Records Q → (u.completeCommand n st res).Records Q := by
      intro u n st res hu
      refine rec_same R hu (by simp) (fun m hm => ?_)
      show ((u.completeCommand n st res).sessions[m]).isAttached = true
      rw [State.completeCommand_sessions]; exact hm
    rcases completeRead_cases s n d with ⟨-, e⟩ | ⟨r, row, good, -, e⟩ <;> rw [e]
    · exact h
    · rcases endRead_cases s.freeArray n r row good with ⟨-, e⟩ | ⟨-, st, res, b, w, e, rfl | ⟨c,
        rfl⟩⟩ <;> rw [e] <;> apply hc
      · exact h
      · exact h
      · apply rec_damage R; exact h
  refresh s f h _ := h

/-- The end of a write keeps the law if the commit does. -/
theorem records_write (R : RecordRules Q) {s : State} {n : Port} {d : List Byte} (h : s.Records Q)
    (hw : ∀ x r, s.slots[n] = some x → x.overtaken = none → s.posts[x.post] = some r →
        Q s.attached (r.committed x.frame x.payload.length s.now)) :
    (s.completeWrite n d).Records Q := by
  have hc : ∀ (u : State) n st res, u.Records Q → (u.completeCommand n st res).Records Q := by
    intro u n st res hu
    refine rec_same R hu (by simp) (fun m hm => ?_)
    show ((u.completeCommand n st res).sessions[m]).isAttached = true
    rw [State.completeCommand_sessions]; exact hm
  rcases completeWrite_cases s n d with ⟨-, e⟩ | ⟨x, hx, e⟩ <;> rw [e]
  · exact h
  · rcases endPublication_cases _ n x (decide (disturbed (rowOf x.post x.payload) d = rowOf x.post x.payload)) with ⟨st, e, -⟩ | ⟨-, -, e⟩ | ⟨-, hov, r, hp, e⟩ <;> rw [e] <;> apply hc
    · exact h
    · refine rec_put R h (p := x.post) rfl rfl (fun r hr => ?_)
      obtain ⟨r0, h0, rfl⟩ := Option.map_eq_some_iff.1 hr
      exact R.flight _ _ _ (h _ _ h0)
    · refine rec_put R h (p := x.post) rfl rfl (fun r' hr => ?_)
      simp only [Option.some_inj] at hr; subst hr
      exact hw x r hx hov hp

end Sys2Proof.Machine
end

