-- ==== Sys2Proof/Laws/Timers.lean ====
section
/-! SUPPORT. Timers and the time base: when an expiry, a tick and a millisecond boundary come, and what an armed timer
reports. -/

namespace Sys2Proof.Machine
open Sys2Proof

theorem reached_iff (e now : Time) : reached e now = true ↔ e = now := by
  simp [reached, eq_comm]

/-- What the part looks at before time goes on is what the law speaks of. -/
theorem expiryOutstanding_iff (s : State) : s.expiryOutstanding = true ↔ s.ExpiryToTake := by
  unfold State.expiryOutstanding State.ExpiryToTake PendingAsk.expired
  simp only [Bool.or_eq_true, List.any_eq_true, Option.any_eq_true, reached_iff, Bool.and_eq_true, or_assoc]
  refine or_congr ⟨?_, ?_⟩ (or_congr Iff.rfl ⟨?_, ?_⟩)
  · rintro ⟨p, -, e, h, rfl⟩
    obtain ⟨r, hr, hd⟩ := Option.bind_eq_some_iff.1 h
    exact ⟨p, r, hr, hd⟩
  · rintro ⟨p, r, hr, hd⟩
    exact ⟨p, List.mem_finRange p, s.now, by simpa [hr] using hd, rfl⟩
  · rintro ⟨n, -, ha, e, h, rfl⟩
    exact ⟨n, ha, h⟩
  · rintro ⟨n, ha, h⟩
    exact ⟨n, (by decide : ∀ m : Port, m ∈ allPorts) n, ha, s.now, h, rfl⟩

/-- When a refresh tick comes (R146, R147). -/
theorem tickComes_iff (s : State) :
    s.tickComes = true ↔
      s.inDeviceReset = false ∧ (s.time.tickOwed = true ∨ s.time.phase < 16 ∧ ¬ s.ExpiryToTake) := by
  rw [← expiryOutstanding_iff]
  simp only [State.tickComes, Bool.and_eq_true, Bool.or_eq_true, Bool.not_eq_true', decide_eq_true_eq,
    Bool.not_eq_true]
  rfl


/-- When a millisecond boundary comes (R146, R147). -/
theorem boundaryComes_iff (s : State) :
    s.boundaryComes = true ↔
      s.inDeviceReset = false ∧ s.time.tickOwed = false ∧ 15 ≤ s.time.phase ∧ ¬ s.ExpiryToTake := by
  rw [← expiryOutstanding_iff]
  simp [State.boundaryComes, TimeBase.boundaryDue, Config.ticksPerMillisecond, and_assoc]

/-- An armed timer that has not been passed reports from 1 to 65536 (R19, R164). -/
theorem remaining_bounds {e now : Time} (h : (e - now).toNat ≤ 65536) :
    1 ≤ (remaining e now).toNat ∧ (remaining e now).toNat ≤ 65536 := by
  unfold remaining
  split_ifs with he
  · simp
  · refine ⟨?_, h⟩
    by_contra hc
    exact he (by bv_omega)

/-- A timer that has just been armed lies ahead, by at most 65536 milliseconds (R146). -/
theorem expiryAfter_ahead (now : Time) (period : Half) :
    (expiryAfter now period - now).toNat ≤ 65536 ∧ expiryAfter now period ≠ now := by
  have hp := period.isLt
  unfold expiryAfter
  constructor <;> bv_omega

/-- A timer that has just been armed reports one more than its period (R19, R116). -/
theorem remaining_expiryAfter (now : Time) (period : Half) :
    remaining (expiryAfter now period) now = period.zeroExtend 32 + 1#32 := by
  unfold remaining
  rw [if_neg (expiryAfter_ahead now period).2]
  unfold expiryAfter
  bv_omega

end Sys2Proof.Machine
end

