-- ==== Sys2Proof/Laws/Vacate.lean ====
section
/-! SUPPORT. The vacate event (R16): everything that it does, said once. -/

namespace Sys2Proof.Machine
open Sys2Proof

/-- The vacate event leaves what `Vacated` says (R16). -/
theorem vacate_vacated (s : State) (p : PostNo) (r : Post) (b : VacateBy) (n : Port) :
    Vacated s (s.vacate p r b n) p r b n := by
  set t1 := ((s.setPost p none).setPool (s.pool.releaseCurrent r.current)).overtakeInFlight r.inFlight .revoke with h1
  set t2 := t1.purgePost p with h2
  set t3 := t2.completeAsks (fun e => decide (e.post = p)) .withdrawn with h3
  set fixed : Option Port := (match b with | .supervisor => r.binding.boundPort | .producer => none) with hf
  have hv : s.vacate p r b n = t3.notify (.withdrawn p r.key b) r.key .lifecycle (some n) fixed := by
    cases b <;> rfl
  have hrec : t3.recipients = s.recipients := recipients_congr rfl rfl
  have h2q : ∀ m : Port, t2.queues[m] =
      { entries := (s.queues[m]).entries.filter fun e => !(e.isUpdateOf p || e.isSolicitOf p),
        lost := (s.queues[m]).lost } := by
    intro m
    show (perPort _)[m.val] = _
    rw [getElem_perPort]
    rfl
  have hdesk := (completeAsks_received t2 (fun e => decide (e.post = p)) .withdrawn).trans
    (DeskReceived.deliver t2.attached (t3.recipients r.key .lifecycle (some n) fixed) (.withdrawn p r.key b) _)
  rw [hrec, List.append_nil] at hdesk
  obtain ⟨i1, l, i2, i3, i4⟩ := hdesk
  refine ⟨?_, ?_, fun m => ?_, ?_, ?_, fun m => ?_, l, ?_, ?_, fun m => ?_⟩
  · rw [hv]; rfl
  · rw [hv]; show s.pool.releaseCurrent r.current = _; cases r.current <;> rfl
  · rw [hv]
    show (overtakeSlots r.inFlight .revoke s.slots)[m] = _
    unfold overtakeSlots
    cases r.inFlight with
    | none => simp
    | some i =>
      by_cases hm : i.port = m
      · subst hm; simp; rfl
      · have hne : i.port.val ≠ m.val := fun h' => hm (Fin.ext h')
        simp [hm, hne]
  · rw [hv]
    show s.requests.pending.filter _ = _
    simp
  · rw [hv]; rfl
  · rw [hv]
    have h := i1 m
    rw [h2q m] at h
    exact h
  · rw [hv]; exact i2
  · exact i3
  · have h := i4 m
    rw [h2q m] at h
    exact h

/-- `Vacated` looks at posts, pool, slots, queues, requests, recipients and sessions alone. -/
theorem vacated_congr {s s' t t' : State} {p r b n} (h : Vacated s t p r b n)
    (h1 : s'.posts = s.posts) (h2 : s'.pool = s.pool) (h3 : s'.slots = s.slots) (h4 : s'.queues = s.queues)
    (h5 : s'.requests = s.requests) (h6 : s'.recipients = s.recipients) (h7 : s'.attached = s.attached)
    (k1 : t'.posts = t.posts) (k2 : t'.pool = t.pool) (k3 : t'.slots = t.slots) (k4 : t'.queues = t.queues)
    (k5 : t'.requests = t.requests) : Vacated s' t' p r b n := by
  unfold Vacated Received at *
  simpa only [h1, h2, h3, h4, h5, h6, h7, k1, k2, k3, k4, k5] using h

end Sys2Proof.Machine
end

