-- ==== Sys2Proof/WellFormed.lean ====
section
/-! DEFINITION. Which commands are well formed: those whose operands are what their row of the opcode table speaks
of. The meanings are total and do not rest on it: an operand outside it still does what those bytes do (log 6). -/

namespace Sys2Proof

/-- The argument bytes of a request fit a frame that is judged as a request: L is at most 72 (R150, R151). -/
def wellFormedArgs (args : List Byte) : Bool := decide (args.length ≤ Config.maxArgumentLength)

/-- `bytes` is a whole request frame with L at most 72: L + 5 bytes (R150). -/
def wholeFrame : List Byte → Bool
  | code :: tag :: len :: rest =>
    decide (len.toNat ≤ Config.maxArgumentLength ∧ (code :: tag :: len :: rest).length = len.toNat + 5)
  | _ => false

/-- `bytes` is a whole request with L above 72: L + 2 bytes follow the length byte (R151). -/
def wholeLongFrame : List Byte → Bool
  | code :: tag :: len :: rest =>
    decide (Config.maxArgumentLength < len.toNat ∧ (code :: tag :: len :: rest).length = len.toNat + 5)
  | _ => false

/-- A disturbance pattern is no longer than a row of the array (R135). -/
def wellFormedDisturb (disturb : List Byte) : Bool := decide (disturb.length ≤ Config.rowBytes)

/-- Well-formedness of a command. -/
def wellFormed : Instr → Bool
  | .attach _ _ args _ => wellFormedArgs args
  | .detach _ _ args => wellFormedArgs args
  | .ping _ _ args => wellFormedArgs args
  | .status _ _ args => wellFormedArgs args
  | .declare _ _ args => wellFormedArgs args
  | .withdraw _ _ args => wellFormedArgs args
  | .describe _ _ args => wellFormedArgs args
  | .publish _ _ args => wellFormedArgs args
  | .read _ _ args => wellFormedArgs args
  | .snapshot _ _ args => wellFormedArgs args
  | .readHeld _ _ args => wellFormedArgs args
  | .release _ _ args => wellFormedArgs args
  | .ask _ _ args => wellFormedArgs args
  | .cancel _ _ args => wellFormedArgs args
  | .filterSet _ _ args => wellFormedArgs args
  | .filterClear _ _ args => wellFormedArgs args
  | .take _ _ args => wellFormedArgs args
  | .adopt _ _ args => wellFormedArgs args
  | .takeover _ _ args => wellFormedArgs args
  | .revoke _ _ args => wellFormedArgs args
  | .poolStatus _ _ args => wellFormedArgs args
  | .setPoolMark _ _ args => wellFormedArgs args
  | .untakenRequest _ bytes => wholeFrame bytes
  | .badframe _ bytes => wholeLongFrame bytes
  | .csFall _ => true
  | .csRise _ => true
  | .responseFinished _ => true
  | .portReset _ => true
  | .portResetRelease _ => true
  | .deviceReset => true
  | .deviceResetRelease => true
  | .clkselChange _ => true
  | .refreshTick => true
  | .lapse => true
  | .millisecondBoundary => true
  | .freshnessExpiry _ => true
  | .askDeadlineExpiry ticket => decide (ticket ≠ 0#8)
  | .leaseExpiry _ => true
  | .arrayGrant => true
  | .writeCompletion disturb => wellFormedDisturb disturb
  | .readCompletion disturb => wellFormedDisturb disturb
  | .refreshCompletion => true

end Sys2Proof
end

