-- ==== Sys2Proof/Tests/Slice0.lean ====
section
/-! SUPPORT. Our own tests, each about one step on a small state: well-formedness, the worked values and the examples
of the spec; and, for every statement that has hypotheses, a state that meets them. -/

namespace Sys2Proof.Tests

open Sys2Proof Sys2Proof.Machine

set_option maxRecDepth 100000
-- One theorem after another: each one that waits for the kernel would hold a thread.
set_option Elab.async false

/-! ### Well-formedness: one ill-formed term for each check, which the check refuses -/

theorem test_wellFormed_refuses_long_arguments :
    ∀ c : Command, wellFormed (c.instr 0 0#8 (List.replicate 73 0#8) false) = false ∧
      wellFormed (c.instr 0 0#8 (List.replicate 72 0#8) false) = true := by
  intro c; cases c <;> decide

theorem test_wellFormed_refuses_untaken_frames :
    wellFormed (.untakenRequest 0 [3#8, 0#8, 0#8, 0x95#8]) = false ∧
      wellFormed (.untakenRequest 0 (3#8 :: 0#8 :: 73#8 :: List.replicate 75 0#8)) = false ∧
      wellFormed (.untakenRequest 0 []) = false ∧
      wellFormed (.untakenRequest 0 [3#8, 0#8, 0#8, 0x95#8, 0xCC#8]) = true := by decide

theorem test_wellFormed_refuses_badframes :
    wellFormed (.badframe 0 (3#8 :: 0#8 :: 72#8 :: List.replicate 74 0#8)) = false ∧
      wellFormed (.badframe 0 (3#8 :: 0#8 :: 73#8 :: List.replicate 74 0#8)) = false ∧
      wellFormed (.badframe 0 [3#8]) = false ∧
      wellFormed (.badframe 0 (3#8 :: 0#8 :: 73#8 :: List.replicate 75 0#8)) = true := by decide

theorem test_wellFormed_refuses_ticket_zero :
    wellFormed (.askDeadlineExpiry 0#8) = false ∧ wellFormed (.askDeadlineExpiry 1#8) = true := by decide

theorem test_wellFormed_refuses_long_disturbances :
    wellFormed (.writeCompletion (List.replicate 65 0#8)) = false ∧
      wellFormed (.readCompletion (List.replicate 65 0#8)) = false ∧
      wellFormed (.readCompletion (List.replicate 64 0#8)) = true := by decide

/-- No row of the opcode table has bits, so no word spells a command. -/
theorem test_no_word_spells_a_command : decodeTableWord 8 3 = none ∧ decodeTableWord 0 0 = none := by decide

/-! ### The worked values of chapter 10 -/

theorem test_crc_of_ping :
    crcByte 0xFFFF#16 3#8 = 0xD193#16 ∧ crc16 [3#8, 0#8] = 0x485C#16 ∧ crc16 [3#8, 0#8, 0#8] = 0x95CC#16 ∧
      crc16 [3#8, 0#8, 0#8, 0x95#8, 0xCC#8] = 0#16 ∧
      requestFrame 3#8 0#8 [] = [3#8, 0#8, 0#8, 0x95#8, 0xCC#8] := by decide

theorem test_crc_of_digits :
    crc16 [0x31#8, 0x32#8, 0x33#8, 0x34#8, 0x35#8, 0x36#8, 0x37#8, 0x38#8, 0x39#8] = 0x29B1#16 := by decide

/-! ### Small states -/

/-- The state after the command, itself where there is none. -/
def after (c : Instr) (s : State) : State :=
  match exec c s with
  | .next t => t
  | .fault _ => s
  | .refused _ => s

/-- The response frame held for port `n`, less its CRC. -/
def answerOf (s : State) (n : Port) : List Byte :=
  match s.ports[n].response with
  | some h => h.frame.take (h.frame.length - 2)
  | none => []

/-- A session with lease 20 ms begun at device time 0. -/
def session (role : Role) : Session :=
  { state := .attached, role := role, lease := 20#16, timer := some 21#32, threshold := 1 }

/-- Port 0 at the start of a request, every port DETACHED. -/
def bare : State :=
  { State.reset with
    pins := { State.reset.pins with cs := put State.reset.pins.cs 0 false }
    ports := put State.reset.ports 0 { PortInterface.reset with state := .receiving, expected := 5 } }

/-- Port 0 at the start of a request, every port ATTACHED, port 0 as SUPERVISOR. -/
def ready : State :=
  { bare with sessions := #v[session .supervisor, session .normal, session .normal, session .normal] }

/-- A FRESH post with key 4001h, generation 5 and current frame 3, bound as said. -/
def freshPost (b : Binding) : Post :=
  { key := 0x4001#16, binding := b, condition := .fresh, cause := none, generation := 5#16,
    current := some { frame := 3, length := 2, stamp := 0#32 }, capacity := 60, period := 10#16,
    deadline := some 11#32, mode := .auto, inFlight := none }

/-- An EMPTY post with key 4002h, bound as said. -/
def emptyPost (b : Binding) : Post :=
  { key := 0x4002#16, binding := b, condition := .empty, cause := none, generation := 0#16, current := none,
    capacity := 1, period := 0#16, deadline := none, mode := .forward, inFlight := none }

/-- `ready` with post 10 as `freshPost b` on its frame 3. -/
def withPost (b : Binding) : State :=
  { ready with
    posts := put ready.posts 10 (some (freshPost b))
    pool := { ready.pool with
      frames := put ready.pool.frames 3 { refs := 1, suspect := false }
      free := (List.finRange 96).filter fun f => decide (f ≠ 3) } }

/-! ### One step on the spec's examples -/

/-- The note of chapter 10: a PING of a DETACHED port. -/
theorem test_ping_on_detached_port : answerOf (after (.ping 0 0#8 []) bare) 0 = [0#8, 0#8, 1#8, 0#8] := by
  decide +kernel

/-- R118: the answer of ATTACH; R122: the timer of a lease of 20 ms taken in millisecond 0 expires at 21. -/
theorem test_attach_normal :
    let t := after (.attach 0 7#8 [0#8, 0#8, 20#8, 31#8] false) bare
    answerOf t 0 = [0#8, 7#8, 2#8, 0#8, 0#8] ∧
      t.sessions[0] =
        { state := .attached, role := .normal, lease := 20#16, timer := some 21#32, threshold := 31 } := by decide +kernel

/-- R117: a lease period of 19 ms is out of range, and SUPERVISOR needs the strap. -/
theorem test_attach_refused :
    answerOf (after (.attach 0 7#8 [0#8, 0#8, 19#8, 1#8] false) bare) 0 = [5#8, 7#8, 0#8] ∧
      answerOf (after (.attach 0 7#8 [1#8, 0#8, 20#8, 1#8] false) bare) 0 = [7#8, 7#8, 0#8] := by decide +kernel

/-- R12: DECLARE under ANY takes the lowest VACANT post; a key in use is refused with its post. -/
theorem test_declare :
    answerOf (after (.declare 0 1#8 [0xFF#8, 0x40#8, 0x03#8, 60#8, 0#8, 0#8, 0#8] ) (withPost (.bound 2))) 0 =
        [0#8, 1#8, 1#8, 0#8] ∧
      answerOf (after (.declare 0 1#8 [0xFF#8, 0x40#8, 0x01#8, 60#8, 0#8, 0#8, 0#8]) (withPost (.bound 2))) 0 =
        [0x0B#8, 1#8, 1#8, 10#8] := by decide +kernel

/-- R19 and R164: the 29 bytes of DESCRIBE, at device time 4. -/
theorem test_describe :
    let s := { withPost (.orphaned 2) with time := { State.reset.time with deviceTime := 4#32 } }
    answerOf (after (.describe 0 9#8 [0x40#8, 0x01#8]) s) 0 =
      [0#8, 9#8, 29#8, 10#8, 1#8, 0x40#8, 1#8, 0x82#8, 1#8, 0#8, 0#8, 5#8, 3#8, 2#8, 60#8, 0#8, 0#8, 0#8, 0#8,
        0#8, 0#8, 0#8, 4#8, 0#8, 10#8, 0#8, 0#8, 0#8, 0#8, 7#8, 0xFF#8, 0#8] := by decide +kernel

/-- The pool example of chapter 3, event 2: the allocation that leaves 8 frames free sends POOL_LOW and disarms. -/
theorem test_publish_sends_pool_low :
    let s := { withPost (.bound 0) with
      pool := { (withPost (.bound 0)).pool with free := [61, 62, 63, 64, 65, 66, 67, 68, 69] } }
    let t := after (.publish 0 1#8 [10#8, 0xAA#8]) s
    t.pool.free = [62, 63, 64, 65, 66, 67, 68, 69] ∧ t.pool.armed = false ∧
      t.queues[0].entries = [.poolLow 8] ∧ t.queues[3].entries = [.poolLow 8] := by decide +kernel

/-- The pool example of chapter 3, event 7: the notice is armed at a free count of 12 and not of 11. -/
theorem test_release_rearms :
    let one : FrameEntry := { refs := 1, suspect := false }
    let p : Pool :=
      { frames := put (put Pool.reset.frames 50 one) 51 one
        free := [63, 64, 65, 66, 67, 68, 69, 14, 22, 3], mark := 8, armed := false }
    (p.release 50).armed = false ∧ ((p.release 50).release 51).armed = true ∧
      ((p.release 50).release 51).free = [63, 64, 65, 66, 67, 68, 69, 14, 22, 3, 50, 51] := by decide +kernel

/-- The queue example of chapter 5, event 5: a TAKE of 2 under threshold 3 returns the two UPDATEs and releases the
line. -/
theorem test_take_two :
    let q : NoticeQueue :=
      { entries := [.update 10 0x4001#16 6#16 2, .update 11 0x4002#16 2#16 1, .stale 12 0x4003#16], lost := none }
    let s := ({ ready with
      sessions := put ready.sessions 0 { session .normal with threshold := 3 } }).setQueues (put ready.queues 0 q)
    let t := after (.take 0 5#8 [2#8]) s
    s.pins.attn[0] = true ∧ t.pins.attn[0] = false ∧ t.queues[0].entries = [.stale 12 0x4003#16] ∧
      answerOf t 0 = [0#8, 5#8, 17#8, 2#8, 1#8, 10#8, 0x40#8, 1#8, 0#8, 6#8, 2#8, 0#8,
        1#8, 11#8, 0x40#8, 2#8, 0#8, 2#8, 1#8, 0#8] := by decide +kernel

/-- The overflow example of chapter 5, events 1 to 4. -/
theorem test_overflow :
    let q0 : NoticeQueue :=
      { entries := .lapse 1 :: List.replicate 28 (.stale 0 1#16) ++ [.update 7 9#16 42#16 1], lost := none }
    let q1 := q0.arrive (.appeared 20 2#16 1)
    let q2 := q1.arrive (.orphaned 21 3#16 1 .lease)
    let q3 := q2.arrive (.update 7 9#16 43#16 1)
    let q4 := q3.arrive (.update 22 4#16 1#16 1)
    q1.entries.length = 31 ∧ q1.lost = none ∧ q2.entries = q1.entries ∧ q2.lost = some 1 ∧
      q3.entries[29]? = some (.update 7 9#16 43#16 2) ∧ q3.lost = some 1 ∧ q4 = { q3 with lost := some 2 } := by
  decide +kernel

/-- R100: 255 is followed by 1, and a ticket in use is passed over. -/
theorem test_ticket_after_255 :
    let e : PendingAsk := { ticket := 1#8, requester := 0, post := 0, genAtAsk := 0#16, deadline := 0#32 }
    RequestTable.nextTicket { pending := [], undelivered := [], counter := 0xFF#8 } = 1#8 ∧
      RequestTable.nextTicket { pending := [e], undelivered := [], counter := 0xFF#8 } = 2#8 := by decide

/-- R6: 65535 is followed by 1. -/
theorem test_generation_after_65535 :
    nextGeneration 0xFFFF#16 = 1#16 ∧ nextGeneration 0#16 = 1#16 ∧ nextGeneration 0xFFFE#16 = 0xFFFF#16 := by decide

/-- The arbiter example of chapter 8: at debt 5 refresh wins; at debt 4 the turn after port 1 is port 2's. -/
theorem test_grants :
    let s (debt : Nat) : State := { ready with
      arbiter := { places := #v[some .write, none, some .read, some .read], refreshPlace := true, lastGranted := 1 },
      refresh := { pointer := 40, debt := debt, lapseCount := 0 } }
    (after .arrayGrant (s 5)).array.access = some (.refresh 40) ∧
      (after .arrayGrant (s 4)).array.access = some (.read 2) ∧
      (after .arrayGrant (s 4)).arbiter.lastGranted = 2 := by decide +kernel

/-- R143: the pointer goes from 95 to 0, and the request goes with the last of the debt. -/
theorem test_refresh_completion :
    let s : State := { ready with
      array := { mem := [], access := some (.refresh 95) },
      arbiter := { ready.arbiter with refreshPlace := true }, refresh := { pointer := 95, debt := 1, lapseCount := 0 } }
    let t := after .refreshCompletion s
    t.refresh = { pointer := 0, debt := 0, lapseCount := 0 } ∧ t.arbiter.refreshPlace = false := by decide +kernel

/-- The lapse example of chapter 8: the tick at debt 8 damages the post, sets the flag of its frame and sends LAPSE. -/
theorem test_lapse :
    let s : State := { withPost (.bound 2) with refresh := { pointer := 10, debt := 8, lapseCount := 2 } }
    let t := after .lapse s
    t.refresh = { pointer := 10, debt := 0, lapseCount := 3 } ∧ t.pool.frames[3].suspect = true ∧
      t.pool.frames[4].suspect = false ∧ (t.posts[10]).map Post.condition = some .damaged ∧
      (t.posts[10]).bind Post.cause = some .lapse ∧ t.queues[0].entries = [.lapse 3] := by decide +kernel

/-- R164: "An armed deadline always reports at least 1", also between the boundary and the expiry. -/
theorem test_describe_at_the_boundary :
    let s := { withPost (.bound 2) with time := { State.reset.time with deviceTime := 11#32 } }
    (answerOf (after (.describe 0 9#8 [10#8]) s) 0).drop 26 = [0#8, 0#8, 0#8, 1#8, 0xFF#8, 0#8] := by decide +kernel

/-- R146: the boundary comes at the sixteenth tick, before the seventeenth. -/
theorem test_sixteenth_tick :
    let s : State := { bare with time := { bare.time with phase := 15 } }
    let t := after .refreshTick s
    (after .refreshTick t).refresh.debt = t.refresh.debt ∧
      (after .millisecondBoundary t).time = { bare.time with deviceTime := 1#32 } ∧
      (after .millisecondBoundary (after .millisecondBoundary t)).time.deviceTime = 1#32 := by decide +kernel

/-- R146, R11: the expiry of a boundary is taken before the next tick. -/
theorem test_tick_waits_for_expiry :
    let s := { withPost (.bound 2) with time := { State.reset.time with deviceTime := 11#32 } }
    after .refreshTick s = s ∧ (after .refreshTick (after (.freshnessExpiry 10) s)).time.phase = 1 := by decide +kernel

/-- R151: L = 73 is answered BADFRAME with the tag. -/
theorem test_badframe :
    answerOf (after (.badframe 0 (3#8 :: 0x21#8 :: 73#8 :: List.replicate 75 0#8)) ready) 0 = [3#8, 0x21#8, 0#8] := by
  decide +kernel

/-- The worked PING with a wrong CRC is answered BADCHECK, and an unknown code BADCMD (R154). -/
theorem test_untaken :
    answerOf (after (.untakenRequest 0 [3#8, 0#8, 0#8, 0x95#8, 0xCD#8]) ready) 0 = [2#8, 0#8, 0#8] ∧
      answerOf (after (.untakenRequest 0 (requestFrame 0xFF#8 6#8 [])) ready) 0 = [4#8, 6#8, 0#8] := by
  decide +kernel

/-! ### States that meet the hypotheses of the statements

Each `test_meets_<statement>` shows, for each clause of the statement that has hypotheses, a state and operands that
meet them together. -/

/-- `ready` with the interface of port 0 as said. -/
def withPort (x : PortInterface) : State := { ready with ports := put ready.ports 0 x }

/-- An interface with a command of tag 1 outstanding, in the state said. -/
def carrying (st : TxState) (side : SideState) (discard : Bool) (c : Command) : PortInterface :=
  { PortInterface.reset with
    state := st, side := side, outstanding := some { tag := 1#8, code := c.code }, discard := discard }

/-- An interface that holds a response to the command said, or to none. -/
def responding (c : Option CommandTag) : PortInterface :=
  { PortInterface.reset with
    state := .responding
    response := some { frame := responseFrame .ok 1#8 [], clocked := 0, command := c } }

/-- A side transaction at the start of its receiving phase, with a PUBLISH outstanding. -/
def sideStart : State := withPort { carrying .draining .receiving true .publish with expected := 5 }

/-- A read record of port 0 on `freshPost`. -/
def record (phase : ReadPhase) (cut : Bool) : ReadRecord :=
  { kind := .post (.bound 2) .fresh, post := 10, key := 0x4001#16, frame := 3, generation := 5#16, length := 2,
    phase := phase, pin := !cut, cutOff := cut }

/-- A publication of port 0 on post 10. -/
def publication (o : Option OvertakeCause) : Publication :=
  { post := 10, frame := 4, payload := [0xAA#8], phase := .writing, overtaken := o }

/-- A state of many parts in progress: port 1's publication of post 10 waits and its interface drains, port 3 holds
the current frame of the post, port 0 asks for it and has a notice waiting, and a CS_FALL is at the front of the
queue. -/
def busy : State :=
  { withPost (.bound 1) with
    posts := put ready.posts 10 (some { freshPost (.bound 1) with inFlight := some { frame := 4, port := 1 } })
    slots := put ready.slots 1 (some { publication none with phase := .waiting })
    pool := { (withPost (.bound 1)).pool with
      frames := put (put ready.pool.frames 3 { refs := 2, suspect := false }) 4 { refs := 1, suspect := false }
      free := (List.finRange 96).filter fun f => decide (f ≠ 3 ∧ f ≠ 4) }
    holds := put ready.holds 3 (put ready.holds[3] 0 (some
      { post := 10, key := 0x4001#16, frame := 3, generation := 5#16, length := 2, condition := .fresh }))
    queues := put ready.queues 0 { entries := [.lapse 1], lost := none }
    requests :=
      { pending := [{ ticket := 1#8, requester := 0, post := 10, genAtAsk := 5#16, deadline := 9#32 }]
        undelivered := [], counter := 1#8 }
    array := { mem := [(192, 0xAA#8)], access := none }
    arbiter := { ready.arbiter with places := put ready.arbiter.places 1 (some .write), refreshPlace := true }
    refresh := { pointer := 0, debt := 1, lapseCount := 1 }
    ports := put ready.ports 1 (carrying .draining .none true .publish)
    pins := { ready.pins with attn := #v[true, false, false, false] }
    pending := [.csFall 2] }

/-- A statement about the entries in use of a table is one about each entry. -/
theorem forall_entries {α : Type} {k : Nat} {v : Vector (Option α) k} {P : Fin k → α → Prop}
    (h : ∀ i : Fin k, ∀ x ∈ v[i], P i x) : ∀ (i : Fin k) (x : α), v[i] = some x → P i x := fun i x hx => h i x hx

theorem test_meets_StepTakesFrontCommand :
    busy.pending = .csFall 2 :: [] ∧ ready.pending = [] ∧ ∃ t, exec (.csFall 2) busy = .next t :=
  ⟨rfl, rfl, _, rfl⟩

theorem busy_steps : ∃ t, step busy = .next t := ⟨_, rfl⟩

theorem test_meets_StepKeepsFlightAgreement_law : busy.FlightLawful := by
  constructor
  · intro n x hx
    have h : ∀ m : Port, m ≠ 1 → busy.slots[m] = none := by decide +kernel
    by_cases hn : n = 1
    · subst hn
      have e : busy.slots[(1 : Port)] = some { publication none with phase := .waiting } := by decide +kernel
      rw [e, Option.some_inj] at hx
      subst hx
      exact fun _ => ⟨{ freshPost (.bound 1) with inFlight := some { frame := 4, port := 1 } }, by decide +kernel, rfl, rfl⟩
    · rw [h n hn] at hx; exact absurd hx (by simp)
  · intro p r i hr hi
    have h : ∀ q : PostNo, q ≠ 10 → busy.posts[q] = none := by decide +kernel
    by_cases hp : p = 10
    · subst hp
      have e : busy.posts[(10 : PostNo)] =
          some { freshPost (.bound 1) with inFlight := some { frame := 4, port := 1 } } := by decide +kernel
      rw [e, Option.some_inj] at hr
      subst hr
      simp only [Option.some_inj] at hi
      subst hi
      exact ⟨{ publication none with phase := .waiting }, by decide +kernel, rfl, rfl, rfl⟩
    · rw [h p hp] at hr; exact absurd hr (by simp)

theorem test_meets_StepKeepsPostLaw : busy.PostsLawful ∧ busy.FlightLawful ∧ ∃ t, step busy = .next t :=
  ⟨forall_entries (by decide +kernel), test_meets_StepKeepsFlightAgreement_law, busy_steps⟩

theorem test_meets_StepKeepsKeysAndBindings :
    busy.KeysDistinct ∧ busy.BoundAttached ∧ ∃ t, step busy = .next t := by
  refine ⟨fun p q r t hp hq _ => ?_, fun p r n hp hn => ?_, busy_steps⟩
  · have h : ∀ p : PostNo, busy.posts[p].isSome → p = 10 := by decide +kernel
    rw [h p (by rw [hp]; rfl), h q (by rw [hq]; rfl)]
  · have h : ∀ n : Port, busy.attached n = true := by decide +kernel
    exact h n

theorem test_meets_StepKeepsQueueLaw : busy.QueuesLawful ∧ ∃ t, step busy = .next t := by
  refine ⟨fun n => ⟨⟨?_, ?_, ?_, ?_⟩, ?_⟩, busy_steps⟩
  · revert n; decide +kernel
  · revert n; decide +kernel
  · revert n; decide +kernel
  · have h : ∀ n : Port, busy.queues[n].lost = none := by decide +kernel
    intro k hk
    rw [h n] at hk; exact absurd hk (by simp)
  · revert n; decide +kernel

theorem test_meets_StepKeepsAttentionLines : busy.LinesLawful ∧ ∃ t, step busy = .next t := by
  refine ⟨?_, busy_steps⟩
  unfold State.LinesLawful; decide +kernel

theorem test_meets_StepKeepsSessionLaw : busy.SessionsLawful ∧ ∃ t, step busy = .next t := by
  refine ⟨?_, busy_steps⟩
  unfold State.SessionsLawful Session.Lawful; decide +kernel

theorem test_meets_StepKeepsRequestTableLaws :
    busy.RequestsLawful ∧ busy.TicketsLawful ∧ ∃ t, step busy = .next t := by
  refine ⟨⟨by decide +kernel, by decide +kernel, by decide +kernel, by decide +kernel, ?_⟩,
    ⟨by decide +kernel, by decide +kernel⟩, busy_steps⟩
  have h : ∀ e ∈ busy.requests.pending,
      busy.posts[e.post] = some { freshPost (.bound 1) with inFlight := some { frame := 4, port := 1 } } := by
    decide +kernel
  exact fun e he => ⟨_, 1, h e he, rfl⟩

theorem test_meets_StepKeepsRefreshLaw : busy.RefreshLawful ∧ ∃ t, step busy = .next t := by
  refine ⟨?_, busy_steps⟩
  unfold State.RefreshLawful; decide +kernel

theorem test_meets_StepKeepsMemoryForm : busy.MemoryLawful ∧ ∃ t, step busy = .next t := by
  refine ⟨?_, busy_steps⟩
  unfold State.MemoryLawful; decide +kernel

theorem test_meets_StepKeepsOneCommandPerPort :
    busy.BusyLawful ∧ busy.AccessLawful ∧ busy.TransactionsLawful ∧ ∃ t, step busy = .next t := by
  refine ⟨fun n => ⟨⟨?_, ?_, ?_, ?_, ?_⟩, ?_, ?_, ?_⟩, ?_, ?_, busy_steps⟩
  · revert n; decide +kernel
  · revert n; decide +kernel
  · revert n; decide +kernel
  · revert n; decide +kernel
  · have h : ∀ n : Port, busy.ports[n].response = none := by decide +kernel
    intro _ x hx
    rw [h n] at hx; exact absurd hx (by simp)
  · revert n; decide +kernel
  · have hr : ∀ n : Port, busy.reads[n] = none := by decide +kernel
    rw [hr n]
    simp only [reduceCtorEq, false_and, exists_false, or_false]
    revert n; decide +kernel
  · have hr : ∀ n : Port, busy.reads[n] = none := by decide +kernel
    intro r h
    rw [hr n] at h; exact absurd h (by simp)
  · unfold State.AccessLawful; decide +kernel
  · unfold State.TransactionsLawful; decide +kernel

theorem test_meets_StepKeepsFlightAgreement : busy.BusyLawful ∧ busy.FlightLawful ∧ ∃ t, step busy = .next t :=
  ⟨test_meets_StepKeepsOneCommandPerPort.1, test_meets_StepKeepsFlightAgreement_law, busy_steps⟩

theorem test_meets_StepKeepsPoolAccounts : busy.BusyLawful ∧ busy.PoolLawful ∧ ∃ t, step busy = .next t := by
  refine ⟨test_meets_StepKeepsOneCommandPerPort.1, ?_, busy_steps⟩
  unfold State.PoolLawful; decide +kernel

theorem test_meets_StepKeepsDetachedPortsWithoutHolds :
    busy.HoldsLawful ∧ (bare.setPending [.csRise 0]).HoldsLawful ∧ ∃ t, step busy = .next t := by
  refine ⟨?_, ?_, busy_steps⟩ <;> (unfold State.HoldsLawful; decide +kernel)

theorem test_meets_ArgumentsRoundTrip :
    (Request.publish 63 (List.replicate 60 0#8)).legal = true ∧ (Request.take 4).legal = true ∧
      parseRequest .take [4#8] = some (.take 4) := by decide +kernel

theorem test_meets_BadArgumentsRefused :
    ready.Ready 0 ∧ (List.replicate 72 0#8).length ≤ 72 ∧
      ∀ r : Request, r.legal = true → r.command = .ping → r.args ≠ List.replicate 72 0#8 := by
  refine ⟨by decide +kernel, by decide, fun r _ hr => ?_⟩
  cases r <;> first | (simp [Request.command] at hr; done) | decide

/-- `ready` with every port in the NORMAL role. -/
def readyNormal : State := { ready with sessions := Vector.replicate 4 (session .normal) }

theorem test_meets_SessionAndRoleRefusals :
    (bare.Ready 0 ∧ bare.attached 0 = false ∧ (Request.setPoolMark 32).legal = true) ∧
      readyNormal.Ready 0 ∧ readyNormal.attached 0 = true ∧ readyNormal.sessions[(0 : Port)].role = .normal ∧
        (Request.takeover 63).legal = true ∧ (Request.revoke 0).legal = true ∧
          (Request.setPoolMark 32).legal = true := by decide +kernel

/-- A frame of the longest kind with a wrong CRC, one with an unknown code, one for an outstanding command. -/
theorem test_meets_UntakenAndLongRequestsAnswered :
    (ready.Listening 0 ∧ sideStart.Listening 0 ∧ (List.replicate 72 0#8).length ≤ 72 ∧ [0#8, 0#8].length = 2 ∧
        ¬ [0#8, 0#8] = be16 (crc16 (3#8 :: 6#8 :: byteOf 72 :: List.replicate 72 0#8))) ∧
      ((be16 (crc16 [0xFF#8, 6#8, 0#8])).length = 2 ∧ ∀ c : Command, c.code ≠ 0xFF#8) ∧
      (Command.ping.code = 3#8 ∧ sideStart.ports[(0 : Port)].outstanding.isSome) ∧
      72 < (73#8).toNat ∧ (List.replicate 75 0#8).length = (73#8).toNat + 2 ∧ 72 < (255#8).toNat ∧
        (List.replicate 257 0#8).length = (255#8).toNat + 2 := by
  refine ⟨by decide +kernel, ⟨by decide, fun c => ?_⟩, by decide +kernel, by decide⟩
  cases c <;> decide

theorem test_meets_CsFallBeginsTransaction :
    (State.reset.pins.cs[(0 : Port)] = true ∧ State.reset.inDeviceReset = false ∧
        State.reset.pins.rst[(0 : Port)] = true ∧ State.reset.ports[(0 : Port)].state = .idle ∧
        State.reset.ports[(0 : Port)].outstanding = none) ∧
      (busy.pins.cs[(1 : Port)] = true ∧ busy.inDeviceReset = false ∧ busy.pins.rst[(1 : Port)] = true ∧
        busy.ports[(1 : Port)].state = .draining) ∧
      ((after .deviceReset State.reset).pins.cs[(0 : Port)] = true ∧
        (after .deviceReset State.reset).inDeviceReset = true) ∧
      (after (.portReset 0) State.reset).pins.cs[(0 : Port)] = true ∧
        (after (.portReset 0) State.reset).pins.rst[(0 : Port)] = false := by decide +kernel

/-- The tag and code of a READ. -/
def readTag : CommandTag := { tag := 1#8, code := Command.read.code }

theorem test_meets_CsRiseEndsTransaction :
    (ready.pins.cs[(0 : Port)] = false ∧ ready.selected 0 = true ∧ ready.ports[(0 : Port)].state = .receiving) ∧
      ((withPort PortInterface.reset).selected 0 = true ∧
        (withPort PortInterface.reset).ports[(0 : Port)].state = .idle) ∧
      ((withPort (carrying .executing .none false .read)).selected 0 = true ∧
        (withPort (carrying .executing .none false .read)).ports[(0 : Port)].state = .executing) ∧
      (sideStart.selected 0 = true ∧ sideStart.ports[(0 : Port)].state = .draining) ∧
      ((withPort (responding (some readTag))).selected 0 = true ∧
        (withPort (responding (some readTag))).ports[(0 : Port)].state = .responding ∧
        ∃ c, (withPort (responding (some readTag))).ports[(0 : Port)].response.bind HeldResponse.command = some c ∧
          c.isRead) ∧
      ((withPort (responding none)).selected 0 = true ∧
        ∀ c, (withPort (responding none)).ports[(0 : Port)].response.bind HeldResponse.command = some c →
          ¬ c.isRead) := by
  refine ⟨by decide +kernel, by decide +kernel, by decide +kernel, by decide +kernel,
    ⟨by decide +kernel, by decide +kernel, readTag, by decide +kernel, Or.inl rfl⟩, by decide +kernel, fun c hc => ?_⟩
  have h : (withPort (responding none)).ports[(0 : Port)].response.bind HeldResponse.command = none := by
    decide +kernel
  rw [h] at hc; exact absurd hc (by simp)

/-- An answer to a READ with its record and without it, and another answer; and a port that receives, one that executes,
and one that shifts out an answer, at its READY byte and at its last byte. -/
theorem test_meets_FinishedResponseReleasesPin :
    let s : State := (withPort (responding (some readTag))).setRead 0 (some (record .answering false))
    let u : State := withPort (responding none)
    let v : State := withPort (responding (some readTag))
    let w (k : Nat) : State := withPort { PortInterface.reset with
      state := .responding, response := some { frame := [1#8, 2#8], clocked := k, command := none } }
    (s.selected 0 = true ∧ s.ports[(0 : Port)].isAnswering = true ∧
        s.ports[(0 : Port)].response = (responding (some readTag)).response ∧ readTag.isRead ∧
        s.reads[(0 : Port)] = some (record .answering false) ∧ (record .answering false).phase = .answering) ∧
      u.selected 0 = true ∧ u.ports[(0 : Port)].isAnswering = true ∧
        u.ports[(0 : Port)].response = (responding none).response ∧ (∀ c, (none : Option CommandTag) = some c →
          ¬ c.isRead) ∧
      (v.selected 0 = true ∧ v.ports[(0 : Port)].isAnswering = true ∧ v.reads[(0 : Port)] = none) ∧
      ready.ports[(0 : Port)].state = .receiving ∧
      (withPort { PortInterface.reset with state := .executing }).ports[(0 : Port)].state = .executing ∧
      (withPort { PortInterface.reset with state := .responding }).ports[(0 : Port)].response = none ∧
      ((w 0).selected 0 = true ∧ (w 0).ports[(0 : Port)].state = .responding ∧ (w 0).sdoDriven 0 = true ∧
        (w 0).sdoByte 0 = 0xF0#8 ∧ (w 2).sdoByte 0 = 2#8 ∧ (w 3).sdoByte 0 = 0#8) := by
  refine ⟨⟨by decide +kernel, by decide +kernel, by decide +kernel, Or.inl rfl, by decide +kernel, rfl⟩,
    by decide +kernel, by decide +kernel, by decide +kernel, fun c hc => absurd hc (by simp), by decide +kernel,
    by decide +kernel, by decide +kernel, by decide +kernel, by decide +kernel⟩

theorem test_meets_PortResetDetachesAndClears :
    (ready.pins.rst[(0 : Port)] = true ∧ ready.inDeviceReset = false ∧ ready.attached 0 = true) ∧
      (bare.pins.rst[(0 : Port)] = true ∧ bare.inDeviceReset = false ∧ bare.attached 0 = false ∧
        bare.HoldsLawful ∧ ¬ bare.ports[(0 : Port)].holdsReadResponse) ∧
      (let s : State := bare.setPort 0 (responding (some readTag));
        s.attached 0 = false ∧ s.HoldsLawful ∧ s.ports[(0 : Port)].holdsReadResponse) := by
  refine ⟨by decide +kernel, ⟨by decide +kernel, by decide +kernel, by decide +kernel, ?_, ?_⟩, by decide +kernel, ?_,
    ⟨_, _, rfl, rfl, Or.inl rfl⟩⟩
  · unfold State.HoldsLawful; decide +kernel
  · rintro ⟨h, c, h0, -⟩
    exact absurd h0 (by simp [bare, PortInterface.reset])
  · unfold State.HoldsLawful; decide +kernel

theorem test_meets_DeviceResetClearsEveryBlock :
    (busy.pins.nReset = true ∧ busy.inDeviceReset = false) ∧
      (after .deviceReset busy).inDeviceReset = true := by decide +kernel

/-- nRESET low with the straps at 2; nRESET high with them at 3; both. -/
theorem test_meets_DeviceResetReleaseStartsTime :
    let low : State := after .deviceReset { busy with pins := { busy.pins with clksel := 2 } }
    let three : State := after (.clkselChange 3) busy
    let both : State := after .deviceReset three
    (low.pins.nReset = false ∧ low.pins.clksel = 2) ∧ (three.pins.nReset = true ∧ three.pins.clksel = 3) ∧
      busy.inDeviceReset = false ∧ both.pins.nReset = false ∧ both.pins.clksel = 3 := by decide +kernel

theorem test_meets_AttachSetsSession :
    bare.Ready 0 ∧ (Request.attach .supervisor 60000#16 31).legal = true ∧
      (Request.attach .normal 20#16 1).legal = true ∧ (Request.attach .normal 0#16 1).legal = true := by
  decide +kernel

theorem test_meets_PingReportsSession :
    ready.Ready 0 ∧ ready.attached 0 = true ∧ bare.Ready 0 ∧ bare.attached 0 = false ∧ [0#8] ≠ [] ∧
      [0#8].length ≤ 72 := by decide +kernel

theorem test_meets_StatusReportsPort : ready.Ready 0 ∧ ready.SessionsLawful := by
  refine ⟨by decide +kernel, ?_⟩
  unfold State.SessionsLawful Session.Lawful; decide +kernel

theorem test_meets_DetachCommandDetaches : ready.Ready 0 ∧ ready.attached 0 = true := by decide +kernel

/-- `s` at device time `k`. -/
def atTime (k : Time) (s : State) : State := s.setTime { s.time with deviceTime := k }

theorem test_meets_LeaseExpiryDetaches :
    (atTime 21#32 ready).attached 0 = true ∧ (atTime 21#32 ready).sessions[(0 : Port)].timer = some 21#32 ∧
      (atTime 21#32 ready).now = 21#32 := by decide +kernel

/-- One millisecond short of the lease of a port, the deadline of a post, and the deadline of an ask; and past it. -/
theorem test_meets_TimersDoNotExpireEarly :
    ((atTime 20#32 ready).now ≠ 21#32 ∧ (atTime 22#32 ready).now ≠ 21#32 ∧
        ready.sessions[(0 : Port)].timer = some 21#32) ∧
      ((atTime 10#32 busy).now ≠ 11#32 ∧ (busy.posts[(10 : PostNo)]).bind Post.deadline = some 11#32) ∧
      (atTime 9#32 busy).now ≠ 10#32 ∧
        (∀ a ∈ (atTime 9#32 busy).requests.pending, a.ticket = 1#8 → a.deadline + 1#32 = 10#32) ∧
        (atTime 9#32 busy).LinesLawful := by
  refine ⟨by decide +kernel, by decide +kernel, by decide +kernel, by decide +kernel, ?_⟩
  unfold State.LinesLawful; decide +kernel

/-- `busy` without its ask. -/
def calm : State := { busy with requests := State.reset.requests }

/-- No timer of `calm` has been passed at device time 10, nor at 11, when the deadline of its post is to expire. -/
theorem timers_ahead {k : Time} (h : k = 10#32 ∨ k = 11#32) : (atTime k calm).TimersAhead := by
  refine ⟨?_, fun a ha => absurd ha List.not_mem_nil, ?_⟩
  · intro p r e hp hd
    have hp' : busy.posts[p] = some r := hp
    have : ∀ q : PostNo, ∀ o ∈ busy.posts[q], o.deadline = some 11#32 ∨ o.deadline = none := by decide +kernel
    rcases this p r hp' with h1 | h1
    · rw [h1] at hd; cases hd
      rcases h with rfl | rfl <;> decide
    · rw [h1] at hd; cases hd
  · intro n e _ hd
    have hd' : busy.sessions[n].timer = some e := hd
    have : ∀ m : Port, busy.sessions[m].timer = some 21#32 := by decide +kernel
    rw [this n] at hd'; cases hd'
    rcases h with rfl | rfl <;> decide

theorem test_meets_AdoptBindsOrphanedPost :
    (ready.Ready 0 ∧ ready.attached 0 = true ∧ ready.posts[(63 : PostNo)] = none) ∧
      ((withPost (.bound 2)).Ready 0 ∧ (withPost (.bound 2)).posts[(10 : PostNo)] = some (freshPost (.bound 2))) ∧
      (withPost (.orphaned 2)).Ready 0 ∧
        (withPost (.orphaned 2)).posts[(10 : PostNo)] = some (freshPost (.orphaned 2)) := by decide +kernel

/-- A port in the SUPERVISOR role at the start of a request. -/
abbrev Supervising (s : State) : Prop :=
  s.Ready 0 ∧ s.attached 0 = true ∧ s.sessions[(0 : Port)].role = .supervisor

theorem test_meets_TakeoverRebindsPost :
    (Supervising ready ∧ ready.posts[(0 : PostNo)] = none) ∧
      (Supervising (withPost (.bound 0)) ∧
        (withPost (.bound 0)).posts[(10 : PostNo)] = some (freshPost (.bound 0))) ∧
      (Supervising (withPost (.orphaned 3)) ∧
        (withPost (.orphaned 3)).posts[(10 : PostNo)] = some (freshPost (.orphaned 3))) ∧
      Supervising (withPost (.bound 3)) ∧
        (withPost (.bound 3)).posts[(10 : PostNo)] = some (freshPost (.bound 3)) ∧ (3 : Port) ≠ 0 := by
  decide +kernel

theorem test_meets_RevokeAndWithdrawVacate :
    (Supervising ready ∧ ready.posts[(0 : PostNo)] = none) ∧
      (Supervising (withPost (.bound 1)) ∧
        (withPost (.bound 1)).posts[(10 : PostNo)] = some (freshPost (.bound 1)) ∧
        (freshPost (.bound 1)).binding ≠ .bound 0) ∧
      Supervising (withPost (.bound 0)) ∧
        (withPost (.bound 0)).posts[(10 : PostNo)] = some (freshPost (.bound 0)) ∧
        (freshPost (.bound 0)).binding = .bound 0 := by decide +kernel

/-- `withPost (.bound 1)` with every post OCCUPIED. -/
def full : State :=
  { withPost (.bound 1) with posts := Vector.replicate 64 (some (emptyPost (.bound 1))) }

theorem one_key (b : Binding) : (withPost b).KeysDistinct ∧
    ∀ (q : PostNo) (r : Post), (withPost b).posts[q] = some r → r.key = 0x4001#16 := by
  have h : ∀ q : PostNo, q ≠ 10 → (withPost b).posts[q] = none := by
    intro q hq
    have e : (withPost b).posts = put ready.posts 10 (some (freshPost b)) := rfl
    have n : ∀ q : PostNo, ready.posts[q] = none := by decide +kernel
    have hne : (10 : PostNo).val ≠ q.val := fun he => hq (Fin.ext he.symm)
    rw [e]
    simp only [Fin.getElem_fin, getElem_put, if_neg hne]
    exact n q
  have hv : (withPost b).posts[(10 : PostNo)] = some (freshPost b) := by
    simp [withPost]
  constructor
  · intro p q r t hp hq _
    by_cases h1 : p = 10 <;> by_cases h2 : q = 10
    · rw [h1, h2]
    · rw [h q h2] at hq; exact absurd hq (by simp)
    · rw [h p h1] at hp; exact absurd hp (by simp)
    · rw [h p h1] at hp; exact absurd hp (by simp)
  · intro q r hq
    by_cases h1 : q = 10
    · subst h1
      rw [hv, Option.some_inj] at hq
      subst hq; rfl
    · rw [h q h1] at hq; exact absurd hq (by simp)

theorem test_meets_DeclareOccupiesOrIsRefused :
    ((withPost (.bound 1)).Ready 0 ∧ (withPost (.bound 1)).attached 0 = true ∧
        (Request.declare .any 0xFFFE#16 60 60000#16 .forward).legal = true ∧
        (∀ (q : PostNo) (r : Post), (withPost (.bound 1)).posts[q] = some r → r.key ≠ 0xFFFE#16) ∧
        (withPost (.bound 1)).posts[(0 : PostNo)] = none ∧
        ∀ q : PostNo, q < 0 → (withPost (.bound 1)).posts[q] ≠ none) ∧
      ((withPost (.bound 1)).posts[(63 : PostNo)] = none ∧
        (Request.declare (.post 63) 1#16 0 0#16 .auto).legal = true) ∧
      ((withPost (.bound 1)).KeysDistinct ∧
        (withPost (.bound 1)).posts[(10 : PostNo)] = some (freshPost (.bound 1)) ∧
        (freshPost (.bound 1)).key = 0x4001#16) ∧
      (withPost (.bound 1)).posts[(10 : PostNo)] ≠ none ∧
      (full.Ready 0 ∧ full.attached 0 = true ∧ (∀ p : PostNo, full.posts[p] ≠ none) ∧
        ∀ (q : PostNo) (r : Post), full.posts[q] = some r → r.key ≠ 0xFFFE#16) := by
  refine ⟨⟨by decide +kernel, by decide +kernel, by decide +kernel, fun q r h => ?_, by decide +kernel,
    by decide +kernel⟩, by decide +kernel, ⟨(one_key _).1, by decide +kernel, rfl⟩, by decide +kernel,
    by decide +kernel, by decide +kernel, by decide +kernel, forall_entries (by decide +kernel)⟩
  rw [(one_key _).2 q r h]; decide

theorem test_meets_DescribeReportsPost :
    ((withPost (.bound 1)).Ready 0 ∧ (withPost (.bound 1)).attached 0 = true ∧
        (withPost (.bound 1)).posts[(10 : PostNo)] = some (freshPost (.bound 1)) ∧
        (withPost (.bound 1)).posts[(63 : PostNo)] = none) ∧
      (isKey 0x4001#16 = true ∧ (withPost (.bound 1)).KeysDistinct ∧ (freshPost (.bound 1)).key = 0x4001#16) ∧
      (isKey 0xFFFE#16 = true ∧
        ∀ (q : PostNo) (r : Post), (withPost (.bound 1)).posts[q] = some r → r.key ≠ 0xFFFE#16) ∧
      let s := atTime 11#32 calm
      s.Ready 0 ∧ s.attached 0 = true ∧ s.TimersAhead ∧ (s.posts[(10 : PostNo)]).bind Post.deadline = some s.now := by
  refine ⟨by decide +kernel, ⟨by decide, (one_key _).1, rfl⟩, ⟨by decide, fun q r h => ?_⟩, by decide +kernel,
    by decide +kernel, timers_ahead (.inr rfl), by decide +kernel⟩
  rw [(one_key _).2 q r h]; decide

theorem test_meets_FreshnessExpiryMakesStale :
    (atTime 11#32 busy).posts[(10 : PostNo)] =
        some { freshPost (.bound 1) with inFlight := some { frame := 4, port := 1 } } ∧
      (freshPost (.bound 1)).deadline = some 11#32 ∧ (atTime 11#32 busy).now = 11#32 := by decide +kernel

/-- `withPost (.bound 0)` with the free list as said. -/
def withFree (free : List FrameNo) : State :=
  { withPost (.bound 0) with pool := { (withPost (.bound 0)).pool with free := free } }

/-- The longest payload; a notice due, and none due; and each refusal. -/
theorem test_meets_PublishStagesFrameOrIsRefused :
    (let s := withFree [61, 62, 63, 64, 65, 66, 67, 68, 69];
      s.Ready 0 ∧ s.attached 0 = true ∧ s.posts[(10 : PostNo)] = some (freshPost (.bound 0)) ∧
        (freshPost (.bound 0)).binding = .bound 0 ∧ (List.replicate 60 0#8).length ≤ 60 ∧
        (List.replicate 60 0#8).length ≤ (freshPost (.bound 0)).capacity ∧
        s.pool.free = 61 :: [62, 63, 64, 65, 66, 67, 68, 69] ∧ s.pool.armed = true ∧ s.pool.mark ≠ 0 ∧
        [62, 63, 64, 65, 66, 67, 68, 69].length ≤ s.pool.mark) ∧
      (let s := withFree [60, 61, 62, 63, 64, 65, 66, 67, 68, 69];
        s.Ready 0 ∧ s.pool.free = 60 :: [61, 62, 63, 64, 65, 66, 67, 68, 69] ∧
          ¬ [61, 62, 63, 64, 65, 66, 67, 68, 69].length ≤ s.pool.mark) ∧
      (ready.Ready 0 ∧ ready.posts[(63 : PostNo)] = none) ∧
      ((withPost (.bound 1)).Ready 0 ∧
        (withPost (.bound 1)).posts[(10 : PostNo)] = some (freshPost (.bound 1)) ∧
        (freshPost (.bound 1)).binding ≠ .bound 0) ∧
      (let s := { ready with posts := put ready.posts 0 (some (emptyPost (.bound 0))) };
        s.Ready 0 ∧ s.posts[(0 : PostNo)] = some (emptyPost (.bound 0)) ∧
          (emptyPost (.bound 0)).capacity < [1#8, 2#8].length) ∧
      (withFree []).Ready 0 ∧ (withFree []).posts[(10 : PostNo)] = some (freshPost (.bound 0)) ∧
        (withFree []).pool.free = [] := by decide +kernel

/-- Port 0's publication at its write, not overtaken or overtaken, in a state that its post agrees with. -/
def writing (o : Option OvertakeCause) : State :=
  { withPort (carrying .executing .none false .publish) with
    posts := put ready.posts 10 (some { freshPost (.bound 0) with inFlight := some { frame := 4, port := 0 } })
    slots := put ready.slots 0 (some (publication o))
    array := { mem := [], access := some (.write 0) } }

theorem test_meets_GoodWriteCommits :
    let s := writing none
    s.array.access = some (.write 0) ∧ s.slots[(0 : Port)] = some (publication none) ∧
      s.posts[(10 : PostNo)] = some { freshPost (.bound 0) with inFlight := some { frame := 4, port := 0 } } ∧
      s.ports[(0 : Port)].outstanding.isSome ∧ s.reads[(0 : Port)] = none ∧
      disturbed (rowOf 10 [0xAA#8]) [] = rowOf 10 [0xAA#8] := by decide +kernel

/-- A FAULT, and a publication overtaken. -/
theorem test_meets_FaultyOrOvertakenWriteCommitsNothing :
    ((writing none).array.access = some (.write 0) ∧ (writing none).slots[(0 : Port)] = some (publication none) ∧
        (writing none).ports[(0 : Port)].outstanding.isSome ∧ (writing none).reads[(0 : Port)] = none ∧
        disturbed (rowOf 10 [0xAA#8]) [1#8] ≠ rowOf 10 [0xAA#8] ∧ (writing none).posts[(10 : PostNo)] =
          some { freshPost (.bound 0) with inFlight := some { frame := 4, port := 0 } }) ∧
      (writing (some .session)).array.access = some (.write 0) ∧
        (writing (some .session)).slots[(0 : Port)] = some (publication (some .session)) ∧
        (writing (some .session)).ports[(0 : Port)].outstanding.isSome ∧
        (writing (some .session)).reads[(0 : Port)] = none := by decide +kernel

theorem test_meets_ReadAndReadHeldPinFrame :
    (ready.Ready 0 ∧ ready.attached 0 = true ∧ ready.posts[(0 : PostNo)] = none) ∧
      (let s := { ready with posts := put ready.posts 0 (some (emptyPost (.bound 0))) };
        s.Ready 0 ∧ s.posts[(0 : PostNo)] = some (emptyPost (.bound 0)) ∧ (emptyPost (.bound 0)).current = none) ∧
      ((withPost (.bound 1)).Ready 0 ∧
        (withPost (.bound 1)).posts[(10 : PostNo)] = some (freshPost (.bound 1)) ∧
        (freshPost (.bound 1)).current = some { frame := 3, length := 2, stamp := 0#32 }) ∧
      ready.holds[(0 : Port)][(7 : HoldNo)] = none ∧
      ((({ ready with holds := put ready.holds 0 busy.holds[(3 : Port)] } : State).holds[(0 : Port)][(0 : HoldNo)]).isSome ∧
        ({ ready with holds := put ready.holds 0 busy.holds[(3 : Port)] } : State).Ready 0) := by decide +kernel

/-- Port 0's read of frame 3 at the array, whose row holds the bytes said. -/
def reading (phase : ReadPhase) (cut suspect : Bool) (row : List Byte) (x : PortInterface) : State :=
  { withPost (.bound 2) with
    reads := put ready.reads 0 (some (record phase cut))
    ports := put ready.ports 0 x
    pool := { (withPost (.bound 2)).pool with frames := put ready.pool.frames 3 { refs := 2, suspect := suspect } }
    array := { mem := Memory.writeAll 192 row [], access := some (.read 0) } }

/-- A GOOD row on a sound frame, a row of another post, a GOOD row on a suspect frame, for an interface that waits and
one that discards; the damaged post names the frame, or it is gone; and a read cut off. -/
theorem test_meets_ReadCompletionAnswers :
    let good := rowOf 10 [1#8, 2#8]
    let waits := carrying .executing .none false .read
    let drains := carrying .draining .none true .read
    (let s := reading .reading false false good waits;
      s.array.access = some (.read 0) ∧ s.reads[(0 : Port)] = some (record .reading false) ∧
        s.ports[(0 : Port)].outstanding.isSome ∧ s.ports[(0 : Port)].discard = false ∧
        rowAgrees (readRow s.epoch 3 s.array.mem) 2 10 = true ∧ s.pool.frames[(3 : FrameNo)].suspect = false) ∧
      (let s := reading .reading false false (rowOf 11 [1#8, 2#8]) drains;
        s.array.access = some (.read 0) ∧ s.reads[(0 : Port)] = some (record .reading false) ∧
          s.ports[(0 : Port)].outstanding.isSome ∧ s.ports[(0 : Port)].discard = true ∧
          rowAgrees (readRow s.epoch 3 s.array.mem) 2 10 = false ∧
          s.posts[(10 : PostNo)] = some (freshPost (.bound 2)) ∧
          (freshPost (.bound 2)).current.map Current.frame = some 3 ∧ (freshPost (.bound 2)).condition ≠ .damaged) ∧
      (let s := { reading .reading false true good waits with posts := ready.posts };
        s.reads[(0 : Port)] = some (record .reading false) ∧ s.pool.frames[(3 : FrameNo)].suspect = true ∧
          s.posts[(10 : PostNo)] = none) ∧
      (record .reading false).phase = .reading ∧ (record .reading false).cutOff = false ∧
      (let s := reading .reading true false good waits;
        s.array.access = some (.read 0) ∧ s.reads[(0 : Port)] = some (record .reading true) ∧
          (record .reading true).cutOff = true ∧ s.ports[(0 : Port)].outstanding.isSome) := by decide +kernel

/-- Eight posts with eight holds unused, and one with none. -/
theorem test_meets_SnapshotHoldsListedPosts :
    let all : State := { ready with
      holds := put ready.holds 0 (Vector.replicate 8 busy.holds[(3 : Port)][(0 : HoldNo)]) }
    (ready.Ready 0 ∧ ready.attached 0 = true ∧ 1 ≤ (List.range 8).length ∧ (List.range 8).length ≤ 8 ∧
        ([0, 1, 2, 3, 4, 5, 6, 7] : List PostNo).Nodup ∧
        8 ≤ ((List.finRange 8).filter fun h : HoldNo => (ready.holds[(0 : Port)][h]).isNone).length) ∧
      all.Ready 0 ∧ ([63] : List PostNo).Nodup ∧
        ((List.finRange 8).filter fun h : HoldNo => (all.holds[(0 : Port)][h]).isNone).length < 1 := by
  decide +kernel

theorem test_meets_ReleaseFreesFlaggedHolds : busy.Ready 0 ∧ busy.attached 0 = true := by decide +kernel

theorem test_meets_MatchUnitChoosesRecipients :
    let f (mask : Half) : Filter :=
      { value := 0x4000#16, mask := mask, updates := true, lifecycle := true, echo := false }
    (f 0#16).mask = 0x0000#16 ∧ (f 0xFFFF#16).mask = 0xFFFF#16 := by decide

theorem test_meets_FilterSetAndClearChangeFilters : ready.Ready 0 ∧ ready.attached 0 = true := by decide +kernel

/-- An UPDATE at a count of 255 and a SOLICIT at one of 16, for one post in one queue. -/
theorem test_meets_WaitingNoticesCoalesce :
    let u : Notice := .update 7 9#16 42#16 255
    let v : Notice := .solicit 7 9#16 1#8 16
    let q : NoticeQueue := { entries := [.lapse 1, u, v], lost := some 65535 }
    ((∀ e ∈ [.lapse 1] ++ [v], Notice.isUpdateOf 7 e = false) ∧ q.entries = [.lapse 1] ++ u :: [v]) ∧
      (∀ e ∈ [.lapse 1, u] ++ [], Notice.isSolicitOf 7 e = false) ∧ q.entries = [.lapse 1, u] ++ v :: [] := by
  decide +kernel

/-- A STALE for a queue with a marker at 65535, for one of 31 entries, and for one of 30. -/
theorem test_meets_NewNoticeAppendedOrCounted :
    let x : Notice := .stale 12 1#16
    let q (k : Nat) (lost : Option Nat) : NoticeQueue := { entries := List.replicate k (.lapse 1), lost := lost }
    (∀ ticket p o g, x ≠ .answer ticket p o g) ∧ (∀ p : PostNo, x.isUpdateOf p = false ∧ x.isSolicitOf p = false) ∧
      (q 31 (some 65535)).lost = some 65535 ∧ ((q 31 none).lost = none ∧ 31 ≤ (q 31 none).entries.length) ∧
      (q 30 none).lost = none ∧ (q 30 none).entries.length < 31 := by
  refine ⟨fun _ _ _ _ h => ?_, by decide⟩
  cases h

theorem test_meets_TakeRemovesOldestThenDelivers :
    busy.Ready 0 ∧ busy.attached 0 = true ∧ busy.TicketsLawful := by
  refine ⟨by decide +kernel, by decide +kernel, ?_⟩
  unfold State.TicketsLawful; decide +kernel

/-- Fifteen entries with the tickets 1 to 15 and the counter at 0: the table's last free place. -/
def fifteen : RequestTable :=
  { pending := (List.range 15).map fun i =>
      { ticket := BitVec.ofNat 8 (i + 1), requester := 0, post := 0, genAtAsk := 0#16, deadline := 0#32 }
    undelivered := [], counter := 0#8 }

theorem test_meets_TicketIsFirstFreeValue :
    fifteen.pending.length + fifteen.undelivered.length < 16 ∧ fifteen.nextTicket = 16#8 := by decide +kernel

/-- A post of another port: AUTO, FRESH and one millisecond older than the maximum age; and an EMPTY one. -/
theorem test_meets_AskMakesEntry :
    let s := atTime 6#32 (withPost (.bound 1))
    s.Ready 0 ∧ s.attached 0 = true ∧ 1#16 ≠ 0#16 ∧
      s.posts[(10 : PostNo)] = some (freshPost (.bound 1)) ∧ (freshPost (.bound 1)).binding = .bound 1 ∧
      (1 : Port) ≠ 0 ∧ (∀ c ∈ (freshPost (.bound 1)).current, (5#16).toNat < (s.now - c.stamp).toNat) ∧
      (∀ e ∈ s.requests.pending, e.requester = 0 → e.post ≠ 10) ∧
      (∀ e ∈ s.requests.undelivered, e.requester = 0 → e.post ≠ 10) ∧
      s.requests.pending.length + s.requests.undelivered.length < 16 ∧
      (s.requests.pending.countP fun e => decide (e.requester = 0)) +
        (s.requests.undelivered.countP fun e => decide (e.requester = 0)) < 8 := by decide +kernel

/-- Sixteen entries of four ports, none of port 0 on post 10, and eight of port 0. -/
def asks (k : Nat) (n : Port) : RequestTable :=
  { pending := (List.range k).map fun i =>
      { ticket := BitVec.ofNat 8 (i + 1), requester := n, post := 20, genAtAsk := 0#16, deadline := 0#32 }
    undelivered := [], counter := 0#8 }

/-- Each answer without an entry: VACANT, BOUND to the asker, ORPHANED, as old as the maximum age, asked before, the
table full, the port's share full. -/
theorem test_meets_AskAnsweredWithoutEntry :
    let late (x : RequestTable) : State := { atTime 6#32 (withPost (.bound 1)) with requests := x }
    (ready.Ready 0 ∧ ready.attached 0 = true ∧ 1#16 ≠ 0#16 ∧ ready.posts[(63 : PostNo)] = none) ∧
      ((withPost (.bound 0)).Ready 0 ∧ (freshPost (.bound 0)).binding = .bound 0) ∧
      ((withPost (.orphaned 0)).Ready 0 ∧ (freshPost (.orphaned 0)).binding = .orphaned 0) ∧
      ((late (asks 0 0)).Ready 0 ∧ (freshPost (.bound 1)).mode = .auto ∧
        (freshPost (.bound 1)).condition = .fresh ∧
        ∀ c ∈ (freshPost (.bound 1)).current, ((late (asks 0 0)).now - c.stamp).toNat ≤ (6#16).toNat) ∧
      (∀ c ∈ (freshPost (.bound 1)).current, ¬ ((late (asks 0 0)).now - c.stamp).toNat ≤ (5#16).toNat) ∧
      ((atTime 6#32 busy).Ready 0 ∧ (∃ e ∈ (atTime 6#32 busy).requests.pending,
          e.requester = 0 ∧ e.post = 10 ∧ e.ticket = 1#8) ∧ (atTime 6#32 busy).requests.askers.Nodup) ∧
      ((∀ e ∈ (late (asks 16 1)).requests.pending, ¬ (e.requester = 0 ∧ e.post = 10)) ∧
        16 ≤ (late (asks 16 1)).requests.pending.length + (late (asks 16 1)).requests.undelivered.length) ∧
      (∀ e ∈ (late (asks 8 0)).requests.pending, ¬ (e.requester = 0 ∧ e.post = 10)) ∧
        (late (asks 8 0)).requests.pending.length + (late (asks 8 0)).requests.undelivered.length < 16 ∧
        8 ≤ ((late (asks 8 0)).requests.pending.countP fun e => decide (e.requester = 0)) +
          ((late (asks 8 0)).requests.undelivered.countP fun e => decide (e.requester = 0)) := by decide +kernel

/-- An UNDELIVERED entry of port 0 with ticket 255. -/
def undelivered : RequestTable :=
  { pending := [], counter := 255#8
    undelivered := [{ ticket := 255#8, requester := 0, post := 10, genAtAsk := 5#16, outcome := .delivered 6#16 }] }

theorem test_meets_CancelRemovesEntry :
    (busy.Ready 0 ∧ busy.attached 0 = true ∧ busy.TicketsLawful ∧
        ∃ e ∈ busy.requests.pending, e.ticket = 1#8 ∧ e.requester = 0) ∧
      (let s : State := { ready with requests := undelivered };
        s.Ready 0 ∧ s.attached 0 = true ∧ s.TicketsLawful ∧
          ∃ e ∈ s.requests.undelivered, e.ticket = 255#8 ∧ e.requester = 0) ∧
      (∀ e ∈ busy.requests.pending, e.ticket = 2#8 → e.requester ≠ 0) ∧
        ∀ e ∈ busy.requests.undelivered, e.ticket = 2#8 → e.requester ≠ 0 := by
  unfold State.TicketsLawful; decide +kernel

/-- A queue with room, and one of 31 entries. -/
theorem test_meets_AskDeadlineTimesOut :
    let s := atTime 10#32 busy
    let e : PendingAsk := { ticket := 1#8, requester := 0, post := 10, genAtAsk := 5#16, deadline := 9#32 }
    let u := s.setQueues (put s.queues 0 { entries := List.replicate 31 (.lapse 1), lost := none })
    (s.TicketsLawful ∧ e ∈ s.requests.pending ∧ s.attached e.requester = true ∧ s.now = e.deadline + 1#32 ∧
        s.queues[e.requester].entries.length < 31 ∧ s.queues[e.requester].lost = none) ∧
      u.TicketsLawful ∧ e ∈ u.requests.pending ∧ u.attached e.requester = true ∧ u.now = e.deadline + 1#32 ∧
        31 ≤ u.queues[e.requester].entries.length := by
  unfold State.TicketsLawful; decide +kernel

theorem test_meets_PoolStatusAndMark :
    ready.Ready 0 ∧ ready.attached 0 = true ∧ 32 ≤ 32 ∧ ready.sessions[(0 : Port)].role = .supervisor := by
  decide +kernel

theorem test_meets_ReleaseReturnsFrameAtZero :
    busy.pool.frames[(3 : FrameNo)].refs = 0 + 2 ∧ busy.pool.frames[(4 : FrameNo)].refs = 1 := by decide +kernel

/-- Debt 5; no port waiting; the last port in turn, for a write and for a read; nothing waiting. -/
theorem test_meets_ArrayGrantFollowsPolicy :
    let s (places : Vector (Option PortRequest) 4) (standing : Bool) (debt : Nat) : State := { ready with
      arbiter := { places := places, refreshPlace := standing, lastGranted := 3 }
      refresh := { pointer := 0, debt := debt, lapseCount := 0 } }
    (∀ places standing debt, (s places standing debt).array.access = none) ∧
      (s #v[some .read, none, none, none] true 5).arbiter.refreshPlace = true ∧
      (∀ n : Port, (s #v[none, none, none, none] true 1).arbiter.places[n] = none) ∧
      (∀ k : PortRequest, let u := s #v[none, none, none, some k] true 4;
        u.refresh.debt < 5 ∧ (3 : Port) = u.arbiter.lastGranted + 1 + 3 ∧ u.arbiter.places[(3 : Port)] = some k ∧
          ∀ i : Fin 4, i < 3 → u.arbiter.places[u.arbiter.lastGranted + 1 + i] = none) ∧
      (s #v[none, none, none, none] false 0).arbiter.refreshPlace = false := by
  refine ⟨fun _ _ _ => rfl, by decide +kernel, by decide +kernel, fun k => ?_, by decide +kernel⟩
  cases k <;> decide +kernel

theorem nothing_to_take {s : State} (h : s.expiryOutstanding = false) : ¬ s.ExpiryToTake := by
  rw [← expiryOutstanding_iff, h]; decide

/-- The count of ticks as said, one millisecond before the device time goes back to 0. -/
def ticking (phase : Nat) (owed : Bool) : State := bare.setTime
  { deviceTime := 0xFFFFFFFF#32, phase := phase, tickOwed := owed, division := 500 }

/-- Ticks at the counts 15 and 0, the latter owed; none in device reset, at 16, and before the expiry of a deadline. -/
theorem test_meets_RefreshPaysDebt :
    ((ticking 15 false).inDeviceReset = false ∧ (ticking 15 false).refresh.debt < 8 ∧
        (ticking 15 false).time.phase < 16 ∧ ¬ (ticking 15 false).ExpiryToTake) ∧
      (ticking 0 true).time.tickOwed = true ∧
      ((ticking 16 false).time.tickOwed = false ∧ 16 ≤ (ticking 16 false).time.phase) ∧
      ((atTime 11#32 ready).time.tickOwed = false ∧ (atTime 11#32 (withPost (.bound 1))).ExpiryToTake) ∧
      (after .deviceReset ready).inDeviceReset = true ∧
      ({ ready with refresh := { pointer := 0, debt := 7, lapseCount := 0 } } : State).refresh.debt < 8 ∧
      ({ ready with array := { mem := [], access := some (.refresh 95) } } : State).array.access =
        some (.refresh 95) := by
  refine ⟨⟨by decide +kernel, by decide +kernel, by decide, nothing_to_take (by decide +kernel)⟩, rfl, by decide,
    ⟨rfl, (expiryOutstanding_iff _).1 (by decide +kernel)⟩, by decide +kernel, by decide, by decide +kernel⟩

theorem test_meets_LapseDamagesEverything :
    let s : State := { withPost (.bound 2) with refresh := { pointer := 10, debt := 8, lapseCount := 255 } }
    (s.inDeviceReset = false ∧ s.time.phase < 16 ∧ ¬ s.ExpiryToTake ∧ s.refresh.debt = 8 ∧
        (Instr.lapse = .lapse ∨ Instr.lapse = .refreshTick)) ∧ ready.refresh.debt < 8 :=
  ⟨⟨by decide +kernel, by decide, nothing_to_take (by decide +kernel), rfl, .inl rfl⟩, by decide⟩

/-- Both orders of the boundary and its tick; each reason for which no boundary comes; a lawful state that steps. -/
theorem test_meets_MillisecondFollowsSixteenTicks :
    ((ticking 15 false).inDeviceReset = false ∧ (ticking 15 false).time.tickOwed = false ∧
        15 ≤ (ticking 15 false).time.phase ∧ ¬ (ticking 15 false).ExpiryToTake) ∧
      (15 ≤ (ticking 16 false).time.phase ∧ ¬ (ticking 16 false).ExpiryToTake) ∧
      (ticking 16 true).time.tickOwed = true ∧ (ticking 14 false).time.phase < 15 ∧
      (atTime 11#32 (withPost (.bound 1))).ExpiryToTake ∧ (after .deviceReset ready).inDeviceReset = true ∧
      let s := atTime 10#32 calm
      s.TimeLawful ∧ ∃ t, step s = .next t := by
  refine ⟨⟨by decide +kernel, rfl, by decide, nothing_to_take (by decide +kernel)⟩,
    ⟨by decide, nothing_to_take (by decide +kernel)⟩, rfl, by decide, (expiryOutstanding_iff _).1 (by decide +kernel),
    by decide +kernel, ⟨by decide +kernel, fun _ => by decide +kernel, fun h => ?_, timers_ahead (.inl rfl)⟩,
    _, rfl⟩
  exact absurd h (by decide +kernel)

end Sys2Proof.Tests
end

section
/-!
The release of a claim on a frame (R49, R55): the equation of `Pool.release` for each count it can find, one lemma
per branch, so that a proof about a release cites the count and does not unfold the definition.
-/
namespace Sys2Proof.Machine
open Sys2Proof

/-- The frame stays in use (R49). -/
theorem Pool.release_of_refs_eq_add_two {x : Pool} {f : FrameNo} {k : Nat} (hrefs : x.frames[f].refs = k + 2) :
    x.release f = { x with frames := put x.frames f { x.frames[f] with refs := k + 1 } } := by
  simp only [Pool.release, hrefs]

/-- The frame joins the tail of the free list, and the test of R55 is made on the count after the release. -/
theorem Pool.release_of_refs_eq_one {x : Pool} {f : FrameNo} (hrefs : x.frames[f].refs = 1) :
    x.release f =
      { x with
        frames := put x.frames f { refs := 0, suspect := false }
        free := x.free ++ [f]
        armed := x.armed || decide (x.mark + Config.rearmMargin ≤ x.free.length + 1) } := by
  simp only [Pool.release, hrefs, List.length_append, List.length_singleton]

/-- Settles O56, from the two equations of a release; R55's margin over the mark is 4. -/
theorem releaseReturnsFrameAtZero : Obligations.ReleaseReturnsFrameAtZero := by
  intro x f
  exact ⟨fun _ hrefs => Pool.release_of_refs_eq_add_two hrefs, fun hrefs => Pool.release_of_refs_eq_one hrefs⟩

end Sys2Proof.Machine
end

section
/-!
PING (R123): the two answers of the session controller, the state that it reads being the one after the lease report
of R121, and the arguments that are refused.
-/
namespace Sys2Proof.Machine
open Sys2Proof

/-- The lease report restarts the timer and leaves the lease period (R121). -/
theorem taking_lease (s : State) (n : Port) : (s.taking n).sessions[n].lease = s.sessions[n].lease := by
  simp [renewed_lease]

theorem pingTaken_of_attached {s : State} {n : Port} (h : s.attached n = true) :
    pingTaken n s = (s, .done .ok ([0x01#8, s.sessions[n].role.code] ++ be16 s.sessions[n].lease)) :=
  if_pos h

theorem pingTaken_of_detached {s : State} {n : Port} (h : s.attached n = false) :
    pingTaken n s = (s, .done .ok [0x00#8]) :=
  if_neg (by rw [h]; exact Bool.false_ne_true)

/-- PING without arguments is accepted from a port in either session state. -/
theorem takeCommand_ping (n : Port) (s : State) : takeCommand n .ping [] s = pingTaken n s :=
  run_legal (r := .ping) rfl rfl nofun nofun

theorem parseRequest_ping_eq_none {args : List Byte} (h : args ≠ []) : parseRequest .ping args = none := by
  cases args with
  | nil => exact absurd rfl h
  | cons b bs => rfl

/-- Argument bytes that spell no request are refused before any state is looked at (R154). -/
theorem takeCommand_eq_badarg {s : State} {n : Port} {c : Command} {args : List Byte}
    (h : parseRequest c args = none) : takeCommand n c args s = (s, .done .badarg []) := by
  simp only [takeCommand, h]

theorem ping_reports_attached {s : State} {n : Port} (tag : Byte) (hready : s.Ready n) (h : s.attached n = true) :
    AnsweredOnly s (s.arriveRequest n .ping tag []) n tag .ping .ok
      ([0x01#8, s.sessions[n].role.code] ++ be16 s.sessions[n].lease) := by
  refine answeredOnly_of hready tag (Nat.zero_le _) ?_
  rw [takeCommand_ping, pingTaken_of_attached ((congrFun (taking_attached s n) n).trans h), taking_role, taking_lease]

theorem ping_reports_detached {s : State} {n : Port} (tag : Byte) (hready : s.Ready n) (h : s.attached n = false) :
    AnsweredOnly s (s.arriveRequest n .ping tag []) n tag .ping .ok [0x00#8] := by
  refine answeredOnly_of hready tag (Nat.zero_le _) ?_
  rw [takeCommand_ping, pingTaken_of_detached ((congrFun (taking_attached s n) n).trans h)]

theorem ping_refuses_arguments {s : State} {n : Port} (tag : Byte) {args : List Byte} (hready : s.Ready n)
    (hne : args ≠ []) (hlen : args.length ≤ Config.maxArgumentLength) :
    AnsweredOnly s (s.arriveRequest n .ping tag args) n tag .ping .badarg [] :=
  answeredOnly_of hready tag hlen (takeCommand_eq_badarg (parseRequest_ping_eq_none hne))

/-- Settles O27: on a port at the start of a request, the arrival of the frame is the taking of the command, so each
case is what PING answers when it is taken. -/
theorem pingReportsSession : Obligations.PingReportsSession := by
  intro s n tag hready
  refine ⟨fun hattached => ⟨_, rfl, ?_⟩, fun hdetached => ⟨_, rfl, ?_⟩, fun args hne hlen => ⟨_, rfl, ?_⟩⟩
  · exact ping_reports_attached tag hready hattached
  · exact ping_reports_detached tag hready hdetached
  · exact ping_refuses_arguments tag hready hne hlen

end Sys2Proof.Machine
end

section
/-!
The laws of the single post record (R2, R10, R23), as rules of `RecordRules`: each change that a command makes to a
record keeps them.
-/
namespace Sys2Proof.Machine
open Sys2Proof

/-! ### The changes of a record -/

theorem nextGeneration_ne_zero (g : Half) : nextGeneration g ≠ 0#16 := by
  unfold nextGeneration
  split_ifs with h
  · decide
  · intro hc
    bv_omega

@[simp] theorem Condition.demoted_eq_empty {c : Condition} : c.demoted = .empty ↔ c = .empty := by
  cases c <;> simp [Condition.demoted]

@[simp] theorem Condition.demoted_eq_damaged {c : Condition} : c.demoted = .damaged ↔ c = .damaged := by
  cases c <;> simp [Condition.demoted]

/-- R2 and R10 of one record; neither looks at the sessions. -/
def RecordLaw (_ : Port → Bool) (r : Post) : Prop := r.lawful ∧ r.deadlineLawful

/-- A post loses its deadline, and its condition takes another value of the same standing under R2. -/
theorem Post.lawful_demoted {r : Post} (h : r.lawful) (b : Binding) (i : Option InFlight) :
    Post.lawful { r with binding := b, condition := r.condition.demoted, deadline := none, inFlight := i } := by
  simpa [Post.lawful] using h

theorem recordLaw_rules : RecordRules RecordLaw where
  mono _ _ _ _ h := h
  declared _ _ _ _ _ _ _ := by simp [RecordLaw, declaredPost, Post.lawful]
  flight _ _ _ h := h
  adopt a r n m _ hb := by
    rintro ⟨hlaw, hdead⟩
    refine ⟨hlaw, fun hd => ?_⟩
    have := (hdead hd).1
    rw [hb] at this
    cases this
  takeover _ r n _ h := ⟨Post.lawful_demoted h.1 _ _, nofun⟩
  orphan _ _ n r _ h := by
    unfold Post.orphanedFrom
    split_ifs
    · exact ⟨Post.lawful_demoted h.1 _ _, nofun⟩
    · exact h
  lapsed _ r h := by
    obtain ⟨⟨hgen, hcur, hdam⟩, hdead⟩ := h
    unfold Post.lapsed
    split_ifs with hc
    · have hne : r.condition ≠ .empty := fun he => by simp [hcur.1 he] at hc
      refine ⟨⟨?_, ?_, ?_⟩, nofun⟩ <;> simp_all
    · exact ⟨⟨hgen, hcur, hdam⟩, hdead⟩
  stale _ r e he h := by
    obtain ⟨⟨hgen, hcur, hdam⟩, hdead⟩ := h
    obtain ⟨-, hfresh, -⟩ := hdead (by rw [he]; rfl)
    refine ⟨⟨?_, ?_, ?_⟩, nofun⟩ <;> simp_all
  damaged _ r c hsome hne h := by
    obtain ⟨⟨hgen, hcur, hdam⟩, -⟩ := h
    have hne' : r.condition ≠ .empty := fun he => by simp [hcur.1 he] at hsome
    refine ⟨⟨?_, ?_, ?_⟩, nofun⟩ <;> simp_all

/-- A commit of a post that is BOUND keeps R2 and R10. -/
theorem recordLaw_committed {a : Port → Bool} {r : Post} {n : Port} (hb : r.binding = .bound n) (f : FrameNo)
    (k : Nat) (now : Time) : RecordLaw a (r.committed f k now) := by
  refine ⟨⟨?_, ?_, ?_⟩, fun hd => ?_⟩
  · simp [Post.committed, nextGeneration_ne_zero]
  · simp [Post.committed]
  · simp [Post.committed]
  · refine ⟨by simp [Post.committed, hb, Binding.boundPort], rfl, fun hp => ?_⟩
    simp only [Post.committed, show r.period = 0#16 from hp, if_true, Option.isSome_none] at hd
    cases hd

/-- Settles O4: the rules of records, with R27 for the post of a publication that commits. -/
theorem stepKeepsPostLaw : Obligations.StepKeepsPostLaw := by
  intro s t hposts hflight hstep
  refine (records_kept recordLaw_rules).events.step (fun _ _ h => h) s t hposts (fun n d x _ => ?_) hstep
  refine records_write recordLaw_rules hposts fun y r hslot hlive hpost => ?_
  obtain ⟨r', hr', -, hbound⟩ := hflight.1 n y hslot hlive
  rw [show s.posts[y.post] = some r from hpost, Option.some_inj] at hr'
  exact recordLaw_committed (hr' ▸ hbound) _ _ _

/-! ### R23: BOUND posts and ATTACHED ports -/

/-- A BOUND record names an ATTACHED port. -/
def BindingLaw (a : Port → Bool) (r : Post) : Prop := ∀ n : Port, r.binding = .bound n → a n = true

theorem boundAttached_iff (s : State) : s.BoundAttached ↔ s.Records BindingLaw :=
  ⟨fun h p r hr n hb => h p r n hr hb, fun h p r n hr hb => h p r hr n hb⟩

theorem bindingLaw_bound {a : Port → Bool} {r : Post} {n : Port} (ha : a n = true) (hb : r.binding = .bound n) :
    BindingLaw a r := by
  intro m hm
  rw [hb, Binding.bound.injEq] at hm
  exact hm ▸ ha

theorem bindingLaw_rules : RecordRules BindingLaw where
  mono _ _ _ hab h n hb := hab n (h n hb)
  declared _ _ _ _ _ _ ha := bindingLaw_bound ha rfl
  flight _ _ _ h := h
  adopt _ _ _ _ ha _ _ := bindingLaw_bound ha rfl
  takeover _ _ _ ha _ := bindingLaw_bound ha rfl
  orphan a b n r hab h := by
    unfold Post.orphanedFrom
    split_ifs with hb
    · exact nofun
    · intro m hm
      refine hab m (fun hmn => hb ?_) (h m hm)
      simp [Post.boundTo, hm, hmn]
  lapsed _ r h := by unfold Post.lapsed; split_ifs <;> exact h
  stale _ _ _ _ h := h
  damaged _ _ _ _ _ h := h

theorem step_keeps_boundAttached {s t : State} (h : s.BoundAttached) (hstep : step s = .next t) :
    t.BoundAttached := by
  rw [boundAttached_iff] at h ⊢
  refine (records_kept bindingLaw_rules).events.step (fun _ _ h => h) s t h (fun n d x _ => ?_) hstep
  exact records_write bindingLaw_rules h fun y r _ _ hpost => h y.post r hpost

/-! ### R4: distinct keys -/

/-- Every occupied post of `t` was occupied in `s`, with the same key. -/
def KeysFrom (s t : State) : Prop :=
  ∀ (p : PostNo) (r : Post), t.posts[p] = some r → ∃ r₀, s.posts[p] = some r₀ ∧ r₀.key = r.key

theorem State.KeysDistinct.of_keysFrom {s t : State} (h : s.KeysDistinct) (hst : KeysFrom s t) : t.KeysDistinct := by
  intro p q r u hp hq hk
  obtain ⟨r₀, hr₀, ekr⟩ := hst p r hp
  obtain ⟨u₀, hu₀, eku⟩ := hst q u hq
  exact h p q r₀ u₀ hr₀ hu₀ (by rw [ekr, eku, hk])

theorem KeysFrom.of_posts {s t : State} (h : t.posts = s.posts) : KeysFrom s t :=
  fun p r hr => ⟨r, by rw [← h]; exact hr, rfl⟩

/-- One post takes a record with the key that it had, or becomes VACANT. -/
theorem KeysFrom.of_put {s t : State} {p : PostNo} {o : Option Post} (h : t.posts = put s.posts p o)
    (ho : ∀ r, o = some r → ∃ r₀, s.posts[p] = some r₀ ∧ r₀.key = r.key) : KeysFrom s t := by
  intro q r hr
  rw [h] at hr
  by_cases hq : q = p
  · subst hq
    rw [getElem_put_self] at hr
    exact ho r hr
  · rw [getElem_put_of_ne _ _ hq] at hr
    exact ⟨r, hr, rfl⟩

/-- Every record changes by a function that keeps keys. -/
theorem KeysFrom.of_map {s t : State} {f : Post → Post} (h : t.posts = mapTable (Option.map f) s.posts)
    (hf : ∀ r, (f r).key = r.key) : KeysFrom s t := by
  intro p r hr
  rw [h] at hr
  simp only [Fin.getElem_fin, getElem_mapTable] at hr
  obtain ⟨r₀, hr₀, rfl⟩ := Option.map_eq_some_iff.1 hr
  exact ⟨r₀, hr₀, (hf r₀).symm⟩

theorem Post.orphanedFrom_key (n : Port) (r : Post) : (r.orphanedFrom n).key = r.key := by
  unfold Post.orphanedFrom
  split_ifs <;> rfl

theorem Post.lapsed_key (r : Post) : r.lapsed.key = r.key := by
  unfold Post.lapsed
  split_ifs <;> rfl

/-- A key that no occupied post holds is found by no lookup (R5). -/
theorem ne_key_of_findKey {posts : Vector (Option Post) 64} {k : Half} (h : findKey posts k = none) {p : PostNo}
    {r : Post} (hr : posts[p] = some r) : r.key ≠ k := by
  have := List.find?_eq_none.1 h p (mem_allPosts p)
  simpa [hr] using this

/-- A post takes a key that no occupied post holds. -/
theorem State.KeysDistinct.declared {s t : State} (h : s.KeysDistinct) {p : PostNo} {r : Post}
    (hnew : findKey s.posts r.key = none) (ht : t.posts = put s.posts p (some r)) : t.KeysDistinct := by
  have key_of (q : PostNo) (u : Post) (hq : t.posts[q] = some u) :
      (q = p ∧ u = r) ∨ (q ≠ p ∧ s.posts[q] = some u) := by
    rw [ht] at hq
    by_cases hqp : q = p
    · subst hqp
      rw [getElem_put_self, Option.some_inj] at hq
      exact .inl ⟨rfl, hq.symm⟩
    · rw [getElem_put_of_ne _ _ hqp] at hq
      exact .inr ⟨hqp, hq⟩
  intro q q' u u' hq hq' hk
  rcases key_of q u hq with ⟨rfl, rfl⟩ | ⟨-, hu⟩ <;> rcases key_of q' u' hq' with ⟨rfl, rfl⟩ | ⟨-, hu'⟩
  · rfl
  · exact absurd hk.symm (ne_key_of_findKey hnew hu')
  · exact absurd hk (ne_key_of_findKey hnew hu)
  · exact h q q' u u' hu hu' hk

theorem KeysFrom.damageRequest (s : State) (p : PostNo) (f : FrameNo) (c : DamageCause) :
    KeysFrom s (s.damageRequest p f c) := by
  rcases damageRequest_cases s p f c with ⟨e, -⟩ | ⟨r, hp, -, -, e⟩ <;> rw [e]
  · exact .of_posts rfl
  · cases c <;> exact .of_put (p := p) rfl fun r' hr' => ⟨r, hp, by rw [← Option.some_inj.1 hr']⟩

end Sys2Proof.Machine
end

section
/-!
Arguments (R162, R163): what a field that is accepted says of its byte, and from it that argument bytes accepted for a
command are those of one request in range.
-/
namespace Sys2Proof.Machine
open Sys2Proof

/-! ### Fields -/

theorem byteOf_toNat_self (b : Byte) : byteOf b.toNat = b := by simp [byteOf]

theorem be16_half (hi lo : Byte) : be16 (half hi lo) = [hi, lo] := by
  unfold be16 half
  rw [BitVec.extractLsb'_append_eq_left, BitVec.extractLsb'_append_eq_right]

theorem postArg_eq_some {b : Byte} {p : PostNo} (h : postArg b = some p) : postByte p = b := by
  unfold postArg at h
  split_ifs at h with hb
  cases h
  exact byteOf_toNat_self b

theorem holdArg_eq_some {b : Byte} {i : HoldNo} (h : holdArg b = some i) : byteOf i.val = b := by
  unfold holdArg at h
  split_ifs at h with hb
  cases h
  exact byteOf_toNat_self b

theorem filterArg_eq_some {b : Byte} {i : FilterNo} (h : filterArg b = some i) : byteOf i.val = b := by
  unfold filterArg at h
  split_ifs at h with hb
  cases h
  exact byteOf_toNat_self b

theorem roleArg_eq_some {b : Byte} {r : Role} (h : roleArg b = some r) : r.code = b := by
  unfold roleArg at h
  split_ifs at h with h0 h1 <;> cases h
  · exact h0.symm
  · exact h1.symm

theorem modeArg_eq_some {b : Byte} {m : AnswerMode} (h : modeArg b = some m) : m.code = b := by
  unfold modeArg at h
  split_ifs at h with h0 h1 <;> cases h
  · exact h0.symm
  · exact h1.symm

theorem accept_eq_some {α : Type} {ok : Bool} {x y : α} (h : accept ok x = some y) : ok = true ∧ x = y := by
  unfold accept at h
  split_ifs at h with hok
  exact ⟨hok, Option.some_inj.1 h⟩

theorem postArgs_eq_some {bs : List Byte} {ps : List PostNo} (h : postArgs bs = some ps) : ps.map postByte = bs := by
  induction bs generalizing ps with
  | nil => cases h; rfl
  | cons b bs ih =>
    unfold postArgs at h
    split at h
    · rename_i p qs hp hqs
      cases h
      rw [List.map_cons, postArg_eq_some hp, ih hqs]
    · cases h

theorem flagsByte_of_bits : ∀ b : Byte, b.toNat < 8 →
    (if b.getLsbD 0 then 1#8 else 0#8) + (if b.getLsbD 1 then 2#8 else 0#8) + (if b.getLsbD 2 then 4#8 else 0#8) = b := by
  decide

/-! ### Argument lists -/

/-- The argument bytes `args` are those of the request `r` of the command `c`, whose fields are in range. -/
def Spells (c : Command) (args : List Byte) (r : Request) : Prop := r.command = c ∧ r.legal = true ∧ r.args = args

theorem parseNone_spells {c : Command} {r₀ r : Request} {args : List Byte} (h : parseNone r₀ args = some r)
    (h₀ : Spells c [] r₀) : Spells c args r := by
  unfold parseNone at h
  split at h <;> cases h
  exact h₀

theorem parsePost_spells {c : Command} {f : PostNo → Request} {r : Request} {args : List Byte}
    (h : parsePost f args = some r) (hf : ∀ p, Spells c [postByte p] (f p)) : Spells c args r := by
  unfold parsePost at h
  split at h
  · obtain ⟨p, hp, rfl⟩ := Option.map_eq_some_iff.1 h
    exact postArg_eq_some hp ▸ hf p
  · cases h

theorem parseAttach_spells {r : Request} {args : List Byte} (h : parseAttach args = some r) :
    Spells .attach args r := by
  unfold parseAttach at h
  split at h
  · split at h
    · rename_i role hi lo threshold _ x hrole
      obtain ⟨hok, rfl⟩ := accept_eq_some h
      refine ⟨rfl, hok, ?_⟩
      simp [Request.args, roleArg_eq_some hrole, be16_half, byteOf_toNat_self]
    · cases h
  · cases h

theorem parseDeclare_spells {r : Request} {args : List Byte} (h : parseDeclare args = some r) :
    Spells .declare args r := by
  unfold parseDeclare at h
  split at h
  · split at h
    · split at h
      · rename_i sel kh kl cap fh fl mode _ m hmode _ x hsel
        obtain ⟨hok, rfl⟩ := accept_eq_some h
        refine ⟨rfl, hok, ?_⟩
        split_ifs at hsel with hff
        · cases hsel
          simp [Request.args, modeArg_eq_some hmode, be16_half, byteOf_toNat_self, hff]
        · obtain ⟨p, hp, rfl⟩ := Option.map_eq_some_iff.1 hsel
          simp [Request.args, modeArg_eq_some hmode, be16_half, byteOf_toNat_self, postArg_eq_some hp]
      · cases h
    · cases h
  · cases h

theorem parseDescribe_spells {r : Request} {args : List Byte} (h : parseDescribe args = some r) :
    Spells .describe args r := by
  unfold parseDescribe at h
  split at h
  · obtain ⟨p, hp, rfl⟩ := Option.map_eq_some_iff.1 h
    exact ⟨rfl, rfl, congrArg (fun b => [b]) (postArg_eq_some hp)⟩
  · obtain ⟨hok, rfl⟩ := accept_eq_some h
    exact ⟨rfl, hok, be16_half _ _⟩
  · cases h

theorem parsePublish_spells {r : Request} {args : List Byte} (h : parsePublish args = some r) :
    Spells .publish args r := by
  unfold parsePublish at h
  split at h
  · split at h
    · rename_i p hp
      obtain ⟨hok, rfl⟩ := accept_eq_some h
      exact ⟨rfl, hok, congrArg (fun b => b :: _) (postArg_eq_some hp)⟩
    · cases h
  · cases h

theorem parseSnapshot_spells {r : Request} {args : List Byte} (h : parseSnapshot args = some r) :
    Spells .snapshot args r := by
  unfold parseSnapshot at h
  split at h
  · rename_i ps hps
    obtain ⟨hok, rfl⟩ := accept_eq_some h
    exact ⟨rfl, hok, postArgs_eq_some hps⟩
  · cases h

theorem parseReadHeld_spells {r : Request} {args : List Byte} (h : parseReadHeld args = some r) :
    Spells .readHeld args r := by
  unfold parseReadHeld at h
  split at h
  · obtain ⟨i, hi, rfl⟩ := Option.map_eq_some_iff.1 h
    exact ⟨rfl, rfl, congrArg (fun b => [b]) (holdArg_eq_some hi)⟩
  · cases h

theorem parseRelease_spells {r : Request} {args : List Byte} (h : parseRelease args = some r) :
    Spells .release args r := by
  unfold parseRelease at h
  split at h <;> cases h
  exact ⟨rfl, rfl, rfl⟩

theorem parseAsk_spells {r : Request} {args : List Byte} (h : parseAsk args = some r) : Spells .ask args r := by
  unfold parseAsk at h
  split at h
  · split at h
    · rename_i p hp
      obtain ⟨hok, rfl⟩ := accept_eq_some h
      refine ⟨rfl, hok, ?_⟩
      simp [Request.args, postArg_eq_some hp, be16_half]
    · cases h
  · cases h

theorem parseCancel_spells {r : Request} {args : List Byte} (h : parseCancel args = some r) :
    Spells .cancel args r := by
  unfold parseCancel at h
  split at h
  · obtain ⟨hok, rfl⟩ := accept_eq_some h
    exact ⟨rfl, hok, rfl⟩
  · cases h

theorem parseFilterSet_spells {r : Request} {args : List Byte} (h : parseFilterSet args = some r) :
    Spells .filterSet args r := by
  unfold parseFilterSet at h
  split at h
  · split at h
    · rename_i i hi
      obtain ⟨hok, rfl⟩ := accept_eq_some h
      refine ⟨rfl, rfl, ?_⟩
      simp only [Request.args, Filter.flagsByte, flagsByte_of_bits _ (of_decide_eq_true hok), be16_half,
        filterArg_eq_some hi, List.cons_append, List.nil_append]
    · cases h
  · cases h

theorem parseFilterClear_spells {r : Request} {args : List Byte} (h : parseFilterClear args = some r) :
    Spells .filterClear args r := by
  unfold parseFilterClear at h
  split at h
  · split_ifs at h with hff
    · cases h
      exact ⟨rfl, rfl, by rw [hff]; rfl⟩
    · obtain ⟨i, hi, rfl⟩ := Option.map_eq_some_iff.1 h
      exact ⟨rfl, rfl, congrArg (fun b => [b]) (filterArg_eq_some hi)⟩
  · cases h

theorem parseTake_spells {r : Request} {args : List Byte} (h : parseTake args = some r) : Spells .take args r := by
  unfold parseTake at h
  split at h
  · obtain ⟨hok, rfl⟩ := accept_eq_some h
    exact ⟨rfl, hok, congrArg (fun b => [b]) (byteOf_toNat_self _)⟩
  · cases h

theorem parseSetPoolMark_spells {r : Request} {args : List Byte} (h : parseSetPoolMark args = some r) :
    Spells .setPoolMark args r := by
  unfold parseSetPoolMark at h
  split at h
  · obtain ⟨hok, rfl⟩ := accept_eq_some h
    exact ⟨rfl, hok, congrArg (fun b => [b]) (byteOf_toNat_self _)⟩
  · cases h

/-- Argument bytes that are accepted spell the request that they are read as. -/
theorem parseRequest_spells {c : Command} {args : List Byte} {r : Request} (h : parseRequest c args = some r) :
    Spells c args r := by
  cases c with
  | attach => exact parseAttach_spells h
  | declare => exact parseDeclare_spells h
  | describe => exact parseDescribe_spells h
  | publish => exact parsePublish_spells h
  | snapshot => exact parseSnapshot_spells h
  | readHeld => exact parseReadHeld_spells h
  | release => exact parseRelease_spells h
  | ask => exact parseAsk_spells h
  | cancel => exact parseCancel_spells h
  | filterSet => exact parseFilterSet_spells h
  | filterClear => exact parseFilterClear_spells h
  | take => exact parseTake_spells h
  | setPoolMark => exact parseSetPoolMark_spells h
  | detach | ping | status | poolStatus => exact parseNone_spells h ⟨rfl, rfl, rfl⟩
  | withdraw | read | adopt | takeover | revoke => exact parsePost_spells h fun _ => ⟨rfl, rfl, rfl⟩

/-- Settles O16: `parse_args` and its converse, command by command. -/
theorem argumentsRoundTrip : Obligations.ArgumentsRoundTrip :=
  ⟨parse_args, fun _ _ _ h => parseRequest_spells h⟩

/-! ### Refusals before the command's own checks (R120, R154) -/

/-- Argument bytes of no request in range are read as none. -/
theorem parseRequest_eq_none {c : Command} {args : List Byte}
    (h : ∀ r : Request, r.legal = true → r.command = c → r.args ≠ args) : parseRequest c args = none := by
  rw [Option.eq_none_iff_forall_ne_some]
  intro r hr
  obtain ⟨hcommand, hlegal, hargs⟩ := parseRequest_spells hr
  exact h r hlegal hcommand hargs

/-- Settles O17: the bytes are read as no request, and BADARG comes before anything else. -/
theorem badArgumentsRefused : Obligations.BadArgumentsRefused := by
  intro s n tag c args hready hlen hbad
  exact ⟨_, exec_instr_strap c n tag args s,
    answeredOnly_of hready tag hlen (takeCommand_eq_badarg (parseRequest_eq_none hbad))⟩

theorem takeCommand_eq_notattached {s : State} {n : Port} {r : Request} (hl : r.legal = true)
    (hneeds : r.needsSession = true) (ha : s.attached n = false) :
    takeCommand n r.command r.args s = (s, .done .notattached []) := by
  simp only [takeCommand, parse_args r hl, hneeds, ha, Bool.not_false, Bool.and_self, if_true]

theorem takeCommand_eq_notpermitted {s : State} {n : Port} {r : Request} (hl : r.legal = true)
    (hneeds : r.needsSupervisor = true) (ha : s.attached n = true) (hrole : s.sessions[n].role = .normal) :
    takeCommand n r.command r.args s = (s, .done .notpermitted []) := by
  simp only [takeCommand, parse_args r hl, hneeds, ha, hrole]
  simp

/-- The commands accepted in either session state are ATTACH, PING and STATUS (R154). -/
theorem needsSession_of_command {r : Request} (h1 : r.command ≠ .ping) (h2 : r.command ≠ .status)
    (h3 : r.command ≠ .attach) : r.needsSession = true := by
  cases r with
  | ping => exact absurd rfl h1
  | status => exact absurd rfl h2
  | attach => exact absurd rfl h3
  | _ => rfl

/-- The commands that need the supervisor role (R120). -/
theorem needsSupervisor_of_command {r : Request}
    (h : r.command = .takeover ∨ r.command = .revoke ∨ r.command = .setPoolMark) : r.needsSupervisor = true := by
  cases r with
  | takeover | revoke | setPoolMark => rfl
  | _ => simp [Request.command] at h

/-- Settles O18: the session is checked before the role, and both before the command's own checks. -/
theorem sessionAndRoleRefusals : Obligations.SessionAndRoleRefusals := by
  refine ⟨fun s n tag r hready hdetached hlegal hping hstatus hattach => ?_,
    fun s n tag r hready hattached hrole hlegal hcommand => ?_⟩
  · refine ⟨_, exec_instr_strap _ n tag _ s, answeredOnly_of hready tag (args_length r hlegal) ?_⟩
    exact takeCommand_eq_notattached hlegal (needsSession_of_command hping hstatus hattach)
      ((congrFun (taking_attached s n) n).trans hdetached)
  · refine ⟨_, exec_instr_strap _ n tag _ s, answeredOnly_of hready tag (args_length r hlegal) ?_⟩
    exact takeCommand_eq_notpermitted hlegal (needsSupervisor_of_command hcommand)
      ((congrFun (taking_attached s n) n).trans hattached) ((taking_role s n).trans hrole)

end Sys2Proof.Machine
end

section
/-!
What a command can do when it is taken, said once: every branch of the 22 commands, with the guards that it has passed
and the state that it leaves. The invariants are proved by cases on it.
-/
namespace Sys2Proof.Machine
open Sys2Proof

/-- The session record that an ATTACH sets at device time `now` (R117, R118). -/
def attachedSession (role : Role) (lease : Half) (threshold : Nat) (now : Time) : Session :=
  { state := .attached, role := role, lease := lease, threshold := threshold,
    timer := if lease = 0#16 then none else some (expiryAfter now lease) }

/-- The record of a post that a TAKEOVER gives to port `n` (R131). -/
def Post.takenOver (r : Post) (n : Port) : Post :=
  { r with binding := .bound n, condition := r.condition.demoted, deadline := none, inFlight := none }

/-- The effect of a TAKEOVER by port `n` of post `p`, whose record `r` is BOUND to port `q` (R131). -/
def State.takeOver (s : State) (n : Port) (p : PostNo) (r : Post) (q : Port) : State :=
  ((((s.setPost p (some (r.takenOver n))).overtakeInFlight r.inFlight .takeover).notify
    (.adopted p r.key n .takeover) r.key .lifecycle (some n) (some q)).purgeSolicit q p).resolicit n p r.key

/-- The frame is the current frame of a post, or that of a hold of port `n` (R64, R73). -/
def State.readable (s : State) (n : Port) (f : FrameNo) : Prop :=
  (∃ (p : PostNo) (r : Post) (c : Current), s.posts[p] = some r ∧ r.current = some c ∧ c.frame = f) ∨
    ∃ (h : HoldNo) (x : Hold), s.holds[n][h] = some x ∧ x.frame = f

/-- The command `c` of port `n`, accepted in the state `s` with a request in range, can leave this state and this
reply. -/
inductive Taken (n : Port) (s : State) (c : Command) : State → Reply → Prop
  | answered (st : Status) (res : List Byte) : Taken n s c s (.done st res)
  | attach (role : Role) (lease : Half) (threshold : Nat) (res : List Byte) (hlo : 1 ≤ threshold)
      (hhi : threshold ≤ 31) : Taken n s c (s.setSession n (attachedSession role lease threshold s.now)) (.done .ok res)
  | detach : Taken n s c (s.detachPort n .detach) (.done .ok [])
  | declare (p : PostNo) (key : Half) (capacity : Nat) (period : Half) (mode : AnswerMode) (res : List Byte)
      (ha : s.attached n = true) (hkey : findKey s.posts key = none) (hvacant : s.posts[p] = none) :
      Taken n s c
        ((s.setPost p (some (declaredPost n key capacity period mode))).notify (.appeared p key n) key .lifecycle
          (some n) none) (.done .ok res)
  | vacate (p : PostNo) (r : Post) (b : VacateBy) (res : List Byte) (hpost : s.posts[p] = some r) :
      Taken n s c (s.vacate p r b n) (.done .ok res)
  | publish (p : PostNo) (r : Post) (payload : List Byte) (f : FrameNo) (x : Pool) (low : Option Nat)
      (hpost : s.posts[p] = some r) (hbound : r.binding = .bound n) (hframe : s.pool.allocate = some (f, x, low)) :
      Taken n s c (s.takePublish n p r payload f x low) .executing
  | read (r : ReadRecord) (hcommand : c = .read ∨ c = .readHeld) (ha : s.attached n = true)
      (hphase : r.phase = .waiting) (hpin : r.pin = true) (hcut : r.cutOff = false)
      (hclaim : s.readable n r.frame) : Taken n s c (s.takeRead n r) .executing
  | snapshot (ps : List PostNo) (d : SnapDesk) (ha : s.attached n = true)
      (hroom : ps.length ≤ unusedHolds s.holds[n])
      (hd : d = snapshotPosts s.posts ps { table := s.holds[n], pool := s.pool, out := [] }) :
      Taken n s c ((s.setPool d.pool).setHolds n d.table) (.done .ok d.out)
  | release (mask : Byte) (d : ReleaseDesk)
      (hd : d = releaseHolds mask { table := s.holds[n], pool := s.pool, mask := 0#8 }) :
      Taken n s c ((s.setPool d.pool).setHolds n d.table) (.done .ok [d.mask])
  | ask (p : PostNo) (r : Post) (q : Port) (timeout : Half) (res : List Byte) (ha : s.attached n = true)
      (hpost : s.posts[p] = some r) (hbound : r.binding = .bound q) (hother : q ≠ n)
      (hnew : s.requests.ticketOf n p = none) (hsize : s.requests.size < Config.tablePlaces)
      (hmine : (s.requests.pendingOf n).length + (s.requests.undeliveredOf n).length < Config.portPlaces) :
      Taken n s c (s.makeEntry n p r q timeout) (.done .ok res)
  | cancelPending (ticket : Byte) (res : List Byte) :
      Taken n s c
        (s.setRequests { s.requests with
          pending := s.requests.pending.filter fun e => !decide (e.ticket = ticket ∧ e.requester = n) })
        (.done .ok res)
  | cancelUndelivered (ticket : Byte) (res : List Byte) :
      Taken n s c
        (s.setRequests { s.requests with
          undelivered := s.requests.undelivered.filter fun e => !decide (e.ticket = ticket ∧ e.requester = n) })
        (.done .ok res)
  | filters (x : Vector (Option Filter) 8) : Taken n s c (s.setFilters n x) (.done .ok [])
  | take (count : Nat) (q : NoticeQueue) (delivered : List Byte) (res : List Byte) (ha : s.attached n = true)
      (hround : deliverRound (s.requests.undeliveredOf n) (s.queues[n].dropOldest count) = (q, delivered)) :
      Taken n s c
        ((s.setRequests { s.requests with
          undelivered := s.requests.undelivered.filter
            fun e => !(decide (e.requester = n) && decide (e.ticket ∈ delivered)) }).setQueues (put s.queues n q))
        (.done .ok res)
  | adopt (p : PostNo) (r : Post) (former : Port) (res : List Byte) (ha : s.attached n = true)
      (hpost : s.posts[p] = some r) (horphaned : r.binding = .orphaned former) :
      Taken n s c
        ((s.setPost p (some { r with binding := .bound n })).notify (.adopted p r.key n .adopt) r.key .lifecycle
          (some n) none) (.done .ok res)
  | takeover (p : PostNo) (r : Post) (q : Port) (res : List Byte) (ha : s.attached n = true)
      (hpost : s.posts[p] = some r) (hbound : r.binding = .bound q) (hother : q ≠ n) :
      Taken n s c (s.takeOver n p r q) (.done .ok res)
  | mark (k : Nat) : Taken n s c (s.setPool { s.pool with mark := k, armed := true }) (.done .ok [])

/-! ### The parts of State after a PUBLISH and after a TAKEOVER -/

section
variable (s : State) (n : Port) (p : PostNo) (r : Post) (payload : List Byte) (f : FrameNo) (x : Pool) (low : Option Nat)

@[simp] theorem State.takePublish_posts : (s.takePublish n p r payload f x low).posts =
    put s.posts p (some { r with inFlight := some { frame := f, port := n } }) := by
  cases low <;> rfl
@[simp] theorem State.takePublish_slots : (s.takePublish n p r payload f x low).slots =
    put s.slots n (some { post := p, frame := f, payload := payload, phase := .waiting, overtaken := none }) := by
  cases low <;> rfl
@[simp] theorem State.takePublish_pool : (s.takePublish n p r payload f x low).pool = x := by
  cases low <;> rfl
@[simp] theorem State.takePublish_arbiter : (s.takePublish n p r payload f x low).arbiter =
    { s.arbiter with places := put s.arbiter.places n (some .write) } := by
  cases low <;> rfl
@[simp] theorem State.takePublish_holds : (s.takePublish n p r payload f x low).holds = s.holds := by
  cases low <;> rfl
@[simp] theorem State.takePublish_reads : (s.takePublish n p r payload f x low).reads = s.reads := by
  cases low <;> rfl
@[simp] theorem State.takePublish_filters : (s.takePublish n p r payload f x low).filters = s.filters := by
  cases low <;> rfl
@[simp] theorem State.takePublish_requests : (s.takePublish n p r payload f x low).requests = s.requests := by
  cases low <;> rfl
@[simp] theorem State.takePublish_sessions : (s.takePublish n p r payload f x low).sessions = s.sessions := by
  cases low <;> rfl
@[simp] theorem State.takePublish_array : (s.takePublish n p r payload f x low).array = s.array := by
  cases low <;> rfl
@[simp] theorem State.takePublish_refresh : (s.takePublish n p r payload f x low).refresh = s.refresh := by
  cases low <;> rfl
@[simp] theorem State.takePublish_time : (s.takePublish n p r payload f x low).time = s.time := by
  cases low <;> rfl
@[simp] theorem State.takePublish_ports : (s.takePublish n p r payload f x low).ports = s.ports := by
  cases low <;> rfl
@[simp] theorem State.takePublish_epoch : (s.takePublish n p r payload f x low).epoch = s.epoch := by
  cases low <;> rfl
@[simp] theorem State.takePublish_pending : (s.takePublish n p r payload f x low).pending = s.pending := by
  cases low <;> rfl
@[simp] theorem State.takePublish_now : (s.takePublish n p r payload f x low).now = s.now := by
  cases low <;> rfl
@[simp] theorem State.takePublish_attached : (s.takePublish n p r payload f x low).attached = s.attached := by
  cases low <;> rfl
end

section
variable (s : State) (n : Port) (p : PostNo) (r : Post) (q : Port)

@[simp] theorem State.takeOver_posts : (s.takeOver n p r q).posts = put s.posts p (some (r.takenOver n)) := by
  simp only [State.takeOver, State.resolicit]; split <;> rfl
@[simp] theorem State.takeOver_slots : (s.takeOver n p r q).slots = overtakeSlots r.inFlight .takeover s.slots := by
  simp only [State.takeOver, State.resolicit]; split <;> rfl
@[simp] theorem State.takeOver_pool : (s.takeOver n p r q).pool = s.pool := by
  simp only [State.takeOver, State.resolicit]; split <;> rfl
@[simp] theorem State.takeOver_arbiter : (s.takeOver n p r q).arbiter = s.arbiter := by
  simp only [State.takeOver, State.resolicit]; split <;> rfl
@[simp] theorem State.takeOver_holds : (s.takeOver n p r q).holds = s.holds := by
  simp only [State.takeOver, State.resolicit]; split <;> rfl
@[simp] theorem State.takeOver_reads : (s.takeOver n p r q).reads = s.reads := by
  simp only [State.takeOver, State.resolicit]; split <;> rfl
@[simp] theorem State.takeOver_filters : (s.takeOver n p r q).filters = s.filters := by
  simp only [State.takeOver, State.resolicit]; split <;> rfl
@[simp] theorem State.takeOver_requests : (s.takeOver n p r q).requests = s.requests := by
  simp only [State.takeOver, State.resolicit]; split <;> rfl
@[simp] theorem State.takeOver_sessions : (s.takeOver n p r q).sessions = s.sessions := by
  simp only [State.takeOver, State.resolicit]; split <;> rfl
@[simp] theorem State.takeOver_array : (s.takeOver n p r q).array = s.array := by
  simp only [State.takeOver, State.resolicit]; split <;> rfl
@[simp] theorem State.takeOver_refresh : (s.takeOver n p r q).refresh = s.refresh := by
  simp only [State.takeOver, State.resolicit]; split <;> rfl
@[simp] theorem State.takeOver_time : (s.takeOver n p r q).time = s.time := by
  simp only [State.takeOver, State.resolicit]; split <;> rfl
@[simp] theorem State.takeOver_ports : (s.takeOver n p r q).ports = s.ports := by
  simp only [State.takeOver, State.resolicit]; split <;> rfl
@[simp] theorem State.takeOver_epoch : (s.takeOver n p r q).epoch = s.epoch := by
  simp only [State.takeOver, State.resolicit]; split <;> rfl
@[simp] theorem State.takeOver_pending : (s.takeOver n p r q).pending = s.pending := by
  simp only [State.takeOver, State.resolicit]; split <;> rfl
@[simp] theorem State.takeOver_now : (s.takeOver n p r q).now = s.now := by
  simp only [State.takeOver, State.resolicit]; split <;> rfl
@[simp] theorem State.takeOver_attached : (s.takeOver n p r q).attached = s.attached := by
  simp only [State.takeOver, State.resolicit]; split <;> rfl
end

/-! ### Branch by branch -/

/-- A post that DECLARE chooses is VACANT (R12, R13). -/
theorem vacant_of_declareChoice {posts : Vector (Option Post) 64} {sel : Selector} {p : PostNo}
    (h : declareChoice posts sel = .ok p) : posts[p] = none := by
  cases sel with
  | post q =>
    simp only [declareChoice] at h
    split_ifs at h with hq
    cases h
    simpa using hq
  | any =>
    simp only [declareChoice] at h
    split at h
    · rename_i q hq
      cases h
      simpa using List.find?_some hq
    · cases h

section
variable {n : Port} {s : State} {c : Command}

theorem attachTaken_taken (role : Role) (lease : Half) {threshold : Nat} (h : isThreshold threshold = true) :
    Taken n s c (attachTaken n role lease threshold s).1 (attachTaken n role lease threshold s).2 := by
  obtain ⟨hlo, hhi⟩ := of_decide_eq_true h
  unfold attachTaken
  split
  · exact .answered _ _
  · exact .attach role lease threshold _ hlo hhi

theorem pingTaken_taken : Taken n s c (pingTaken n s).1 (pingTaken n s).2 := by
  unfold pingTaken
  split_ifs <;> exact .answered _ _

theorem declareTaken_taken (sel : Selector) (key : Half) (capacity : Nat) (period : Half) (mode : AnswerMode)
    (ha : s.attached n = true) :
    Taken n s c (declareTaken n sel key capacity period mode s).1 (declareTaken n sel key capacity period mode s).2 := by
  unfold declareTaken
  split
  · exact .answered _ _
  · split
    · exact .answered _ _
    · exact .declare _ _ _ _ _ _ ha ‹_› (vacant_of_declareChoice ‹_›)

theorem withdrawTaken_taken (p : PostNo) : Taken n s c (withdrawTaken n p s).1 (withdrawTaken n p s).2 := by
  unfold withdrawTaken
  split
  · exact .answered _ _
  · split
    · exact .vacate p _ .producer [] ‹_›
    · exact .answered _ _

theorem revokeTaken_taken (p : PostNo) : Taken n s c (revokeTaken n p s).1 (revokeTaken n p s).2 := by
  unfold revokeTaken
  split
  · exact .answered _ _
  · exact .vacate p _ .supervisor _ ‹_›

theorem describeTaken_taken (name : PostName) : Taken n s c (describeTaken name s).1 (describeTaken name s).2 := by
  unfold describeTaken
  split
  · exact .answered _ _
  · split <;> exact .answered _ _

theorem publishTaken_taken (p : PostNo) (payload : List Byte) :
    Taken n s c (publishTaken n p payload s).1 (publishTaken n p payload s).2 := by
  unfold publishTaken
  split
  · exact .answered _ _
  · split_ifs with hbound
    · exact .answered _ _
    · exact .answered _ _
    · split
      · exact .answered _ _
      · exact .publish p _ payload _ _ _ ‹_› (by simpa [Post.boundTo] using hbound) ‹_›

theorem readTaken_taken (hc : c = .read ∨ c = .readHeld) (ha : s.attached n = true) (p : PostNo) :
    Taken n s c (readTaken n p s).1 (readTaken n p s).2 := by
  unfold readTaken
  split
  · exact .answered _ _
  · split
    · exact .answered _ _
    · exact .read _ hc ha rfl rfl rfl (.inl ⟨p, _, _, ‹_›, ‹_›, rfl⟩)

theorem readHeldTaken_taken (hc : c = .read ∨ c = .readHeld) (ha : s.attached n = true) (h : HoldNo) :
    Taken n s c (readHeldTaken n h s).1 (readHeldTaken n h s).2 := by
  unfold readHeldTaken
  split
  · exact .answered _ _
  · exact .read _ hc ha rfl rfl rfl (.inr ⟨h, _, ‹_›, rfl⟩)

theorem snapshotTaken_taken (ps : List PostNo) (ha : s.attached n = true) :
    Taken n s c (snapshotTaken n ps s).1 (snapshotTaken n ps s).2 := by
  unfold snapshotTaken
  split_ifs with hroom
  · exact .answered _ _
  · exact .snapshot ps _ ha (by omega) rfl

theorem askTaken_taken (p : PostNo) (maxAge timeout : Half) (ha : s.attached n = true) :
    Taken n s c (askTaken n p maxAge timeout s).1 (askTaken n p maxAge timeout s).2 := by
  unfold askTaken
  split
  · exact .answered _ _
  · split
    · exact .answered _ _
    · split
      · exact .answered _ _
      · split
        · exact .answered _ _
        · split
          · exact .answered _ _
          · split
            · exact .answered _ _
            · split
              · exact .answered _ _
              · exact .ask p _ _ timeout _ ha ‹_› ‹_› ‹_› ‹_› (by omega) (by omega)

theorem cancelTaken_taken (ticket : Byte) : Taken n s c (cancelTaken n ticket s).1 (cancelTaken n ticket s).2 := by
  unfold cancelTaken
  split
  · exact .cancelPending _ _
  · split
    · exact .cancelUndelivered _ _
    · exact .answered _ _

theorem filterClearTaken_taken (i : Option FilterNo) :
    Taken n s c (filterClearTaken n i s).1 (filterClearTaken n i s).2 := by
  cases i <;> exact .filters _

theorem adoptTaken_taken (p : PostNo) (ha : s.attached n = true) :
    Taken n s c (adoptTaken n p s).1 (adoptTaken n p s).2 := by
  unfold adoptTaken
  split
  · exact .answered _ _
  · split
    · exact .answered _ _
    · exact .adopt p _ _ _ ha ‹_› ‹_›

theorem takeoverTaken_taken (p : PostNo) (ha : s.attached n = true) :
    Taken n s c (takeoverTaken n p s).1 (takeoverTaken n p s).2 := by
  unfold takeoverTaken
  split
  · exact .answered _ _
  · split
    · exact .answered _ _
    · split_ifs with hq
      · exact .answered _ _
      · exact .takeover p _ _ _ ha ‹_› ‹_› hq

end

/-- A request in range does one of these when it is run. -/
theorem runRequest_taken {n : Port} {s : State} {r : Request} (hl : r.legal = true)
    (ha : r.needsSession = true → s.attached n = true) :
    Taken n s r.command (runRequest n r s).1 (runRequest n r s).2 := by
  cases r with
  | attach role lease threshold => exact attachTaken_taken role lease ((Bool.and_eq_true _ _).mp hl).2
  | detach => exact .detach
  | ping => exact pingTaken_taken
  | status => exact .answered _ _
  | declare sel key capacity period mode => exact declareTaken_taken sel key capacity period mode (ha rfl)
  | withdraw p => exact withdrawTaken_taken p
  | describe name => exact describeTaken_taken name
  | publish p payload => exact publishTaken_taken p payload
  | read p => exact readTaken_taken (.inl rfl) (ha rfl) p
  | snapshot ps => exact snapshotTaken_taken ps (ha rfl)
  | readHeld h => exact readHeldTaken_taken (.inr rfl) (ha rfl) h
  | release mask => exact .release mask _ rfl
  | ask p maxAge timeout => exact askTaken_taken p maxAge timeout (ha rfl)
  | cancel ticket => exact cancelTaken_taken ticket
  | filterSet i f => exact .filters _
  | filterClear i => exact filterClearTaken_taken i
  | take count => exact .take count _ _ _ (ha rfl) rfl
  | adopt p => exact adoptTaken_taken p (ha rfl)
  | takeover p => exact takeoverTaken_taken p (ha rfl)
  | revoke p => exact revokeTaken_taken p
  | poolStatus => exact .answered _ _
  | setPoolMark k => exact .mark k

/-- Whatever its argument bytes, a taken command does one of these. -/
theorem takeCommand_taken (n : Port) (c : Command) (args : List Byte) (s : State) :
    Taken n s c (takeCommand n c args s).1 (takeCommand n c args s).2 := by
  unfold takeCommand
  split
  · exact .answered _ _
  · rename_i r hr
    obtain ⟨rfl, hlegal, -⟩ := parseRequest_spells hr
    split_ifs with hsession hrole
    · exact .answered _ _
    · exact .answered _ _
    · refine runRequest_taken hlegal fun hneeds => ?_
      simpa [hneeds] using hsession

/-- Every way in which a command can be taken keeps `P`: the clause on commands of `KeptByBlocks`. -/
theorem run_kept {P : State → Prop} (h : ∀ n s c t reply, Taken n s c t reply → P s → P t) (s : State) (n : Port)
    (c : Command) (args : List Byte) (r : Request) (hp : parseRequest c args = some r)
    (ha : r.needsSession = true → s.attached n = true) (_ : r.needsSupervisor = true → s.sessions[n].role = .supervisor)
    (hs : P s) : P (runRequest n r s).1 :=
  h _ _ _ _ _ (runRequest_taken (parseRequest_spells hp).2.1 ha) hs

end Sys2Proof.Machine
end

section
/-!
What the arbiter's grant, a freshness expiry and the ends of array accesses can do, said once for the invariants.
-/
namespace Sys2Proof.Machine
open Sys2Proof

/-- The port in turn waits with the request that is granted (R138). -/
theorem Arbiter.places_of_nextPort {x : Arbiter} {n : Port} {k : PortRequest} (h : x.nextPort = some (n, k)) :
    x.places[n] = some k := by
  obtain ⟨m, -, hm⟩ := List.exists_of_findSome?_eq_some h
  obtain ⟨k', hk', e⟩ := Option.map_eq_some_iff.1 hm
  cases e
  exact hk'

/-- A grant changes nothing, or the array goes to refresh, or to a port that waits (R138). -/
theorem grant_cases (s : State) :
    s.grant = s ∨ s.grant = s.grantRefresh ∨
      ∃ (n : Port) (k : PortRequest), s.arbiter.places[n] = some k ∧ s.grant = s.grantPort n k := by
  unfold State.grant
  split
  · exact .inr (.inl rfl)
  · split
    · exact .inr (.inr ⟨_, _, Arbiter.places_of_nextPort ‹_›, rfl⟩)
    · split
      · exact .inr (.inl rfl)
      · exact .inl rfl

/-- A freshness expiry changes nothing, or makes the post STALE at its expiry time (R11). -/
theorem expireFreshness_cases (s : State) (p : PostNo) :
    s.expireFreshness p = s ∨ ∃ r, s.posts[p] = some r ∧ r.deadline = some s.now ∧
      s.expireFreshness p =
        (s.setPost p (some { r with condition := .stale, deadline := none })).notify (.stale p r.key) r.key .lifecycle
          none r.binding.boundPort := by
  unfold State.expireFreshness
  split
  · exact .inl rfl
  · split
    · exact .inl rfl
    · split
      · rename_i hdeadline hreached
        rw [reached_iff] at hreached
        exact .inr ⟨_, ‹_›, hreached ▸ hdeadline, rfl⟩
      · exact .inl rfl

/-- What the end of a read access leaves of the blocks that a predicate on blocks looks at (R136): the array is free;
then the reading unit's record may change, a frame's suspect flag, and the post may be damaged; then the command
completes. -/
theorem completeRead_kept {P : State → Prop}
    (hcommand : ∀ s n st res, P s → P (s.completeCommand n st res)) (hread : ∀ s n x, P s → P (s.setRead n x))
    (hsuspect : ∀ s f b, P s → P (s.setPool (s.pool.setSuspect f b)))
    (hdamage : ∀ s p f c, P s → P (s.damageRequest p f c)) (s : State) (n : Port) (d : List Byte)
    (h : P s.freeArray) : P (s.completeRead n d) := by
  rcases completeRead_cases s n d with ⟨-, e⟩ | ⟨r, row, good, -, e⟩ <;> rw [e]
  · exact h
  · rcases endRead_cases s.freeArray n r row good with ⟨-, e⟩ | ⟨-, st, res, b, w, e, hw⟩ <;> rw [e]
    · exact hcommand _ _ _ _ (hread _ _ _ h)
    · have hflagged := hsuspect _ r.frame b (hread _ n (some { r with phase := .answering }) h)
      rcases hw with rfl | ⟨c, rfl⟩
      · exact hcommand _ _ _ _ hflagged
      · exact hcommand _ _ _ _ (hdamage _ _ _ _ hflagged)

/-- A damage request changes posts and queues alone (R20). -/
theorem damageRequest_unchanged (s : State) (p : PostNo) (f : FrameNo) (c : DamageCause) :
    Unchanged s (s.damageRequest p f c) [.posts, .queues] := by
  obtain ⟨-, -, -, -, -, -, hunchanged, -⟩ := damageRequest_frame s p f c
  exact hunchanged

/-- The post table after a damage request: the post may be DAMAGED (R20). -/
theorem damageRequest_posts_cases (s : State) (p : PostNo) (f : FrameNo) (c : DamageCause) :
    (s.damageRequest p f c).posts = s.posts ∨ ∃ r, s.posts[p] = some r ∧
      (s.damageRequest p f c).posts =
        put s.posts p (some { r with condition := .damaged, cause := some c, deadline := none }) := by
  rcases damageRequest_cases s p f c with ⟨e, -⟩ | ⟨r, hr, -, -, e⟩ <;> rw [e]
  · exact .inl rfl
  · cases c <;> exact .inr ⟨r, hr, rfl⟩

theorem damageRequest_linesLawful {s : State} (h : s.LinesLawful) (p : PostNo) (f : FrameNo) (c : DamageCause) :
    (s.damageRequest p f c).LinesLawful := by
  obtain ⟨-, -, -, -, -, -, -, hlines⟩ := damageRequest_frame s p f c
  exact hlines h

/-- Which ports are ATTACHED after a detach (R126). -/
theorem detachPort_attached (s : State) (n : Port) (c : DetachCause) (m : Port) :
    (s.detachPort n c).attached m = if m = n then false else s.attached m :=
  setSession_attached s n Session.detachedValues m

end Sys2Proof.Machine
end
section
/-!
The invariants that look at one block, or at sessions with one block: keys (R4), lines (R97), sessions (R116), refresh
(R140), memory (R135), holds of DETACHED ports (R76).
-/
namespace Sys2Proof.Machine
open Sys2Proof

/-! ### R4: distinct keys -/

theorem Taken.keysDistinct {n : Port} {s t : State} {c : Command} {reply : Reply} (h : Taken n s c t reply)
    (hs : s.KeysDistinct) : t.KeysDistinct := by
  cases h with
  | answered | attach | read | snapshot | release | ask | cancelPending | cancelUndelivered | filters | take | mark =>
    exact hs.of_keysFrom (.of_posts rfl)
  | detach => exact hs.of_keysFrom (.of_map rfl (Post.orphanedFrom_key n))
  | declare p key capacity period mode res ha hkey hvacant => exact hs.declared (p := p) hkey rfl
  | vacate p r b res hpost => exact hs.of_keysFrom (.of_put (p := p) (o := none) rfl nofun)
  | publish p r payload f x low hpost hbound hframe =>
    refine hs.of_keysFrom (.of_put (p := p) (State.takePublish_posts ..) fun r' hr' =>
      ⟨r, hpost, by rw [← Option.some_inj.1 hr']⟩)
  | adopt p r former res ha hpost horphaned =>
    exact hs.of_keysFrom (.of_put (p := p) rfl fun r' hr' => ⟨r, hpost, by rw [← Option.some_inj.1 hr']⟩)
  | takeover p r q res ha hpost hbound hother =>
    refine hs.of_keysFrom (.of_put (p := p) (o := some (r.takenOver n)) (State.takeOver_posts ..) fun r' hr' => ⟨r, hpost, by
      rw [← Option.some_inj.1 hr']; rfl⟩)

theorem keysDistinct_kept : KeptByBlocks State.KeysDistinct where
  port _ _ _ h := h
  finished _ _ h := h
  lease _ _ h := h
  run := run_kept fun _ _ _ _ _ ht h => ht.keysDistinct h
  pins _ _ _ h := h
  detach _ n _ h := h.of_keysFrom (.of_map rfl (Post.orphanedFrom_key n))
  reset _ _ _ := fun p _ r _ hp => by simp [State.enterReset, State.afterDeviceReset] at hp
  leave _ _ _ h := h
  tick _ _ h := h
  boundary _ _ h := h
  raise _ h _ := h
  lapse _ h := h.of_keysFrom (.of_map rfl Post.lapsed_key)
  fresh s p h := by
    rcases expireFreshness_cases s p with e | ⟨r, hpost, -, e⟩ <;> rw [e]
    · exact h
    · exact h.of_keysFrom (.of_put (p := p) rfl fun r' hr' => ⟨r, hpost, by rw [← Option.some_inj.1 hr']⟩)
  ask _ _ h := h
  grant s h _ := by
    rcases grant_cases s with e | e | ⟨n, k, -, e⟩ <;> rw [e]
    · exact h
    · exact h
    · cases k <;> exact h
  read s n d h _ :=
    completeRead_kept (P := State.KeysDistinct) (fun _ _ _ _ h => h.of_keysFrom (.of_posts (by simp)))
      (fun _ _ _ h => h) (fun _ _ _ h => h)
      (fun _ _ _ _ h => h.of_keysFrom (.damageRequest _ _ _ _)) s n d h
  refresh _ _ h _ := h

/-- Settles O5: distinct keys, block by block, and the bindings by the rules of records. -/
theorem stepKeepsKeysAndBindings : Obligations.StepKeepsKeysAndBindings := by
  refine ⟨fun s t h hstep => ?_, fun s t h hstep => step_keeps_boundAttached h hstep⟩
  refine keysDistinct_kept.events.step (fun _ _ h => h) s t h (fun n d x _ => ?_) hstep
  rcases completeWrite_cases (s.setPending x) n d with ⟨-, e⟩ | ⟨y, -, e⟩ <;> rw [e]
  · exact h
  · refine State.KeysDistinct.of_keysFrom (s := s) h ?_
    rcases endPublication_cases ((s.setPending x).setArray _) n y _ with ⟨st, e, -⟩ | ⟨-, -, e⟩ | ⟨-, -, r, hp, e⟩ <;>
      rw [e]
    · exact .of_posts (by simp)
    · refine .of_put (p := y.post) (State.completeCommand_posts ..) fun r hr => ?_
      obtain ⟨r₀, hr₀, rfl⟩ := Option.map_eq_some_iff.1 hr
      exact ⟨r₀, hr₀, rfl⟩
    · refine .of_put (p := y.post) (State.completeCommand_posts ..) fun r' hr' => ?_
      exact ⟨r, hp, by rw [← Option.some_inj.1 hr']; rfl⟩

/-! ### R97: the attention lines -/

theorem State.LinesLawful.of_same {s t : State} (h : s.LinesLawful) (hpins : t.pins.attn = s.pins.attn)
    (hsessions : t.sessions = s.sessions) (hqueues : t.queues = s.queues) : t.LinesLawful := by
  unfold State.LinesLawful at *
  rw [hpins, hsessions, hqueues, h]

theorem Taken.linesLawful {n : Port} {s t : State} {c : Command} {reply : Reply} (h : Taken n s c t reply)
    (hs : s.LinesLawful) : t.LinesLawful := by
  cases h with
  | answered | read | snapshot | release | cancelPending | cancelUndelivered | filters | mark =>
    exact hs.of_same rfl rfl rfl
  | attach | detach | declare | vacate | ask | take | adopt => rfl
  | publish p r payload f x low =>
    cases low with
    | none => exact hs.of_same rfl rfl rfl
    | some k => rfl
  | takeover p r q =>
    simp only [State.takeOver, State.resolicit]
    split <;> rfl

theorem linesLawful_kept : KeptByBlocks State.LinesLawful where
  port _ _ _ h := h
  finished _ _ h := h
  lease _ _ _ := rfl
  run := run_kept fun _ _ _ _ _ ht h => ht.linesLawful h
  pins _ _ _ h := h
  detach _ _ _ _ := rfl
  reset _ _ _ := rfl
  leave _ _ _ h := h
  tick _ _ h := h
  boundary _ _ h := h
  raise _ h _ := h
  lapse _ _ := rfl
  fresh s p h := by
    rcases expireFreshness_cases s p with e | ⟨r, -, -, e⟩ <;> rw [e]
    · exact h
    · rfl
  ask _ _ _ := rfl
  grant s h _ := by
    rcases grant_cases s with e | e | ⟨n, k, -, e⟩ <;> rw [e]
    · exact h
    · exact h
    · cases k <;> exact h
  read s n d h _ :=
    completeRead_kept (P := State.LinesLawful) (fun _ _ _ _ h => h.of_same (by simp) (by simp) (by simp))
      (fun _ _ _ h => h) (fun _ _ _ h => h)
      (fun s p f c h => damageRequest_linesLawful h p f c) s n d h
  refresh _ _ h _ := h

/-- The end of a write leaves the lines as their condition gives them. -/
theorem completeWrite_linesLawful {s : State} (h : s.LinesLawful) (n : Port) (d : List Byte) :
    (s.completeWrite n d).LinesLawful := by
  have completed (u : State) (st : Status) (res : List Byte) (hu : u.LinesLawful) :
      (u.completeCommand n st res).LinesLawful := hu.of_same (by simp) (by simp) (by simp)
  rcases completeWrite_cases s n d with ⟨-, e⟩ | ⟨y, -, e⟩ <;> rw [e]
  · exact h
  · rcases endPublication_cases (s.setArray _) n y _ with ⟨st, e, -⟩ | ⟨-, -, e⟩ | ⟨-, -, r, hp, e⟩ <;> rw [e] <;>
      apply completed
    · exact h
    · exact h
    · rfl

/-- Settles O7: every setter of queues and sessions recomputes the lines. -/
theorem stepKeepsAttentionLines : Obligations.StepKeepsAttentionLines := fun s t h hstep =>
  linesLawful_kept.events.step (fun _ _ h => h) s t h
    (fun n d x _ => completeWrite_linesLawful (s := s.setPending x) h n d) hstep

/-! ### R116: the session records -/

theorem Session.detachedValues_lawful : Session.detachedValues.Lawful := by
  refine ⟨fun _ => rfl, nofun, ?_, ?_⟩ <;> decide

theorem attachedSession_lawful (role : Role) (lease : Half) {threshold : Nat} (now : Time) (hlo : 1 ≤ threshold)
    (hhi : threshold ≤ 31) : (attachedSession role lease threshold now).Lawful := by
  refine ⟨nofun, fun _ => ?_, hlo, hhi⟩
  by_cases h : lease = 0#16 <;> simp [attachedSession, h]

theorem Session.renewed_lawful {x : Session} (h : x.Lawful) (now : Time) : (x.renewed now).Lawful := by
  unfold Session.renewed
  split_ifs with harmed
  · obtain ⟨hdetached, hattached, hlo, hhi⟩ := h
    refine ⟨fun hd => ?_, fun _ => ?_, hlo, hhi⟩
    · rw [show x.state = .detached from hd] at harmed
      cases harmed.1
    · exact iff_of_true rfl ((hattached harmed.1).1 harmed.2)
  · exact h

theorem State.SessionsLawful.of_put {s t : State} (h : s.SessionsLawful) {n : Port} {x : Session} (hx : x.Lawful)
    (ht : t.sessions = put s.sessions n x) : t.SessionsLawful := by
  intro m
  rw [ht]
  by_cases hm : m = n
  · subst hm
    rwa [getElem_put_self]
  · rw [getElem_put_of_ne _ _ hm]
    exact h m

theorem State.SessionsLawful.of_same {s t : State} (h : s.SessionsLawful) (ht : t.sessions = s.sessions) :
    t.SessionsLawful := by
  unfold State.SessionsLawful
  rwa [ht]

/-- What a taken command can do to the session records: ATTACH and DETACH set that of their port. -/
theorem Taken.sessions_cases {n : Port} {s t : State} {c : Command} {reply : Reply} (h : Taken n s c t reply) :
    t.sessions = s.sessions ∨
      (∃ role lease threshold, 1 ≤ threshold ∧ threshold ≤ 31 ∧
        t.sessions = put s.sessions n (attachedSession role lease threshold s.now)) ∨
      t.sessions = put s.sessions n Session.detachedValues := by
  cases h with
  | attach role lease threshold res hlo hhi => exact .inr (.inl ⟨role, lease, threshold, hlo, hhi, rfl⟩)
  | detach => exact .inr (.inr rfl)
  | publish => exact .inl (State.takePublish_sessions ..)
  | takeover => exact .inl (State.takeOver_sessions ..)
  | _ => exact .inl rfl

theorem Taken.sessionsLawful {n : Port} {s t : State} {c : Command} {reply : Reply} (h : Taken n s c t reply)
    (hs : s.SessionsLawful) : t.SessionsLawful := by
  rcases h.sessions_cases with e | ⟨role, lease, threshold, hlo, hhi, e⟩ | e
  · exact hs.of_same e
  · exact hs.of_put (attachedSession_lawful role lease s.now hlo hhi) e
  · exact hs.of_put Session.detachedValues_lawful e

theorem sessionsLawful_kept : KeptByBlocks State.SessionsLawful where
  port _ _ _ h := h
  finished _ _ h := h
  lease s n h := h.of_put (Session.renewed_lawful (h n) s.now) rfl
  run := run_kept fun _ _ _ _ _ ht h => ht.sessionsLawful h
  pins _ _ _ h := h
  detach _ n _ h := h.of_put (n := n) Session.detachedValues_lawful rfl
  reset _ _ _ n := by
    simpa [State.enterReset, State.afterDeviceReset] using Session.detachedValues_lawful
  leave _ _ _ h := h
  tick _ _ h := h
  boundary _ _ h := h
  raise _ h _ := h
  lapse _ h := h
  fresh s p h := by
    rcases expireFreshness_cases s p with e | ⟨r, -, -, e⟩ <;> rw [e] <;> exact h
  ask _ _ h := h
  grant s h _ := by
    rcases grant_cases s with e | e | ⟨n, k, -, e⟩ <;> rw [e]
    · exact h
    · exact h
    · cases k <;> exact h
  read s n d h _ :=
    completeRead_kept (P := State.SessionsLawful) (fun _ _ _ _ h => h.of_same (by simp)) (fun _ _ _ h => h) (fun _ _ _ h => h)
      (fun s p f c h => h.of_same (damageRequest_unchanged s p f c .sessions (by simp))) s n d h
  refresh _ _ h _ := h

/-- The end of a write leaves the session records. -/
theorem completeWrite_sessions (s : State) (n : Port) (d : List Byte) : (s.completeWrite n d).sessions = s.sessions := by
  rcases completeWrite_cases s n d with ⟨-, e⟩ | ⟨y, -, e⟩ <;> rw [e]
  · rfl
  · rcases endPublication_cases (s.setArray _) n y _ with ⟨st, e, -⟩ | ⟨-, -, e⟩ | ⟨-, -, r, hp, e⟩ <;> rw [e] <;>
      exact State.completeCommand_sessions ..

/-- Settles O8: a session record changes by an ATTACH, a detach, or the restart of its timer. -/
theorem stepKeepsSessionLaw : Obligations.StepKeepsSessionLaw := fun s t h hstep =>
  sessionsLawful_kept.events.step (fun _ _ h => h) s t h
    (fun n d x _ => State.SessionsLawful.of_same (s := s) h (completeWrite_sessions (s.setPending x) n d)) hstep

/-! ### R140: the refresh debt -/

theorem State.RefreshLawful.of_same {s t : State} (h : s.RefreshLawful) (hr : t.refresh = s.refresh)
    (hp : t.arbiter.refreshPlace = s.arbiter.refreshPlace) : t.RefreshLawful := by
  unfold State.RefreshLawful at *
  rwa [hr, hp]

theorem Taken.refreshLawful {n : Port} {s t : State} {c : Command} {reply : Reply} (h : Taken n s c t reply)
    (hs : s.RefreshLawful) : t.RefreshLawful := by
  cases h with
  | publish => exact hs.of_same (State.takePublish_refresh ..) (by rw [State.takePublish_arbiter])
  | takeover => exact hs.of_same (State.takeOver_refresh ..) (by rw [State.takeOver_arbiter])
  | _ => exact hs.of_same rfl rfl

theorem refreshLawful_kept : KeptByBlocks State.RefreshLawful where
  port _ _ _ h := h
  finished _ _ h := h
  lease _ _ h := h
  run := run_kept fun _ _ _ _ _ ht h => ht.refreshLawful h
  pins _ _ _ h := h
  detach _ _ _ h := h
  reset _ _ _ := ⟨Nat.zero_le _, by simp [State.enterReset, State.afterDeviceReset]⟩
  leave _ _ _ h := h
  tick _ _ h := h
  boundary _ _ h := h
  raise s _ hd := ⟨hd, by simp [State.raiseDebt]⟩
  lapse _ _ := ⟨Nat.zero_le _, by simp [State.doLapse]⟩
  fresh s p h := by
    rcases expireFreshness_cases s p with e | ⟨r, -, -, e⟩ <;> rw [e] <;> exact h
  ask _ _ h := h
  grant s h _ := by
    rcases grant_cases s with e | e | ⟨n, k, -, e⟩ <;> rw [e]
    · exact h
    · exact h
    · cases k <;> exact h
  read s n d h _ :=
    completeRead_kept (P := State.RefreshLawful) (fun _ _ _ _ h => h.of_same (by simp) (by simp))
      (fun _ _ _ h => h) (fun _ _ _ h => h)
      (fun s p f c h => h.of_same (damageRequest_unchanged s p f c .refresh (by simp))
        (congrArg Arbiter.refreshPlace (damageRequest_unchanged s p f c .arbiter (by simp)))) s n d h
  refresh s _ h _ := by
    obtain ⟨hmax, hplace⟩ := h
    refine ⟨?_, ?_⟩
    · show s.refresh.debt - 1 ≤ _
      omega
    · show (decide (s.refresh.debt - 1 ≠ 0) && s.arbiter.refreshPlace) = true ↔ s.refresh.debt - 1 ≠ 0
      rw [Bool.and_eq_true, decide_eq_true_eq, hplace]
      omega

/-- Settles O10: ticks, lapses and refresh completions are the only changes of the debt. -/
theorem stepKeepsRefreshLaw : Obligations.StepKeepsRefreshLaw := by
  intro s t h hstep
  refine refreshLawful_kept.events.step (fun _ _ h => h) s t h (fun n d x _ => ?_) hstep
  rcases completeWrite_cases (s.setPending x) n d with ⟨-, e⟩ | ⟨y, -, e⟩ <;> rw [e]
  · exact h
  · rcases endPublication_cases ((s.setPending x).setArray _) n y _ with ⟨st, e, -⟩ | ⟨-, -, e⟩ | ⟨-, -, r, hp, e⟩ <;>
      rw [e] <;> exact State.RefreshLawful.of_same (s := s) h (State.completeCommand_refresh ..)
        (congrArg Arbiter.refreshPlace (State.completeCommand_arbiter ..))

/-! ### R135: the array's bytes -/

theorem State.MemoryLawful.of_same {s t : State} (h : s.MemoryLawful) (ht : t.array.mem = s.array.mem) :
    t.MemoryLawful := by
  unfold State.MemoryLawful at *
  rwa [ht]

theorem Taken.memoryLawful {n : Port} {s t : State} {c : Command} {reply : Reply} (h : Taken n s c t reply)
    (hs : s.MemoryLawful) : t.MemoryLawful := by
  cases h with
  | publish => exact hs.of_same (by rw [State.takePublish_array])
  | takeover => exact hs.of_same (by rw [State.takeOver_array])
  | _ => exact hs.of_same rfl

theorem memoryLawful_kept : KeptByBlocks State.MemoryLawful where
  port _ _ _ h := h
  finished _ _ h := h
  lease _ _ h := h
  run := run_kept fun _ _ _ _ _ ht h => ht.memoryLawful h
  pins _ _ _ h := h
  detach _ _ _ h := h
  reset _ _ _ := Memory.wf_nil
  leave _ _ _ h := h
  tick _ _ h := h
  boundary _ _ h := h
  raise _ h _ := h
  lapse _ h := h
  fresh s p h := by
    rcases expireFreshness_cases s p with e | ⟨r, -, -, e⟩ <;> rw [e] <;> exact h
  ask _ _ h := h
  grant s h _ := by
    rcases grant_cases s with e | e | ⟨n, k, -, e⟩ <;> rw [e]
    · exact h
    · exact h
    · cases k <;> exact h
  read s n d h _ :=
    completeRead_kept (P := State.MemoryLawful) (fun _ _ _ _ h => h.of_same (by simp)) (fun _ _ _ h => h) (fun _ _ _ h => h)
      (fun s p f c h => h.of_same (congrArg StorageArray.mem (damageRequest_unchanged s p f c .array (by simp)))) s n d h
  refresh _ _ h _ := h

/-- The end of a write writes one row. -/
theorem completeWrite_memoryLawful {s : State} (h : s.MemoryLawful) (n : Port) (d : List Byte) :
    (s.completeWrite n d).MemoryLawful := by
  rcases completeWrite_cases s n d with ⟨-, e⟩ | ⟨y, -, e⟩ <;> rw [e]
  · exact h
  · have hrow : Memory.wf (Memory.writeAll (rowAddress y.frame) (disturbed (rowOf y.post y.payload) d) s.array.mem) :=
      Memory.writeAll_wf (by rw [disturbed_length, rowOf_length]; exact rowAddress_bound y.frame) h
    unfold State.MemoryLawful
    rcases endPublication_cases (s.setArray _) n y _ with ⟨st, e, -⟩ | ⟨-, -, e⟩ | ⟨-, -, r, hp, e⟩ <;>
      rw [e, State.completeCommand_array] <;> exact hrow

/-- Settles O11: the array's bytes change by the writing of a row, within the 96 rows. -/
theorem stepKeepsMemoryForm : Obligations.StepKeepsMemoryForm := fun s t h hstep =>
  memoryLawful_kept.events.step (fun _ _ h => h) s t h
    (fun n d x _ => completeWrite_memoryLawful (s := s.setPending x) h n d) hstep

/-! ### R76: holds and pins of DETACHED ports -/

/-- The port has no hold and no pin. -/
def State.NoClaims (s : State) (n : Port) : Prop := (∀ h : HoldNo, s.holds[n][h] = none) ∧ pinFrame s.reads[n] = []

/-- A port that is DETACHED was so before and keeps what it had, or has lost its holds and its pin. -/
theorem State.HoldsLawful.of_ports {s t : State} (h : s.HoldsLawful)
    (hst : ∀ m : Port, t.attached m = false → (s.attached m = false ∧ (s.NoClaims m → t.NoClaims m)) ∨ t.NoClaims m) :
    t.HoldsLawful := by
  intro m hm
  rcases hst m hm with ⟨ha, hkeep⟩ | hnone
  · exact hkeep (h m ha)
  · exact hnone

/-- Holds and read records stay, and no port becomes DETACHED. -/
theorem State.HoldsLawful.of_same {s t : State} (h : s.HoldsLawful) (hh : t.holds = s.holds) (hr : t.reads = s.reads)
    (ha : ∀ m, t.attached m = false → s.attached m = false) : t.HoldsLawful :=
  h.of_ports fun m hm => .inl ⟨ha m hm, by unfold State.NoClaims; rw [hh, hr]; exact id⟩

/-- The read record of one port changes, and has a pin only if it had one. -/
theorem State.HoldsLawful.of_read {s t : State} (h : s.HoldsLawful) {n : Port} {x : Option ReadRecord}
    (hh : t.holds = s.holds) (hr : t.reads = put s.reads n x) (ha : t.attached = s.attached)
    (hx : pinFrame s.reads[n] = [] → pinFrame x = []) : t.HoldsLawful := by
  refine h.of_ports fun m hm => .inl ⟨by rwa [ha] at hm, fun ⟨hholds, hpin⟩ => ⟨by rwa [hh], ?_⟩⟩
  rw [hr]
  by_cases hmn : m = n
  · subst hmn
    rw [getElem_put_self]
    exact hx hpin
  · rwa [getElem_put_of_ne _ _ hmn]

/-- An ATTACHED port takes holds or a pin. -/
theorem State.HoldsLawful.of_attached {s t : State} (h : s.HoldsLawful) {n : Port} (hn : s.attached n = true)
    (ha : t.attached = s.attached) (hother : ∀ m : Port, m ≠ n → t.holds[m] = s.holds[m] ∧ t.reads[m] = s.reads[m]) :
    t.HoldsLawful := by
  refine h.of_ports fun m hm => ?_
  rw [ha] at hm
  have hmn : m ≠ n := fun e => by rw [e, hn] at hm; cases hm
  obtain ⟨hholds, hreads⟩ := hother m hmn
  exact .inl ⟨hm, by unfold State.NoClaims; rw [hholds, hreads]; exact id⟩

/-- A port that detaches loses its holds and its pin (R76). -/
theorem detachPort_noClaims (s : State) (n : Port) (c : DetachCause) : (s.detachPort n c).NoClaims n := by
  obtain ⟨⟨-, -, -, -, hholds, hreads, -⟩, -⟩ := detachPort_detached s n c
  refine ⟨fun h => by simpa using hholds n h, ?_⟩
  rw [hreads n, if_pos rfl]
  cases s.reads[n] with
  | none => rfl
  | some r =>
    rw [Option.bind_some]
    split_ifs <;> rfl

theorem State.HoldsLawful.detach {s : State} (h : s.HoldsLawful) (n : Port) (c : DetachCause) :
    (s.detachPort n c).HoldsLawful := by
  obtain ⟨⟨-, -, -, -, hholds, hreads, -⟩, -⟩ := detachPort_detached s n c
  refine h.of_ports fun m hm => ?_
  by_cases hmn : m = n
  · exact .inr (hmn ▸ detachPort_noClaims s n c)
  · rw [detachPort_attached, if_neg hmn] at hm
    refine .inl ⟨hm, fun ⟨hh, hp⟩ => ⟨fun i => ?_, ?_⟩⟩
    · rw [hholds m i, if_neg hmn, hh i]
    · rwa [hreads m, if_neg hmn]

/-- The holds after a RELEASE (R75). -/
theorem releaseHolds_table {mask : Byte} {d d' : ReleaseDesk} (h : d' = releaseHolds mask d) (i : HoldNo) :
    d'.table[i] = if mask.getLsbD i.val = true then none else d.table[i] := by
  obtain ⟨htable, -, -⟩ := releaseFold_spec mask allHolds (by decide) d d' h
  rw [htable i]
  have hi : i ∈ allHolds := allHolds_eq ▸ List.mem_finRange i
  simp only [hi, true_and]

theorem Taken.holdsLawful {n : Port} {s t : State} {c : Command} {reply : Reply} (h : Taken n s c t reply)
    (hs : s.HoldsLawful) : t.HoldsLawful := by
  cases h with
  | answered => exact hs
  | attach =>
    refine hs.of_same rfl rfl fun m hm => ?_
    rw [setSession_attached] at hm
    split_ifs at hm
    · cases hm
    · exact hm
  | detach => exact hs.detach n _
  | publish =>
    exact hs.of_same (State.takePublish_holds ..) (State.takePublish_reads ..) (by simp)
  | read r hcommand ha =>
    exact hs.of_attached ha rfl fun m hm => ⟨rfl, getElem_put_of_ne _ _ hm⟩
  | snapshot ps d ha => exact hs.of_attached ha rfl fun m hm => ⟨getElem_put_of_ne _ _ hm, rfl⟩
  | release mask d hd =>
    refine hs.of_ports fun m hm => .inl ⟨hm, fun ⟨hholds, hpin⟩ => ⟨fun i => ?_, hpin⟩⟩
    show (put s.holds n d.table)[m][i] = none
    by_cases hmn : m = n
    · subst hmn
      rw [getElem_put_self, releaseHolds_table hd]
      split_ifs
      · rfl
      · exact hholds i
    · rw [getElem_put_of_ne _ _ hmn]
      exact hholds i
  | takeover => exact hs.of_same (State.takeOver_holds ..) (State.takeOver_reads ..) (by simp)
  | _ => exact hs.of_same rfl rfl fun _ h => h

theorem pinFrame_finishedRecord {x : Option ReadRecord} (h : pinFrame x = []) : pinFrame (finishedRecord x) = [] := by
  unfold finishedRecord
  split
  · split_ifs
    · rfl
    · exact h
  · rfl

theorem pinFrame_map_granted (x : Option ReadRecord) : pinFrame (x.map ReadRecord.granted) = pinFrame x := by
  cases x <;> rfl

theorem completeCommand_holdsLawful {s : State} (h : s.HoldsLawful) (n : Port) (st : Status) (res : List Byte) :
    (s.completeCommand n st res).HoldsLawful := by
  rcases completeCommand_cases s n st res with ⟨-, e⟩ | ⟨c, -, -, e⟩ | ⟨c, -, -, e⟩ <;> rw [e]
  · exact h
  · exact h
  · exact h.of_read (n := n) rfl rfl rfl pinFrame_finishedRecord

theorem completeRead_holdsLawful {s : State} (h : s.HoldsLawful) (n : Port) (d : List Byte) :
    (s.completeRead n d).HoldsLawful := by
  rcases completeRead_cases s n d with ⟨-, e⟩ | ⟨r, row, good, hr, e⟩ <;> rw [e]
  · exact h
  · rcases endRead_cases s.freeArray n r row good with ⟨-, e⟩ | ⟨-, st, res, b, w, e, hw⟩ <;> rw [e] <;>
      apply completeCommand_holdsLawful
    · exact h.of_read (n := n) (x := none) rfl rfl rfl fun _ => rfl
    · have hanswered : (s.freeArray.setRead n (some { r with phase := .answering })).HoldsLawful :=
        h.of_read (n := n) rfl rfl rfl (by rw [hr]; exact id)
      rcases hw with rfl | ⟨c, rfl⟩
      · exact hanswered
      · have hsame := damageRequest_unchanged ((s.freeArray.setRead n (some { r with phase := .answering })).setPool
          (s.freeArray.pool.setSuspect r.frame b)) r.post r.frame c
        refine State.HoldsLawful.of_same hanswered (hsame .holds (by simp)) (hsame .reads (by simp)) fun m hm => ?_
        have hsessions := hsame .sessions (by simp)
        unfold State.attached at hm ⊢
        rwa [hsessions] at hm

theorem holdsLawful_kept : KeptByBlocks State.HoldsLawful where
  port _ _ _ h := h
  finished s n h := h.of_read (n := n) rfl rfl rfl pinFrame_finishedRecord
  lease s n h := h.of_same rfl rfl fun m hm => by rwa [renewLease_attached] at hm
  run := run_kept fun _ _ _ _ _ ht h => ht.holdsLawful h
  pins _ _ _ h := h
  detach _ n c h := h.detach n c
  reset _ _ _ m _ := by
    constructor <;> simp [State.enterReset, State.afterDeviceReset, pinFrame]
  leave _ _ _ h := h
  tick _ _ h := h
  boundary _ _ h := h
  raise _ h _ := h
  lapse _ h := h
  fresh s p h := by
    rcases expireFreshness_cases s p with e | ⟨r, -, -, e⟩ <;> rw [e] <;> exact h
  ask _ _ h := h
  grant s h _ := by
    rcases grant_cases s with e | e | ⟨n, k, -, e⟩ <;> rw [e]
    · exact h
    · exact h
    · cases k with
      | write => exact h
      | read =>
        exact h.of_read (n := n) rfl rfl rfl fun hpin => (pinFrame_map_granted s.reads[n]).trans hpin
  read s n d h _ := completeRead_holdsLawful h n d
  refresh _ _ h _ := h

/-- Settles O15: only an ATTACHED port takes a hold or a pin, and a detach releases all of them. -/
theorem stepKeepsDetachedPortsWithoutHolds : Obligations.StepKeepsDetachedPortsWithoutHolds := by
  intro s t h hstep
  refine holdsLawful_kept.events.step (fun _ _ h => h) s t h (fun n d x _ => ?_) hstep
  rcases completeWrite_cases (s.setPending x) n d with ⟨-, e⟩ | ⟨y, -, e⟩ <;> rw [e]
  · exact h
  · rcases endPublication_cases ((s.setPending x).setArray _) n y _ with ⟨st, e, -⟩ | ⟨-, -, e⟩ | ⟨-, -, r, hp, e⟩ <;>
      rw [e] <;> apply completeCommand_holdsLawful <;> exact h

end Sys2Proof.Machine
end

section
/-!
The law of the notice queues (R87, R95): what an arrival, an offer, a purge and a TAKE keep of one queue and of the four,
and from it the invariant.
-/
namespace Sys2Proof.Machine
open Sys2Proof

/-! ### One queue -/

theorem NoticeQueue.empty_lawful : NoticeQueue.empty.Lawful := by
  refine ⟨?_, ?_, ?_, ?_⟩ <;> simp [NoticeQueue.empty]

/-- Entries leave the queue, or the marker does. -/
theorem NoticeQueue.Lawful.of_sublist {q q' : NoticeQueue} (h : q.Lawful) (he : q'.entries.Sublist q.entries)
    (hl : ∀ k, q'.lost = some k → q.lost = some k) : q'.Lawful := by
  obtain ⟨hlen, hupdate, hsolicit, hlost⟩ := h
  exact ⟨he.length_le.trans hlen, fun p => (he.filter _).length_le.trans (hupdate p),
    fun p => (he.filter _).length_le.trans (hsolicit p), fun k hk => hlost k (hl k hk)⟩

theorem NoticeQueue.Lawful.purge {q : NoticeQueue} (h : q.Lawful) (sel : Notice → Bool) : (q.purge sel).Lawful :=
  h.of_sublist List.filter_sublist fun _ hk => hk

theorem NoticeQueue.Lawful.dropOldest {q : NoticeQueue} (h : q.Lawful) (k : Nat) : (q.dropOldest k).Lawful := by
  refine h.of_sublist (List.drop_sublist _ _) fun j hj => ?_
  unfold NoticeQueue.dropOldest at hj
  split_ifs at hj
  exact hj

/-- A class of which at most one entry waits, and to which a new entry belongs only if none waits, keeps at most one. -/
theorem length_filter_append_le_one {α : Type} {l : List α} {x : α} {f : α → Bool} (h : (l.filter f).length ≤ 1)
    (hx : f x = true → ∀ e ∈ l, f e = false) : ((l ++ [x]).filter f).length ≤ 1 := by
  rw [List.filter_append, List.length_append]
  by_cases hf : f x = true
  · rw [List.filter_eq_nil_iff.2 fun e he => by simp [hx hf e he]]
    simp [hf]
  · simpa [hf] using h

/-- A notice that is no second UPDATE or SOLICIT for its post is handed to the queue as a new entry (R90). -/
theorem NoticeQueue.Lawful.append {q : NoticeQueue} (h : q.Lawful) {x : Notice}
    (hu : ∀ p, x.isUpdateOf p = true → ∀ e ∈ q.entries, e.isUpdateOf p = false)
    (hs : ∀ p, x.isSolicitOf p = true → ∀ e ∈ q.entries, e.isSolicitOf p = false) : (q.append x).Lawful := by
  obtain ⟨hlen, hupdate, hsolicit, hlost⟩ := h
  rcases q.append_cases x with ⟨-, hroom, e⟩ | ⟨-, -, e⟩ | ⟨k, hk, e⟩ <;> rw [e]
  · exact ⟨by simpa using hroom, fun p => length_filter_append_le_one (hupdate p) (hu p),
      fun p => length_filter_append_le_one (hsolicit p) (hs p), nofun⟩
  · exact ⟨hlen, hupdate, hsolicit, fun j hj => by cases hj; decide⟩
  · refine ⟨hlen, hupdate, hsolicit, fun j hj => ?_⟩
    cases hj
    have : 1 ≤ Config.maxLost := by decide
    omega

/-- Entries change in their places, none its kind or post. -/
theorem NoticeQueue.Lawful.merge {q : NoticeQueue} (h : q.Lawful) (sel : Notice → Bool) {f : Notice → Notice}
    (hu : ∀ p e, (f e).isUpdateOf p = e.isUpdateOf p) (hs : ∀ p e, (f e).isSolicitOf p = e.isSolicitOf p) :
    (q.merge sel f).Lawful := by
  obtain ⟨hlen, hupdate, hsolicit, hlost⟩ := h
  have same {g : Notice → Bool} (hg : ∀ e, g (f e) = g e) :
      ((q.merge sel f).entries.filter g).length = (q.entries.filter g).length := by
    rw [← List.countP_eq_length_filter, ← List.countP_eq_length_filter]
    show (q.entries.map _).countP g = _
    rw [List.countP_map]
    refine List.countP_congr fun e _ => ?_
    simp only [Function.comp_apply]
    split_ifs <;> simp [hg]
  refine ⟨?_, fun p => (same (hu p)).trans_le (hupdate p), fun p => (same (hs p)).trans_le (hsolicit p), hlost⟩
  simpa [NoticeQueue.merge] using hlen

theorem Notice.mergeUpdate_isUpdateOf (g : Half) (p : PostNo) (e : Notice) :
    (e.mergeUpdate g).isUpdateOf p = e.isUpdateOf p := by cases e <;> rfl
theorem Notice.mergeUpdate_isSolicitOf (g : Half) (p : PostNo) (e : Notice) :
    (e.mergeUpdate g).isSolicitOf p = e.isSolicitOf p := by cases e <;> rfl
theorem Notice.mergeSolicit_isUpdateOf (p : PostNo) (e : Notice) :
    e.mergeSolicit.isUpdateOf p = e.isUpdateOf p := by cases e <;> rfl
theorem Notice.mergeSolicit_isSolicitOf (p : PostNo) (e : Notice) :
    e.mergeSolicit.isSolicitOf p = e.isSolicitOf p := by cases e <;> rfl

/-- A notice arrives by coalescing, or as a new entry of which none waits (R88, R89, R90). -/
theorem NoticeQueue.arrive_cases (q : NoticeQueue) (x : Notice) :
    (∃ p g, q.arrive x = q.merge (Notice.isUpdateOf p) (Notice.mergeUpdate g)) ∨
      (∃ p, q.arrive x = q.merge (Notice.isSolicitOf p) Notice.mergeSolicit) ∨
      (q.arrive x = q.append x ∧ (∀ p, x.isUpdateOf p = true → ∀ e ∈ q.entries, e.isUpdateOf p = false) ∧
        ∀ p, x.isSolicitOf p = true → ∀ e ∈ q.entries, e.isSolicitOf p = false) := by
  cases x with
  | update p k g n =>
    simp only [NoticeQueue.arrive]
    split_ifs with h
    · exact .inl ⟨p, g, rfl⟩
    · refine .inr (.inr ⟨rfl, fun p' hp' e he => ?_, fun _ => nofun⟩)
      obtain rfl : p = p' := of_decide_eq_true hp'
      simp only [List.any_eq_true, not_exists, not_and] at h
      simpa using h e he
  | solicit p k t a =>
    simp only [NoticeQueue.arrive]
    split_ifs with h
    · exact .inr (.inl ⟨p, rfl⟩)
    · refine .inr (.inr ⟨rfl, fun _ => nofun, fun p' hp' e he => ?_⟩)
      obtain rfl : p = p' := of_decide_eq_true hp'
      simp only [List.any_eq_true, not_exists, not_and] at h
      simpa using h e he
  | _ => exact .inr (.inr ⟨rfl, fun _ => nofun, fun _ => nofun⟩)

theorem NoticeQueue.Lawful.arrive {q : NoticeQueue} (h : q.Lawful) (x : Notice) : (q.arrive x).Lawful := by
  rcases q.arrive_cases x with ⟨p, g, e⟩ | ⟨p, e⟩ | ⟨e, hu, hs⟩ <;> rw [e]
  · exact h.merge _ (Notice.mergeUpdate_isUpdateOf g) (Notice.mergeUpdate_isSolicitOf g)
  · exact h.merge _ Notice.mergeSolicit_isUpdateOf Notice.mergeSolicit_isSolicitOf
  · exact h.append hu hs

/-- An ANSWER is neither an UPDATE nor a SOLICIT. -/
theorem NoticeQueue.Lawful.append_answer {q : NoticeQueue} (h : q.Lawful) (e : UndeliveredAsk) :
    (q.append e.answer).Lawful :=
  h.append (fun _ => nofun) (fun _ => nofun)

theorem deliverRound_lawful {es : List UndeliveredAsk} {q : NoticeQueue} (h : q.Lawful) :
    (deliverRound es q).1.Lawful := by
  induction es generalizing q with
  | nil => exact h
  | cons e es ih =>
    unfold deliverRound
    split_ifs
    · exact ih (h.append_answer e)
    · exact h

/-! ### The four queues -/

/-- Every queue keeps its law, and the queue of a port that is not ATTACHED is empty. -/
def QueuesOk (att : Port → Bool) (qs : Vector NoticeQueue 4) : Prop :=
  ∀ n : Port, qs[n].Lawful ∧ (att n = false → qs[n] = NoticeQueue.empty)

theorem queuesLawful_iff (s : State) : s.QueuesLawful ↔ QueuesOk s.attached s.queues := Iff.rfl

section
variable {att : Port → Bool} {qs : Vector NoticeQueue 4}

/-- One queue changes, that of an ATTACHED port. -/
theorem QueuesOk.put (h : QueuesOk att qs) {n : Port} {q : NoticeQueue} (hq : q.Lawful)
    (hn : att n = false → q = NoticeQueue.empty) : QueuesOk att (put qs n q) := by
  intro m
  by_cases hm : m = n
  · subst hm
    rw [getElem_put_self]
    exact ⟨hq, hn⟩
  · rw [getElem_put_of_ne _ _ hm]
    exact h m

/-- A notice reaches ATTACHED ports alone (R84). -/
theorem QueuesOk.deliver (h : QueuesOk att qs) {sel : Port → Bool} (hsel : ∀ n, sel n = true → att n = true)
    (x : Notice) : QueuesOk att (deliver sel x qs) := by
  intro n
  rw [getElem_deliver]
  split_ifs with hn
  · exact ⟨(h n).1.arrive x, fun ha => by rw [hsel n hn] at ha; cases ha⟩
  · exact h n

/-- An ANSWER is offered to an ATTACHED port alone (R84, R109). -/
theorem QueuesOk.offer {d : AnswerDesk} (h : QueuesOk att d.1) (e : UndeliveredAsk) :
    QueuesOk att (offerAnswer att e d).1 := by
  unfold offerAnswer
  split_ifs with ha
  · rw [Bool.and_eq_true] at ha
    exact h.put ((h _).1.append_answer e) fun hn => by rw [ha.1] at hn; cases hn
  · exact h

theorem QueuesOk.completeEntries {d : AnswerDesk} (h : QueuesOk att d.1) (es : List PendingAsk) (o : AskOutcome) :
    QueuesOk att (completeEntries att es o d).1 := by
  induction es generalizing d with
  | nil => exact h
  | cons e es ih => exact ih (h.offer (e.completed o))

theorem QueuesOk.purge (h : QueuesOk att qs) (sel : Notice → Bool) :
    QueuesOk att (perPort fun n => qs[n].purge sel) := by
  intro n
  have he : (perPort fun n => qs[n].purge sel)[n] = qs[n].purge sel := getElem_perPort _ _ _
  rw [he]
  exact ⟨(h n).1.purge sel, fun ha => by rw [(h n).2 ha]; rfl⟩

end

theorem recipients_attached {s : State} {k : Half} {flag : FilterFlag} {acting fixed : Option Port} {n : Port}
    (h : s.recipients k flag acting fixed n = true) : s.attached n = true :=
  ((Bool.and_eq_true _ _).mp h).1

/-- Sessions and queues stay. -/
theorem State.QueuesLawful.of_same {s t : State} (h : s.QueuesLawful) (ha : t.attached = s.attached)
    (hq : t.queues = s.queues) : t.QueuesLawful := by
  rw [queuesLawful_iff] at *
  rwa [ha, hq]

theorem State.QueuesLawful.notify {s : State} (h : s.QueuesLawful) (x : Notice) (k : Half) (flag : FilterFlag)
    (acting fixed : Option Port) : (s.notify x k flag acting fixed).QueuesLawful :=
  QueuesOk.deliver (att := s.attached) h (fun _ hn => recipients_attached hn) x

theorem State.QueuesLawful.notifyAttached {s : State} (h : s.QueuesLawful) (x : Notice) :
    (s.notifyAttached x).QueuesLawful :=
  QueuesOk.deliver (att := s.attached) h (fun _ hn => hn) x

theorem State.QueuesLawful.notifyPort {s : State} (h : s.QueuesLawful) (n : Port) (x : Notice) :
    (s.notifyPort n x).QueuesLawful :=
  QueuesOk.deliver (att := s.attached) h (fun _ hn => ((Bool.and_eq_true _ _).mp hn).2) x

theorem State.QueuesLawful.completeAsks {s : State} (h : s.QueuesLawful) (sel : PendingAsk → Bool) (o : AskOutcome) :
    (s.completeAsks sel o).QueuesLawful :=
  QueuesOk.completeEntries (att := s.attached) (d := (s.queues, s.requests.undelivered)) h _ o

theorem State.QueuesLawful.purgePost {s : State} (h : s.QueuesLawful) (p : PostNo) : (s.purgePost p).QueuesLawful :=
  QueuesOk.purge (att := s.attached) h _

theorem State.QueuesLawful.purgeSolicit {s : State} (h : s.QueuesLawful) (n : Port) (p : PostNo) :
    (s.purgeSolicit n p).QueuesLawful :=
  QueuesOk.put (att := s.attached) h ((h n).1.purge _) fun ha => by rw [(h n).2 ha]; rfl

theorem State.QueuesLawful.vacate {s : State} (h : s.QueuesLawful) (p : PostNo) (r : Post) (b : VacateBy) (n : Port) :
    (s.vacate p r b n).QueuesLawful := by
  refine State.QueuesLawful.notify (State.QueuesLawful.completeAsks (State.QueuesLawful.purgePost ?_ p) _ _) _ _ _ _ _
  exact h

/-- What the posts of a list hand on at a detach keeps the queues (R92). -/
theorem QueuesOk.orphanHandOn {s : State} {d : AnswerDesk} (h : QueuesOk s.attached d.1) (n : Port) (c : DetachCause)
    (ps : List PostNo) : QueuesOk s.attached (ps.foldl (s.orphanHandOn n c) d).1 := by
  induction ps generalizing d with
  | nil => exact h
  | cons p ps ih =>
    refine ih ?_
    unfold State.orphanHandOn
    split
    · exact h
    · split_ifs
      · exact QueuesOk.completeEntries
          (d := (Machine.deliver (s.recipients _ .lifecycle none none) _ d.1, d.2))
          (h.deliver (fun _ hn => recipients_attached hn) _) _ _
      · exact h

theorem State.QueuesLawful.orphanPosts {s : State} (h : s.QueuesLawful) (n : Port) (c : DetachCause) :
    (s.orphanPosts n c).QueuesLawful :=
  QueuesOk.orphanHandOn (s := s) (d := (s.queues, s.requests.undelivered)) h n c allPosts

/-- A detach empties the queue of its port (R87, R126). -/
theorem State.QueuesLawful.detach {s : State} (h : s.QueuesLawful) (n : Port) (c : DetachCause) :
    (s.detachPort n c).QueuesLawful := by
  refine State.QueuesLawful.orphanPosts (fun m => ?_) n c
  show (put s.queues n NoticeQueue.empty)[m].Lawful ∧
    ((s.setSession n Session.detachedValues).attached m = false → (put s.queues n NoticeQueue.empty)[m] = _)
  rw [setSession_attached]
  by_cases hm : m = n
  · subst hm
    rw [getElem_put_self]
    exact ⟨NoticeQueue.empty_lawful, fun _ => rfl⟩
  · rw [getElem_put_of_ne _ _ hm, if_neg hm]
    exact h m

/-- A port becomes ATTACHED, or stays so. -/
theorem State.QueuesLawful.attach {s t : State} (h : s.QueuesLawful) (hq : t.queues = s.queues)
    (ha : ∀ m, t.attached m = false → s.attached m = false) : t.QueuesLawful := by
  intro m
  rw [hq]
  exact ⟨(h m).1, fun hm => (h m).2 (ha m hm)⟩

theorem State.QueuesLawful.takePublish {s : State} (h : s.QueuesLawful) (n : Port) (p : PostNo) (r : Post)
    (payload : List Byte) (f : FrameNo) (x : Pool) (low : Option Nat) :
    (s.takePublish n p r payload f x low).QueuesLawful := by
  cases low with
  | none => exact h
  | some k =>
    refine State.QueuesLawful.notifyAttached ?_ _
    exact h

theorem State.QueuesLawful.takeOver {s : State} (h : s.QueuesLawful) (n : Port) (p : PostNo) (r : Post) (q : Port) :
    (s.takeOver n p r q).QueuesLawful := by
  have hpurged : ((((s.setPost p (some (r.takenOver n))).overtakeInFlight r.inFlight .takeover).notify
      (.adopted p r.key n .takeover) r.key .lifecycle (some n) (some q)).purgeSolicit q p).QueuesLawful := by
    refine State.QueuesLawful.purgeSolicit (State.QueuesLawful.notify ?_ _ _ _ _ _) q p
    exact h
  simp only [State.takeOver, State.resolicit]
  split
  · exact hpurged
  · exact hpurged.notifyPort _ _

theorem Taken.queuesLawful {n : Port} {s t : State} {c : Command} {reply : Reply} (h : Taken n s c t reply)
    (hs : s.QueuesLawful) : t.QueuesLawful := by
  cases h with
  | answered | read | snapshot | release | cancelPending | cancelUndelivered | filters | mark =>
    exact hs.of_same rfl rfl
  | attach =>
    refine hs.attach rfl fun m hm => ?_
    rw [setSession_attached] at hm
    split_ifs at hm
    · cases hm
    · exact hm
  | detach => exact hs.detach n _
  | declare => exact State.QueuesLawful.notify (State.QueuesLawful.of_same hs rfl rfl) _ _ _ _ _
  | vacate p r b => exact hs.vacate p r b n
  | publish => exact hs.takePublish _ _ _ _ _ _ _
  | ask => exact State.QueuesLawful.notifyPort (State.QueuesLawful.of_same hs rfl rfl) _ _
  | take count q delivered res ha hround =>
    have hq : q.Lawful := by
      have := deliverRound_lawful (es := s.requests.undeliveredOf n) ((hs n).1.dropOldest count)
      rwa [hround] at this
    exact QueuesOk.put (att := s.attached) hs hq fun hn => by rw [ha] at hn; cases hn
  | adopt => exact State.QueuesLawful.notify (State.QueuesLawful.of_same hs rfl rfl) _ _ _ _ _
  | takeover => exact hs.takeOver _ _ _ _

theorem State.QueuesLawful.damageRequest {s : State} (h : s.QueuesLawful) (p : PostNo) (f : FrameNo)
    (c : DamageCause) : (s.damageRequest p f c).QueuesLawful := by
  rcases damageRequest_cases s p f c with ⟨e, -⟩ | ⟨r, -, -, -, e⟩ <;> rw [e]
  · exact h
  · cases c with
    | check => exact State.QueuesLawful.notify (State.QueuesLawful.of_same h rfl rfl) _ _ _ _ _
    | lapse => exact h

theorem State.QueuesLawful.completeCommand {s : State} (h : s.QueuesLawful) (n : Port) (st : Status)
    (res : List Byte) : (s.completeCommand n st res).QueuesLawful :=
  h.of_same (by unfold State.attached; rw [State.completeCommand_sessions]) (State.completeCommand_queues ..)

theorem queuesLawful_kept : KeptByBlocks State.QueuesLawful where
  port _ _ _ h := h
  finished _ _ h := h
  lease s n h := h.of_same (renewLease_attached s n) rfl
  run := run_kept fun _ _ _ _ _ ht h => ht.queuesLawful h
  pins _ _ _ h := h
  detach _ n c h := h.detach n c
  reset _ _ _ m := by
    simpa [State.enterReset, State.afterDeviceReset] using NoticeQueue.empty_lawful
  leave _ _ _ h := h
  tick _ _ h := h
  boundary _ _ h := h
  raise _ h _ := h
  lapse s h :=
    State.QueuesLawful.of_same (h.notifyAttached (.lapse (min (s.refresh.lapseCount + 1) Config.maxLapseCount))) rfl rfl
  fresh s p h := by
    rcases expireFreshness_cases s p with e | ⟨r, -, -, e⟩ <;> rw [e]
    · exact h
    · exact State.QueuesLawful.notify (State.QueuesLawful.of_same h rfl rfl) _ _ _ _ _
  ask s k h := h.completeAsks _ _
  grant s h _ := by
    rcases grant_cases s with e | e | ⟨n, k, -, e⟩ <;> rw [e]
    · exact h
    · exact h
    · cases k <;> exact h
  read s n d h _ :=
    completeRead_kept (P := State.QueuesLawful) (fun _ n st res h => h.completeCommand n st res) (fun _ _ _ h => h)
      (fun _ _ _ h => h) (fun _ p f c h => h.damageRequest p f c) s n d h
  refresh _ _ h _ := h

/-- The commit's UPDATE and its ANSWERs keep the queues (R34). -/
theorem State.QueuesLawful.completeWrite {s : State} (h : s.QueuesLawful) (n : Port) (d : List Byte) :
    (s.completeWrite n d).QueuesLawful := by
  rcases completeWrite_cases s n d with ⟨-, e⟩ | ⟨y, -, e⟩ <;> rw [e]
  · exact h
  · rcases endPublication_cases (s.setArray _) n y _ with ⟨st, e, -⟩ | ⟨-, -, e⟩ | ⟨-, -, r, hp, e⟩ <;> rw [e] <;>
      apply State.QueuesLawful.completeCommand
    · exact h
    · exact h
    · refine State.QueuesLawful.completeAsks (State.QueuesLawful.notify ?_ _ _ _ _ _) _ _
      exact h

/-- Settles O6: whatever reaches a queue is an arrival or the ANSWER of an offer, and reaches an ATTACHED port. -/
theorem stepKeepsQueueLaw : Obligations.StepKeepsQueueLaw := fun s t h hstep =>
  queuesLawful_kept.events.step (fun _ _ h => h) s t h
    (fun n d x _ => State.QueuesLawful.completeWrite (s := s.setPending x) h n d) hstep

end Sys2Proof.Machine
end

section
/-!
The request table (R99, R100): tickets, the entries as one list in which completions only move and lose entries, and from
it the invariants.
-/
namespace Sys2Proof.Machine
open Sys2Proof

/-! ### The next ticket -/

/-- The ticket value `k` after the next one (R100). -/
def ticketAfter (counter : Byte) (k : Nat) : Byte := BitVec.ofNat 8 ((counter.toNat + k) % 255 + 1)

theorem ticketAfter_ne_zero (counter : Byte) (k : Nat) : ticketAfter counter k ≠ 0#8 := by
  unfold ticketAfter
  intro h
  have := congrArg BitVec.toNat h
  simp only [BitVec.toNat_ofNat] at this
  omega

theorem ticketAfter_inj {counter : Byte} {i j : Nat} (hi : i < 16) (hj : j < 16)
    (h : ticketAfter counter i = ticketAfter counter j) : i = j := by
  unfold ticketAfter at h
  have := congrArg BitVec.toNat h
  simp only [BitVec.toNat_ofNat] at this
  omega

/-- Fewer than 16 tickets cannot hold 16 values in a row. -/
theorem exists_ticketAfter_free {held : List Byte} (counter : Byte) (h : held.length < 16) :
    ¬ ∀ j < 16, ticketAfter counter j ∈ held := by
  intro hall
  have hnodup : ((List.range 16).map (ticketAfter counter)).Nodup :=
    List.nodup_range.map_on fun i hi j hj e => ticketAfter_inj (List.mem_range.1 hi) (List.mem_range.1 hj) e
  have hsub : (List.range 16).map (ticketAfter counter) ⊆ held := by
    intro t ht
    obtain ⟨j, hj, rfl⟩ := List.mem_map.1 ht
    exact hall j (List.mem_range.1 hj)
  have := (hnodup.subperm hsub).length_le
  simp at this
  omega

/-- In a table with a place free, the next ticket is the first value that no entry holds (R100). -/
theorem nextTicket_spec {x : RequestTable} (h : x.size < 16) :
    ∃ k < 16, x.nextTicket = ticketAfter x.counter k ∧ x.nextTicket ∉ x.tickets ∧
      ∀ j < k, ticketAfter x.counter j ∈ x.tickets := by
  have hlen : x.tickets.length < 16 := by simpa [RequestTable.tickets, RequestTable.size] using h
  obtain ⟨i, -, hi, he, hpassed, hfree⟩ := firstFree_spec x.tickets x.counter.toNat 16 0 (by omega)
  have he' : x.nextTicket = ticketAfter x.counter i := by
    rw [RequestTable.nextTicket, succTicket_eq]
    exact he
  have hlt : i < 16 := by
    by_contra hc
    exact exists_ticketAfter_free x.counter hlen fun j hj => hpassed j (by omega)
  exact ⟨i, hlt, he', he' ▸ hfree (by omega), hpassed⟩

/-- Settles O50. -/
theorem ticketIsFirstFreeValue : Obligations.TicketIsFirstFreeValue := fun _ h => nextTicket_spec h

/-! ### The entries of the table as one list -/

/-- Ticket, requester and post of each entry, PENDING or UNDELIVERED. -/
def RequestTable.entries (x : RequestTable) : List (Byte × Port × PostNo) :=
  x.pending.map (fun e => (e.ticket, e.requester, e.post)) ++
    x.undelivered.map (fun e => (e.ticket, e.requester, e.post))

theorem RequestTable.entries_tickets (x : RequestTable) : x.entries.map Prod.fst = x.tickets := by
  simp [RequestTable.entries, RequestTable.tickets, Function.comp_def]

theorem RequestTable.entries_askers (x : RequestTable) : x.entries.map Prod.snd = x.askers := by
  simp [RequestTable.entries, RequestTable.askers, Function.comp_def]

theorem RequestTable.entries_length (x : RequestTable) : x.entries.length = x.size := by
  simp [RequestTable.entries, RequestTable.size]

theorem RequestTable.entries_countP (x : RequestTable) (n : Port) :
    x.entries.countP (fun e => decide (e.2.1 = n)) = (x.pendingOf n).length + (x.undeliveredOf n).length := by
  simp [RequestTable.entries, RequestTable.pendingOf, RequestTable.undeliveredOf, List.countP_map,
    ← List.countP_eq_length_filter, Function.comp_def]

theorem subperm_map {α β : Type} (f : α → β) {l l' : List α} (h : l.Subperm l') : (l.map f).Subperm (l'.map f) := by
  obtain ⟨m, hperm, hsub⟩ := h
  exact ⟨m.map f, hperm.map f, hsub.map f⟩

theorem nodup_of_subperm {α : Type} {l l' : List α} (h : l.Subperm l') (hl : l'.Nodup) : l.Nodup := by
  obtain ⟨m, hperm, hsub⟩ := h
  exact hperm.nodup_iff.1 (hl.sublist hsub)

/-- The post is OCCUPIED and BOUND. -/
def State.BoundPost (s : State) (p : PostNo) : Prop := ∃ r n, s.posts[p] = some r ∧ r.binding = .bound n

/-- Entries leave the table or are completed; requesters stay ATTACHED, and posts with PENDING entries BOUND. -/
theorem State.RequestsLawful.of_subperm {s t : State} (h : s.RequestsLawful)
    (hsub : t.requests.entries.Subperm s.requests.entries)
    (hatt : ∀ a ∈ t.requests.askers, s.attached a.1 = true → t.attached a.1 = true)
    (hbound : ∀ e ∈ t.requests.pending, t.BoundPost e.post) : t.RequestsLawful := by
  obtain ⟨hsize, hport, hnodup, hrequesters, -⟩ := h
  have haskers : t.requests.askers.Subperm s.requests.askers := by
    rw [← RequestTable.entries_askers, ← RequestTable.entries_askers]
    exact subperm_map _ hsub
  refine ⟨?_, fun n => ?_, nodup_of_subperm haskers hnodup, fun a ha => hatt a ha (hrequesters a (haskers.subset ha)), hbound⟩
  · rw [← RequestTable.entries_length] at hsize ⊢
    exact hsub.length_le.trans hsize
  · rw [← RequestTable.entries_countP] at *
    exact (hsub.countP_le _).trans (by rw [RequestTable.entries_countP]; exact hport n)

theorem State.TicketsLawful.of_subperm {s t : State} (h : s.TicketsLawful)
    (hsub : t.requests.entries.Subperm s.requests.entries) : t.TicketsLawful := by
  have htickets : t.requests.tickets.Subperm s.requests.tickets := by
    rw [← RequestTable.entries_tickets, ← RequestTable.entries_tickets]
    exact subperm_map _ hsub
  exact ⟨nodup_of_subperm htickets h.1, fun h0 => h.2 (htickets.subset h0)⟩

/-! ### What a completion does to the list of entries -/

/-- Ticket, requester and post of a PENDING entry, and of an UNDELIVERED one. -/
def PendingAsk.entry (e : PendingAsk) : Byte × Port × PostNo := (e.ticket, e.requester, e.post)
@[inherit_doc PendingAsk.entry]
def UndeliveredAsk.entry (e : UndeliveredAsk) : Byte × Port × PostNo := (e.ticket, e.requester, e.post)

theorem RequestTable.entries_eq (x : RequestTable) :
    x.entries = x.pending.map PendingAsk.entry ++ x.undelivered.map UndeliveredAsk.entry := rfl

/-- PENDING entries that stay, UNDELIVERED entries that stay, and others of the PENDING entries, completed. -/
theorem entries_subperm {x y : RequestTable} {moved : List PendingAsk} {o : AskOutcome}
    {kept refused : List UndeliveredAsk} (hpending : (y.pending ++ moved).Subperm x.pending)
    (hundelivered : y.undelivered = kept ++ refused) (hkept : kept.Sublist x.undelivered)
    (hrefused : refused.Subperm (moved.map fun e => e.completed o)) : y.entries.Subperm x.entries := by
  have hmoved : (refused.map UndeliveredAsk.entry).Subperm (moved.map PendingAsk.entry) := by
    have := subperm_map UndeliveredAsk.entry hrefused
    rwa [List.map_map] at this
  have hpend : (y.pending.map PendingAsk.entry ++ moved.map PendingAsk.entry).Subperm (x.pending.map PendingAsk.entry) := by
    rw [← List.map_append]
    exact subperm_map _ hpending
  rw [RequestTable.entries_eq, RequestTable.entries_eq, hundelivered, List.map_append]
  have hperm : (y.pending.map PendingAsk.entry ++ (kept.map UndeliveredAsk.entry ++ refused.map UndeliveredAsk.entry)).Perm
      (y.pending.map PendingAsk.entry ++ refused.map UndeliveredAsk.entry ++ kept.map UndeliveredAsk.entry) := by
    rw [List.append_assoc]
    exact List.perm_append_comm.append_left _
  have hmoved' := (List.Subperm.refl (y.pending.map PendingAsk.entry)).append hmoved
  exact hperm.subperm.trans ((hmoved'.trans hpend).append (hkept.map _).subperm)

theorem filter_not_append_filter_perm {α : Type} (f : α → Bool) (l : List α) :
    (l.filter (fun e => !f e) ++ l.filter f).Perm l :=
  List.perm_append_comm.trans (List.filter_append_perm f l)

/-- The completion of the PENDING entries that `sel` picks. -/
theorem completeAsks_entries (s : State) (sel : PendingAsk → Bool) (o : AskOutcome) :
    (s.completeAsks sel o).requests.entries.Subperm s.requests.entries := by
  obtain ⟨-, refused, hrefused, hsub, -⟩ := completeAsks_received s sel o
  exact entries_subperm (moved := s.requests.pending.filter sel) (filter_not_append_filter_perm sel _).subperm hrefused
    (List.Sublist.refl _) hsub.subperm

/-- Elements picked key by key, each key once, are those whose key is among the keys. -/
theorem flatMap_filter_perm {α β : Type} [DecidableEq β] (key : α → β) (l : List α) {ks : List β} (h : ks.Nodup) :
    (ks.flatMap fun k => l.filter fun a => decide (key a = k)).Perm (l.filter fun a => decide (key a ∈ ks)) := by
  induction ks with
  | nil => simp
  | cons k ks ih =>
    obtain ⟨hk, hks⟩ := List.nodup_cons.1 h
    rw [List.flatMap_cons]
    refine ((ih hks).append_left _).trans ?_
    have hsplit := List.filter_append_perm (fun a => decide (key a = k)) (l.filter fun a => decide (key a ∈ k :: ks))
    rw [List.filter_filter, List.filter_filter] at hsplit
    convert hsplit using 2
    · refine List.filter_congr fun a _ => ?_
      by_cases ha : key a = k <;> simp [ha]
    · refine List.filter_congr fun a _ => ?_
      by_cases ha : key a = k <;> simp [ha, hk]

/-- The PENDING entries of other ports on posts BOUND to port `n`: those that its detach completes (R106). -/
def State.departingAsks (s : State) (n : Port) : List PendingAsk :=
  s.requests.pending.filter fun e => decide (e.requester ≠ n) && postBoundTo s.posts[e.post] n

theorem postBoundTo_iff (o : Option Post) (n : Port) :
    postBoundTo o n = true ↔ o.map Post.binding = some (.bound n) := by
  cases o <;> simp [postBoundTo, Post.boundTo]

/-- What `orphanedAsks` lists for one post. -/
theorem departingAsks_filter (s : State) (n : Port) (p : PostNo) :
    ((s.departingAsks n).filter fun e => decide (e.post = p)).map (fun e => e.completed .orphaned) =
      if postBoundTo s.posts[p] n then
        completions (s.requests.pending.filter fun e => decide (e.requester ≠ n)) p .orphaned else [] := by
  have hpick : ((s.departingAsks n).filter fun e => decide (e.post = p)) =
      (s.requests.pending.filter fun e => decide (e.requester ≠ n)).filter
        fun e => decide (e.post = p) && postBoundTo s.posts[p] n := by
    rw [State.departingAsks, List.filter_filter, List.filter_filter]
    refine List.filter_congr fun e _ => ?_
    by_cases he : e.post = p
    · simp [he, Bool.and_comm]
    · simp [he]
  rw [hpick]
  generalize postBoundTo s.posts[p] n = bound
  cases bound <;> simp [completions]

theorem orphanedAsks_perm (s : State) (n : Port) :
    (orphanedAsks s n).Perm ((s.departingAsks n).map fun e => e.completed .orphaned) := by
  have heq : orphanedAsks s n = (List.finRange 64).flatMap fun p =>
      ((s.departingAsks n).filter fun e => decide (e.post = p)).map fun e => e.completed .orphaned := by
    refine List.flatMap_congr fun p _ => ?_
    rw [departingAsks_filter]
    cases s.posts[p] with
    | none => rfl
    | some r => simp [postBoundTo, Post.boundTo]
  rw [heq, ← List.map_flatMap]
  have := flatMap_filter_perm PendingAsk.post (s.departingAsks n) (List.nodup_finRange 64)
  exact List.Perm.map _ (by simpa using this)

/-- The entries after the detach of port `n`: its own leave, and those on its posts are completed (R113). -/
theorem detachPort_entries (s : State) (n : Port) (c : DetachCause) :
    (s.detachPort n c).requests.entries.Subperm s.requests.entries := by
  obtain ⟨⟨-, -, -, -, -, -, -, hpending, ⟨-, refused, hrefused, hsub, -⟩, -⟩, -⟩ := detachPort_detached s n c
  refine entries_subperm (moved := s.departingAsks n) ?_ hrefused List.filter_sublist
    (hsub.subperm.trans (orphanedAsks_perm s n).subperm)
  have hstay : (s.detachPort n c).requests.pending =
      (s.requests.pending.filter fun e => decide (e.requester ≠ n)).filter
        fun e => !postBoundTo s.posts[e.post] n := by
    rw [hpending, List.filter_filter]
    refine List.filter_congr fun e _ => ?_
    rw [Bool.eq_iff_iff, decide_eq_true_iff, Bool.and_eq_true, decide_eq_true_iff, Bool.not_eq_true',
      ← Bool.not_eq_true, postBoundTo_iff]
    exact and_comm
  have hmoved : s.departingAsks n =
      (s.requests.pending.filter fun e => decide (e.requester ≠ n)).filter fun e => postBoundTo s.posts[e.post] n := by
    rw [State.departingAsks, List.filter_filter]
    exact List.filter_congr fun e _ => Bool.and_comm _ _
  rw [hstay, hmoved]
  exact (filter_not_append_filter_perm _ _).subperm.trans List.filter_sublist.subperm

/-- No entry of port `n` is left after its detach (R113). -/
theorem detachPort_askers (s : State) (n : Port) (c : DetachCause) :
    ∀ a ∈ (s.detachPort n c).requests.askers, a.1 ≠ n := by
  obtain ⟨⟨-, -, -, -, -, -, -, hpending, ⟨-, refused, hrefused, hsub, -⟩, -⟩, -⟩ := detachPort_detached s n c
  intro a ha
  rw [RequestTable.askers, List.mem_append, List.mem_map, List.mem_map, hrefused, hpending] at ha
  rcases ha with ⟨e, he, rfl⟩ | ⟨u, hu, rfl⟩
  · simpa using ((List.mem_filter.1 he).2 |> of_decide_eq_true).1
  · rcases List.mem_append.1 hu with hu | hu
    · simpa using (List.mem_filter.1 hu).2
    · obtain ⟨e, he, rfl⟩ := List.mem_map.1 ((orphanedAsks_perm s n).subset (hsub.subset hu))
      have := (List.mem_filter.1 he).2
      rw [Bool.and_eq_true] at this
      exact of_decide_eq_true this.1

/-! ### The posts that are BOUND -/

/-- One post takes a record that is BOUND, or that is so if it was. -/
theorem State.BoundPost.of_put {s t : State} {q : PostNo} {r : Post} (ht : t.posts = put s.posts q (some r))
    (hr : s.BoundPost q → ∃ n, r.binding = .bound n) {p : PostNo} (h : s.BoundPost p) : t.BoundPost p := by
  unfold State.BoundPost
  rw [ht]
  by_cases hp : p = q
  · subst hp
    obtain ⟨n, hn⟩ := hr h
    exact ⟨r, n, getElem_put_self _ _ _, hn⟩
  · rw [getElem_put_of_ne _ _ hp]
    exact h

/-- One post takes another record with the same binding. -/
theorem State.BoundPost.of_put_same {s t : State} {q : PostNo} {r r' : Post} (ht : t.posts = put s.posts q (some r'))
    (hq : s.posts[q] = some r) (hr : r'.binding = r.binding) {p : PostNo} (h : s.BoundPost p) : t.BoundPost p := by
  refine h.of_put ht fun ⟨r₀, n, hr₀, hn⟩ => ⟨n, ?_⟩
  rw [hq, Option.some_inj] at hr₀
  rw [hr, hr₀, hn]

theorem State.BoundPost.of_posts {s t : State} (ht : t.posts = s.posts) {p : PostNo} (h : s.BoundPost p) :
    t.BoundPost p := by
  unfold State.BoundPost
  rwa [ht]

/-- The record of one post, if there is one, changes by a function that keeps bindings. -/
theorem State.BoundPost.of_put_map {s t : State} {q : PostNo} {f : Post → Post}
    (ht : t.posts = put s.posts q (s.posts[q].map f)) (hf : ∀ r, (f r).binding = r.binding) {p : PostNo}
    (h : s.BoundPost p) : t.BoundPost p := by
  cases hq : s.posts[q] with
  | some r => exact h.of_put_same (by rw [ht, hq]; rfl) hq (hf r)
  | none =>
    refine h.of_posts ?_
    rw [ht, hq, Option.map_none, ← hq, put_self]

/-- Every record changes by a function that keeps bindings. -/
theorem State.BoundPost.of_map {s t : State} {f : Post → Post} (ht : t.posts = mapTable (Option.map f) s.posts)
    (hf : ∀ r, (f r).binding = r.binding) {p : PostNo} (h : s.BoundPost p) : t.BoundPost p := by
  obtain ⟨r, n, hr, hn⟩ := h
  refine ⟨f r, n, ?_, by rw [hf, hn]⟩
  rw [ht, Fin.getElem_fin, getElem_mapTable]
  exact congrArg (Option.map f) hr

theorem Post.lapsed_binding (r : Post) : r.lapsed.binding = r.binding := by
  unfold Post.lapsed
  split_ifs <;> rfl

theorem State.BoundPost.damageRequest {s : State} {p : PostNo} (h : s.BoundPost p) (q : PostNo) (f : FrameNo)
    (c : DamageCause) : (s.damageRequest q f c).BoundPost p := by
  rcases damageRequest_posts_cases s q f c with e | ⟨r, hr, e⟩
  · exact h.of_posts e
  · exact h.of_put_same e hr rfl

/-- The posts with PENDING entries that are left after a detach of port `n` stay BOUND. -/
theorem detachPort_boundPost {s : State} (h : s.RequestsLawful) (n : Port) (c : DetachCause) :
    ∀ e ∈ (s.detachPort n c).requests.pending, (s.detachPort n c).BoundPost e.post := by
  obtain ⟨⟨-, hposts, -, -, -, -, -, hpending, -⟩, -⟩ := detachPort_detached s n c
  obtain ⟨-, -, -, -, hbound⟩ := h
  intro e he
  rw [hpending] at he
  obtain ⟨hmem, hstay⟩ := List.mem_filter.1 he
  obtain ⟨-, hne⟩ := of_decide_eq_true hstay
  obtain ⟨r, m, hr, hm⟩ := hbound e hmem
  refine ⟨r, m, ?_, hm⟩
  rw [hposts e.post, hr, Option.map_some, if_neg]
  intro hn
  exact hne (by rw [hr, Option.map_some, hn])

/-! ### The invariants -/

/-- Entries, sessions and posts stay, as far as the law looks at them. -/
theorem State.RequestsLawful.of_same {s t : State} (h : s.RequestsLawful) (hr : t.requests = s.requests)
    (ha : ∀ m, s.attached m = true → t.attached m = true) (hp : ∀ p, s.BoundPost p → t.BoundPost p) :
    t.RequestsLawful := by
  obtain ⟨-, -, -, -, hbound⟩ := id h
  refine h.of_subperm (by rw [hr]) (fun a _ => ha a.1) fun e he => hp _ (hbound e ?_)
  rwa [← hr]

theorem State.TicketsLawful.of_same {s t : State} (h : s.TicketsLawful) (hr : t.requests = s.requests) :
    t.TicketsLawful := h.of_subperm (by rw [hr])

/-- Entries complete or leave, and no other part that the law looks at changes. -/
theorem State.RequestsLawful.of_entries {s t : State} (h : s.RequestsLawful)
    (hsub : t.requests.entries.Subperm s.requests.entries) (hpend : t.requests.pending.Sublist s.requests.pending)
    (ha : t.attached = s.attached) (hp : ∀ p, s.BoundPost p → t.BoundPost p) : t.RequestsLawful := by
  obtain ⟨-, -, -, -, hbound⟩ := id h
  exact h.of_subperm hsub (fun a _ => by rw [ha]; exact id) fun e he => hp _ (hbound e (hpend.subset he))

theorem completeAsks_pending_sublist (s : State) (sel : PendingAsk → Bool) (o : AskOutcome) :
    (s.completeAsks sel o).requests.pending.Sublist s.requests.pending := List.filter_sublist

/-- The vacate event completes the asks on its post and touches no other (R16, R106). -/
theorem State.RequestsLawful.vacate {s : State} (h : s.RequestsLawful) (p : PostNo) (r : Post) (b : VacateBy)
    (n : Port) : (s.vacate p r b n).RequestsLawful := by
  obtain ⟨-, -, -, -, hbound⟩ := id h
  have hsub : (s.vacate p r b n).requests.entries.Subperm s.requests.entries :=
    completeAsks_entries ((((s.setPost p none).setPool (s.pool.releaseCurrent r.current)).overtakeInFlight r.inFlight
      .revoke).purgePost p) (fun e => decide (e.post = p)) .withdrawn
  refine h.of_subperm hsub (fun a _ => id) fun e he => ?_
  obtain ⟨hmem, hne⟩ := List.mem_filter.1 (show e ∈ s.requests.pending.filter _ from he)
  obtain ⟨r', m, hr', hm⟩ := hbound e hmem
  refine ⟨r', m, ?_, hm⟩
  show (put s.posts p none)[e.post] = _
  rw [getElem_put_of_ne _ _ (by simpa using hne), hr']

theorem State.RequestsLawful.detach {s : State} (h : s.RequestsLawful) (n : Port) (c : DetachCause) :
    (s.detachPort n c).RequestsLawful := by
  refine h.of_subperm (detachPort_entries s n c) (fun a ha hatt => ?_) (detachPort_boundPost h n c)
  rw [detachPort_attached, if_neg (detachPort_askers s n c a ha)]
  exact hatt

/-- The port has an entry on the post exactly where the search of check 5 of R101 finds one. -/
theorem ticketOf_eq_none_iff (x : RequestTable) (n : Port) (p : PostNo) :
    x.ticketOf n p = none ↔ (n, p) ∉ x.askers := by
  unfold RequestTable.ticketOf RequestTable.askers
  rw [List.mem_append, List.mem_map, List.mem_map, not_or]
  split
  · rename_i e he
    have hf := List.find?_some he
    simp only [decide_eq_true_eq] at hf
    obtain ⟨hr, hp⟩ := hf
    exact iff_of_false nofun fun ⟨h, _⟩ => h ⟨e, List.mem_of_find?_eq_some he, by rw [hr, hp]⟩
  · rename_i he
    rw [List.find?_eq_none] at he
    simp only [Option.map_eq_none_iff, List.find?_eq_none, Prod.mk.injEq]
    simp only [decide_eq_true_eq] at he ⊢
    exact ⟨fun hu => ⟨fun ⟨e, hmem, h⟩ => he e hmem h, fun ⟨e, hmem, h⟩ => hu e hmem h⟩,
      fun ⟨_, hu⟩ e hmem h => hu ⟨e, hmem, h⟩⟩

/-- The list of entries after an ASK has made one (R103). -/
theorem makeEntry_entries (s : State) (n : Port) (p : PostNo) (r : Post) (q : Port) (timeout : Half) :
    (s.makeEntry n p r q timeout).requests.entries.Perm ((s.requests.nextTicket, n, p) :: s.requests.entries) := by
  show ((s.requests.pending ++ [_]).map PendingAsk.entry ++ s.requests.undelivered.map UndeliveredAsk.entry).Perm _
  rw [List.map_append, List.append_assoc]
  exact List.perm_middle

theorem State.RequestsLawful.makeEntry {s : State} (h : s.RequestsLawful) {n : Port} {p : PostNo} {r : Post} {q : Port}
    (timeout : Half) (ha : s.attached n = true) (hpost : s.posts[p] = some r) (hbound : r.binding = .bound q)
    (hnew : s.requests.ticketOf n p = none) (hsize : s.requests.size < Config.tablePlaces)
    (hmine : (s.requests.pendingOf n).length + (s.requests.undeliveredOf n).length < Config.portPlaces) :
    (s.makeEntry n p r q timeout).RequestsLawful := by
  obtain ⟨-, hport, hnodup, hrequesters, hposts⟩ := h
  have hperm := makeEntry_entries s n p r q timeout
  have haskers : (s.makeEntry n p r q timeout).requests.askers.Perm ((n, p) :: s.requests.askers) := by
    rw [← RequestTable.entries_askers, ← RequestTable.entries_askers]
    exact hperm.map Prod.snd
  refine ⟨?_, fun m => ?_, ?_, fun a hm => ?_, fun e he => ?_⟩
  · rw [← RequestTable.entries_length, hperm.length_eq, List.length_cons, RequestTable.entries_length]
    exact hsize
  · rw [← RequestTable.entries_countP, hperm.countP_eq, List.countP_cons, RequestTable.entries_countP]
    by_cases hm : n = m
    · subst hm
      simpa using hmine
    · simpa [hm] using hport m
  · exact haskers.nodup_iff.2 (List.nodup_cons.2 ⟨(ticketOf_eq_none_iff _ _ _).1 hnew, hnodup⟩)
  · rcases List.mem_cons.1 (haskers.subset hm) with rfl | hm
    · exact ha
    · exact hrequesters a hm
  · rcases List.mem_append.1 (show e ∈ s.requests.pending ++ [_] from he) with he | he
    · exact hposts e he
    · rw [List.mem_singleton.1 he]
      exact ⟨r, q, hpost, hbound⟩

theorem State.TicketsLawful.makeEntry {s : State} (h : s.TicketsLawful) (n : Port) (p : PostNo) (r : Post) (q : Port)
    (timeout : Half) (hsize : s.requests.size < Config.tablePlaces) :
    (s.makeEntry n p r q timeout).TicketsLawful := by
  obtain ⟨k, -, hk, hfree, -⟩ := nextTicket_spec hsize
  have hperm : (s.makeEntry n p r q timeout).requests.tickets.Perm (s.requests.nextTicket :: s.requests.tickets) := by
    rw [← RequestTable.entries_tickets, ← RequestTable.entries_tickets]
    exact (makeEntry_entries s n p r q timeout).map Prod.fst
  refine ⟨hperm.nodup_iff.2 (List.nodup_cons.2 ⟨hfree, h.1⟩), fun h0 => ?_⟩
  rcases List.mem_cons.1 (hperm.subset h0) with e | h0
  · exact ticketAfter_ne_zero _ _ (hk.symm.trans e.symm)
  · exact h.2 h0

/-- Some PENDING or some UNDELIVERED entries leave the table. -/
theorem entries_subperm_of_sublist {x y : RequestTable} (hp : y.pending.Sublist x.pending)
    (hu : y.undelivered.Sublist x.undelivered) : y.entries.Subperm x.entries :=
  ((hp.map _).append (hu.map _)).subperm

theorem Taken.requestsLawful {n : Port} {s t : State} {c : Command} {reply : Reply} (h : Taken n s c t reply)
    (hs : s.RequestsLawful) : t.RequestsLawful := by
  cases h with
  | answered => exact hs
  | attach =>
    refine hs.of_same rfl (fun m hm => ?_) fun _ hp => hp.of_posts rfl
    rw [setSession_attached]
    split_ifs
    · rfl
    · exact hm
  | detach => exact hs.detach n _
  | declare p => exact hs.of_same rfl (fun _ => id) fun _ hp => hp.of_put (q := p) rfl fun _ => ⟨n, rfl⟩
  | vacate p r b => exact hs.vacate p r b n
  | publish p r payload f x low hpost =>
    exact hs.of_same (State.takePublish_requests ..) (by simp) fun _ hp =>
      hp.of_put_same (State.takePublish_posts ..) hpost rfl
  | read | snapshot | release | filters | mark => exact hs.of_same rfl (fun _ => id) fun _ hp => hp.of_posts rfl
  | ask p r q timeout res ha hpost hbound hother hnew hsize hmine =>
    exact hs.makeEntry timeout ha hpost hbound hnew hsize hmine
  | cancelPending | cancelUndelivered | take =>
    exact hs.of_entries (entries_subperm_of_sublist (by simp) (by simp)) (by simp) rfl fun _ hp => hp.of_posts rfl
  | adopt p => exact hs.of_same rfl (fun _ => id) fun _ hp => hp.of_put (q := p) rfl fun _ => ⟨n, rfl⟩
  | takeover p =>
    exact hs.of_same (State.takeOver_requests ..) (by simp) fun _ hp =>
      hp.of_put (State.takeOver_posts ..) fun _ => ⟨n, rfl⟩

theorem Taken.ticketsLawful {n : Port} {s t : State} {c : Command} {reply : Reply} (h : Taken n s c t reply)
    (hs : s.TicketsLawful) : t.TicketsLawful := by
  cases h with
  | detach => exact hs.of_subperm (detachPort_entries s n _)
  | vacate p r b =>
    exact hs.of_subperm (completeAsks_entries ((((s.setPost p none).setPool (s.pool.releaseCurrent r.current)).overtakeInFlight
      r.inFlight .revoke).purgePost p) (fun e => decide (e.post = p)) .withdrawn)
  | publish => exact hs.of_same (State.takePublish_requests ..)
  | ask p r q timeout res ha hpost hbound hother hnew hsize => exact hs.makeEntry n p r q timeout hsize
  | cancelPending | cancelUndelivered | take =>
    exact hs.of_subperm (entries_subperm_of_sublist (by simp) (by simp))
  | takeover => exact hs.of_same (State.takeOver_requests ..)
  | answered | attach | declare | read | snapshot | release | filters | adopt | mark => exact hs.of_same rfl

theorem attached_of_sessions {s t : State} (h : t.sessions = s.sessions) : t.attached = s.attached := by
  unfold State.attached
  rw [h]

theorem completeRead_requestsLawful {s : State} (h : s.RequestsLawful) (n : Port) (d : List Byte) :
    (s.completeRead n d).RequestsLawful :=
  completeRead_kept (P := State.RequestsLawful)
    (fun s n st res h => h.of_same (by simp) (by rw [attached_of_sessions (State.completeCommand_sessions ..)]; exact fun _ => id)
      fun _ hp => hp.of_posts (by simp))
    (fun _ _ _ h => h) (fun _ _ _ h => h)
    (fun s p f c h => h.of_same (damageRequest_unchanged s p f c .requests (by simp))
      (by rw [attached_of_sessions (damageRequest_unchanged s p f c .sessions (by simp))]; exact fun _ => id)
      fun _ hp => hp.damageRequest p f c) s n d h

theorem requestsLawful_kept : KeptByBlocks State.RequestsLawful where
  port _ _ _ h := h
  finished _ _ h := h
  lease s n h := h.of_same rfl (by rw [renewLease_attached]; exact fun _ => id) fun _ hp => hp
  run := run_kept fun _ _ _ _ _ ht h => ht.requestsLawful h
  pins _ _ _ h := h
  detach _ n c h := h.detach n c
  reset _ _ _ := by
    refine ⟨Nat.zero_le _, fun _ => Nat.zero_le _, List.nodup_nil, ?_, ?_⟩
    · exact fun _ h => absurd h List.not_mem_nil
    · exact fun _ h => absurd h List.not_mem_nil
  leave _ _ _ h := h
  tick _ _ h := h
  boundary _ _ h := h
  raise _ h _ := h
  lapse _ h := h.of_same rfl (fun _ => id) fun _ hp => hp.of_map rfl Post.lapsed_binding
  fresh s p h := by
    rcases expireFreshness_cases s p with e | ⟨r, hr, -, e⟩ <;> rw [e]
    · exact h
    · exact h.of_same rfl (fun _ => id) fun _ hp =>
        hp.of_put_same (q := p) (r' := { r with condition := .stale, deadline := none }) rfl hr rfl
  ask s k h := h.of_entries (completeAsks_entries s _ _) (completeAsks_pending_sublist s _ _) rfl fun _ hp => hp
  grant s h _ := by
    rcases grant_cases s with e | e | ⟨n, k, -, e⟩ <;> rw [e]
    · exact h
    · exact h
    · cases k <;> exact h
  read s n d h _ := completeRead_requestsLawful h n d
  refresh _ _ h _ := h

theorem ticketsLawful_kept : KeptByBlocks State.TicketsLawful where
  port _ _ _ h := h
  finished _ _ h := h
  lease _ _ h := h
  run := run_kept fun _ _ _ _ _ ht h => ht.ticketsLawful h
  pins _ _ _ h := h
  detach s n c h := h.of_subperm (detachPort_entries s n c)
  reset _ _ _ := ⟨List.nodup_nil, List.not_mem_nil⟩
  leave _ _ _ h := h
  tick _ _ h := h
  boundary _ _ h := h
  raise _ h _ := h
  lapse _ h := h
  fresh s p h := by
    rcases expireFreshness_cases s p with e | ⟨r, -, -, e⟩ <;> rw [e] <;> exact h
  ask s k h := h.of_subperm (completeAsks_entries s _ _)
  grant s h _ := by
    rcases grant_cases s with e | e | ⟨n, k, -, e⟩ <;> rw [e]
    · exact h
    · exact h
    · cases k <;> exact h
  read s n d h _ :=
    completeRead_kept (P := State.TicketsLawful) (fun _ _ _ _ h => h.of_same (by simp)) (fun _ _ _ h => h)
      (fun _ _ _ h => h) (fun s p f c h => h.of_same (damageRequest_unchanged s p f c .requests (by simp))) s n d h
  refresh _ _ h _ := h

/-- The end of a write: only a commit completes asks, and it keeps the binding of its post (R33, R34). -/
theorem State.RequestsLawful.completeWrite {s : State} (h : s.RequestsLawful) (n : Port) (d : List Byte) :
    (s.completeWrite n d).RequestsLawful := by
  have completed (u : State) (st : Status) (res : List Byte) (hu : u.RequestsLawful) :
      (u.completeCommand n st res).RequestsLawful :=
    hu.of_same (by simp) (by rw [attached_of_sessions (State.completeCommand_sessions ..)]; exact fun _ => id)
      fun _ hp => hp.of_posts (by simp)
  rcases completeWrite_cases s n d with ⟨-, e⟩ | ⟨y, -, e⟩ <;> rw [e]
  · exact h
  · rcases endPublication_cases (s.setArray _) n y _ with ⟨st, e, -⟩ | ⟨-, -, e⟩ | ⟨-, -, r, hr, e⟩ <;> rw [e] <;>
      apply completed
    · exact h
    · exact h.of_same rfl (fun _ => id) fun p hp =>
        hp.of_put_map (q := y.post) (f := fun r => { r with inFlight := none }) rfl fun _ => rfl
    · refine h.of_entries (completeAsks_entries (State.notify _ _ _ _ _ _) _ _) List.filter_sublist rfl fun p hp => ?_
      exact hp.of_put_same (q := y.post) (r' := r.committed y.frame y.payload.length s.now) rfl hr rfl

theorem State.TicketsLawful.completeWrite {s : State} (h : s.TicketsLawful) (n : Port) (d : List Byte) :
    (s.completeWrite n d).TicketsLawful := by
  rcases completeWrite_cases s n d with ⟨-, e⟩ | ⟨y, -, e⟩ <;> rw [e]
  · exact h
  · rcases endPublication_cases (s.setArray _) n y _ with ⟨st, e, -⟩ | ⟨-, -, e⟩ | ⟨-, -, r, hr, e⟩ <;> rw [e]
    · exact h.of_same (State.completeCommand_requests ..)
    · exact h.of_same (State.completeCommand_requests ..)
    · refine h.of_subperm ?_
      rw [State.completeCommand_requests]
      exact completeAsks_entries (State.notify _ _ _ _ _ _) _ _

/-- Settles O9: completions move and lose entries, and an ASK, whose checks are those of the law, makes the only new
one. -/
theorem stepKeepsRequestTableLaws : Obligations.StepKeepsRequestTableLaws := by
  refine ⟨fun s t h hstep => ?_, fun s t h hstep => ?_⟩
  · exact requestsLawful_kept.events.step (fun _ _ h => h) s t h
      (fun n d x _ => State.RequestsLawful.completeWrite (s := s.setPending x) h n d) hstep
  · exact ticketsLawful_kept.events.step (fun _ _ h => h) s t h
      (fun n d x _ => State.TicketsLawful.completeWrite (s := s.setPending x) h n d) hstep

end Sys2Proof.Machine
end

section
/-!
The queue of commands, which no command touches, and the values after device reset with the laws that they meet.
-/
namespace Sys2Proof.Machine
open Sys2Proof

/-! ### The queue of commands -/

theorem Taken.pending {n : Port} {s t : State} {c : Command} {reply : Reply} (h : Taken n s c t reply) :
    t.pending = s.pending := by
  cases h with
  | publish => exact State.takePublish_pending ..
  | takeover => exact State.takeOver_pending ..
  | _ => rfl

/-- The queue `l` of commands is kept by every event. -/
theorem pending_kept (l : List Instr) : KeptByBlocks (fun s => s.pending = l) where
  port _ _ _ h := h
  finished _ _ h := h
  lease _ _ h := h
  run := run_kept fun _ _ _ _ _ ht h => ht.pending.trans h
  pins _ _ _ h := h
  detach _ _ _ h := h
  reset _ _ h := h
  leave _ _ _ h := h
  tick _ _ h := h
  boundary _ _ h := h
  raise _ h _ := h
  lapse _ h := h
  fresh s p h := by
    rcases expireFreshness_cases s p with e | ⟨r, -, -, e⟩ <;> rw [e] <;> exact h
  ask _ _ h := h
  grant s h _ := by
    rcases grant_cases s with e | e | ⟨n, k, -, e⟩ <;> rw [e]
    · exact h
    · exact h
    · cases k <;> exact h
  read s n d h _ :=
    completeRead_kept (P := fun s => s.pending = l) (fun _ _ _ _ h => (State.completeCommand_pending ..).trans h)
      (fun _ _ _ h => h) (fun _ _ _ h => h)
      (fun s p f c h => (damageRequest_unchanged s p f c .pending (by simp)).trans h) s n d h
  refresh _ _ h _ := h

theorem completeWrite_pending (s : State) (n : Port) (d : List Byte) : (s.completeWrite n d).pending = s.pending := by
  rcases completeWrite_cases s n d with ⟨-, e⟩ | ⟨x, -, e⟩ <;> rw [e]
  · rfl
  · rcases endPublication_cases (s.setArray _) n x _ with ⟨st, e, -⟩ | ⟨-, -, e⟩ | ⟨-, -, r, hp, e⟩ <;>
      rw [e] <;> exact State.completeCommand_pending ..

theorem step_of_cons {s : State} {c : Instr} {rest : List Instr} (h : s.pending = c :: rest) :
    step s = exec c (s.setPending rest) := by
  simp only [step, h]

theorem step_of_nil {s : State} (h : s.pending = []) : step s = .next s := by
  simp only [step, h]

/-- Settles O1: the two branches of a step, and the queue as something that every event keeps. -/
theorem stepTakesFrontCommand : Obligations.StepTakesFrontCommand :=
  ⟨fun _ _ _ => step_of_cons, fun _ => step_of_nil, fun s t c he =>
    (pending_kept s.pending).events.exec c s t rfl (fun n d _ => completeWrite_pending s n d) he⟩

/-! ### The values after device reset -/

section
variable (p : PostNo) (n : Port)

theorem reset_posts : State.reset.posts[p] = none := by simp [State.reset, State.afterDeviceReset]
theorem reset_slots : State.reset.slots[n] = none := by simp [State.reset, State.afterDeviceReset]
theorem reset_holds (h : HoldNo) : State.reset.holds[n][h] = none := by simp [State.reset, State.afterDeviceReset]
theorem reset_reads : State.reset.reads[n] = none := by simp [State.reset, State.afterDeviceReset]
theorem reset_filters (i : FilterNo) : State.reset.filters[n][i] = none := by
  simp [State.reset, State.afterDeviceReset]
theorem reset_queues : State.reset.queues[n] = NoticeQueue.empty := by simp [State.reset, State.afterDeviceReset]
theorem reset_sessions : State.reset.sessions[n] = Session.detachedValues := by
  simp [State.reset, State.afterDeviceReset]
theorem reset_places : State.reset.arbiter.places[n] = none := by simp [State.reset, State.afterDeviceReset]
theorem reset_ports : State.reset.ports[n] = PortInterface.reset := by simp [State.reset, State.afterDeviceReset]
theorem reset_frames (f : FrameNo) : State.reset.pool.frames[f] = { refs := 0, suspect := false } := by
  simp [State.reset, State.afterDeviceReset, Pool.reset]
theorem reset_attached : State.reset.attached n = false := by
  show State.reset.sessions[n].isAttached = false
  rw [reset_sessions]
  rfl

end

/-- Settles O2: the state after device reset, field by field. -/
theorem resetValues : Obligations.ResetValues :=
  ⟨reset_posts, fun n => ⟨reset_slots n, reset_holds n, reset_reads n, reset_filters n, reset_queues n,
    reset_sessions n, reset_places n, reset_ports n, by simp [State.reset, State.afterDeviceReset]⟩, reset_frames, rfl,
    rfl, rfl, rfl, rfl, rfl, rfl, rfl, rfl⟩

/-! ### The laws hold after device reset -/

theorem reset_linesLawful : State.reset.LinesLawful := by
  unfold State.LinesLawful
  decide +kernel

theorem reset_busyLawful : State.reset.BusyLawful := by
  intro n
  unfold State.PortBusyLawful
  rw [reset_ports, reset_slots, reset_reads]
  refine ⟨⟨?_, ?_, nofun, nofun, nofun⟩, nofun, ?_, nofun⟩ <;> simp [PortInterface.reset]

theorem reset_accessLawful : State.reset.AccessLawful := by
  intro n
  rw [reset_places, reset_slots, reset_reads]
  refine ⟨?_, ?_, ?_, ?_⟩ <;> simp [State.reset, State.afterDeviceReset]

/-- After device reset no frame is in use, and all are free (R46). -/
theorem reset_poolLawful : State.reset.PoolLawful := by
  refine ⟨List.nodup_finRange 96, fun f => ?_⟩
  rw [reset_frames]
  refine ⟨?_, ?_, fun _ => rfl⟩
  · revert f
    decide +kernel
  · simp [State.reset, State.afterDeviceReset, Pool.reset]

theorem reset_timeLawful : State.reset.TimeLawful := by
  refine ⟨Nat.zero_le _, fun _ => rfl, fun _ => rfl, fun p r e hp => ?_, nofun, fun n e hn => ?_⟩
  · rw [reset_posts] at hp
    cases hp
  · rw [reset_attached] at hn
    cases hn

/-- Settles O3: the blocks are empty, so every law about their entries holds of them. -/
theorem resetKeepsLaws : Obligations.ResetKeepsLaws := by
  have vacant : ∀ (p : PostNo) (r : Post), State.reset.posts[p] ≠ some r := fun p r h => by
    rw [reset_posts] at h
    cases h
  have noSlot : ∀ (n : Port) (x : Publication), State.reset.slots[n] ≠ some x := fun n x h => by
    rw [reset_slots] at h
    cases h
  refine ⟨fun p r h => absurd h (vacant p r), fun p _ r _ h => absurd h (vacant p r),
    fun p r _ h => absurd h (vacant p r), fun n => ?_, reset_linesLawful, fun n => ?_,
    ⟨Nat.zero_le _, fun _ => Nat.zero_le _, List.nodup_nil, nofun, nofun⟩, ⟨List.nodup_nil, List.not_mem_nil⟩,
    ⟨Nat.zero_le _, by simp [State.reset, State.afterDeviceReset]⟩, Memory.wf_nil, reset_busyLawful, reset_accessLawful,
    ⟨fun n x h => absurd h (noSlot n x), fun p r _ h => absurd h (vacant p r)⟩, reset_poolLawful, fun n _ => ?_,
    reset_timeLawful, fun n _ => ?_⟩
  · rw [reset_queues]
    exact ⟨NoticeQueue.empty_lawful, fun _ => rfl⟩
  · rw [reset_sessions]
    exact Session.detachedValues_lawful
  · exact ⟨reset_holds n, by rw [reset_reads]; rfl⟩
  · rw [reset_ports]
    rfl

end Sys2Proof.Machine
end

section
/-!
Which parts of State an operation leaves, said once for each setter, and how such statements are put together.
-/
namespace Sys2Proof.Machine
open Sys2Proof

theorem Unchanged.refl (s : State) (l : List Block) : Unchanged s s l := by
  intro b _
  cases b with
  | inputs => exact ⟨rfl, rfl, rfl, rfl, rfl⟩
  | _ => rfl

/-- One change after another: the parts that either lists may differ. -/
theorem Unchanged.and_then {s t u : State} {l l' : List Block} (h : Unchanged s t l) (h' : Unchanged t u l') :
    Unchanged s u (l ++ l') :=
  (unchanged_mono h fun _ => List.mem_append_left l').trans (unchanged_mono h' fun _ => List.mem_append_right l)

section
variable (s : State) (n : Port)

theorem unchanged_setPosts (x : Vector (Option Post) 64) : Unchanged s (s.setPosts x) [.posts] := fun b hb => by
  cases b <;> simp_all [Block.same]
theorem unchanged_setPost (p : PostNo) (r : Option Post) : Unchanged s (s.setPost p r) [.posts] :=
  unchanged_setPosts s _
theorem unchanged_setSlots (x : Vector (Option Publication) 4) : Unchanged s (s.setSlots x) [.slots] := fun b hb => by
  cases b <;> simp_all [Block.same]
theorem unchanged_setSlot (x : Option Publication) : Unchanged s (s.setSlot n x) [.slots] :=
  unchanged_setSlots s _
theorem unchanged_setPool (x : Pool) : Unchanged s (s.setPool x) [.pool] := fun b hb => by
  cases b <;> simp_all [Block.same]
theorem unchanged_setHolds (x : Vector (Option Hold) 8) : Unchanged s (s.setHolds n x) [.holds] := fun b hb => by
  cases b <;> simp_all [Block.same]
theorem unchanged_setRead (x : Option ReadRecord) : Unchanged s (s.setRead n x) [.reads] := fun b hb => by
  cases b <;> simp_all [Block.same]
theorem unchanged_setFilters (x : Vector (Option Filter) 8) : Unchanged s (s.setFilters n x) [.filters] := fun b hb => by
  cases b <;> simp_all [Block.same]
theorem unchanged_setQueues (x : Vector NoticeQueue 4) : Unchanged s (s.setQueues x) [.queues] := fun b hb => by
  cases b <;> simp_all [Block.same]
theorem unchanged_notify (x : Notice) (k : Half) (flag : FilterFlag) (acting fixed : Option Port) :
    Unchanged s (s.notify x k flag acting fixed) [.queues] :=
  unchanged_setQueues s _
theorem unchanged_setRequests (x : RequestTable) : Unchanged s (s.setRequests x) [.requests] := fun b hb => by
  cases b <;> simp_all [Block.same]
theorem unchanged_setSession (x : Session) : Unchanged s (s.setSession n x) [.sessions] := fun b hb => by
  cases b <;> simp_all [Block.same]
theorem unchanged_setArray (x : StorageArray) : Unchanged s (s.setArray x) [.array] := fun b hb => by
  cases b <;> simp_all [Block.same]
theorem unchanged_setArbiter (x : Arbiter) : Unchanged s (s.setArbiter x) [.arbiter] := fun b hb => by
  cases b <;> simp_all [Block.same]
theorem unchanged_setRefresh (x : RefreshController) : Unchanged s (s.setRefresh x) [.refresh] := fun b hb => by
  cases b <;> simp_all [Block.same]
theorem unchanged_setTime (x : TimeBase) : Unchanged s (s.setTime x) [.time] := fun b hb => by
  cases b <;> simp_all [Block.same]
theorem unchanged_setPort (x : PortInterface) : Unchanged s (s.setPort n x) [.ports] := fun b hb => by
  cases b <;> simp_all [Block.same]
theorem unchanged_setPins (x : Pins) : Unchanged s (s.setPins x) [.inputs] := fun b hb => by
  cases b <;> simp_all [Block.same]
theorem unchanged_readFinished : Unchanged s (s.readFinished n) [.pool, .reads] :=
  (unchanged_setPool s _).and_then (unchanged_setRead _ n _)

end

end Sys2Proof.Machine
end

section
/-!
The transactions of a port: CSn falls and rises, and the response that is shifted out.
-/
namespace Sys2Proof.Machine
open Sys2Proof

/-! ### What the interface is doing -/

theorem isReceiving_iff (x : PortInterface) :
    x.isReceiving = true ↔ x.state = .receiving ∨ (x.state = .draining ∧ x.side = .receiving) := by
  simp [PortInterface.isReceiving]

theorem isAnswering_iff (x : PortInterface) :
    x.isAnswering = true ↔ x.state = .responding ∨ (x.state = .draining ∧ x.side = .answering) := by
  simp [PortInterface.isAnswering]

/-! ### CSn falls (R150, R157) -/

theorem exec_csFall {s : State} {n : Port} (h : s.pins.cs[n] = true) : exec (.csFall n) s = .next (s.csFalls n) := by
  simp only [exec, execCsFall, h, if_true]

theorem selected_setPins_cs_low (s : State) (n : Port) :
    (s.setPins { s.pins with cs := put s.pins.cs n false }).selected n = (!s.inDeviceReset && s.pins.rst[n]) := by
  simp [State.selected, State.setPins, State.inDeviceReset, Pins.inDeviceReset]
  rfl

theorem csFalls_of_reset {s : State} {n : Port} (h : s.inDeviceReset = true ∨ s.pins.rst[n] = false) :
    s.csFalls n = s.setPins { s.pins with cs := put s.pins.cs n false } := by
  simp only [State.csFalls, selected_setPins_cs_low]
  rcases h with h | h <;> simp only [h, Bool.not_true, Bool.false_and, Bool.and_false] <;> rfl

theorem csFalls_of_selected {s : State} {n : Port} (hd : s.inDeviceReset = false) (hr : s.pins.rst[n] = true) :
    s.csFalls n = (s.setPins { s.pins with cs := put s.pins.cs n false }).setPort n s.ports[n].fall := by
  simp only [State.csFalls, selected_setPins_cs_low, hd, hr]
  rfl

theorem PortInterface.fall_of_idle {x : PortInterface} (h : x.state = .idle) :
    x.fall = { x with state := .receiving, rx := [], expected := 5 } := by
  simp only [PortInterface.fall, h]

theorem PortInterface.fall_of_draining {x : PortInterface} (h : x.state = .draining) :
    x.fall = { x with side := .receiving, rx := [], expected := 5 } := by
  simp only [PortInterface.fall, h]

theorem unchanged_csFalls (s : State) (n : Port) : Unchanged s (s.csFalls n) [.inputs, .ports] := by
  unfold State.csFalls
  simp only
  split_ifs
  · exact (unchanged_setPins s _).and_then (unchanged_setPort _ n _)
  · exact unchanged_mono (unchanged_setPins s _) (by decide)

theorem csFalls_pins (s : State) (n : Port) : (s.csFalls n).pins = { s.pins with cs := put s.pins.cs n false } := by
  unfold State.csFalls
  simp only
  split_ifs <;> rfl

theorem csFalls_selected {s : State} {n : Port} (hd : s.inDeviceReset = false) (hr : s.pins.rst[n] = true) :
    (s.csFalls n).selected n = true := by
  rw [csFalls_of_selected hd hr]
  exact (selected_setPins_cs_low s n).trans (by rw [hd, hr]; rfl)

/-- Settles O20: the interface takes its fall exactly where the port is selected with the line low. -/
theorem csFallBeginsTransaction : Obligations.CsFallBeginsTransaction := by
  intro s n hcs
  refine ⟨_, exec_csFall hcs, csFalls_pins s n, unchanged_csFalls s n, fun h => ?_, fun hd hr => ?_⟩
  · rw [csFalls_of_reset h]
    rfl
  · have hsel := csFalls_selected hd hr
    have hports : (s.csFalls n).ports = put s.ports n s.ports[n].fall := by
      rw [csFalls_of_selected hd hr]
      rfl
    have hport : (s.csFalls n).ports[n] = s.ports[n].fall := by rw [hports, getElem_put_self]
    refine ⟨fun hidle => ?_, fun hdrain => ?_⟩
    · rw [PortInterface.fall_of_idle hidle] at hports hport
      refine ⟨hports, fun ho => ⟨hsel, ?_⟩⟩
      rw [hport]
      exact ⟨rfl, rfl, rfl, ho⟩
    · rw [PortInterface.fall_of_draining hdrain] at hports hport
      refine ⟨hports, hsel, ?_⟩
      rw [hport]
      exact ⟨(isReceiving_iff _).2 (.inr ⟨hdrain, rfl⟩), rfl, rfl⟩

/-! ### CSn rises (R152, R156, R157) -/

theorem exec_csRise {s : State} {n : Port} (h : s.pins.cs[n] = false) : exec (.csRise n) s = .next (s.csRises n) := by
  simp only [exec, execCsRise, h]
  rfl

theorem csRises_of_selected {s : State} {n : Port} (h : s.selected n = true) :
    s.csRises n = (s.setPins { s.pins with cs := put s.pins.cs n true }).endTransaction n := by
  simp only [State.csRises, h, if_true]

theorem unchanged_finishResponse (s : State) (n : Port) : Unchanged s (s.finishResponse n) [.ports, .pool, .reads] := by
  rcases finishResponse_cases s n with ⟨-, e⟩ | ⟨h, -, -, e⟩ | ⟨h, -, -, e⟩ <;> rw [e]
  · exact Unchanged.refl s _
  · exact (unchanged_setPort s n _).and_then (unchanged_readFinished _ n)
  · exact unchanged_mono (unchanged_setPort s n _) (by decide)

/-- Finished with or not, no response is held after the end of a response. -/
theorem finishResponse_ports (s : State) (n : Port) :
    (s.finishResponse n).ports = put s.ports n { s.ports[n] with response := none } := by
  rcases finishResponse_cases s n with ⟨hr, e⟩ | ⟨h, -, -, e⟩ | ⟨h, -, -, e⟩ <;> rw [e]
  · rw [← hr]
    exact (put_self s.ports n).symm
  · rfl
  · rfl

theorem finishResponse_of_read {s : State} {n : Port} {h : HeldResponse} {c : CommandTag}
    (hr : s.ports[n].response = some h) (hc : h.command = some c) (hi : c.isRead) :
    (s.finishResponse n).reads = put s.reads n (finishedRecord s.reads[n]) ∧
      (s.finishResponse n).pool = s.pool.releaseAll (finishedFrames s.reads[n]) := by
  rcases finishResponse_cases s n with ⟨h0, -⟩ | ⟨h', -, -, e⟩ | ⟨h', hr', hno, -⟩
  · rw [hr] at h0
    cases h0
  · rw [e]
    exact ⟨rfl, rfl⟩
  · rw [hr, Option.some_inj] at hr'
    subst hr'
    exact absurd hi (hno c hc)

theorem finishResponse_of_not_read {s : State} {n : Port}
    (h : ∀ c, s.ports[n].response.bind HeldResponse.command = some c → ¬ c.isRead) :
    (s.finishResponse n).reads = s.reads ∧ (s.finishResponse n).pool = s.pool := by
  rcases finishResponse_cases s n with ⟨-, e⟩ | ⟨h', hr, ⟨c, hc, hi⟩, -⟩ | ⟨h', -, -, e⟩
  · rw [e]
    exact ⟨rfl, rfl⟩
  · exact absurd hi (h c (by rw [hr]; exact hc))
  · rw [e]
    exact ⟨rfl, rfl⟩

/-- The rise of CSn on an interface that is not RESPONDING is a matter of the interface alone. -/
theorem endTransaction_of_not_responding {s : State} {n : Port} (h : s.ports[n].state ≠ .responding) :
    ∃ x, s.endTransaction n = s.setPort n x := by
  unfold State.endTransaction
  simp only
  split
  · exact ⟨s.ports[n], by simp [State.setPort]⟩
  · exact ⟨_, rfl⟩
  · exact ⟨_, rfl⟩
  · exact absurd ‹_› h
  · exact ⟨_, rfl⟩

/-- The rise of CSn on a RESPONDING interface: the response is recorded as abandoned, and finished with (R156). -/
theorem endTransaction_of_responding {s : State} {n : Port} (h : s.ports[n].state = .responding) :
    s.endTransaction n = (s.setPort n
      { s.ports[n] with
        state := .idle
        lastAbandoned := (s.ports[n].response.bind HeldResponse.command).or s.ports[n].lastAbandoned }).finishResponse n := by
  simp only [State.endTransaction, h]
  cases s.ports[n].response with
  | none => rfl
  | some x =>
    cases hc : x.command with
    | none => simp only [Option.bind_some, hc, Option.none_or]
    | some c => simp only [Option.bind_some, hc, Option.some_or]

theorem endTransaction_pins (s : State) (n : Port) : (s.endTransaction n).pins = s.pins := by
  by_cases h : s.ports[n].state = .responding
  · rw [endTransaction_of_responding h]
    exact State.finishResponse_pins ..
  · obtain ⟨x, e⟩ := endTransaction_of_not_responding h
    rw [e]
    rfl

theorem unchanged_endTransaction (s : State) (n : Port) : Unchanged s (s.endTransaction n) [.ports, .pool, .reads] := by
  by_cases h : s.ports[n].state = .responding
  · rw [endTransaction_of_responding h]
    exact unchanged_mono ((unchanged_setPort s n _).and_then (unchanged_finishResponse _ n)) (by decide)
  · obtain ⟨x, e⟩ := endTransaction_of_not_responding h
    rw [e]
    exact unchanged_mono (unchanged_setPort s n x) (by decide)

/-- Settles O21: the rise in each transaction state; only in RESPONDING can the reading unit be told of it. -/
theorem csRiseEndsTransaction : Obligations.CsRiseEndsTransaction := by
  intro s n hcs hsel
  refine ⟨_, exec_csRise hcs, ?_⟩
  rw [csRises_of_selected hsel]
  generalize ht : s.setPins { s.pins with cs := put s.pins.cs n true } = t
  have hports : t.ports = s.ports := by rw [← ht]; rfl
  have hreads : t.reads = s.reads := by rw [← ht]; rfl
  have hpool : t.pool = s.pool := by rw [← ht]; rfl
  have hpins : t.pins = { s.pins with cs := put s.pins.cs n true } := by rw [← ht]; rfl
  have hst : Unchanged s t [.inputs] := ht ▸ unchanged_setPins s _
  rw [← hports, ← hreads, ← hpool, ← hpins]
  refine ⟨endTransaction_pins t n, unchanged_mono (hst.and_then (unchanged_endTransaction t n)) (by decide),
    fun h => ?_, fun h => ?_, fun h => ?_, fun h => ?_, fun h => ?_, fun h hread => ?_, fun h => ?_⟩
  · simp only [State.endTransaction, h]
  · simp only [State.endTransaction, h]
    rfl
  · simp only [State.endTransaction, h]
    rfl
  · rw [endTransaction_of_responding h, finishResponse_ports]
    simp only [State.setPort, getElem_put_self, put_put]
  · simp only [State.endTransaction, h]
    rfl
  · obtain ⟨c, hc, hi⟩ := hread
    obtain ⟨x, hx, hxc⟩ := Option.bind_eq_some_iff.1 hc
    rw [endTransaction_of_responding h]
    exact finishResponse_of_read (h := x) (by simp only [State.setPort, getElem_put_self]; exact hx) hxc hi
  · by_cases hresp : t.ports[n].state = .responding
    · rw [endTransaction_of_responding hresp]
      refine finishResponse_of_not_read fun c hc => (h.resolve_left (not_not.2 hresp)) c ?_
      simpa only [State.setPort, getElem_put_self] using hc
    · obtain ⟨x, e⟩ := endTransaction_of_not_responding hresp
      rw [e]
      exact ⟨rfl, rfl⟩

/-! ### The response that is shifted out (R155) -/

theorem exec_responseFinished {s : State} {n : Port} (hs : s.selected n = true) (ha : s.ports[n].isAnswering = true) :
    exec (.responseFinished n) s = .next (s.finishResponse n) := by
  simp only [exec, execResponseFinished, hs, ha]
  rfl

/-- The record of a completed read is emptied, and its pin goes (R68). -/
theorem finishedRecord_of_answering {r : ReadRecord} (h : r.phase = .answering) : finishedRecord (some r) = none :=
  if_pos h

theorem releaseAll_finishedFrames (x : Pool) {r : ReadRecord} (h : r.phase = .answering) :
    x.releaseAll (finishedFrames (some r)) = if r.pin then x.release r.frame else x := by
  simp only [finishedFrames, h, if_true, pinFrame]
  split_ifs <;> rfl

/-- A record whose read has not completed has nothing to give up. -/
theorem finishedRecord_of_running {o : Option ReadRecord} (h : ∀ r, o = some r → r.phase ≠ .answering) :
    finishedRecord o = o ∧ finishedFrames o = [] := by
  cases o with
  | none => exact ⟨rfl, rfl⟩
  | some r => exact ⟨if_neg (h r rfl), if_neg (h r rfl)⟩

/-- A port that answers takes nothing in. -/
theorem not_receiving_of_answering {x : PortInterface} (h : x.isAnswering = true) : x.isReceiving = false := by
  rw [← Bool.not_eq_true, isReceiving_iff]
  rw [isAnswering_iff] at h
  rcases h with h | ⟨h, h'⟩
  · simp [h]
  · simp [h, h']

/-- An EXECUTING port takes nothing in and shifts no answer out. -/
theorem executing_still {x : PortInterface} (h : x.state = .executing) :
    x.isReceiving = false ∧ x.isAnswering = false := by
  simp [PortInterface.isReceiving, PortInterface.isAnswering, h]

theorem inTransaction_iff (x : PortInterface) :
    x.inTransaction = true ↔ x.state ≠ .idle ∧ (x.state = .draining → x.side ≠ .none) := by
  unfold PortInterface.inTransaction
  cases x.state <;> simp

theorem sdoDriven_iff (s : State) (n : Port) :
    s.sdoDriven n = true ↔ s.inDeviceReset = false ∧ s.pins.rst[n] = true ∧ s.pins.cs[n] = false ∧
      s.ports[n].state ≠ .idle ∧ (s.ports[n].state = .draining → s.ports[n].side ≠ .none) := by
  rw [State.sdoDriven, Bool.and_eq_true, inTransaction_iff, State.selected]
  simp only [Bool.and_eq_true, Bool.not_eq_true', and_assoc]

theorem clockByte_of_answering {s : State} {n : Port} (ha : s.ports[n].isAnswering = true) (b : Byte) :
    s.clockByte n b = if s.selected n then s.shiftOutByte n else s := by
  simp only [State.clockByte, ha, not_receiving_of_answering ha]
  rfl

theorem sdoByte_of_answering {s : State} {n : Port} (ha : s.ports[n].isAnswering = true) :
    s.sdoByte n = match s.ports[n].response with
      | some h => (readyByte :: h.frame).getD h.clocked fillerByte
      | none => fillerByte := by
  simp only [State.sdoByte, ha, not_receiving_of_answering ha]
  rfl

/-- The effect of RESPONSE_FINISHED on the reading unit: the pin of a completed read goes. -/
theorem finishResponse_record {s : State} {n : Port} {h : HeldResponse} (hr : s.ports[n].response = some h)
    {r : ReadRecord} {c : CommandTag} (hc : h.command = some c) (hi : c.isRead) (hread : s.reads[n] = some r)
    (hphase : r.phase = .answering) :
    (s.finishResponse n).reads = put s.reads n none ∧
      (s.finishResponse n).pool = if r.pin then s.pool.release r.frame else s.pool := by
  obtain ⟨h1, h2⟩ := finishResponse_of_read hr hc hi
  rw [hread] at h1 h2
  exact ⟨by rw [h1, finishedRecord_of_answering hphase], by rw [h2, releaseAll_finishedFrames _ hphase]⟩

theorem finishResponse_keeps {s : State} {n : Port} {h : HeldResponse} (hr : s.ports[n].response = some h)
    (hno : (∀ c, h.command = some c → ¬ c.isRead) ∨ (∀ r, s.reads[n] = some r → r.phase ≠ .answering)) :
    (s.finishResponse n).reads = s.reads ∧ (s.finishResponse n).pool = s.pool := by
  by_cases hi : ∃ c, h.command = some c ∧ c.isRead
  · obtain ⟨c, hc, hi⟩ := hi
    obtain ⟨h1, h2⟩ := finishResponse_of_read hr hc hi
    obtain ⟨e1, e2⟩ := finishedRecord_of_running (hno.resolve_left fun hno => hno c hc hi)
    rw [e1, put_self] at h1
    rw [e2] at h2
    exact ⟨h1, h2⟩
  · refine finishResponse_of_not_read fun c hc hread => hi ⟨c, ?_, hread⟩
    rwa [hr] at hc

/-- Settles O22: the event is `finishResponse`, which the last byte of the frame brings about as well. -/
theorem finishedResponseReleasesPin : Obligations.FinishedResponseReleasesPin := by
  refine ⟨fun s n h hsel ha hr => ⟨_, exec_responseFinished hsel ha, finishResponse_ports s n,
    unchanged_mono (unchanged_finishResponse s n) (by decide), State.finishResponse_pins .., fun c hc hi r hread hphase =>
      finishResponse_record hr hc hi hread hphase, finishResponse_keeps hr⟩, fun s n => ?_⟩
  intro x answering
  refine ⟨sdoDriven_iff s n, fun h => ?_, fun h => ⟨?_, fun b => ?_⟩, fun h hnone => ?_, fun h y hy => ?_⟩
  · have hrec : s.ports[n].isReceiving = true := (isReceiving_iff _).2 h
    simp only [State.sdoByte, hrec, if_true]
    rfl
  · obtain ⟨hrec, hans⟩ := executing_still (x := s.ports[n]) h
    simp only [State.sdoByte, hrec, hans, show s.ports[n].state = .executing from h, if_true, Bool.false_eq_true, if_false]
    rfl
  · obtain ⟨hrec, hans⟩ := executing_still (x := s.ports[n]) h
    simp only [State.clockByte, hrec, hans, Bool.false_eq_true, if_false, ite_self]
  · have ha := (isAnswering_iff _).2 h
    refine ⟨?_, fun b => ?_⟩
    · rw [sdoByte_of_answering ha]
      simp only [show s.ports[n].response = none from hnone]
      rfl
    · rw [clockByte_of_answering ha]
      simp only [State.shiftOutByte, show s.ports[n].response = none from hnone, ite_self]
  · have ha := (isAnswering_iff _).2 h
    have hy' : s.ports[n].response = some y := hy
    refine ⟨?_, fun hsel b => ⟨fun hlt => ?_, fun hle => ?_⟩⟩
    · rw [sdoByte_of_answering ha]
      simp only [hy']
      cases y.clocked <;> rfl
    · rw [clockByte_of_answering ha, if_pos hsel]
      simp only [State.shiftOutByte, hy', if_pos hlt]
      rfl
    · rw [exec_responseFinished hsel ha, clockByte_of_answering ha, if_pos hsel]
      simp only [State.shiftOutByte, hy', if_neg (Nat.not_lt.2 hle)]

end Sys2Proof.Machine
end

section
/-!
Device reset and its release (R146, R147, R160), and what PORT_RESET leaves (R125, R159).
-/
namespace Sys2Proof.Machine
open Sys2Proof

/-! ### Device reset -/

/-- The blocks after device reset are those of `State.reset`, whatever the pins were. -/
theorem unchanged_afterDeviceReset (pins : Pins) (division epoch : Nat) (pending : List Instr) :
    Unchanged State.reset (State.afterDeviceReset pins division epoch pending) [.time, .inputs, .epoch, .pending] := by
  intro b hb
  cases b with
  | time | inputs | epoch | pending => simp at hb
  | _ => rfl

theorem exec_deviceReset {s : State} (h : s.pins.nReset = true) :
    exec .deviceReset s = .next (s.setPins { s.pins with nReset := false }).enterReset := by
  simp only [exec, execDeviceReset, h, if_true]

theorem inDeviceReset_setPins_clksel (s : State) (v : Fin 4) :
    (s.setPins { s.pins with clksel := v }).inDeviceReset = (!s.pins.nReset || decide (v = 3)) := rfl

/-- The straps change to 3 outside device reset: it is entered at once. -/
theorem exec_clkselChange_enter {s : State} (h : s.inDeviceReset = false) :
    exec (.clkselChange 3) s = .next (s.setPins { s.pins with clksel := 3 }).enterReset := by
  simp only [exec, execClkselChange, inDeviceReset_setPins_clksel, h, decide_true, Bool.or_true, Bool.not_false,
    Bool.and_true, if_true]

/-- The straps leave 3 with nRESET high: device reset is released. -/
theorem exec_clkselChange_leave {s : State} {v : Fin 4} (hv : v ≠ 3) (hn : s.pins.nReset = true)
    (h : s.pins.clksel = 3) :
    exec (.clkselChange v) s = .next (s.setPins { s.pins with clksel := v }).leaveReset := by
  have hs : s.inDeviceReset = true := by simp [State.inDeviceReset, Pins.inDeviceReset, h]
  have ht : (s.setPins { s.pins with clksel := v }).inDeviceReset = false := by
    rw [inDeviceReset_setPins_clksel, hn, decide_eq_false hv]
    rfl
  simp only [exec, execClkselChange, ht, hs]
  rfl

/-- A change of the straps that neither enters device reset nor releases it. -/
theorem exec_clkselChange_keep {s : State} {v : Fin 4}
    (h : (!s.pins.nReset || decide (v = 3)) = s.inDeviceReset) :
    exec (.clkselChange v) s = .next (s.setPins { s.pins with clksel := v }) := by
  simp only [exec, execClkselChange, inDeviceReset_setPins_clksel, h]
  cases s.inDeviceReset <;> rfl

/-- Settles O24: both ways into device reset are `enterReset`. -/
theorem deviceResetClearsEveryBlock : Obligations.DeviceResetClearsEveryBlock := by
  intro s cleared
  refine ⟨fun h => ⟨_, exec_deviceReset h, ⟨unchanged_afterDeviceReset _ _ _ _, rfl, rfl, rfl⟩, rfl⟩,
    fun h => ⟨_, exec_clkselChange_enter h, ⟨unchanged_afterDeviceReset _ _ _ _, rfl, rfl, rfl⟩, rfl⟩,
    fun h => ⟨_, exec_clkselChange_keep ?_, rfl, unchanged_setPins s _⟩⟩
  rw [h, decide_eq_true rfl, Bool.or_true]

theorem exec_deviceResetRelease_leave {s : State} (hn : s.pins.nReset = false) (h : s.pins.clksel ≠ 3) :
    exec .deviceResetRelease s = .next (s.setPins { s.pins with nReset := true }).leaveReset := by
  have ht : (s.setPins { s.pins with nReset := true }).inDeviceReset = false := by
    simp [State.inDeviceReset, Pins.inDeviceReset, State.setPins, h]
  simp only [exec, execDeviceResetRelease, hn, ht]
  rfl

theorem exec_deviceResetRelease_held {s : State} (hn : s.pins.nReset = false) (h : s.pins.clksel = 3) :
    exec .deviceResetRelease s = .next (s.setPins { s.pins with nReset := true }) := by
  have ht : (s.setPins { s.pins with nReset := true }).inDeviceReset = true := by
    simp [State.inDeviceReset, Pins.inDeviceReset, State.setPins, h]
  simp only [exec, execDeviceResetRelease, hn, ht]
  rfl

/-- Time starts anew, and the inputs have changed. -/
theorem unchanged_leaveReset (s : State) (x : Pins) : Unchanged s (s.setPins x).leaveReset [.inputs, .time] :=
  (unchanged_setPins s x).and_then (unchanged_setTime _ _)

/-- Settles O25: the release of device reset is `leaveReset`, under the straps as they then stand. -/
theorem deviceResetReleaseStartsTime : Obligations.DeviceResetReleaseStartsTime := by
  intro s v hv
  refine ⟨fun hn hc => ⟨_, exec_deviceResetRelease_leave hn (hc ▸ hv), rfl, ?_, unchanged_leaveReset s _⟩,
    fun hn hc => ⟨_, exec_clkselChange_leave hv hn hc, rfl, rfl, unchanged_leaveReset s _⟩,
    fun h => ⟨_, exec_clkselChange_keep ?_, rfl, unchanged_setPins s _⟩,
    fun hn hc => ⟨_, exec_deviceResetRelease_held hn hc, rfl, unchanged_setPins s _⟩⟩
  · rw [← hc]
    rfl
  · simp only [hv, decide_false, Bool.or_false]
    rcases h with h | h
    · rw [h]
      simp only [State.inDeviceReset, Pins.inDeviceReset, Bool.or_eq_false_iff] at h
      exact h.1
    · simp [State.inDeviceReset, Pins.inDeviceReset, h]

/-! ### What a detach is seen to leave -/

theorem Unchanged.symm {s t : State} {l : List Block} (h : Unchanged s t l) : Unchanged t s l := by
  intro b hb
  have hsame := h b hb
  cases b with
  | inputs =>
    obtain ⟨h1, h2, h3, h4, h5⟩ := hsame
    exact ⟨h1.symm, h2.symm, h3.symm, h4.symm, h5.symm⟩
  | _ => exact Eq.symm hsame

/-- `DetachedFrom` looks neither at interfaces and inputs nor, on the side of the state before, at the record of the
session that ends. -/
theorem detachedFrom_congr {s s' t t' : State} {n : Port} {cause : DetachCause} (h : DetachedFrom s t n cause)
    (hs : Unchanged s s' [.sessions, .ports, .inputs]) (ha : s'.attached = s.attached)
    (hsession : put s'.sessions n Session.detachedValues = put s.sessions n Session.detachedValues)
    (ht : Unchanged t t' [.ports, .inputs]) (hl : t'.LinesLawful) : DetachedFrom s' t' n cause := by
  have posts : s'.posts = s.posts := hs .posts (by decide)
  have slots : s'.slots = s.slots := hs .slots (by decide)
  have pool : s'.pool = s.pool := hs .pool (by decide)
  have holds : s'.holds = s.holds := hs .holds (by decide)
  have reads : s'.reads = s.reads := hs .reads (by decide)
  have filters : s'.filters = s.filters := hs .filters (by decide)
  have queues : s'.queues = s.queues := hs .queues (by decide)
  have requests : s'.requests = s.requests := hs .requests (by decide)
  have recipients : s'.recipients = s.recipients := recipients_congr ha filters
  have posts' : t'.posts = t.posts := ht .posts (by decide)
  have slots' : t'.slots = t.slots := ht .slots (by decide)
  have pool' : t'.pool = t.pool := ht .pool (by decide)
  have holds' : t'.holds = t.holds := ht .holds (by decide)
  have reads' : t'.reads = t.reads := ht .reads (by decide)
  have filters' : t'.filters = t.filters := ht .filters (by decide)
  have queues' : t'.queues = t.queues := ht .queues (by decide)
  have requests' : t'.requests = t.requests := ht .requests (by decide)
  have sessions' : t'.sessions = t.sessions := ht .sessions (by decide)
  obtain ⟨h1, h2, h3, h4, h5, h6, h7, h8, h9, h10, -, h12⟩ := h
  have hu := unchanged_mono ((hs.symm.and_then h12).and_then ht)
    (l' := [.sessions, .posts, .slots, .pool, .holds, .reads, .filters, .queues, .requests, .ports, .inputs]) (by decide)
  refine ⟨?_, ?_, ?_, ?_, ?_, ?_, ?_, ?_, ?_, ?_, hl, hu⟩
  · rw [sessions', hsession, h1]
  · simpa only [posts, posts'] using h2
  · simpa only [slots, slots'] using h3
  · rw [pool', h4, pool, holds, reads]
  · simpa only [holds, holds'] using h5
  · simpa only [reads, reads'] using h6
  · simpa only [filters, filters'] using h7
  · rw [requests', h8, requests, posts]
  · unfold Received orphanArrivals orphanedAsks at *
    simpa only [queues, queues', requests, requests', posts, ha, recipients] using h9
  · rw [requests', requests, h10]

/-! ### PORT_RESET (R125, R159) -/

/-- The interface of a port after RSTn has fallen (R159). -/
def PortInterface.afterReset (x : PortInterface) : PortInterface :=
  { x with
    state := if x.outstanding.isSome then .draining else .idle
    side := .none, rx := [], expected := 0, response := none
    discard := x.outstanding.isSome, lastAbandoned := none }

theorem resetInterface_eq (s : State) (n : Port) :
    s.resetInterface n = (s.finishResponse n).setPort n s.ports[n].afterReset := by
  simp only [State.resetInterface, finishResponse_ports, getElem_put_self]
  rfl

theorem resetInterface_ports (s : State) (n : Port) :
    (s.resetInterface n).ports = put s.ports n s.ports[n].afterReset := by
  rw [resetInterface_eq]
  show put (s.finishResponse n).ports n _ = _
  rw [finishResponse_ports, put_put]

theorem exec_portReset {s : State} {n : Port} (h : s.pins.rst[n] = true) :
    exec (.portReset n) s = .next (s.rstFalls n) := by
  simp only [exec, execPortReset, h, if_true]

theorem rstFalls_of_attached {s : State} {n : Port} (hd : s.inDeviceReset = false) (ha : s.attached n = true) :
    s.rstFalls n =
      ((s.setPins { s.pins with rst := put s.pins.rst n false }).detachPort n .portreset).resetInterface n := by
  have hd' : (s.setPins { s.pins with rst := put s.pins.rst n false }).inDeviceReset = false := hd
  have ha' : (s.setPins { s.pins with rst := put s.pins.rst n false }).attached n = true := ha
  simp only [State.rstFalls, hd', ha', Bool.false_eq_true, if_false, if_true]

theorem rstFalls_of_detached {s : State} {n : Port} (hd : s.inDeviceReset = false) (ha : s.attached n = false) :
    s.rstFalls n = (s.setPins { s.pins with rst := put s.pins.rst n false }).resetInterface n := by
  have hd' : (s.setPins { s.pins with rst := put s.pins.rst n false }).inDeviceReset = false := hd
  have ha' : (s.setPins { s.pins with rst := put s.pins.rst n false }).attached n = false := ha
  simp only [State.rstFalls, hd', ha', Bool.false_eq_true, if_false]

theorem resetInterface_pins (s : State) (n : Port) : (s.resetInterface n).pins = s.pins := by
  rw [resetInterface_eq]
  exact State.finishResponse_pins ..

theorem unchanged_resetInterface (s : State) (n : Port) : Unchanged s (s.resetInterface n) [.ports, .pool, .reads] := by
  rw [resetInterface_eq]
  exact unchanged_mono ((unchanged_finishResponse s n).and_then (unchanged_setPort _ n _)) (by decide)

/-- After a detach the port has no completed read. -/
theorem detachPort_record (s : State) (n : Port) (c : DetachCause) (r : ReadRecord)
    (h : (s.detachPort n c).reads[n] = some r) : r.phase ≠ .answering := by
  have e : (s.detachPort n c).reads = put s.reads n (s.reads[n].bind ReadRecord.detached) := rfl
  rw [e, getElem_put_self] at h
  obtain ⟨r0, -, hr⟩ := Option.bind_eq_some_iff.1 h
  unfold ReadRecord.detached at hr
  split at hr
  · cases hr
  · obtain rfl := Option.some_inj.1 hr
    assumption

/-- The end of a response leaves the reading unit where no completed read is recorded. -/
theorem finishResponse_of_running {s : State} {n : Port} (h : ∀ r, s.reads[n] = some r → r.phase ≠ .answering) :
    (s.finishResponse n).reads = s.reads ∧ (s.finishResponse n).pool = s.pool := by
  cases hr : s.ports[n].response with
  | none =>
    refine finishResponse_of_not_read fun c hc => ?_
    rw [hr] at hc
    cases hc
  | some x => exact finishResponse_keeps hr (.inr h)

/-- Where nothing of the reading unit changes, the reset of the interface changes the interface alone. -/
theorem unchanged_resetInterface_of_running {s : State} {n : Port}
    (h : ∀ r, s.reads[n] = some r → r.phase ≠ .answering) : Unchanged s (s.resetInterface n) [.ports] := by
  obtain ⟨hreads, hpool⟩ := finishResponse_of_running h
  intro b hb
  by_cases hb' : b = .pool ∨ b = .reads
  · rw [resetInterface_eq]
    rcases hb' with rfl | rfl
    · exact hpool
    · exact hreads
  · exact unchanged_resetInterface s n b (by simp_all)

/-- A port without pins gives up no frame at the end of a response. -/
theorem finishedFrames_of_pinFrame {o : Option ReadRecord} (h : pinFrame o = []) : finishedFrames o = [] := by
  cases o with
  | none => rfl
  | some r =>
    unfold finishedFrames
    simp only [h, ite_self]

theorem finishResponse_pool_of_no_pin {s : State} {n : Port} (h : pinFrame s.reads[n] = []) :
    (s.finishResponse n).pool = s.pool := by
  rcases finishResponse_cases s n with ⟨-, e⟩ | ⟨x, -, -, e⟩ | ⟨x, -, -, e⟩ <;> rw [e]
  · show s.pool.releaseAll (finishedFrames s.reads[n]) = s.pool
    rw [finishedFrames_of_pinFrame h]
    rfl
  · rfl

theorem unchanged_resetInterface_of_no_pin {s : State} {n : Port} (h : pinFrame s.reads[n] = []) :
    Unchanged s (s.resetInterface n) [.ports, .reads] := by
  have hpool := finishResponse_pool_of_no_pin h
  intro b hb
  by_cases hb' : b = .pool
  · rw [resetInterface_eq]
    subst hb'
    exact hpool
  · exact unchanged_resetInterface s n b (by simp_all)

theorem resetInterface_reads (s : State) (n : Port) : (s.resetInterface n).reads = (s.finishResponse n).reads := by
  rw [resetInterface_eq]
  rfl

/-- An interface that holds the response of a read tells the reading unit of its end. -/
theorem finishResponse_reads_of_holds {s : State} {n : Port} (h : s.ports[n].holdsReadResponse) :
    (s.finishResponse n).reads = put s.reads n (finishedRecord s.reads[n]) := by
  obtain ⟨x, c, hx, hc, hi⟩ := h
  exact (finishResponse_of_read hx hc hi).1

theorem finishResponse_reads_of_not_holds {s : State} {n : Port} (h : ¬ s.ports[n].holdsReadResponse) :
    (s.finishResponse n).reads = s.reads := by
  refine (finishResponse_of_not_read fun c hc hi => h ?_).1
  obtain ⟨x, hx, hxc⟩ := Option.bind_eq_some_iff.1 hc
  exact ⟨x, c, hx, hxc, hi⟩

/-- Settles O23: an ATTACHED port detaches first, and what a detach leaves of the reading unit the reset of the
interface leaves too; a DETACHED port has no pin to release. -/
theorem portResetDetachesAndClears : Obligations.PortResetDetachesAndClears := by
  refine ⟨fun s n hr hd => ⟨_, exec_portReset hr, ?_⟩, fun s n => ⟨_, rfl, rfl, unchanged_setPins s _⟩⟩
  generalize hu : s.setPins { s.pins with rst := put s.pins.rst n false } = u
  have hpins : u.pins = { s.pins with rst := put s.pins.rst n false } := by rw [← hu]; rfl
  have hsu : Unchanged s u [.inputs] := hu ▸ unchanged_setPins s _
  have hua : u.attached = s.attached := by rw [← hu]; rfl
  have hports : u.ports = s.ports := hsu .ports (by decide)
  have hsessions : u.sessions = s.sessions := hsu .sessions (by decide)
  have hreads : u.reads = s.reads := hsu .reads (by decide)
  cases ha : s.attached n with
  | true =>
    rw [rstFalls_of_attached hd ha, hu, resetInterface_ports, resetInterface_pins]
    obtain ⟨hdet, hdports, hcs, hrst, hsup, hreset, hclksel⟩ := detachPort_detached u n .portreset
    rw [hcs, hrst, hsup, hreset, hclksel, hpins, hdports, hports]
    refine ⟨rfl, rfl, rfl, rfl, rfl, rfl, fun _ => ?_, nofun⟩
    have hrun := unchanged_resetInterface_of_running (detachPort_record u n .portreset)
    refine detachedFrom_congr hdet (unchanged_mono hsu.symm (by decide)) hua.symm (by rw [hsessions])
      (unchanged_mono hrun (by decide)) ?_
    obtain ⟨-, -, -, -, -, -, -, -, -, -, hlines, -⟩ := hdet
    unfold State.LinesLawful at *
    rw [resetInterface_pins, hlines, hrun .sessions (by decide), hrun .queues (by decide)]
  | false =>
    rw [rstFalls_of_detached hd ha, hu, resetInterface_ports, resetInterface_pins, hports, hpins, resetInterface_reads]
    refine ⟨rfl, rfl, rfl, rfl, rfl, rfl, nofun, fun _ hh => ⟨rfl, ?_, fun hread => ?_, fun hread => ?_⟩⟩
    · have hnone : pinFrame u.reads[n] = [] := by rw [hreads]; exact (hh n ha).2
      exact hsu.and_then (unchanged_resetInterface_of_no_pin hnone)
    · rw [← hports] at hread
      rw [finishResponse_reads_of_holds hread, hreads]
    · rw [← hports] at hread
      rw [finishResponse_reads_of_not_holds hread, hreads]

end Sys2Proof.Machine
end

section
/-!
Sessions: ATTACH, STATUS, DETACH (R116 to R126, R158), and the expiries of the timers (R11, R107, R122, R146).
-/
namespace Sys2Proof.Machine
open Sys2Proof

/-! ### Commands that are taken -/

/-- A request in range is run, in the state after the lease report. -/
theorem takeCommand_taking {s : State} {n : Port} {r : Request} (hl : r.legal = true)
    (ha : r.needsSession = true → s.attached n = true)
    (hr : r.needsSupervisor = true → s.sessions[n].role = .supervisor) :
    takeCommand n r.command r.args (s.taking n) = runRequest n r (s.taking n) :=
  run_legal rfl hl (fun h => (congrFun (taking_attached s n) n).trans (ha h))
    fun h => (taking_role s n).trans (hr h)

/-! ### ATTACH -/

theorem attachTaken_refused {s : State} {n : Port} {role : Role} (lease : Half) (threshold : Nat)
    (h : role = .supervisor ∧ s.pins.sup[n] = false) :
    attachTaken n role lease threshold s = (s, .done .notpermitted []) :=
  if_pos h

theorem attachTaken_granted {s : State} {n : Port} {role : Role} (lease : Half) (threshold : Nat)
    (h : ¬ (role = .supervisor ∧ s.pins.sup[n] = false)) :
    attachTaken n role lease threshold s =
      (s.setSession n (attachedSession role lease threshold s.now), .done .ok [portByte n, flagByte (s.attached n)]) :=
  if_neg h

theorem exec_attach (n : Port) (tag : Byte) (args : List Byte) (sup : Bool) (s : State) :
    exec (.attach n tag args sup) s =
      .next ((s.setPins { s.pins with sup := put s.pins.sup n sup }).arriveRequest n .attach tag args) := rfl

/-- Settles O26: the frame finds the strap at the level of the operand, and both outcomes are those of the taking. -/
theorem attachSetsSession : Obligations.AttachSetsSession := by
  intro s n tag role lease threshold sup hready hlegal
  refine ⟨_, exec_attach n tag _ sup s, ?_⟩
  generalize hu : s.setPins { s.pins with sup := put s.pins.sup n sup } = u
  have hready' : u.Ready n := by rw [← hu]; exact hready
  have hsu : Unchanged s u [.inputs] := hu ▸ unchanged_setPins s _
  have hpins : u.pins = { s.pins with sup := put s.pins.sup n sup } := by rw [← hu]; rfl
  have hports : u.ports = s.ports := hsu .ports (by decide)
  have hsessions : u.sessions = s.sessions := hsu .sessions (by decide)
  have hattached : u.attached = s.attached := by rw [← hu]; rfl
  have hnow : u.now = s.now := by rw [← hu]; rfl
  have hsup : (u.taking n).pins.sup[n] = sup := by
    rw [taking_sup, hpins]
    exact getElem_put_self ..
  have hlen := args_length _ hlegal
  have hrun := takeCommand_taking (s := u) (n := n) hlegal nofun nofun
  by_cases hrefused : role = .supervisor ∧ sup = false
  · have htaken : takeCommand n .attach ([role.code] ++ be16 lease ++ [byteOf threshold]) (u.taking n) =
        (u.taking n, .done .notpermitted []) :=
      hrun.trans (attachTaken_refused lease threshold (by rwa [hsup]))
    have hans := answeredOnly_of (args := [role.code] ++ be16 lease ++ [byteOf threshold]) hready' tag hlen htaken
    obtain ⟨hanswer, hlease, hlines, hunch⟩ := hans
    obtain ⟨hcs, hrst, hsup', hreset, hclksel⟩ := hunch .inputs (by decide)
    rw [hcs, hrst, hsup', hreset, hclksel, hpins]
    refine ⟨rfl, rfl, rfl, rfl, rfl, hlines, unchanged_mono (hsu.and_then hunch) (by decide), fun _ => ⟨?_, ?_⟩,
      fun h => ?_⟩
    · unfold Answered at *
      rwa [hports] at hanswer
    · unfold LeaseRenewed at *
      rwa [hsessions, hnow] at hlease
    · obtain ⟨hrole, hsupl⟩ := hrefused
      rw [hrole, hsupl] at h
      rcases h with h | h <;> cases h
  · have htaken : takeCommand n .attach ([role.code] ++ be16 lease ++ [byteOf threshold]) (u.taking n) =
        ((u.taking n).setSession n (attachedSession role lease threshold u.now),
          .done .ok [portByte n, flagByte (u.attached n)]) := by
      refine hrun.trans ((attachTaken_granted lease threshold (by rwa [hsup])).trans ?_)
      rw [taking_attached, taking_now]
    rw [taken_done (args := [role.code] ++ be16 lease ++ [byteOf threshold]) hready' tag hlen htaken rfl]
    refine ⟨?_, ?_, ?_, ?_, ?_, rfl, ?_, fun h => absurd h hrefused, fun _ => ⟨?_, ?_⟩⟩
    · exact (show _ = u.pins.cs from rfl).trans (by rw [hpins])
    · exact (show _ = u.pins.rst from rfl).trans (by rw [hpins])
    · exact (show _ = u.pins.sup from rfl).trans (by rw [hpins])
    · exact (show _ = u.pins.nReset from rfl).trans (by rw [hpins])
    · exact (show _ = u.pins.clksel from rfl).trans (by rw [hpins])
    · exact unchanged_mono (((hsu.and_then (unchanged_taking u n)).and_then (unchanged_setSession _ n _)).and_then
        (unchanged_setPort _ n _)) (by decide)
    · unfold Answered
      rw [State.setPort_ports, State.setSession_ports, taking_ports, put_put, hports, hattached]
      rfl
    · rw [State.setPort_sessions, State.setSession_sessions, taking_sessions, put_put, hsessions, hnow]
      rfl

/-! ### STATUS -/

theorem Session.renewed_of_unarmed {x : Session} (h : x.timer = none) (now : Time) : x.renewed now = x :=
  if_neg fun hx => by rw [h] at hx; exact absurd hx.2 nofun

/-- The lease remaining after a lease report: that of the lease just restarted (R116, R121). -/
theorem taking_leaseRemaining {s : State} {n : Port} (h : s.sessions[n].Lawful) :
    (s.taking n).leaseRemaining n = if s.sessions[n].lease = 0#16 then 0#16 else s.sessions[n].lease + 1#16 := by
  obtain ⟨hdet, harm, -, -⟩ := h
  have hsession : (s.taking n).sessions[n] = s.sessions[n].renewed s.now := by rw [taking_sessions, getElem_put_self]
  unfold State.leaseRemaining
  rw [hsession, taking_now]
  cases hst : s.sessions[n].state with
  | detached => rw [hdet hst]; rfl
  | attached =>
    by_cases hl : s.sessions[n].lease = 0#16
    · have htimer : s.sessions[n].timer = none := by
        by_contra hne
        exact (harm hst).1 (Option.isSome_iff_ne_none.2 hne) hl
      rw [Session.renewed_of_unarmed htimer, htimer, if_pos hl]
    · have harmed : s.sessions[n].timer.isSome = true := (harm hst).2 hl
      simp only [Session.renewed, hst, harmed, and_self, if_true, remaining_expiryAfter, if_neg hl]
      bv_omega

theorem taking_threshold (s : State) (n : Port) : (s.taking n).sessions[n].threshold = s.sessions[n].threshold := by
  simp [renewed_threshold]

theorem taking_state (s : State) (n : Port) : (s.taking n).sessions[n].state = s.sessions[n].state := by
  simp [renewed_state]

theorem statusBytes_taking {s : State} {n : Port} (h : s.sessions[n].Lawful) :
    (s.taking n).statusBytes n =
      [s.sessions[n].state.code, s.sessions[n].role.code] ++
        be16 (if s.sessions[n].lease = 0#16 then 0#16 else s.sessions[n].lease + 1#16) ++
        [byteOf s.sessions[n].threshold,
          byteOf (s.queues[n].entries.length + (if s.queues[n].lost.isSome then 1 else 0))] ++
        be16 (BitVec.ofNat 16 (s.queues[n].lost.getD 0)) ++
        [byteOf (s.holds[n].toList.countP Option.isSome),
          byteOf (s.requests.pending.countP fun e => decide (e.requester = n)),
          byteOf (s.requests.undelivered.countP fun e => decide (e.requester = n))] ++
        (match s.ports[n].lastAbandoned with
          | some c => [0x01#8, c.tag, c.code]
          | none => [0x00#8, 0x00#8, 0x00#8]) := by
  have hport : (s.taking n).ports[n].lastAbandoned = s.ports[n].lastAbandoned := by
    rw [taking_ports, getElem_put_self]
    rfl
  simp only [State.statusBytes, taking_leaseRemaining h, taking_threshold, taking_state, taking_role, hport,
    holdsInUse, RequestTable.pendingOf, RequestTable.undeliveredOf, List.countP_eq_length_filter]
  rfl

/-- Settles O28: STATUS reads the state after the lease report, in which only the timer differs. -/
theorem statusReportsPort : Obligations.StatusReportsPort := by
  intro s n tag hready hlawful
  refine ⟨_, rfl, answeredOnly_of (args := []) hready tag (Nat.zero_le _) ?_⟩
  exact (takeCommand_taking (r := .status) rfl nofun nofun).trans
    (congrArg (fun bytes => (s.taking n, Reply.done .ok bytes)) (statusBytes_taking (hlawful n)))

/-! ### DETACH and the expiry of a lease -/

/-- Settles O29: the detach of the state after the lease report is one of the state before it. -/
theorem detachCommandDetaches : Obligations.DetachCommandDetaches := by
  intro s n tag hready hattached
  refine ⟨_, rfl, ?_⟩
  have htaken : takeCommand n .detach [] (s.taking n) = ((s.taking n).detachPort n .detach, .done .ok []) :=
    takeCommand_taking (r := .detach) rfl (fun _ => hattached) nofun
  obtain ⟨hdet, hports, hinputs⟩ := detachPort_detached (s.taking n) n .detach
  rw [show s.arriveRequest n .detach tag [] = _ from taken_done (args := []) hready tag (Nat.zero_le _) htaken hports]
  generalize (s.taking n).detachPort n .detach = u at hdet hports hinputs
  have hset := unchanged_setPort u n
    { s.ports[n] with
      state := .responding, rx := [], expected := 0,
      response := some
        { frame := responseFrame .ok tag [], clocked := 0, command := some { tag := tag, code := Command.detach.code } } }
  refine ⟨?_, ?_, hinputs⟩
  · unfold Answered
    rw [State.setPort_ports, hports, taking_ports, put_put]
  · refine detachedFrom_congr hdet (unchanged_mono (unchanged_taking s n).symm (by decide)) (taking_attached s n).symm
      (by rw [taking_sessions, put_put]) (unchanged_mono hset (by decide)) ?_
    obtain ⟨-, -, -, -, -, -, -, -, -, -, hlines, -⟩ := hdet
    exact hlines

theorem exec_leaseExpiry {s : State} {n : Port} {e : Time} (h : s.sessions[n].timer = some e) :
    exec (.leaseExpiry n) s = .next (if s.attached n && reached e s.now then s.detachPort n .lease else s) := by
  simp only [exec, execLeaseExpiry, h]

/-- Settles O30: the expiry of the armed timer is a detach. -/
theorem leaseExpiryDetaches : Obligations.LeaseExpiryDetaches := by
  intro s n e hattached htimer hnow
  have hexec : exec (.leaseExpiry n) s = .next (s.detachPort n .lease) := by
    rw [exec_leaseExpiry htimer, hattached, (reached_iff e s.now).2 hnow.symm]
    rfl
  exact ⟨_, hexec, detachPort_detached s n .lease⟩

/-! ### Expiries that do not come -/

theorem expireFreshness_eq {s : State} {p : PostNo} {r : Post} {e : Time} (hr : s.posts[p] = some r)
    (hd : r.deadline = some e) :
    s.expireFreshness p =
      if reached e s.now then
        (s.setPost p (some { r with condition := .stale, deadline := none })).notify (.stale p r.key) r.key .lifecycle
          none r.binding.boundPort
      else s := by
  simp only [State.expireFreshness, hr, hd]

/-- Completing no ask leaves the state, whose ATTNn lines stand as they should. -/
theorem completeAsks_of_none {s : State} {sel : PendingAsk → Bool} (o : AskOutcome)
    (h : ∀ a ∈ s.requests.pending, sel a = false) (hl : s.LinesLawful) : s.completeAsks sel o = s := by
  have hnone : s.requests.pending.filter sel = [] := List.filter_eq_nil_iff.2 fun a ha => by rw [h a ha]; nofun
  have hall : s.requests.pending.filter (fun e => !sel e) = s.requests.pending :=
    List.filter_eq_self.2 fun a ha => by rw [h a ha]; rfl
  unfold State.LinesLawful at hl
  simp only [State.completeAsks, hnone, hall, completeEntries, List.foldl_nil]
  show { s with pins := { s.pins with attn := attentionLines s.sessions s.queues } } = s
  rw [← hl]

theorem expireAsk_of_not_expired {s : State} {ticket : Byte} (hl : s.LinesLawful)
    (h : ∀ a ∈ s.requests.pending, a.ticket = ticket → a.deadline + 1#32 ≠ s.now) : s.expireAsk ticket = s := by
  refine completeAsks_of_none _ (fun a ha => ?_) hl
  rw [Bool.and_eq_false_iff, decide_eq_false_iff_not]
  by_cases ht : a.ticket = ticket
  · refine .inr ?_
    rw [← Bool.not_eq_true]
    exact fun hexp => h a ha ht ((reached_iff _ _).1 hexp)
  · exact .inl ht

/-- Settles O31: an expiry looks whether device time stands at the expiry time. -/
theorem timersDoNotExpireEarly : Obligations.TimersDoNotExpireEarly := by
  intro s e hne
  have hnot : reached e s.now = false := by
    rw [← Bool.not_eq_true, reached_iff]
    exact fun h => hne h.symm
  refine ⟨fun n htimer => ?_, fun p r hr hd => ?_, fun ticket hall hl => ?_⟩
  · rw [exec_leaseExpiry htimer, hnot, Bool.and_false]
    rfl
  · show Host.Outcome.next (s.expireFreshness p) = _
    rw [expireFreshness_eq hr hd, hnot]
    rfl
  · show Host.Outcome.next (s.expireAsk ticket) = _
    rw [expireAsk_of_not_expired hl fun a ha ht => hall a ha ht ▸ hne.symm]

end Sys2Proof.Machine
end

section
/-!
How a statement about a command that is taken is put together: the command runs in the state after the lease report,
and the reply goes to the interface.
-/
namespace Sys2Proof.Machine
open Sys2Proof

section
variable {s : State} {n : Port} {r : Request} (tag : Byte)

/-- A request in range that its block answers with no effect. -/
theorem answeredOnly_run (hready : s.Ready n) (ha : s.attached n = true) (hl : r.legal = true)
    (hr : r.needsSupervisor = true → s.sessions[n].role = .supervisor) {st : Status} {res : List Byte}
    (h : runRequest n r (s.taking n) = (s.taking n, .done st res)) :
    AnsweredOnly s (s.arriveRequest n r.command tag r.args) n tag r.command st res :=
  answeredOnly_of hready tag (args_length r hl) ((takeCommand_taking hl (fun _ => ha) hr).trans h)

/-- A request in range that its block answers, leaving the state `u`; only the interface is written after it. -/
theorem answeredChanging_run (hready : s.Ready n) (ha : s.attached n = true) (hl : r.legal = true)
    (hr : r.needsSupervisor = true → s.sessions[n].role = .supervisor) {u : State} {st : Status} {res : List Byte}
    {changed : List Block} (h : runRequest n r (s.taking n) = (u, .done st res))
    (hu : Unchanged (s.taking n) u changed) (hports : Block.ports ∉ changed) (hsessions : Block.sessions ∉ changed)
    (hlines : u.LinesLawful) :
    AnsweredChanging s (s.arriveRequest n r.command tag r.args) n tag r.command st res changed ∧
      Unchanged u (s.arriveRequest n r.command tag r.args) [.ports] := by
  have htaken := (takeCommand_taking hl (fun _ => ha) hr).trans h
  have hp : u.ports = (s.taking n).ports := hu .ports hports
  refine ⟨answeredChanging_of hready tag (args_length r hl) htaken hp (hu .sessions hsessions) hlines ?_, ?_⟩
  · exact (unchanged_taking s n).and_then hu
  · rw [taken_done hready tag (args_length r hl) htaken hp]
    exact unchanged_setPort u n _

/-- A request in range that goes on: the command is outstanding, and only the interface is written after it. -/
theorem executingChanging_run (hready : s.Ready n) (ha : s.attached n = true) (hl : r.legal = true)
    (hr : r.needsSupervisor = true → s.sessions[n].role = .supervisor) {u : State} {changed : List Block}
    (h : runRequest n r (s.taking n) = (u, .executing))
    (hu : Unchanged (s.taking n) u changed) (hports : Block.ports ∉ changed) (hsessions : Block.sessions ∉ changed)
    (hlines : u.LinesLawful) :
    ExecutingChanging s (s.arriveRequest n r.command tag r.args) n tag r.command changed ∧
      Unchanged u (s.arriveRequest n r.command tag r.args) [.ports] := by
  have htaken := (takeCommand_taking hl (fun _ => ha) hr).trans h
  have hp : u.ports = (s.taking n).ports := hu .ports hports
  refine ⟨executingChanging_of hready tag (args_length r hl) htaken hp (hu .sessions hsessions) hlines ?_, ?_⟩
  · exact (unchanged_taking s n).and_then hu
  · rw [taken_executing hready tag (args_length r hl) htaken hp]
    exact unchanged_setPort u n _

end

/-- A notice handed to the match unit in a state with the queues and the recipients of `s` (R84). -/
theorem noticeSent_notify {s u t : State} {x : Notice} {k : Half} {flag : FilterFlag} {acting fixed : Option Port}
    (hr : u.recipients = s.recipients) (hq : u.queues = s.queues)
    (ht : t.queues = (u.notify x k flag acting fixed).queues) : NoticeSent s t x k flag acting fixed := by
  intro m
  rw [ht, State.notify_queues, getElem_deliver, hr, hq]

end Sys2Proof.Machine
end

section
/-!
The commands on a post: ADOPT, TAKEOVER, WITHDRAW and REVOKE (chapter 7), DECLARE and DESCRIBE (chapter 1), and the
freshness expiry (R11).
-/
namespace Sys2Proof.Machine
open Sys2Proof

/-! ### ADOPT (R128) -/

section
variable {s : State} {p : PostNo} {r : Post} (n : Port)

theorem adoptTaken_of_vacant (h : s.posts[p] = none) : adoptTaken n p s = (s, .done .nopost []) := by
  simp only [adoptTaken, h]

theorem adoptTaken_of_bound {q : Port} (h : s.posts[p] = some r) (hb : r.binding = .bound q) :
    adoptTaken n p s = (s, .done .badstate []) := by
  simp only [adoptTaken, h, hb]

theorem adoptTaken_of_orphaned {q : Port} (h : s.posts[p] = some r) (hb : r.binding = .orphaned q) :
    adoptTaken n p s =
      ((s.setPost p (some { r with binding := .bound n })).notify (.adopted p r.key n .adopt) r.key .lifecycle
          (some n) none,
        .done .ok ([portByte q] ++ be16 r.generation ++ [r.condition.code])) := by
  simp only [adoptTaken, h, hb]

end

/-- Settles O32: the three branches of ADOPT. -/
theorem adoptBindsOrphanedPost : Obligations.AdoptBindsOrphanedPost := by
  intro s n tag p hready hattached
  have refused := fun st (h : adoptTaken n p (s.taking n) = (s.taking n, .done st [])) =>
    answeredOnly_run (r := .adopt p) tag hready hattached rfl nofun h
  refine ⟨fun h => ⟨_, rfl, refused _ (adoptTaken_of_vacant n h)⟩,
    fun r q h hb => ⟨_, rfl, refused _ (adoptTaken_of_bound n h hb)⟩, fun r q h hb => ⟨_, rfl, ?_⟩⟩
  obtain ⟨hans, hut⟩ := answeredChanging_run (r := .adopt p) tag hready hattached rfl nofun
    (adoptTaken_of_orphaned n (s := s.taking n) h hb) ((unchanged_setPost _ p _).and_then (unchanged_notify _ _ _ _ _ _))
    (by decide) (by decide) rfl
  exact ⟨hans, hut .posts (by decide),
    noticeSent_notify (u := (s.taking n).setPost p _) (taking_recipients s n) rfl (hut .queues (by decide))⟩

/-! ### TAKEOVER (R130, R131, R112) -/

section
variable {s : State} {p : PostNo} {r : Post} {n : Port}

theorem takeoverTaken_of_vacant (h : s.posts[p] = none) : takeoverTaken n p s = (s, .done .nopost []) := by
  simp only [takeoverTaken, h]

theorem takeoverTaken_of_orphaned {q : Port} (h : s.posts[p] = some r) (hb : r.binding = .orphaned q) :
    takeoverTaken n p s = (s, .done .badstate []) := by
  simp only [takeoverTaken, h, hb]

theorem takeoverTaken_of_own (h : s.posts[p] = some r) (hb : r.binding = .bound n) :
    takeoverTaken n p s = (s, .done .badstate []) := by
  simp only [takeoverTaken, h, hb, if_true]

theorem takeoverTaken_of_other {q : Port} (h : s.posts[p] = some r) (hb : r.binding = .bound q) (hq : q ≠ n) :
    takeoverTaken n p s = (s.takeOver n p r q, .done .ok ([portByte q] ++ be16 r.generation)) := by
  simp only [takeoverTaken, h, hb, if_neg hq]
  rfl

end

theorem Condition.demoted_eq (c : Condition) : c.demoted = if c = .fresh then .stale else c := by
  cases c <;> rfl

/-- The slots after the publication in flight has been overtaken, by port. -/
theorem getElem_overtakeSlots (i : Option InFlight) (c : OvertakeCause) (slots : Vector (Option Publication) 4)
    (m : Port) :
    (overtakeSlots i c slots)[m] =
      if i.map InFlight.port = some m then slots[m].map (Publication.overtakenBy c) else slots[m] := by
  cases i with
  | none => rfl
  | some i =>
    show (put slots i.port _)[m] = _
    simp only [Option.map_some, Option.some_inj]
    by_cases hm : i.port = m
    · subst hm
      rw [getElem_put_self, if_pos rfl]
    · rw [getElem_put_of_ne _ _ (Ne.symm hm), if_neg hm]

theorem resolicit_queues (s : State) {n : Port} (ha : s.attached n = true) (p : PostNo) (k : Half) (m : Port) :
    (s.resolicit n p k).queues[m] =
      if m = n then
        (match s.requests.pendingOn p with
          | [] => s.queues[m]
          | e :: es => s.queues[m].arrive (.solicit p k e.ticket (es.length + 1)))
      else s.queues[m] := by
  unfold State.resolicit
  cases s.requests.pendingOn p with
  | nil => simp only [ite_self]
  | cons e es =>
    rw [State.notifyPort_queues, getElem_deliver]
    by_cases hm : m = n
    · subst hm
      simp only [ha, decide_true, Bool.and_self, if_true]
      rfl
    · simp only [hm, decide_false, Bool.false_and, Bool.false_eq_true, if_false]

theorem purgeSolicit_queues (s : State) (q : Port) (p : PostNo) (m : Port) :
    (s.purgeSolicit q p).queues[m] =
      if m = q then { s.queues[m] with entries := s.queues[m].entries.filter fun e => !e.isSolicitOf p }
      else s.queues[m] := by
  show (put s.queues q _)[m] = _
  by_cases hm : m = q
  · subst hm
    rw [getElem_put_self, if_pos rfl]
    rfl
  · rw [getElem_put_of_ne _ _ hm, if_neg hm]

/-- The queues after a TAKEOVER: ADOPTED first, then the purge at the displaced producer, then the new SOLICIT. -/
theorem takeOver_queues {s : State} {n q : Port} (ha : s.attached n = true) (hq : q ≠ n) (p : PostNo) (r : Post)
    (m : Port) :
    (s.takeOver n p r q).queues[m] =
      (let told := if s.recipients r.key .lifecycle (some n) (some q) m then
          s.queues[m].arrive (.adopted p r.key n .takeover) else s.queues[m]
       if m = q then { told with entries := told.entries.filter fun e => !e.isSolicitOf p }
       else if m = n then
        (match s.requests.pending.filter (fun e => decide (e.post = p)) with
          | [] => told
          | e :: es => told.arrive (.solicit p r.key e.ticket (es.length + 1)))
       else told) := by
  unfold State.takeOver
  set u := (((s.setPost p (some (r.takenOver n))).overtakeInFlight r.inFlight .takeover).notify
    (.adopted p r.key n .takeover) r.key .lifecycle (some n) (some q)).purgeSolicit q p with hu
  rw [resolicit_queues u (show u.attached n = true from ha), show u.requests = s.requests from rfl, hu]
  simp only [purgeSolicit_queues, State.notify_queues, getElem_deliver]
  have hrec : (((s.setPost p (some (r.takenOver n))).overtakeInFlight r.inFlight .takeover).recipients) =
      s.recipients := recipients_congr rfl rfl
  rw [hrec]
  by_cases hm : m = n
  · subst hm
    simp only [if_neg (Ne.symm hq), if_true]
    rfl
  · simp only [if_neg hm]
    rfl

theorem unchanged_takeOver (s : State) (n : Port) (p : PostNo) (r : Post) (q : Port) :
    Unchanged s (s.takeOver n p r q) [.posts, .slots, .queues] := by
  have hsolicit : ∀ u : State, Unchanged u (u.resolicit n p r.key) [.queues] := fun u => by
    unfold State.resolicit
    split
    · exact Unchanged.refl u _
    · exact unchanged_setQueues u _
  exact unchanged_mono (((((unchanged_setPost s p _).and_then (unchanged_setSlots _ _)).and_then
    (unchanged_notify _ _ _ _ _ _)).and_then (unchanged_setQueues _ _)).and_then (hsolicit _)) (by decide)

theorem takeOver_linesLawful (s : State) (n : Port) (p : PostNo) (r : Post) (q : Port) :
    (s.takeOver n p r q).LinesLawful := by
  unfold State.takeOver State.resolicit
  split <;> rfl

/-- Settles O33: the branches of TAKEOVER, whose effect is `State.takeOver`. -/
theorem takeoverRebindsPost : Obligations.TakeoverRebindsPost := by
  intro s n tag p hready hattached hrole
  have refused := fun st (h : takeoverTaken n p (s.taking n) = (s.taking n, .done st [])) =>
    answeredOnly_run (r := .takeover p) tag hready hattached rfl (fun _ => hrole) h
  refine ⟨fun h => ⟨_, rfl, refused _ (takeoverTaken_of_vacant h)⟩, fun r h hb => ⟨_, rfl, refused .badstate ?_⟩,
    fun r q h hb hq => ⟨_, rfl, ?_⟩⟩
  · rcases hb with hb | ⟨q, hb⟩
    · exact takeoverTaken_of_own h hb
    · exact takeoverTaken_of_orphaned h hb
  · obtain ⟨hans, hut⟩ := answeredChanging_run (r := .takeover p) tag hready hattached rfl (fun _ => hrole)
      (takeoverTaken_of_other (s := s.taking n) h hb hq) (unchanged_takeOver _ n p r q) (by decide) (by decide)
      (takeOver_linesLawful ..)
    refine ⟨hans, (hut .posts (by decide)).trans ?_, fun m => ?_, fun m => ?_⟩
    · rw [State.takeOver_posts, taking_posts, Post.takenOver, Condition.demoted_eq]
    · have hslots : (s.arriveRequest n .takeover tag [postByte p]).slots = _ := hut .slots (by decide)
      rw [hslots, State.takeOver_slots, getElem_overtakeSlots, taking_slots]
      rfl
    · have hqueues : (s.arriveRequest n .takeover tag [postByte p]).queues = _ := hut .queues (by decide)
      have htold := takeOver_queues ((congrFun (taking_attached s n) n).trans hattached) hq p r m
      rw [taking_recipients] at htold
      rw [hqueues, htold]
      rfl

/-! ### WITHDRAW and REVOKE (R15, R16, R133) -/

section
variable {s : State} {p : PostNo} {r : Post} {n : Port}

theorem withdrawTaken_of_vacant (h : s.posts[p] = none) : withdrawTaken n p s = (s, .done .nopost []) := by
  simp only [withdrawTaken, h]

theorem withdrawTaken_of_own (h : s.posts[p] = some r) (hb : r.binding = .bound n) :
    withdrawTaken n p s = (s.vacate p r .producer n, .done .ok []) := by
  simp only [withdrawTaken, h, Post.boundTo, hb, decide_true, if_true]

theorem withdrawTaken_of_other (h : s.posts[p] = some r) (hb : r.binding ≠ .bound n) :
    withdrawTaken n p s = (s, .done .notproducer []) := by
  simp only [withdrawTaken, h, Post.boundTo, decide_eq_false hb, Bool.false_eq_true, if_false]

theorem revokeTaken_of_vacant (h : s.posts[p] = none) : revokeTaken n p s = (s, .done .nopost []) := by
  simp only [revokeTaken, h]

theorem revokeTaken_of_occupied (h : s.posts[p] = some r) :
    revokeTaken n p s = (s.vacate p r .supervisor n, .done .ok (be16 r.key ++ be16 r.generation)) := by
  simp only [revokeTaken, h]

end

theorem unchanged_completeAsks (s : State) (sel : PendingAsk → Bool) (o : AskOutcome) :
    Unchanged s (s.completeAsks sel o) [.requests, .queues] :=
  (unchanged_setRequests s _).and_then (unchanged_setQueues _ _)

theorem unchanged_vacate (s : State) (p : PostNo) (r : Post) (b : VacateBy) (n : Port) :
    Unchanged s (s.vacate p r b n) [.posts, .slots, .pool, .queues, .requests] :=
  unchanged_mono ((((((unchanged_setPost s p none).and_then (unchanged_setPool _ _)).and_then
    (unchanged_setSlots _ _)).and_then (unchanged_setQueues _ _)).and_then (unchanged_completeAsks _ _ _)).and_then
      (unchanged_notify _ _ _ _ _ _)) (by decide)

/-- A request that vacates a post, seen from the state before the lease report. -/
theorem vacated_run {s : State} {n : Port} {req : Request} (tag : Byte) {p : PostNo} {r : Post} {b : VacateBy}
    {res : List Byte} (hready : s.Ready n) (hattached : s.attached n = true) (hl : req.legal = true)
    (hr : req.needsSupervisor = true → s.sessions[n].role = .supervisor)
    (h : runRequest n req (s.taking n) = ((s.taking n).vacate p r b n, .done .ok res)) :
    AnsweredChanging s (s.arriveRequest n req.command tag req.args) n tag req.command .ok res
        [.posts, .slots, .pool, .queues, .requests] ∧
      Vacated s (s.arriveRequest n req.command tag req.args) p r b n := by
  obtain ⟨hans, hut⟩ := answeredChanging_run tag hready hattached hl hr h (unchanged_vacate _ p r b n) (by decide)
    (by decide) rfl
  exact ⟨hans, vacated_congr (vacate_vacated (s.taking n) p r b n) rfl rfl rfl rfl rfl (taking_recipients s n).symm
    (taking_attached s n).symm (hut .posts (by decide)) (hut .pool (by decide)) (hut .slots (by decide))
    (hut .queues (by decide)) (hut .requests (by decide))⟩

/-- Settles O34: both commands are the vacate event, once their checks have passed. -/
theorem revokeAndWithdrawVacate : Obligations.RevokeAndWithdrawVacate := by
  intro s n tag p hready hattached
  have withdrawn := fun st (h : withdrawTaken n p (s.taking n) = (s.taking n, .done st [])) =>
    answeredOnly_run (r := .withdraw p) tag hready hattached rfl nofun h
  refine ⟨fun h => ⟨_, rfl, withdrawn _ (withdrawTaken_of_vacant h)⟩,
    fun r h hb => ⟨_, rfl, withdrawn _ (withdrawTaken_of_other h hb)⟩,
    fun r h hb => ⟨_, rfl, vacated_run (req := .withdraw p) tag hready hattached rfl nofun
      (withdrawTaken_of_own (s := s.taking n) h hb)⟩,
    fun hrole h => ⟨_, rfl, answeredOnly_run (r := .revoke p) tag hready hattached rfl (fun _ => hrole)
      (revokeTaken_of_vacant (s := s.taking n) h)⟩,
    fun hrole r h => ⟨_, rfl, vacated_run (req := .revoke p) tag hready hattached rfl (fun _ => hrole)
      (revokeTaken_of_occupied (s := s.taking n) h)⟩⟩

/-! ### DECLARE (R12, R13) -/

section
variable {s : State} (n : Port) {sel : Selector} {key : Half} (capacity : Nat) (period : Half) (mode : AnswerMode)

theorem declareTaken_of_known {q : PostNo} (h : findKey s.posts key = some q) :
    declareTaken n sel key capacity period mode s = (s, .done .keyinuse [postByte q]) := by
  simp only [declareTaken, h]

theorem declareTaken_of_error {e : Status} (h : findKey s.posts key = none)
    (hc : declareChoice s.posts sel = .error e) :
    declareTaken n sel key capacity period mode s = (s, .done e []) := by
  simp only [declareTaken, h, hc]

theorem declareTaken_of_ok {p : PostNo} (h : findKey s.posts key = none) (hc : declareChoice s.posts sel = .ok p) :
    declareTaken n sel key capacity period mode s =
      ((s.setPost p (some (declaredPost n key capacity period mode))).notify (.appeared p key n) key .lifecycle
          (some n) none,
        .done .ok [postByte p]) := by
  simp only [declareTaken, h, hc]

end

theorem declareChoice_vacant {posts : Vector (Option Post) 64} {sel : Selector} {p : PostNo} (hp : posts[p] = none)
    (hsel : sel = .post p ∨ sel = .any ∧ ∀ q : PostNo, q < p → posts[q] ≠ none) :
    declareChoice posts sel = .ok p := by
  rcases hsel with rfl | ⟨rfl, hlow⟩
  · simp only [declareChoice, hp, Option.isNone_none, if_true]
  · have hfirst : lowestVacant posts = some p :=
      find_first (by rw [hp]; rfl) fun q hq => by rw [← Bool.not_eq_true, Option.isNone_iff_eq_none]; exact hlow q hq
    simp only [declareChoice, hfirst]

theorem declareChoice_occupied {posts : Vector (Option Post) 64} {p : PostNo} (hp : posts[p] ≠ none) :
    declareChoice posts (.post p) = .error .badstate :=
  if_neg fun h => hp (Option.isNone_iff_eq_none.1 h)

theorem declareChoice_full {posts : Vector (Option Post) 64} (h : ∀ p : PostNo, posts[p] ≠ none) :
    declareChoice posts .any = .error .nopostfree := by
  have hnone : lowestVacant posts = none :=
    find_none_of fun p _ => by rw [← Bool.not_eq_true, Option.isNone_iff_eq_none]; exact h p
  simp only [declareChoice, hnone]

/-- Settles O35: the lookup of the key comes first, then the choice of the post. -/
theorem declareOccupiesOrIsRefused : Obligations.DeclareOccupiesOrIsRefused := by
  refine ⟨fun s n tag sel key capacity period mode p hready hattached hl hkey hvacant hsel => ⟨_, rfl, ?_⟩,
    fun s n tag sel key capacity period mode hready hattached hl => ?_⟩
  · obtain ⟨hans, hut⟩ := answeredChanging_run (r := .declare sel key capacity period mode) tag hready hattached hl nofun
      (declareTaken_of_ok (s := s.taking n) n capacity period mode (findKey_none hkey)
        (declareChoice_vacant hvacant hsel))
      ((unchanged_setPost _ p _).and_then (unchanged_notify _ _ _ _ _ _)) (by decide) (by decide) rfl
    exact ⟨hans, hut .posts (by decide),
      noticeSent_notify (u := (s.taking n).setPost p _) (taking_recipients s n) rfl (hut .queues (by decide))⟩
  · have refused := fun st res
        (h : declareTaken n sel key capacity period mode (s.taking n) = (s.taking n, .done st res)) =>
      answeredOnly_run (r := .declare sel key capacity period mode) tag hready hattached hl nofun h
    refine ⟨fun q r hdistinct hq hr => ⟨_, rfl, refused _ _ (declareTaken_of_known n _ _ _ ?_)⟩,
      fun hkey p hsel hp => ⟨_, rfl, refused _ _ (declareTaken_of_error n _ _ _ (findKey_none hkey) ?_)⟩,
      fun hkey hsel hfull => ⟨_, rfl, refused _ _ (declareTaken_of_error n _ _ _ (findKey_none hkey) ?_)⟩⟩
    · exact findKey_some hdistinct hq hr
    · rw [hsel]
      exact declareChoice_occupied hp
    · rw [hsel]
      exact declareChoice_full hfull

/-! ### The freshness expiry (R11) -/

/-- Settles O37: the expiry at its time is one change of the record and one notice. -/
theorem freshnessExpiryMakesStale : Obligations.FreshnessExpiryMakesStale := by
  intro s p r e hr hd hnow
  refine ⟨_, rfl, ?_⟩
  rw [expireFreshness_eq hr hd, if_pos ((reached_iff e s.now).2 hnow.symm)]
  have hsent := noticeSent_notify (s := s) (u := s.setPost p (some { r with condition := .stale, deadline := none }))
    (x := .stale p r.key) (k := r.key) (flag := .lifecycle) (acting := none) (fixed := r.binding.boundPort)
    (recipients_congr rfl rfl) rfl rfl
  refine ⟨rfl, ?_, rfl, (unchanged_setPost s p _).and_then (unchanged_notify _ _ _ _ _ _)⟩
  cases hb : r.binding <;> rw [hb] at hsent <;> exact hsent

end Sys2Proof.Machine
end

section
/-!
DESCRIBE (R18, R19, R164): the record as it stands, byte by byte.
-/
namespace Sys2Proof.Machine
open Sys2Proof

/-- The 29 bytes of an occupied post's record. -/
theorem describePost_length (s : State) (p : PostNo) (r : Post) : (s.describePost p r).length = 29 := by
  unfold State.describePost
  cases r.current <;> cases r.deadline <;> rfl

/-- The record in the order of R164. -/
theorem describePost_eq (s : State) (p : PostNo) (r : Post) :
    s.describePost p r =
      [postByte p, 0x01#8] ++ be16 r.key ++
        [(match r.binding with | .bound m => portByte m | .orphaned m => 0x80#8 + portByte m),
          (match r.condition with | .empty => 0x00#8 | .fresh => 0x01#8 | .stale => 0x02#8 | .damaged => 0x03#8),
          (match r.cause with | none => 0x00#8 | some .check => 0x01#8 | some .lapse => 0x02#8)] ++
        be16 r.generation ++
        [(match r.current with | some c => byteOf c.frame.val | none => 0xFF#8),
          (match r.current with | some c => byteOf c.length | none => 0x00#8), byteOf r.capacity] ++
        be32 (match r.current with | some c => c.stamp | none => 0#32) ++
        be32 (match r.current with | some c => s.now - c.stamp | none => 0#32) ++ be16 r.period ++
        [(match r.mode with | .auto => 0x00#8 | .forward => 0x01#8)] ++
        be32 (match r.deadline with | some e => (if e = s.now then 1#32 else e - s.now) | none => 0#32) ++
        [(match r.inFlight with | some i => portByte i.port | none => 0xFF#8),
          byteOf (s.requests.pending.countP fun e => decide (e.post = p))] := by
  have hasks : (s.requests.pendingOn p).length = s.requests.pending.countP fun e => decide (e.post = p) :=
    List.countP_eq_length_filter.symm
  obtain ⟨key, binding, condition, cause, generation, current, capacity, period, deadline, mode, inFlight⟩ := r
  simp only [State.describePost, hasks]
  rcases cause with _ | _ | _ <;> cases current <;> cases deadline <;> rfl

theorem describeBytes_of_occupied {s : State} {p : PostNo} {r : Post} (h : s.posts[p] = some r) :
    s.describeBytes p = s.describePost p r := by
  simp only [State.describeBytes, h]

theorem describeBytes_of_vacant {s : State} {p : PostNo} (h : s.posts[p] = none) :
    s.describeBytes p = describeVacant p := by
  simp only [State.describeBytes, h]

theorem describeTaken_of_key {s : State} {k : Half} {p : PostNo} (h : findKey s.posts k = some p) :
    describeTaken (.key k) s = (s, .done .ok (s.describeBytes p)) := by
  simp only [describeTaken, h]

theorem describeTaken_of_unknown {s : State} {k : Half} (h : findKey s.posts k = none) :
    describeTaken (.key k) s = (s, .done .nopost []) := by
  simp only [describeTaken, h]

/-- Settles O36: DESCRIBE reads the record of the post that its argument names. -/
theorem describeReportsPost : Obligations.DescribeReportsPost := by
  intro s n tag p key hready hattached left record
  have hrecord : ∀ r : Post, (s.taking n).describePost p r = record r := describePost_eq (s.taking n) p
  have answered := fun (name : PostName) (hl : (Request.describe name).legal = true) st res
      (h : describeTaken name (s.taking n) = (s.taking n, .done st res)) =>
    answeredOnly_run (r := .describe name) tag hready hattached hl nofun h
  refine ⟨fun r hr => ⟨_, rfl, answered (.number p) rfl _ _ ?_, ?_⟩, fun r e hahead hr hd => ?_,
    fun hr => ⟨_, rfl, answered (.number p) rfl _ _ ?_⟩,
    fun hkey r hdistinct hr hrk => ⟨_, rfl, answered (.key key) hkey _ _ ?_⟩,
    fun hkey hno => ⟨_, rfl, answered (.key key) hkey _ _ (describeTaken_of_unknown (findKey_none hno))⟩⟩
  · rw [← hrecord r, ← describeBytes_of_occupied (s := s.taking n) hr]
    rfl
  · rw [← hrecord r, describePost_length]
  · exact remaining_bounds (hahead.1 p r e hr hd)
  · show (s.taking n, Reply.done .ok ((s.taking n).describeBytes p)) = _
    rw [describeBytes_of_vacant (s := s.taking n) hr]
    rfl
  · rw [← hrecord r, ← describeBytes_of_occupied (s := s.taking n) hr]
    exact describeTaken_of_key (findKey_some (s := s.taking n) hdistinct hr hrk)

end Sys2Proof.Machine
end

section
/-!
PUBLISH, READ, READ HELD (R28, R29, R63, R64, R73), SNAPSHOT and RELEASE (R70, R71, R75): what is taken, and the
refusals in their order.
-/
namespace Sys2Proof.Machine
open Sys2Proof

/-! ### PUBLISH -/

section
variable {s : State} {p : PostNo} {r : Post} {n : Port} {payload : List Byte}

theorem publishTaken_of_vacant (h : s.posts[p] = none) : publishTaken n p payload s = (s, .done .nopost []) := by
  simp only [publishTaken, h]

theorem publishTaken_of_other (h : s.posts[p] = some r) (hb : r.binding ≠ .bound n) :
    publishTaken n p payload s = (s, .done .notproducer []) := by
  simp only [publishTaken, h, Post.boundTo, decide_eq_false hb, Bool.not_false, if_true]

theorem publishTaken_of_long (h : s.posts[p] = some r) (hb : r.binding = .bound n)
    (hl : r.capacity < payload.length) : publishTaken n p payload s = (s, .done .toolong []) := by
  simp only [publishTaken, h, Post.boundTo, hb, decide_true, Bool.not_true, Bool.false_eq_true, if_false, if_pos hl]

theorem publishTaken_of_no_frame (h : s.posts[p] = some r) (hb : r.binding = .bound n)
    (hl : payload.length ≤ r.capacity) (ha : s.pool.allocate = none) :
    publishTaken n p payload s = (s, .done .noframe []) := by
  simp only [publishTaken, h, Post.boundTo, hb, decide_true, Bool.not_true, Bool.false_eq_true, if_false,
    if_neg (Nat.not_lt.2 hl), ha]

theorem publishTaken_of_frame {f : FrameNo} {x : Pool} {low : Option Nat} (h : s.posts[p] = some r)
    (hb : r.binding = .bound n) (hl : payload.length ≤ r.capacity) (ha : s.pool.allocate = some (f, x, low)) :
    publishTaken n p payload s = (s.takePublish n p r payload f x low, .executing) := by
  simp only [publishTaken, h, Post.boundTo, hb, decide_true, Bool.not_true, Bool.false_eq_true, if_false,
    if_neg (Nat.not_lt.2 hl), ha]

end

/-- The low-water test of R54: the free count that a POOL_LOW notice carries after an allocation that leaves `rest`. -/
def Pool.lowCount (x : Pool) (rest : List FrameNo) : Option Nat :=
  if x.armed = true ∧ x.mark ≠ 0 ∧ rest.length ≤ x.mark then some rest.length else none

/-- The pool after the allocation of frame `f`, which headed the free list (R48, R54). -/
def Pool.allocated (x : Pool) (f : FrameNo) (rest : List FrameNo) : Pool :=
  { frames := put x.frames f { refs := 1, suspect := x.frames[f].suspect }, free := rest, mark := x.mark,
    armed := x.armed && (x.lowCount rest).isNone }

theorem Pool.allocate_of_nil {x : Pool} (h : x.free = []) : x.allocate = none := by
  simp only [Pool.allocate, h]

theorem Pool.allocate_of_cons {x : Pool} {f : FrameNo} {rest : List FrameNo} (h : x.free = f :: rest) :
    x.allocate = some (f, x.allocated f rest, x.lowCount rest) := by
  have hlow : (x.armed && decide (x.mark ≠ 0) && decide (rest.length ≤ x.mark)) =
      decide (x.armed = true ∧ x.mark ≠ 0 ∧ rest.length ≤ x.mark) := by
    rw [Bool.and_assoc, ← Bool.decide_and, ← Bool.decide_coe x.armed, ← Bool.decide_and, Bool.decide_coe]
  simp only [Pool.allocate, h, hlow, Pool.allocated, Pool.lowCount]
  by_cases hc : x.armed = true ∧ x.mark ≠ 0 ∧ rest.length ≤ x.mark
  · rw [decide_eq_true hc, if_pos hc]
    rfl
  · rw [decide_eq_false hc, if_neg hc]
    rfl

theorem takePublish_queues (s : State) (n : Port) (p : PostNo) (r : Post) (payload : List Byte) (f : FrameNo) (x : Pool)
    (low : Option Nat) (m : Port) :
    (s.takePublish n p r payload f x low).queues[m] =
      match low with
      | some k => if s.attached m then s.queues[m].arrive (.poolLow k) else s.queues[m]
      | none => s.queues[m] := by
  cases low with
  | none => rfl
  | some k =>
    show (State.notifyAttached _ _).queues[m] = _
    rw [State.notifyAttached_queues, getElem_deliver]
    rfl

theorem unchanged_takePublish (s : State) (n : Port) (p : PostNo) (r : Post) (payload : List Byte) (f : FrameNo)
    (x : Pool) (low : Option Nat) :
    Unchanged s (s.takePublish n p r payload f x low) [.posts, .slots, .pool, .arbiter, .queues] := by
  have hstaged := (((unchanged_setPool s x).and_then (unchanged_setPost _ p
    (some { r with inFlight := some { frame := f, port := n } }))).and_then (unchanged_setSlot _ n
      (some { post := p, frame := f, payload := payload, phase := .waiting, overtaken := none }))).and_then
        (unchanged_setArbiter _ { s.arbiter with places := put s.arbiter.places n (some .write) })
  cases low with
  | none => exact unchanged_mono hstaged (by decide)
  | some k => exact unchanged_mono (hstaged.and_then (unchanged_setQueues _ _)) (by decide)

theorem takePublish_linesLawful {s : State} (hs : s.LinesLawful) (n : Port) (p : PostNo) (r : Post) (payload : List Byte)
    (f : FrameNo) (x : Pool) (low : Option Nat) : (s.takePublish n p r payload f x low).LinesLawful := by
  cases low with
  | none => exact hs
  | some k => rfl

/-- Settles O38: the checks in their order, and the allocation as `Pool.allocated` and `Pool.lowCount` say it. -/
theorem publishStagesFrameOrIsRefused : Obligations.PublishStagesFrameOrIsRefused := by
  refine ⟨fun s n tag p r payload f rest hready hattached hr hb hmax hcap hfree => ⟨_, rfl, ?_⟩,
    fun s n tag p payload hready hattached hmax => ?_⟩
  · have hlegal : (Request.publish p payload).legal = true := decide_eq_true hmax
    have hrun : runRequest n (.publish p payload) (s.taking n) =
        ((s.taking n).takePublish n p r payload f (s.pool.allocated f rest) (s.pool.lowCount rest), .executing) :=
      publishTaken_of_frame (s := s.taking n) hr hb hcap (Pool.allocate_of_cons hfree)
    obtain ⟨hans, hut⟩ := executingChanging_run (r := .publish p payload) tag hready hattached hlegal nofun hrun
      (unchanged_takePublish _ n p r payload f _ _) (by decide) (by decide)
      (takePublish_linesLawful (taking_lines s n) n p r payload f _ _)
    have hpool : (s.arriveRequest n .publish tag (postByte p :: payload)).pool = s.pool.allocated f rest :=
      (hut .pool (by decide)).trans (State.takePublish_pool ..)
    have hqueues : (s.arriveRequest n .publish tag (postByte p :: payload)).queues = _ := hut .queues (by decide)
    refine ⟨hans, (hut .posts (by decide)).trans (State.takePublish_posts ..),
      (hut .slots (by decide)).trans (State.takePublish_slots ..),
      (hut .arbiter (by decide)).trans (State.takePublish_arbiter ..), ?_⟩
    rw [hpool]
    refine ⟨rfl, rfl, rfl, fun hlow => ⟨?_, fun m => ?_⟩, fun hlow => ⟨?_, ?_⟩⟩
    · simp only [Pool.allocated, Pool.lowCount, if_pos hlow, Option.isNone_some, Bool.and_false]
    · rw [hqueues, takePublish_queues, taking_attached, taking_queues]
      simp only [Pool.lowCount, if_pos hlow]
    · simp only [Pool.allocated, Pool.lowCount, if_neg hlow, Option.isNone_none, Bool.and_true]
    · rw [hqueues]
      simp only [Pool.lowCount, if_neg hlow]
      rfl
  · have refused := fun st (h : publishTaken n p payload (s.taking n) = (s.taking n, .done st [])) =>
      answeredOnly_run (r := .publish p payload) tag hready hattached (decide_eq_true hmax) nofun h
    refine ⟨fun h => ⟨_, rfl, refused _ (publishTaken_of_vacant h)⟩, fun r hr =>
      ⟨fun hb => ⟨_, rfl, refused _ (publishTaken_of_other hr hb)⟩,
        fun hb hlong => ⟨_, rfl, refused _ (publishTaken_of_long hr hb hlong)⟩,
        fun hb hcap hfree => ⟨_, rfl, refused _ (publishTaken_of_no_frame (s := s.taking n) hr hb hcap
          (Pool.allocate_of_nil hfree))⟩⟩⟩

/-! ### READ and READ HELD -/

section
variable {s : State} {p : PostNo} {r : Post} (n : Port)

theorem readTaken_of_vacant (h : s.posts[p] = none) : readTaken n p s = (s, .done .nopost []) := by
  simp only [readTaken, h]

theorem readTaken_of_empty (h : s.posts[p] = some r) (hc : r.current = none) :
    readTaken n p s = (s, .done .nodata []) := by
  simp only [readTaken, h, hc]

theorem readTaken_of_current {c : Current} (h : s.posts[p] = some r) (hc : r.current = some c) :
    readTaken n p s =
      (s.takeRead n
        { kind := .post r.binding r.condition, post := p, key := r.key, frame := c.frame, generation := r.generation,
          length := c.length, phase := .waiting, pin := true, cutOff := false },
        .executing) := by
  simp only [readTaken, h, hc]

theorem readHeldTaken_of_unused {h : HoldNo} (hh : s.holds[n][h] = none) :
    readHeldTaken n h s = (s, .done .nohold []) := by
  simp only [readHeldTaken, hh]

theorem readHeldTaken_of_used {h : HoldNo} {x : Hold} (hh : s.holds[n][h] = some x) :
    readHeldTaken n h s =
      (s.takeRead n
        { kind := .held h, post := x.post, key := x.key, frame := x.frame, generation := x.generation,
          length := x.length, phase := .waiting, pin := true, cutOff := false },
        .executing) := by
  simp only [readHeldTaken, hh]

end

theorem unchanged_takeRead (s : State) (n : Port) (x : ReadRecord) :
    Unchanged s (s.takeRead n x) [.pool, .reads, .arbiter] :=
  ((unchanged_setPool s _).and_then (unchanged_setRead _ n _)).and_then (unchanged_setArbiter _ _)

/-- A request that is run as the taking of a read, seen from the state before the lease report. -/
theorem takeRead_run {s : State} {n : Port} {req : Request} (tag : Byte) {x : ReadRecord} (hready : s.Ready n)
    (hattached : s.attached n = true) (hl : req.legal = true)
    (hr : req.needsSupervisor = true → s.sessions[n].role = .supervisor)
    (h : runRequest n req (s.taking n) = ((s.taking n).takeRead n x, .executing)) :
    ExecutingChanging s (s.arriveRequest n req.command tag req.args) n tag req.command [.pool, .reads, .arbiter] ∧
      (s.arriveRequest n req.command tag req.args).pool = s.pool.addRef x.frame ∧
      (s.arriveRequest n req.command tag req.args).reads = put s.reads n (some x) ∧
      (s.arriveRequest n req.command tag req.args).arbiter =
        { s.arbiter with places := put s.arbiter.places n (some .read) } := by
  obtain ⟨hans, hut⟩ := executingChanging_run tag hready hattached hl hr h (unchanged_takeRead _ n x) (by decide)
    (by decide) (taking_lines s n)
  exact ⟨hans, hut .pool (by decide), hut .reads (by decide), hut .arbiter (by decide)⟩

/-- Settles O41: both commands end in `State.takeRead`, with the record filled from the post or from the hold. -/
theorem readAndReadHeldPinFrame : Obligations.ReadAndReadHeldPinFrame := by
  refine ⟨fun s n tag p hready hattached => ?_, fun s n tag h hready hattached => ?_⟩
  · have refused := fun st (h : readTaken n p (s.taking n) = (s.taking n, .done st [])) =>
      answeredOnly_run (r := .read p) tag hready hattached rfl nofun h
    exact ⟨fun h => ⟨_, rfl, refused _ (readTaken_of_vacant n h)⟩,
      fun r h hc => ⟨_, rfl, refused _ (readTaken_of_empty n h hc)⟩,
      fun r c h hc => ⟨_, rfl, takeRead_run (req := .read p) tag hready hattached rfl nofun
        (readTaken_of_current n (s := s.taking n) h hc)⟩⟩
  · exact ⟨fun hh => ⟨_, rfl, answeredOnly_run (r := .readHeld h) tag hready hattached rfl nofun
        (readHeldTaken_of_unused n (s := s.taking n) hh)⟩,
      fun x hh => ⟨_, rfl, takeRead_run (req := .readHeld h) tag hready hattached rfl nofun
        (readHeldTaken_of_used n (s := s.taking n) hh)⟩⟩

end Sys2Proof.Machine
end

section
/-!
SNAPSHOT and RELEASE (R70, R71, R75), from what the folds over the list of posts and over the hold numbers do.
-/
namespace Sys2Proof.Machine
open Sys2Proof

/-! ### SNAPSHOT -/

theorem snapshotTaken_of_full {s : State} {n : Port} {ps : List PostNo} (h : (unusedList s.holds[n]).length < ps.length) :
    snapshotTaken n ps s = (s, .done .holdsfull []) :=
  if_pos (by rwa [unusedHolds_eq])

theorem snapshotTaken_of_room {s : State} {n : Port} {ps : List PostNo} {d : SnapDesk}
    (h : ps.length ≤ (unusedList s.holds[n]).length)
    (hd : d = snapshotPosts s.posts ps { table := s.holds[n], pool := s.pool, out := [] }) :
    snapshotTaken n ps s = ((s.setPool d.pool).setHolds n d.table, .done .ok d.out) := by
  rw [hd]
  exact if_neg (by rw [unusedHolds_eq]; exact Nat.not_lt.2 h)

/-- The pool and one hold table have changed. -/
theorem unchanged_setPool_setHolds (s : State) (n : Port) (x : Pool) (t : Vector (Option Hold) 8) :
    Unchanged s ((s.setPool x).setHolds n t) [.pool, .holds] :=
  (unchanged_setPool s x).and_then (unchanged_setHolds _ n t)

/-- Settles O43: the answer and the holds are those of the fold over the listed posts. -/
theorem snapshotHoldsListedPosts : Obligations.SnapshotHoldsListedPosts := by
  intro s n tag ps hready hattached hlo hhi hnodup unused hasData held
  have hlegal : (Request.snapshot ps).legal = true := decide_eq_true ⟨hlo, hhi, hnodup⟩
  refine ⟨fun hfull => ⟨_, rfl, answeredOnly_run (r := .snapshot ps) tag hready hattached hlegal nofun
    (snapshotTaken_of_full (s := s.taking n) hfull)⟩, fun hroom => ⟨_, rfl, ?_⟩⟩
  generalize hd : snapshotPosts s.posts ps { table := s.holds[n], pool := s.pool, out := [] } = d
  have hheld : held.length ≤ (unusedList s.holds[n]).length := (List.length_filter_le _ _).trans hroom
  obtain ⟨hout, hnew, hold, hfree, hmark, harmed, hframes⟩ :=
    snap_spec s.posts ps hnodup { table := s.holds[n], pool := s.pool, out := [] } held rfl hheld d hd.symm
  obtain ⟨hans, hut⟩ := answeredChanging_run (r := .snapshot ps) tag hready hattached hlegal nofun
    (snapshotTaken_of_room (s := s.taking n) hroom hd.symm) (unchanged_setPool_setHolds _ n d.pool d.table) (by decide)
    (by decide) (taking_lines s n)
  have hholds : (s.arriveRequest n .snapshot tag (ps.map postByte)).holds = put s.holds n d.table :=
    hut .holds (by decide)
  have hpool : (s.arriveRequest n .snapshot tag (ps.map postByte)).pool = d.pool := hut .pool (by decide)
  rw [hholds, hpool, getElem_put_self]
  refine ⟨?_, hnew, hold, fun m hm => getElem_put_of_ne _ _ hm, hfree, hmark, harmed, hframes⟩
  rw [List.nil_append] at hout
  rw [hout] at hans
  exact hans

/-! ### RELEASE -/

/-- Settles O44: the fold over the hold numbers, for the mask of the command. -/
theorem releaseFreesFlaggedHolds : Obligations.ReleaseFreesFlaggedHolds := by
  intro s n tag mask hready hattached
  generalize hd : releaseHolds mask { table := s.holds[n], pool := s.pool, mask := 0#8 } = d
  have hfold : d = (List.finRange 8).foldl (releaseHold mask) { table := s.holds[n], pool := s.pool, mask := 0#8 } := by
    rw [← hd, releaseHolds, allHolds_eq]
  obtain ⟨htable, hpool, hmask⟩ := releaseFold_spec mask (List.finRange 8) (List.nodup_finRange 8) _ d hfold
  have hrun : releaseTaken n mask (s.taking n) =
      (((s.taking n).setPool d.pool).setHolds n d.table, .done .ok [d.mask]) := by
    rw [← hd]
    rfl
  obtain ⟨hans, hut⟩ := answeredChanging_run (r := .release mask) tag hready hattached rfl nofun hrun
    (unchanged_setPool_setHolds _ n d.pool d.table) (by decide) (by decide) (taking_lines s n)
  have hholds : (s.arriveRequest n .release tag [mask]).holds = put s.holds n d.table := hut .holds (by decide)
  refine ⟨_, d.mask, rfl, fun k hk => ?_, hans, fun h => ?_, fun m hm => ?_, (hut .pool (by decide)).trans hpool⟩
  · rw [hmask k hk]
    simp only [BitVec.getLsbD_zero, Bool.false_eq_true, false_or, List.mem_finRange, true_and]
  · rw [hholds, getElem_put_self, htable h]
    simp only [List.mem_finRange, true_and]
  · rw [hholds, getElem_put_of_ne _ _ hm]

end Sys2Proof.Machine
end

section
/-!
Filters and notice queues (chapter 5): matching, FILTER SET and FILTER CLEAR, the arrival of a notice, and TAKE.
-/
namespace Sys2Proof.Machine
open Sys2Proof

/-! ### Matching (R81, R84) -/

theorem matchesKey_iff (f : Filter) (k : Half) : f.matchesKey k = true ↔ k &&& f.mask = f.value &&& f.mask :=
  decide_eq_true_iff

/-- Agreement under the mask, bit by bit. -/
theorem and_eq_and_iff (k v mask : Half) :
    k &&& mask = v &&& mask ↔ ∀ i : Nat, i < 16 → mask.getLsbD i = true → k.getLsbD i = v.getLsbD i := by
  constructor
  · intro h i _ hm
    have hbit := congrArg (fun x => BitVec.getLsbD x i) h
    simpa only [BitVec.getLsbD_and, hm, Bool.and_true] using hbit
  · intro h
    refine BitVec.eq_of_getLsbD_eq fun i hi => ?_
    rw [BitVec.getLsbD_and, BitVec.getLsbD_and]
    cases hm : mask.getLsbD i with
    | false => rw [Bool.and_false, Bool.and_false]
    | true => rw [h i hi hm]

theorem selects_iff (f : Filter) (k : Half) (flag : FilterFlag) (own : Bool) :
    f.selects k flag own = true ↔
      k &&& f.mask = f.value &&& f.mask ∧ f.carries flag = true ∧ (own = true → f.echo = true) := by
  rw [Filter.selects, Bool.and_eq_true, Bool.and_eq_true, matchesKey_iff, and_assoc]
  cases own <;> simp

theorem anyFilterSelects_iff (fs : Vector (Option Filter) 8) (k : Half) (flag : FilterFlag) (own : Bool) :
    anyFilterSelects fs k flag own = true ↔ ∃ (i : FilterNo) (f : Filter), fs[i] = some f ∧ f.selects k flag own = true := by
  rw [anyFilterSelects, vec_toList, List.any_map, List.any_eq_true]
  constructor
  · rintro ⟨i, -, hi⟩
    simp only [Function.comp_apply] at hi
    cases hf : fs[i] with
    | none => simp only [hf, Bool.false_eq_true] at hi
    | some f =>
      simp only [hf] at hi
      exact ⟨i, f, hf, hi⟩
  · rintro ⟨i, f, hf, hs⟩
    refine ⟨i, List.mem_finRange i, ?_⟩
    simp only [Function.comp_apply, hf]
    exact hs

/-- Settles O45: matching bit by bit, and the choice of the recipients filter by filter. -/
theorem matchUnitChoosesRecipients : Obligations.MatchUnitChoosesRecipients := by
  refine ⟨fun f k => ⟨?_, fun hm => ?_, fun hm => ?_⟩, fun s k flag acting fixed n => ?_⟩
  · rw [matchesKey_iff, and_eq_and_iff]
  · rw [matchesKey_iff, hm, BitVec.and_zero, BitVec.and_zero]
  · rw [matchesKey_iff, hm, show (0xFFFF#16 : Half) = BitVec.allOnes 16 from rfl, BitVec.and_allOnes,
      BitVec.and_allOnes]
  · rw [State.recipients, Bool.and_eq_true, Bool.or_eq_true, decide_eq_true_eq, anyFilterSelects_iff]
    simp only [selects_iff, decide_eq_true_eq]
    cases flag <;> exact Iff.rfl

/-! ### FILTER SET and FILTER CLEAR (R82, R83) -/

theorem getElem_getElem_put {α : Type} {j k : Nat} (v : Vector (Vector α k) j) (n m : Fin j) (i : Fin k) (x : Vector α k) :
    (put v n x)[m][i] = if m = n then x[i] else v[m][i] := by
  by_cases hm : m = n
  · subst hm
    rw [getElem_put_self, if_pos rfl]
  · rw [getElem_put_of_ne _ _ hm, if_neg hm]

theorem getElem_put_put {α : Type} {j k : Nat} (v : Vector (Vector α k) j) (n m : Fin j) (i l : Fin k) (x : α) :
    (put v n (put v[n] i x))[m][l] = if m = n ∧ l = i then x else v[m][l] := by
  rw [getElem_getElem_put]
  by_cases hm : m = n
  · subst hm
    by_cases hl : l = i
    · subst hl
      rw [if_pos rfl, getElem_put_self, if_pos ⟨rfl, rfl⟩]
    · rw [if_pos rfl, getElem_put_of_ne _ _ hl, if_neg fun h => hl h.2]
  · rw [if_neg hm, if_neg fun h => hm h.1]

/-- A request that sets the filters of its port, seen from the state before the lease report. -/
theorem filters_run {s : State} {n : Port} {req : Request} (tag : Byte) {x : Vector (Option Filter) 8}
    (hready : s.Ready n) (hattached : s.attached n = true) (hl : req.legal = true)
    (hr : req.needsSupervisor = true → s.sessions[n].role = .supervisor)
    (h : runRequest n req (s.taking n) = ((s.taking n).setFilters n x, .done .ok [])) :
    AnsweredChanging s (s.arriveRequest n req.command tag req.args) n tag req.command .ok [] [.filters] ∧
      (s.arriveRequest n req.command tag req.args).filters = put s.filters n x := by
  obtain ⟨hans, hut⟩ := answeredChanging_run tag hready hattached hl hr h (unchanged_setFilters _ n x) (by decide)
    (by decide) (taking_lines s n)
  exact ⟨hans, hut .filters (by decide)⟩

/-- Settles O46: each of the commands writes the filters of its port. -/
theorem filterSetAndClearChangeFilters : Obligations.FilterSetAndClearChangeFilters := by
  refine ⟨fun s n tag i f hready hattached => ⟨_, rfl, ?_⟩, fun s n tag hready hattached =>
    ⟨fun i => ⟨_, rfl, ?_⟩, _, rfl, ?_⟩⟩
  · obtain ⟨hans, hfilters⟩ := filters_run (req := .filterSet i f) tag hready hattached rfl nofun rfl
    refine ⟨hans, fun m j => ?_⟩
    rw [show (s.arriveRequest n .filterSet tag (Request.filterSet i f).args).filters = _ from hfilters]
    exact getElem_put_put s.filters n m i j _
  · obtain ⟨hans, hfilters⟩ := filters_run (req := .filterClear (some i)) tag hready hattached rfl nofun rfl
    refine ⟨hans, fun m j => ?_⟩
    rw [show (s.arriveRequest n .filterClear tag [byteOf i.val]).filters = _ from hfilters]
    exact getElem_put_put s.filters n m i j _
  · obtain ⟨hans, hfilters⟩ := filters_run (req := .filterClear none) tag hready hattached rfl nofun rfl
    refine ⟨hans, fun m j => ?_⟩
    rw [show (s.arriveRequest n .filterClear tag [0xFF#8]).filters = _ from hfilters, getElem_getElem_put]
    simp

/-! ### The arrival of a notice (R88 to R90) -/

/-- A merge changes the only entry that is picked, in its place. -/
theorem merge_of_only {q : NoticeQueue} {before after : List Notice} {x : Notice} {sel : Notice → Bool}
    (f : Notice → Notice) (hq : q.entries = before ++ x :: after) (hx : sel x = true)
    (hother : ∀ e ∈ before ++ after, sel e = false) :
    q.merge sel f = { q with entries := before ++ f x :: after } := by
  have hkeep : ∀ l : List Notice, (∀ e ∈ l, sel e = false) → l.map (fun e => if sel e then f e else e) = l := by
    intro l hl
    refine (List.map_congr_left fun e he => ?_).trans (List.map_id l)
    rw [hl e he]
    rfl
  simp only [NoticeQueue.merge, hq, List.map_append, List.map_cons, hx, if_true,
    hkeep before fun e he => hother e (List.mem_append_left _ he),
    hkeep after fun e he => hother e (List.mem_append_right _ he)]

theorem any_of_mem {q : NoticeQueue} {before after : List Notice} {x : Notice} {sel : Notice → Bool}
    (hq : q.entries = before ++ x :: after) (hx : sel x = true) : q.entries.any sel = true := by
  rw [hq, List.any_append, List.any_cons, hx, Bool.true_or, Bool.or_true]

theorem arrive_update_of_waiting {q : NoticeQueue} {p : PostNo} (k g : Half) (c : Nat)
    (h : q.entries.any (Notice.isUpdateOf p) = true) :
    q.arrive (.update p k g c) = q.merge (Notice.isUpdateOf p) (Notice.mergeUpdate g) :=
  if_pos h

theorem arrive_solicit_of_waiting {q : NoticeQueue} {p : PostNo} (k : Half) (t : Byte) (a : Nat)
    (h : q.entries.any (Notice.isSolicitOf p) = true) :
    q.arrive (.solicit p k t a) = q.merge (Notice.isSolicitOf p) Notice.mergeSolicit :=
  if_pos h

/-- Counting one more, up to a limit. -/
theorem min_succ_eq (c limit : Nat) : min (c + 1) limit = if c < limit then c + 1 else limit := by
  split_ifs <;> omega

/-- Settles O47: both kinds merge into the one entry that waits for the post. -/
theorem waitingNoticesCoalesce : Obligations.WaitingNoticesCoalesce := by
  intro q before after p k k'
  refine ⟨fun g g' c hother hq => ?_, fun t t' a a' hother hq => ?_⟩
  · have hself : (Notice.update p k g c).isUpdateOf p = true := decide_eq_true rfl
    rw [arrive_update_of_waiting _ _ _ (any_of_mem hq hself), merge_of_only _ hq hself hother, ← min_succ_eq]
    rfl
  · have hself : (Notice.solicit p k t a).isSolicitOf p = true := decide_eq_true rfl
    rw [arrive_solicit_of_waiting _ _ _ (any_of_mem hq hself), merge_of_only _ hq hself hother, ← min_succ_eq]
    rfl

theorem NoticeQueue.append_of_marker {q : NoticeQueue} {k : Nat} (h : q.lost = some k) (x : Notice) :
    q.append x = { q with lost := some (if k < 65535 then k + 1 else 65535) } := by
  simp only [NoticeQueue.append, h, ← min_succ_eq]
  rfl

theorem NoticeQueue.append_of_full {q : NoticeQueue} (h : q.lost = none) (hfull : 31 ≤ q.entries.length) (x : Notice) :
    q.append x = { q with lost := some 1 } := by
  simp only [NoticeQueue.append, h]
  exact if_neg (Nat.not_lt.2 hfull)

theorem NoticeQueue.append_of_room {q : NoticeQueue} (h : q.lost = none) (hroom : q.entries.length < 31) (x : Notice) :
    q.append x = { q with entries := q.entries ++ [x] } := by
  simp only [NoticeQueue.append, h]
  exact if_pos hroom

/-- Settles O48: a notice that finds none to coalesce with is appended or counted. -/
theorem newNoticeAppendedOrCounted : Obligations.NewNoticeAppendedOrCounted := by
  intro q x _ hupdate hsolicit
  rw [arrive_append hupdate hsolicit]
  exact ⟨fun k hk => NoticeQueue.append_of_marker hk x, fun h hfull => NoticeQueue.append_of_full h hfull x,
    fun h hroom => NoticeQueue.append_of_room h hroom x⟩

/-! ### TAKE (R93, R110) -/

/-- The answer of a TAKE counts the LOST marker as the last entry, and carries it last. -/
theorem takeOldest_bytes (q : NoticeQueue) (k : Nat) :
    let markerTaken := decide (q.entries.length < k) && q.lost.isSome
    byteOf (q.takeOldest k).length :: (q.takeOldest k).flatten =
      byteOf ((q.entries.take k).length + if markerTaken then 1 else 0) ::
        ((q.entries.take k).map Notice.bytes).flatten ++ if markerTaken then lostBytes (q.lost.getD 0) else [] := by
  intro markerTaken
  by_cases hk : q.entries.length < k
  · cases hl : q.lost with
    | none => simp [markerTaken, NoticeQueue.takeOldest, hk, hl]
    | some c => simp [markerTaken, NoticeQueue.takeOldest, hk, hl]
  · simp [markerTaken, NoticeQueue.takeOldest, hk]

theorem takeTaken_eq {s : State} {n : Port} {k : Nat} {q : NoticeQueue} {delivered : List Byte}
    (h : deliverRound (s.requests.undeliveredOf n) (s.queues[n].dropOldest k) = (q, delivered)) :
    takeTaken n k s =
      ((s.setRequests
        { s.requests with
          undelivered := s.requests.undelivered.filter
            fun e => !(decide (e.requester = n) && decide (e.ticket ∈ delivered)) }).setQueues (put s.queues n q),
        .done .ok (byteOf (s.queues[n].takeOldest k).length :: (s.queues[n].takeOldest k).flatten)) := by
  simp only [takeTaken, h]

/-- The entries whose tickets are among those of `taken` are the entries of `taken`. -/
theorem undelivered_filter_tickets {x : RequestTable} (h : x.tickets.Nodup) (n : Port) {taken : List UndeliveredAsk}
    (ht : ∀ a ∈ taken, a ∈ x.undelivered ∧ a.requester = n) :
    x.undelivered.filter (fun e => !(decide (e.requester = n) && decide (e.ticket ∈ taken.map UndeliveredAsk.ticket))) =
      x.undelivered.filter fun e => decide (e ∉ taken) := by
  refine List.filter_congr fun e he => ?_
  rw [← Bool.decide_and, ← decide_not, decide_eq_decide, not_iff_not]
  constructor
  · rintro ⟨-, hmem⟩
    obtain ⟨a, ha, hta⟩ := List.mem_map.1 hmem
    exact ticket_inj h (ht a ha).1 he hta ▸ ha
  · intro hmem
    exact ⟨(ht e hmem).2, List.mem_map_of_mem hmem⟩

/-- Settles O49: the removal, then the round of answers, whose length is the room that the removal leaves. -/
theorem takeRemovesOldestThenDelivers : Obligations.TakeRemovesOldestThenDelivers := by
  intro s n tag k hready hattached hlo hhi htickets q markerTaken left lostLeft room mine
  have hlegal : (Request.take k).legal = true := decide_eq_true ⟨hlo, hhi⟩
  have hround : deliverRound (s.requests.undeliveredOf n) (q.dropOldest k) =
      ({ entries := left ++ (mine.take room).map UndeliveredAsk.answer, lost := lostLeft },
        (mine.take room).map UndeliveredAsk.ticket) := deliverRound_spec _ _
  have hmine : ∀ a ∈ mine.take room, a ∈ s.requests.undelivered ∧ a.requester = n := fun a ha => by
    have hmem := List.mem_filter.1 (List.mem_of_mem_take ha)
    exact ⟨hmem.1, of_decide_eq_true hmem.2⟩
  have hrun : runRequest n (.take k) (s.taking n) =
      (((s.taking n).setRequests
          { s.requests with undelivered := s.requests.undelivered.filter fun e => decide (e ∉ mine.take room) }).setQueues
        (put s.queues n { entries := left ++ (mine.take room).map UndeliveredAsk.answer, lost := lostLeft }),
        .done .ok (byteOf (q.takeOldest k).length :: (q.takeOldest k).flatten)) := by
    refine (takeTaken_eq (s := s.taking n) hround).trans ?_
    rw [← undelivered_filter_tickets htickets.1 n hmine]
    rfl
  obtain ⟨hans, hut⟩ := answeredChanging_run (r := .take k) tag hready hattached hlegal nofun hrun
    (unchanged_mono ((unchanged_setRequests _ _).and_then (unchanged_setQueues _ _)) (l' := [.queues, .requests])
      (by decide)) (by decide) (by decide) rfl
  have hrequests : (s.arriveRequest n .take tag [byteOf k]).requests = _ := hut .requests (by decide)
  rw [takeOldest_bytes] at hans
  refine ⟨_, rfl, hans, hut .queues (by decide), ?_⟩
  rw [hrequests]
  exact ⟨rfl, rfl, rfl⟩

end Sys2Proof.Machine
end

section
/-!
Asking for fresh data (chapter 6): ASK with its answers and refusals, CANCEL, and the expiry of a deadline; and the two
commands on the pool (chapter 3).
-/
namespace Sys2Proof.Machine
open Sys2Proof

/-! ### The branches of ASK (R101) -/

/-- The post is AUTO and FRESH, and its current frame `c` is no older than `maxAge` (R101, check 4). -/
def Post.youngWith (r : Post) (now : Time) (maxAge : Half) (c : Current) : Prop :=
  r.current = some c ∧ r.mode = .auto ∧ r.condition = .fresh ∧ (now - c.stamp).toNat ≤ maxAge.toNat

theorem freshWithin_of_young {r : Post} {now : Time} {maxAge : Half} {c : Current} (h : r.youngWith now maxAge c) :
    r.freshWithin now maxAge = some (now - c.stamp) := by
  obtain ⟨hc, hage⟩ := h
  simp only [Post.freshWithin, hc]
  exact if_pos hage

theorem freshWithin_of_not_young {r : Post} {now : Time} {maxAge : Half} (h : ∀ c, ¬ r.youngWith now maxAge c) :
    r.freshWithin now maxAge = none := by
  cases hc : r.current with
  | none => simp only [Post.freshWithin, hc]
  | some c =>
    simp only [Post.freshWithin, hc]
    exact if_neg fun hage => h c ⟨hc, hage⟩

section
variable {s : State} {n : Port} {p : PostNo} {maxAge timeout : Half} {r : Post}

theorem askTaken_of_vacant (h : s.posts[p] = none) : askTaken n p maxAge timeout s = (s, .done .nopost []) := by
  simp only [askTaken, h]

theorem askTaken_of_orphaned {q : Port} (h : s.posts[p] = some r) (hb : r.binding = .orphaned q) :
    askTaken n p maxAge timeout s = (s, .done .ok ([0x01#8] ++ be16 r.generation)) := by
  simp only [askTaken, h, hb]

theorem askTaken_of_own (h : s.posts[p] = some r) (hb : r.binding = .bound n) :
    askTaken n p maxAge timeout s = (s, .done .badstate []) := by
  simp only [askTaken, h, hb, if_true]

variable {q : Port}

theorem askTaken_of_young {a : Time} (h : s.posts[p] = some r) (hb : r.binding = .bound q) (hq : q ≠ n)
    (ha : r.freshWithin s.now maxAge = some a) :
    askTaken n p maxAge timeout s = (s, .done .ok ([0x00#8] ++ be16 r.generation ++ be32 a)) := by
  simp only [askTaken, h, hb, if_neg hq, ha]

theorem askTaken_of_known {ticket : Byte} (h : s.posts[p] = some r) (hb : r.binding = .bound q) (hq : q ≠ n)
    (ha : r.freshWithin s.now maxAge = none) (ht : s.requests.ticketOf n p = some ticket) :
    askTaken n p maxAge timeout s = (s, .done .already [ticket]) := by
  simp only [askTaken, h, hb, if_neg hq, ha, ht]

theorem askTaken_of_table_full (h : s.posts[p] = some r) (hb : r.binding = .bound q) (hq : q ≠ n)
    (ha : r.freshWithin s.now maxAge = none) (ht : s.requests.ticketOf n p = none)
    (hsize : Config.tablePlaces ≤ s.requests.size) : askTaken n p maxAge timeout s = (s, .done .tablefull []) := by
  simp only [askTaken, h, hb, if_neg hq, ha, ht, if_pos hsize]

theorem askTaken_of_port_full (h : s.posts[p] = some r) (hb : r.binding = .bound q) (hq : q ≠ n)
    (ha : r.freshWithin s.now maxAge = none) (ht : s.requests.ticketOf n p = none)
    (hsize : s.requests.size < Config.tablePlaces)
    (hmine : Config.portPlaces ≤ (s.requests.pendingOf n).length + (s.requests.undeliveredOf n).length) :
    askTaken n p maxAge timeout s = (s, .done .portlimit []) := by
  simp only [askTaken, h, hb, if_neg hq, ha, ht, if_neg (Nat.not_le.2 hsize), if_pos hmine]

theorem askTaken_of_new (h : s.posts[p] = some r) (hb : r.binding = .bound q) (hq : q ≠ n)
    (ha : r.freshWithin s.now maxAge = none) (ht : s.requests.ticketOf n p = none)
    (hsize : s.requests.size < Config.tablePlaces)
    (hmine : (s.requests.pendingOf n).length + (s.requests.undeliveredOf n).length < Config.portPlaces) :
    askTaken n p maxAge timeout s = (s.makeEntry n p r q timeout, .done .ok [0x02#8, s.requests.nextTicket]) := by
  simp only [askTaken, h, hb, if_neg hq, ha, ht, if_neg (Nat.not_le.2 hsize), if_neg (Nat.not_le.2 hmine)]

end

/-- Port `n` has an entry with this ticket on post `p`. -/
def RequestTable.holdsTicket (x : RequestTable) (n : Port) (p : PostNo) (ticket : Byte) : Prop :=
  (∃ e ∈ x.pending, e.requester = n ∧ e.post = p ∧ e.ticket = ticket) ∨
    ∃ e ∈ x.undelivered, e.requester = n ∧ e.post = p ∧ e.ticket = ticket

theorem RequestTable.ticketOf_spec {x : RequestTable} {n : Port} {p : PostNo} {ticket : Byte}
    (h : x.ticketOf n p = some ticket) : x.holdsTicket n p ticket := by
  unfold RequestTable.ticketOf at h
  split at h
  · rename_i e he
    have hf := List.find?_some he
    obtain ⟨hr, hp⟩ := of_decide_eq_true hf
    exact .inl ⟨e, List.mem_of_find?_eq_some he, hr, hp, Option.some_inj.1 h⟩
  · obtain ⟨e, he, ht⟩ := Option.map_eq_some_iff.1 h
    have hf := List.find?_some he
    obtain ⟨hr, hp⟩ := of_decide_eq_true hf
    exact .inr ⟨e, List.mem_of_find?_eq_some he, hr, hp, ht⟩

theorem RequestTable.ticketOf_eq_none {x : RequestTable} {n : Port} {p : PostNo}
    (hpending : ∀ e ∈ x.pending, e.requester = n → e.post ≠ p)
    (hundelivered : ∀ e ∈ x.undelivered, e.requester = n → e.post ≠ p) : x.ticketOf n p = none := by
  rw [ticketOf_eq_none_iff, RequestTable.askers, List.mem_append, List.mem_map, List.mem_map]
  rintro (⟨e, he, heq⟩ | ⟨e, he, heq⟩)
  · exact hpending e he (congrArg Prod.fst heq) (congrArg Prod.snd heq)
  · exact hundelivered e he (congrArg Prod.fst heq) (congrArg Prod.snd heq)

theorem RequestTable.ticketOf_of_none {x : RequestTable} {n : Port} {p : PostNo} (h : ∀ t, ¬ x.holdsTicket n p t) :
    x.ticketOf n p = none :=
  RequestTable.ticketOf_eq_none (fun e he hr hp => h e.ticket (.inl ⟨e, he, hr, hp, rfl⟩))
    fun e he hr hp => h e.ticket (.inr ⟨e, he, hr, hp, rfl⟩)

theorem RequestTable.exists_ticketOf {x : RequestTable} {n : Port} {p : PostNo} {t : Byte} (h : x.holdsTicket n p t) :
    ∃ ticket, x.ticketOf n p = some ticket := by
  refine Option.ne_none_iff_exists'.1 fun hnone => ?_
  rw [ticketOf_eq_none_iff] at hnone
  refine hnone (List.mem_append.2 ?_)
  rcases h with ⟨e, he, hr, hp, -⟩ | ⟨e, he, hr, hp, -⟩
  · exact .inl (List.mem_map.2 ⟨e, he, by rw [hr, hp]⟩)
  · exact .inr (List.mem_map.2 ⟨e, he, by rw [hr, hp]⟩)

theorem RequestTable.entriesOf_countP (x : RequestTable) (n : Port) :
    (x.pending.countP fun e => decide (e.requester = n)) + (x.undelivered.countP fun e => decide (e.requester = n)) =
      (x.pendingOf n).length + (x.undeliveredOf n).length := by
  rw [List.countP_eq_length_filter, List.countP_eq_length_filter]
  rfl

/-! ### ASK -/

theorem unchanged_makeEntry (s : State) (n : Port) (p : PostNo) (r : Post) (q : Port) (timeout : Half) :
    Unchanged s (s.makeEntry n p r q timeout) [.requests, .queues] :=
  (unchanged_setRequests s _).and_then (unchanged_setQueues _ _)

theorem makeEntry_queues (s : State) (n : Port) (p : PostNo) (r : Post) (q : Port) (timeout : Half) (m : Port) :
    (s.makeEntry n p r q timeout).queues[m] =
      if m = q ∧ s.attached m = true then s.queues[m].arrive (.solicit p r.key s.requests.nextTicket 1)
      else s.queues[m] := by
  rw [State.makeEntry, State.notifyPort_queues, getElem_deliver]
  simp only [Bool.and_eq_true, decide_eq_true_eq]
  rfl

/-- Settles O51: no check stops the ASK, which makes its entry. -/
theorem askMakesEntry : Obligations.AskMakesEntry := by
  intro s n tag p maxAge timeout r q hready hattached htimeout hr hb hq hold hpending hundelivered hsize hmine
  have hyoung : r.freshWithin s.now maxAge = none := by
    refine freshWithin_of_not_young fun c hc => ?_
    obtain ⟨hcur, hmode, hfresh, hage⟩ := hc
    exact Nat.not_le.2 (hold c hcur hmode hfresh) hage
  rw [RequestTable.entriesOf_countP] at hmine
  have hrun := askTaken_of_new (s := s.taking n) (timeout := timeout) hr hb hq hyoung
    (RequestTable.ticketOf_eq_none hpending hundelivered) hsize hmine
  obtain ⟨hans, hut⟩ := answeredChanging_run (r := .ask p maxAge timeout) tag hready hattached (decide_eq_true htimeout)
    nofun hrun (unchanged_makeEntry _ n p r q timeout) (by decide) (by decide) rfl
  have hrequests : (s.arriveRequest n .ask tag (Request.ask p maxAge timeout).args).requests = _ :=
    hut .requests (by decide)
  have hqueues : (s.arriveRequest n .ask tag (Request.ask p maxAge timeout).args).queues = _ := hut .queues (by decide)
  refine ⟨_, rfl, hans, ?_, ?_, ?_, fun m => ?_⟩
  · rw [hrequests]
    rfl
  · rw [hrequests]
    rfl
  · rw [hrequests]
    rfl
  · rw [hqueues, makeEntry_queues, taking_attached]
    rfl

/-- Settles O52: the branches of ASK that make no entry, in the order of R101. -/
theorem askAnsweredWithoutEntry : Obligations.AskAnsweredWithoutEntry := by
  intro s n tag p maxAge timeout hready hattached htimeout answered young mine
  have hanswer : ∀ st res, askTaken n p maxAge timeout (s.taking n) = (s.taking n, .done st res) → answered st res :=
    fun st res h => ⟨_, rfl, answeredOnly_run (r := .ask p maxAge timeout) tag hready hattached
      (decide_eq_true htimeout) nofun h⟩
  refine ⟨fun h => hanswer _ _ (askTaken_of_vacant h), fun r hr => ⟨fun hb => hanswer _ _ (askTaken_of_own hr hb),
    fun q hb => hanswer _ _ (askTaken_of_orphaned hr hb), fun q hb hq =>
      ⟨fun c hc => hanswer _ _ (askTaken_of_young hr hb hq (freshWithin_of_young hc)), fun hold => ?_⟩⟩⟩
  have hyoung : r.freshWithin s.now maxAge = none := freshWithin_of_not_young hold
  refine ⟨fun ⟨t, ht⟩ _ => ?_, fun hnone => ?_⟩
  · obtain ⟨ticket, hticket⟩ := RequestTable.exists_ticketOf (x := s.requests) ht
    exact ⟨ticket, RequestTable.ticketOf_spec hticket, hanswer _ _ (askTaken_of_known hr hb hq hyoung hticket)⟩
  · have hticket : s.requests.ticketOf n p = none := RequestTable.ticketOf_of_none hnone
    refine ⟨fun hsize => hanswer _ _ (askTaken_of_table_full hr hb hq hyoung hticket hsize), fun hsize hmine => ?_⟩
    rw [RequestTable.entriesOf_countP] at hmine
    exact hanswer _ _ (askTaken_of_port_full hr hb hq hyoung hticket hsize hmine)

/-! ### CANCEL (R111) -/

section
variable {s : State} {n : Port} {ticket : Byte}

theorem cancelTaken_of_pending {e : PendingAsk}
    (h : s.requests.pending.find? (fun e => decide (e.ticket = ticket ∧ e.requester = n)) = some e) :
    cancelTaken n ticket s =
      (s.setRequests { s.requests with
        pending := s.requests.pending.filter fun e => !decide (e.ticket = ticket ∧ e.requester = n) },
        .done .ok [0x00#8]) := by
  simp only [cancelTaken, h]

theorem cancelTaken_of_undelivered {e : UndeliveredAsk}
    (h : s.requests.pending.find? (fun e => decide (e.ticket = ticket ∧ e.requester = n)) = none)
    (hu : s.requests.undelivered.find? (fun e => decide (e.ticket = ticket ∧ e.requester = n)) = some e) :
    cancelTaken n ticket s =
      (s.setRequests { s.requests with
        undelivered := s.requests.undelivered.filter fun e => !decide (e.ticket = ticket ∧ e.requester = n) },
        .done .ok ([0x01#8, e.outcome.kind.code] ++ be16 (e.outcome.generation e.genAtAsk))) := by
  simp only [cancelTaken, h, hu]

theorem cancelTaken_of_none
    (h : s.requests.pending.find? (fun e => decide (e.ticket = ticket ∧ e.requester = n)) = none)
    (hu : s.requests.undelivered.find? (fun e => decide (e.ticket = ticket ∧ e.requester = n)) = none) :
    cancelTaken n ticket s = (s, .done .noticket []) := by
  simp only [cancelTaken, h, hu]

end

/-- A search by something that one element alone has finds it. -/
theorem find?_eq_of_unique {α : Type} {l : List α} {f : α → Bool} {a : α} (ha : a ∈ l) (hf : f a = true)
    (hu : ∀ b ∈ l, f b = true → b = a) : l.find? f = some a := by
  obtain ⟨b, hb⟩ := Option.isSome_iff_exists.1 (List.find?_isSome.2 ⟨a, ha, hf⟩)
  rw [hb, hu b (List.mem_of_find?_eq_some hb) (List.find?_some hb)]

/-- The elements that remain when the only one that is picked goes. -/
theorem filter_not_eq_of_unique {α : Type} [DecidableEq α] {l : List α} {f : α → Bool} {a : α} (hf : f a = true)
    (hu : ∀ b ∈ l, f b = true → b = a) : (l.filter fun b => !f b) = l.filter fun b => decide (b ≠ a) := by
  refine List.filter_congr fun b hb => ?_
  rw [Bool.eq_iff_iff, Bool.not_eq_true', decide_eq_true_eq]
  constructor
  · rintro h rfl
    rw [hf] at h
    cases h
  · intro h
    rw [← Bool.not_eq_true]
    exact fun hb' => h (hu b hb hb')

/-- A ticket of an UNDELIVERED entry is that of no PENDING one (R99). -/
theorem ticket_ne_of_undelivered {x : RequestTable} (h : x.tickets.Nodup) {a : PendingAsk} {e : UndeliveredAsk}
    (ha : a ∈ x.pending) (he : e ∈ x.undelivered) : a.ticket ≠ e.ticket := fun heq =>
  (List.nodup_append.1 h).2.2 a.ticket (List.mem_map_of_mem ha) e.ticket (List.mem_map_of_mem he) heq

/-- A CANCEL that changes the request table. -/
theorem cancel_run {s : State} {n : Port} (tag : Byte) {ticket : Byte} {x : RequestTable} {res : List Byte}
    (hready : s.Ready n) (hattached : s.attached n = true) (hticket : ticket ≠ 0#8)
    (h : cancelTaken n ticket (s.taking n) = ((s.taking n).setRequests x, .done .ok res)) :
    AnsweredChanging s (s.arriveRequest n .cancel tag [ticket]) n tag .cancel .ok res [.requests] ∧
      (s.arriveRequest n .cancel tag [ticket]).requests = x := by
  obtain ⟨hans, hut⟩ := answeredChanging_run (r := .cancel ticket) tag hready hattached (decide_eq_true hticket) nofun h
    (unchanged_setRequests _ x) (by decide) (by decide) (taking_lines s n)
  exact ⟨hans, hut .requests (by decide)⟩

/-- Settles O53: a ticket names one entry of the table, PENDING or UNDELIVERED. -/
theorem cancelRemovesEntry : Obligations.CancelRemovesEntry := by
  intro s n tag ticket hready hattached hticket htickets
  refine ⟨fun e he ht hn => ?_, fun e he ht hn => ?_, fun hpending hundelivered => ?_⟩
  · have hself : decide (e.ticket = ticket ∧ e.requester = n) = true := decide_eq_true ⟨ht, hn⟩
    have honly : ∀ a ∈ s.requests.pending, decide (a.ticket = ticket ∧ a.requester = n) = true → a = e := fun a ha h =>
      pticket_inj htickets.1 ha he ((of_decide_eq_true h).1.trans ht.symm)
    obtain ⟨hans, hrequests⟩ := cancel_run tag hready hattached hticket
      (cancelTaken_of_pending (s := s.taking n) (find?_eq_of_unique he hself honly))
    refine ⟨_, rfl, hans, hrequests.trans ?_⟩
    rw [taking_requests, filter_not_eq_of_unique (f := fun a : PendingAsk => decide (a.ticket = ticket ∧ a.requester = n)) hself
        honly]
  · have hself : decide (e.ticket = ticket ∧ e.requester = n) = true := decide_eq_true ⟨ht, hn⟩
    have honly : ∀ a ∈ s.requests.undelivered, decide (a.ticket = ticket ∧ a.requester = n) = true → a = e :=
      fun a ha h => ticket_inj htickets.1 ha he ((of_decide_eq_true h).1.trans ht.symm)
    have hnone : s.requests.pending.find? (fun e => decide (e.ticket = ticket ∧ e.requester = n)) = none :=
      find_none_of fun a ha => decide_eq_false fun h =>
        ticket_ne_of_undelivered htickets.1 ha he (h.1.trans ht.symm)
    obtain ⟨hans, hrequests⟩ := cancel_run tag hready hattached hticket
      (cancelTaken_of_undelivered (s := s.taking n) hnone (find?_eq_of_unique he hself honly))
    refine ⟨_, rfl, ?_, hrequests.trans ?_⟩
    · cases ho : e.outcome <;> rw [ho] at hans <;> exact hans
    · rw [taking_requests, filter_not_eq_of_unique
        (f := fun a : UndeliveredAsk => decide (a.ticket = ticket ∧ a.requester = n)) hself honly]
  · exact ⟨_, rfl, answeredOnly_run (r := .cancel ticket) tag hready hattached (decide_eq_true hticket) nofun
      (cancelTaken_of_none (s := s.taking n)
        (find_none_of fun a ha => decide_eq_false fun h => hpending a ha h.1 h.2)
        (find_none_of fun a ha => decide_eq_false fun h => hundelivered a ha h.1 h.2))⟩

/-! ### The expiry of a deadline (R107) -/

/-- The offer of one completed ask (R109), as the queue of an ATTACHED requester takes it or not. -/
theorem offerAnswer_of_room {att : Port → Bool} {e : UndeliveredAsk} {d : AnswerDesk} (ha : att e.requester = true)
    (hroom : d.1[e.requester].entries.length < 31 ∧ d.1[e.requester].lost = none) :
    offerAnswer att e d =
      (put d.1 e.requester { d.1[e.requester] with entries := d.1[e.requester].entries ++ [e.answer] }, d.2) := by
  have hacc : d.1[e.requester].accepts = true := (NoticeQueue.accepts_iff _).2 hroom
  rw [offerAnswer, if_pos (by rw [ha, hacc]; rfl), NoticeQueue.append_of_accepts hacc, ← hroom.2]

theorem offerAnswer_of_no_room {att : Port → Bool} {e : UndeliveredAsk} {d : AnswerDesk}
    (hfull : 31 ≤ d.1[e.requester].entries.length ∨ d.1[e.requester].lost ≠ none) :
    offerAnswer att e d = (d.1, d.2 ++ [e]) := by
  refine if_neg fun h => ?_
  obtain ⟨hlen, hlost⟩ := (NoticeQueue.accepts_iff _).1 ((Bool.and_eq_true _ _).mp h).2
  rcases hfull with hfull | hfull
  · exact Nat.not_lt.2 hfull hlen
  · exact hfull hlost

/-- Completing the one ask that is picked. -/
theorem completeAsks_of_unique {s : State} {sel : PendingAsk → Bool} {e : PendingAsk} (o : AskOutcome)
    (hn : s.requests.pending.Nodup) (he : e ∈ s.requests.pending) (hsel : sel e = true)
    (honly : ∀ a ∈ s.requests.pending, sel a = true → a = e) {d : AnswerDesk}
    (hd : offerAnswer s.attached (e.completed o) (s.queues, s.requests.undelivered) = d) :
    s.completeAsks sel o =
      (s.setRequests { s.requests with
        pending := s.requests.pending.filter (fun a => decide (a ≠ e)), undelivered := d.2 }).setQueues d.1 := by
  have hone : s.requests.pending.filter sel = [e] := by
    have hcongr : s.requests.pending.filter sel = s.requests.pending.filter (fun a => decide (a = e)) :=
      List.filter_congr fun a ha => by
        rw [Bool.eq_iff_iff, decide_eq_true_eq]
        exact ⟨honly a ha, fun h => h ▸ hsel⟩
    rw [hcongr, List.filter_eq, List.count_eq_one_of_mem hn he]
    rfl
  rw [State.completeAsks, hone, filter_not_eq_of_unique hsel honly, ← hd]
  rfl

/-- Settles O54: the ticket picks one entry, which makes its offer. -/
theorem askDeadlineTimesOut : Obligations.AskDeadlineTimesOut := by
  intro s e htickets he hattached hnow
  have hsel : (decide (e.ticket = e.ticket) && e.expired s.now) = true := by
    rw [decide_eq_true rfl, Bool.true_and]
    exact (reached_iff _ _).2 hnow.symm
  have honly : ∀ a ∈ s.requests.pending, (decide (a.ticket = e.ticket) && a.expired s.now) = true → a = e := by
    intro a ha h
    exact pticket_inj htickets.1 ha he (of_decide_eq_true ((Bool.and_eq_true _ _).mp h).1)
  have hnodup : s.requests.pending.Nodup := ((List.nodup_append.1 htickets.1).1).of_map _
  refine ⟨s.expireAsk e.ticket, rfl, ?_⟩
  generalize hd : offerAnswer s.attached (e.completed .timeout) (s.queues, s.requests.undelivered) = d
  rw [State.expireAsk, completeAsks_of_unique .timeout hnodup he hsel honly hd]
  refine ⟨rfl, rfl, fun hroom => ?_, fun hfull => ?_, rfl,
    (unchanged_setRequests s _).and_then (unchanged_setQueues _ _)⟩
  · rw [offerAnswer_of_room hattached hroom] at hd
    rw [← hd]
    exact ⟨rfl, rfl⟩
  · rw [offerAnswer_of_no_room hfull] at hd
    rw [← hd]
    exact ⟨rfl, rfl⟩

/-! ### POOL STATUS and SET POOL MARK (R57, R59) -/

/-- Settles O55: POOL STATUS reads pool and refresh controller; SET POOL MARK writes mark and arming. -/
theorem poolStatusAndMark : Obligations.PoolStatusAndMark := by
  intro s n tag hready hattached
  refine ⟨⟨_, rfl, answeredOnly_run (r := .poolStatus) tag hready hattached rfl nofun rfl⟩, fun mark hmark hrole =>
    ⟨_, rfl, ?_⟩⟩
  obtain ⟨hans, hut⟩ := answeredChanging_run (r := .setPoolMark mark) tag hready hattached (decide_eq_true hmark)
    (fun _ => hrole) rfl (unchanged_setPool _ _) (by decide) (by decide) (taking_lines s n)
  exact ⟨hans, hut .pool (by decide)⟩

end Sys2Proof.Machine
end

section
/-!
The arbiter's choice (R138), refresh ticks and lapses (R141, R143, R144), and the time base with the timers (R146).
-/
namespace Sys2Proof.Machine
open Sys2Proof

/-! ### The arbiter (R138) -/

theorem exec_arrayGrant {s : State} (h : s.array.access = none) : exec .arrayGrant s = .next s.grant := by
  simp only [exec, execArrayGrant, h]
  rfl

theorem Arbiter.nextPort_of_idle {x : Arbiter} (h : ∀ n : Port, x.places[n] = none) : x.nextPort = none := by
  rw [Arbiter.nextPort, List.findSome?_eq_none_iff]
  intro n _
  rw [h n]
  rfl

theorem grant_of_forced {s : State} (hd : 5 ≤ s.refresh.debt) (hp : s.arbiter.refreshPlace = true) :
    s.grant = s.grantRefresh :=
  if_pos ⟨hd, hp⟩

theorem grant_of_port {s : State} {n : Port} {k : PortRequest}
    (h : s.refresh.debt < 5 ∨ s.arbiter.refreshPlace = false) (hn : s.arbiter.nextPort = some (n, k)) :
    s.grant = s.grantPort n k := by
  have hc : ¬ (Config.forcedDebt ≤ s.refresh.debt ∧ s.arbiter.refreshPlace = true) := by
    rintro ⟨hd, hp⟩
    rcases h with h | h
    · exact Nat.not_le.2 h hd
    · rw [h] at hp
      cases hp
  simp only [State.grant, if_neg hc, hn]

/-- No port waits: the array goes to refresh, if that waits. -/
theorem grant_of_idle {s : State} (h : ∀ n : Port, s.arbiter.places[n] = none) :
    s.grant = if s.arbiter.refreshPlace then s.grantRefresh else s := by
  unfold State.grant
  rw [Arbiter.nextPort_of_idle h]
  cases s.arbiter.refreshPlace with
  | false => simp only [Bool.false_eq_true, and_false, if_false]
  | true => simp only [and_true, if_true, ite_self]

/-- Settles O57: forced refresh, the port in turn, and refresh where no port waits. -/
theorem arrayGrantFollowsPolicy : Obligations.ArrayGrantFollowsPolicy := by
  intro s hfree
  refine ⟨fun hrefresh hc => ⟨_, exec_arrayGrant hfree, ?_⟩, fun hport j n k hn hk hlow =>
    ⟨_, exec_arrayGrant hfree, ?_⟩, fun hrefresh hidle => ?_⟩
  · have hgrant : s.grant = s.grantRefresh := by
      rcases hc with hd | hidle
      · exact grant_of_forced hd hrefresh
      · rw [grant_of_idle hidle, hrefresh]
        rfl
    rw [hgrant]
    exact ⟨rfl, unchanged_setArray s _, rfl⟩
  · subst hn
    have hnext := nextPort_aux (fun m : Port => s.arbiter.places[m]) s.arbiter.lastGranted j k hk hlow
    rw [grant_of_port hport hnext]
    have harbiter := unchanged_setArbiter s
      { s.arbiter with
        places := put s.arbiter.places (s.arbiter.lastGranted + 1 + j) none,
        lastGranted := s.arbiter.lastGranted + 1 + j }
    cases k with
    | write =>
      refine ⟨rfl, fun _ => ⟨rfl, rfl, ?_⟩, nofun, rfl⟩
      exact unchanged_mono ((harbiter.and_then (unchanged_setArray _ _)).and_then (unchanged_setSlot _ _ _)) (by decide)
    | read =>
      refine ⟨rfl, nofun, fun _ => ⟨rfl, rfl, ?_⟩, rfl⟩
      exact unchanged_mono ((harbiter.and_then (unchanged_setArray _ _)).and_then (unchanged_setRead _ _ _)) (by decide)
  · rw [exec_arrayGrant hfree, grant_of_idle hidle, hrefresh]
    rfl

/-! ### Ticks (R141) -/

theorem exec_refreshTick {s : State} (h : s.tickComes = true) : exec .refreshTick s = .next s.refreshTick := by
  simp only [exec, execRefreshTick, h, if_true]

theorem exec_lapse {s : State} (h : s.tickComes = true) (hd : 8 ≤ s.refresh.debt) :
    exec .lapse s = .next s.refreshTick := by
  simp only [exec, execLapse, h, decide_eq_true (show Config.lapseDebt ≤ s.refresh.debt from hd), Bool.and_true, if_true]

theorem exec_lapse_of_low {s : State} (h : s.refresh.debt < 8) : exec .lapse s = .next s := by
  have hd : decide (Config.lapseDebt ≤ s.refresh.debt) = false := decide_eq_false (Nat.not_le.2 h)
  simp only [exec, execLapse, hd, Bool.and_false]
  rfl

theorem tickComes_of {s : State} (hd : s.inDeviceReset = false)
    (h : s.time.tickOwed = true ∨ (s.time.phase < 16 ∧ ¬ s.ExpiryToTake)) : s.tickComes = true :=
  (tickComes_iff s).2 ⟨hd, h⟩

theorem tickComes_eq_false {s : State}
    (h : s.inDeviceReset = true ∨ (s.time.tickOwed = false ∧ (16 ≤ s.time.phase ∨ s.ExpiryToTake))) :
    s.tickComes = false := by
  rw [← Bool.not_eq_true, tickComes_iff]
  rintro ⟨hd, hc⟩
  rcases h with h | ⟨howed, h⟩
  · rw [hd] at h
    cases h
  · rcases hc with hc | ⟨hphase, hexpiry⟩
    · rw [howed] at hc
      cases hc
    · rcases h with h | h
      · exact Nat.not_lt.2 h hphase
      · exact hexpiry h

theorem refreshTick_of_low {s : State} (h : s.refresh.debt < 8) :
    s.refreshTick = (s.setTime s.time.tick).raiseDebt := if_pos h

theorem refreshTick_of_full {s : State} (h : s.refresh.debt = 8) :
    s.refreshTick = (s.setTime s.time.tick).doLapse := if_neg (by rw [State.setTime_refresh, h]; decide)

/-- The pointer after row 95 is 0 (R143). -/
theorem pointer_succ (f : FrameNo) : f + 1 = ⟨(f.val + 1) % 96, Nat.mod_lt _ (by decide)⟩ := by
  apply Fin.ext
  rw [Fin.val_add]
  rfl

theorem exec_refreshCompletion {s : State} {row : FrameNo} (h : s.array.access = some (.refresh row)) :
    exec .refreshCompletion s = .next s.completeRefresh := by
  simp only [exec, execRefreshCompletion, h]

/-- Settles O58: a tick raises the debt, a refresh completion lowers it. -/
theorem refreshPaysDebt : Obligations.RefreshPaysDebt := by
  intro s
  refine ⟨fun hreset hdebt hc => ⟨_, exec_refreshTick (tickComes_of hreset hc), ?_⟩, fun h => ?_,
    fun row hrow => ⟨_, exec_refreshCompletion hrow, ?_⟩⟩
  · rw [refreshTick_of_low hdebt]
    refine ⟨rfl, rfl, rfl, ?_, rfl⟩
    exact unchanged_mono (((unchanged_setTime s _).and_then (unchanged_setRefresh _ _)).and_then
      (unchanged_setArbiter _ _)) (by decide)
  · simp only [exec, execRefreshTick, tickComes_eq_false h]
    rfl
  · refine ⟨rfl, ?_, ?_, ?_, rfl⟩
    · have hdebt : s.refresh.debt - 1 = if 1 ≤ s.refresh.debt then s.refresh.debt - 1 else 0 := by
        split_ifs <;> omega
      rw [← hdebt, ← pointer_succ]
      rfl
    · have hplace : (decide (s.refresh.debt - 1 ≠ 0) && s.arbiter.refreshPlace) =
          if s.refresh.debt ≤ 1 then false else s.arbiter.refreshPlace := by
        split_ifs with h
        · rw [decide_eq_false (by omega), Bool.false_and]
        · rw [decide_eq_true (by omega), Bool.true_and]
      rw [← hplace]
      rfl
    · exact unchanged_mono (((unchanged_setArray s _).and_then (unchanged_setRefresh _ _)).and_then
        (unchanged_setArbiter _ _)) (by decide)

/-! ### Lapses (R144) -/

theorem Pool.suspectAll_frame (x : Pool) (f : FrameNo) :
    x.suspectAll.frames[f] =
      { x.frames[f] with suspect := x.frames[f].suspect || decide (1 ≤ x.frames[f].refs) } := by
  show (mapTable _ x.frames)[f.val] = _
  rw [getElem_mapTable]
  show (if 1 ≤ x.frames[f].refs then _ else _) = _
  split_ifs with h
  · rw [decide_eq_true h, Bool.or_true]
    rfl
  · rw [decide_eq_false h, Bool.or_false]
    rfl

theorem getElem_map_lapsed (posts : Vector (Option Post) 64) (p : PostNo) :
    (mapTable (Option.map Post.lapsed) posts)[p] = posts[p].map fun r =>
      if r.current.isSome = true ∧ r.condition ≠ .damaged then
        { r with condition := .damaged, cause := some .lapse, deadline := none }
      else r :=
  getElem_mapTable _ _ _ _

theorem unchanged_doLapse (s : State) :
    Unchanged s s.doLapse [.pool, .posts, .queues, .refresh, .arbiter] :=
  unchanged_mono (((((unchanged_setPool s _).and_then (unchanged_setPosts _ _)).and_then
    (unchanged_setQueues _ _)).and_then (unchanged_setRefresh _ _)).and_then (unchanged_setArbiter _ _)) (by decide)

theorem doLapse_queues (s : State) (m : Port) :
    s.doLapse.queues[m] =
      if s.attached m then s.queues[m].arrive (.lapse (min (s.refresh.lapseCount + 1) 255)) else s.queues[m] :=
  getElem_deliver _ _ _ _

theorem refreshTick_lapses {s : State} {count : Nat} (hdebt : s.refresh.debt = 8)
    (hcount : count = min (s.refresh.lapseCount + 1) 255) :
    (∀ f : FrameNo, s.refreshTick.pool.frames[f] =
       { s.pool.frames[f] with suspect := s.pool.frames[f].suspect || decide (1 ≤ s.pool.frames[f].refs) }) ∧
     s.refreshTick.pool.free = s.pool.free ∧ s.refreshTick.pool.mark = s.pool.mark ∧
     s.refreshTick.pool.armed = s.pool.armed ∧
     (∀ p : PostNo, s.refreshTick.posts[p] = (s.posts[p]).map fun r =>
       if r.current.isSome = true ∧ r.condition ≠ .damaged then
         { r with condition := .damaged, cause := some .lapse, deadline := none }
       else r) ∧
     (∀ m : Port, s.refreshTick.queues[m] =
       if s.attached m then s.queues[m].arrive (.lapse count) else s.queues[m]) ∧
     s.refreshTick.refresh = { s.refresh with debt := 0, lapseCount := count } ∧
     s.refreshTick.arbiter = { s.arbiter with refreshPlace := false } ∧
     s.refreshTick.time = (if s.time.tickOwed then { s.time with tickOwed := false }
       else { s.time with phase := s.time.phase + 1 }) ∧
     s.refreshTick.LinesLawful ∧ Unchanged s s.refreshTick [.pool, .posts, .queues, .refresh, .arbiter, .time] := by
  rw [refreshTick_of_full hdebt, hcount]
  exact ⟨fun f => Pool.suspectAll_frame s.pool f, rfl, rfl, rfl, fun p => getElem_map_lapsed s.posts p,
    fun m => doLapse_queues (s.setTime s.time.tick) m, rfl, rfl, rfl, rfl,
    unchanged_mono ((unchanged_setTime s _).and_then (unchanged_doLapse _)) (by decide)⟩

/-- Settles O59: both events are the tick that finds the debt at 8. -/
theorem lapseDamagesEverything : Obligations.LapseDamagesEverything := by
  refine ⟨fun s c hreset hc hdebt hevent => ?_, fun s h => exec_lapse_of_low h⟩
  have hexec : exec c s = .next s.refreshTick := by
    have hcomes := tickComes_of hreset hc
    rcases hevent with rfl | rfl
    · exact exec_lapse hcomes (Nat.le_of_eq hdebt.symm)
    · exact exec_refreshTick hcomes
  refine ⟨_, hexec, refreshTick_lapses hdebt ?_⟩
  split_ifs <;> omega

/-! ### The millisecond boundary (R146) -/

theorem exec_millisecondBoundary {s : State} (h : s.boundaryComes = true) :
    exec .millisecondBoundary s = .next s.millisecond := by
  simp only [exec, execMillisecondBoundary, h, if_true]

theorem exec_millisecondBoundary_not {s : State} (h : s.boundaryComes = false) :
    exec .millisecondBoundary s = .next s := by
  simp only [exec, execMillisecondBoundary, h]
  rfl

theorem boundaryComes_eq_false {s : State}
    (h : s.inDeviceReset = true ∨ s.time.tickOwed = true ∨ s.time.phase < 15 ∨ s.ExpiryToTake) :
    s.boundaryComes = false := by
  rw [← Bool.not_eq_true, boundaryComes_iff]
  rintro ⟨hd, howed, hphase, hexpiry⟩
  rcases h with h | h | h | h
  · rw [hd] at h
    cases h
  · rw [howed] at h
    cases h
  · exact Nat.not_lt.2 hphase h
  · exact hexpiry h

/-! ### The law of the time base -/

/-- The expiry time `e` is that of an armed timer: a freshness deadline, the deadline of an ask, the lease timer of an
ATTACHED port. -/
def State.Armed (s : State) (e : Time) : Prop :=
  (∃ (p : PostNo) (r : Post), s.posts[p] = some r ∧ r.deadline = some e) ∨
    (∃ a ∈ s.requests.pending, a.deadline + 1#32 = e) ∨
    ∃ n : Port, s.attached n = true ∧ s.sessions[n].timer = some e

theorem timersAhead_iff (s : State) : s.TimersAhead ↔ ∀ e, s.Armed e → (e - s.now).toNat ≤ 65536 := by
  constructor
  · rintro ⟨hposts, hasks, hleases⟩ e (⟨p, r, hr, he⟩ | ⟨a, ha, rfl⟩ | ⟨n, hn, he⟩)
    · exact hposts p r e hr he
    · exact hasks a ha
    · exact hleases n e hn he
  · exact fun h => ⟨fun p r e hr he => h e (.inl ⟨p, r, hr, he⟩), fun a ha => h _ (.inr (.inl ⟨a, ha, rfl⟩)),
      fun n e hn he => h e (.inr (.inr ⟨n, hn, he⟩))⟩

/-- Every timer armed in `t` was armed in `s` or has just been armed. -/
def ArmedFrom (s t : State) : Prop := ∀ e, t.Armed e → s.Armed e ∨ ∃ period, e = expiryAfter s.now period

/-- The time base stays, and timers are disarmed, or armed for a period from now. -/
theorem State.TimeLawful.of_armed {s t : State} (h : s.TimeLawful) (harmed : ArmedFrom s t) (ht : t.time = s.time)
    (hd : t.inDeviceReset = s.inDeviceReset) : t.TimeLawful := by
  obtain ⟨hphase, hzero, hreset, hahead⟩ := h
  have hnow : t.now = s.now := congrArg TimeBase.deviceTime ht
  rw [timersAhead_iff] at hahead
  unfold State.TimeLawful
  rw [ht, hd, hnow, timersAhead_iff, hnow]
  refine ⟨hphase, fun hc => hzero (hc.imp_right fun hexp => ?_), hreset, fun e he => ?_⟩
  · have hexp' : t.Armed s.now := hnow ▸ hexp
    rcases harmed _ hexp' with hs | ⟨period, hp⟩
    · exact hs
    · exact absurd hp.symm (expiryAfter_ahead s.now period).2
  · rcases harmed e he with hs | ⟨period, rfl⟩
    · exact hahead e hs
    · exact (expiryAfter_ahead s.now period).1

section
variable {s t : State}

/-- Each part with timers may disarm some of its own, or arm them anew. -/
theorem ArmedFrom.of_parts
    (hposts : ∀ (p : PostNo) (r : Post) (e : Time), t.posts[p] = some r → r.deadline = some e →
      s.Armed e ∨ ∃ period, e = expiryAfter s.now period)
    (hasks : ∀ a ∈ t.requests.pending, a ∈ s.requests.pending ∨ ∃ period, a.deadline + 1#32 = expiryAfter s.now period)
    (hleases : ∀ (n : Port) (e : Time), t.attached n = true → t.sessions[n].timer = some e →
      s.Armed e ∨ ∃ period, e = expiryAfter s.now period) : ArmedFrom s t := by
  rintro e (⟨p, r, hr, he⟩ | ⟨a, ha, rfl⟩ | ⟨n, hn, he⟩)
  · exact hposts p r e hr he
  · exact (hasks a ha).imp_left fun h => .inr (.inl ⟨a, h, rfl⟩)
  · exact hleases n e hn he

theorem Armed.of_session (h : t.sessions = s.sessions) (n : Port) (e : Time) (hn : t.attached n = true)
    (he : t.sessions[n].timer = some e) : s.Armed e ∨ ∃ period, e = expiryAfter s.now period := by
  unfold State.attached at hn
  rw [h] at hn he
  exact .inl (.inr (.inr ⟨n, hn, he⟩))

theorem Armed.of_post (h : t.posts = s.posts) (p : PostNo) (r : Post) (e : Time) (hr : t.posts[p] = some r)
    (he : r.deadline = some e) : s.Armed e ∨ ∃ period, e = expiryAfter s.now period :=
  .inl (.inl ⟨p, r, h ▸ hr, he⟩)

/-- One record changes, and its deadline is disarmed, kept or armed anew. -/
theorem Armed.of_put {q : PostNo} {o : Option Post} (h : t.posts = put s.posts q o)
    (ho : ∀ r e, o = some r → r.deadline = some e →
      (∃ r', s.posts[q] = some r' ∧ r'.deadline = some e) ∨ ∃ period, e = expiryAfter s.now period)
    (p : PostNo) (r : Post) (e : Time) (hr : t.posts[p] = some r) (he : r.deadline = some e) :
    s.Armed e ∨ ∃ period, e = expiryAfter s.now period := by
  rw [h] at hr
  by_cases hp : p = q
  · subst hp
    rw [getElem_put_self] at hr
    exact (ho r e hr he).imp_left fun ⟨r', hr', he'⟩ => .inl ⟨p, r', hr', he'⟩
  · rw [getElem_put_of_ne _ _ hp] at hr
    exact .inl (.inl ⟨p, r, hr, he⟩)

/-- Every record may change, and its deadline is disarmed or kept. -/
theorem Armed.of_map {f : Post → Post} (h : t.posts = mapTable (Option.map f) s.posts)
    (hf : ∀ r e, (f r).deadline = some e → r.deadline = some e) (p : PostNo) (r : Post) (e : Time)
    (hr : t.posts[p] = some r) (he : r.deadline = some e) : s.Armed e ∨ ∃ period, e = expiryAfter s.now period := by
  rw [h] at hr
  obtain ⟨r', hr', rfl⟩ := Option.map_eq_some_iff.1 ((getElem_mapTable _ s.posts p.val p.isLt).symm.trans hr)
  exact .inl (.inl ⟨p, r', hr', hf r' e he⟩)

/-- One session record changes, and its timer is disarmed, kept or armed anew. -/
theorem Armed.of_putSession {n : Port} {x : Session} (h : t.sessions = put s.sessions n x)
    (hx : ∀ e, x.isAttached = true → x.timer = some e →
      (s.attached n = true ∧ s.sessions[n].timer = some e) ∨ ∃ period, e = expiryAfter s.now period)
    (m : Port) (e : Time) (hm : t.attached m = true) (he : t.sessions[m].timer = some e) :
    s.Armed e ∨ ∃ period, e = expiryAfter s.now period := by
  unfold State.attached at hm
  rw [h] at hm he
  by_cases hmn : m = n
  · subst hmn
    rw [getElem_put_self] at hm he
    exact (hx e hm he).imp_left fun hold => .inr (.inr ⟨m, hold⟩)
  · rw [getElem_put_of_ne _ _ hmn] at hm he
    exact .inl (.inr (.inr ⟨m, hm, he⟩))

theorem ArmedFrom.of_same (hposts : t.posts = s.posts) (hasks : t.requests.pending.Sublist s.requests.pending)
    (hsessions : t.sessions = s.sessions) : ArmedFrom s t :=
  .of_parts (Armed.of_post hposts) (fun _ ha => .inl (hasks.subset ha)) (Armed.of_session hsessions)

theorem ArmedFrom.of_putPost {q : PostNo} {o : Option Post} (hposts : t.posts = put s.posts q o)
    (ho : ∀ r e, o = some r → r.deadline = some e →
      (∃ r', s.posts[q] = some r' ∧ r'.deadline = some e) ∨ ∃ period, e = expiryAfter s.now period)
    (hasks : t.requests.pending.Sublist s.requests.pending) (hsessions : t.sessions = s.sessions) : ArmedFrom s t :=
  .of_parts (Armed.of_put hposts ho) (fun _ ha => .inl (hasks.subset ha)) (Armed.of_session hsessions)

end

/-- A lease timer that is restarted is armed for its period (R121). -/
theorem Session.renewed_timer {x : Session} {now e : Time} (h : (x.renewed now).timer = some e) :
    x.timer = some e ∨ ∃ period, e = expiryAfter now period := by
  unfold Session.renewed at h
  split_ifs at h
  · exact .inr ⟨x.lease, (Option.some_inj.1 h).symm⟩
  · exact .inl h

/-- The deadline of an ask that has just been made (R103, R107). -/
theorem ask_deadline (now : Time) (timeout : Half) :
    now + timeout.zeroExtend 32 + 1#32 = expiryAfter now timeout := rfl

theorem attachedSession_timer {role : Role} {lease : Half} {threshold : Nat} {now e : Time}
    (h : (attachedSession role lease threshold now).timer = some e) : e = expiryAfter now lease := by
  unfold attachedSession at h
  simp only at h
  split_ifs at h
  exact (Option.some_inj.1 h).symm

theorem Post.orphanedFrom_deadline {n : Port} {r : Post} {e : Time} (h : (r.orphanedFrom n).deadline = some e) :
    r.deadline = some e := by
  unfold Post.orphanedFrom at h
  split_ifs at h
  exact h

theorem Post.lapsed_deadline {r : Post} {e : Time} (h : r.lapsed.deadline = some e) : r.deadline = some e := by
  unfold Post.lapsed at h
  split_ifs at h
  exact h

theorem Post.committed_deadline {r : Post} {f : FrameNo} {length : Nat} {now e : Time}
    (h : (r.committed f length now).deadline = some e) : e = expiryAfter now r.period := by
  unfold Post.committed at h
  simp only at h
  split_ifs at h
  exact (Option.some_inj.1 h).symm

theorem detachPort_armedFrom (s : State) (n : Port) (c : DetachCause) : ArmedFrom s (s.detachPort n c) := by
  obtain ⟨⟨hsessions, -, -, -, -, -, -, hpending, -⟩, -⟩ := detachPort_detached s n c
  refine .of_parts (Armed.of_map (f := Post.orphanedFrom n) rfl fun r e => Post.orphanedFrom_deadline) (fun a ha => ?_)
    (Armed.of_putSession hsessions nofun)
  rw [hpending] at ha
  exact .inl (List.mem_of_mem_filter ha)

theorem Taken.armedFrom {n : Port} {s t : State} {c : Command} {reply : Reply} (h : Taken n s c t reply) :
    ArmedFrom s t := by
  cases h with
  | attach role lease threshold res =>
    exact .of_parts (Armed.of_post rfl) (fun _ ha => .inl ha)
      (Armed.of_putSession rfl fun e _ he => .inr ⟨lease, attachedSession_timer he⟩)
  | detach => exact detachPort_armedFrom s n _
  | declare p => exact .of_putPost (q := p) rfl (fun r e hr he => by cases hr; cases he) (List.Sublist.refl _) rfl
  | vacate p r b res hpost =>
    exact .of_putPost (q := p) (o := none) rfl nofun List.filter_sublist rfl
  | publish p r payload f x low hpost =>
    refine .of_putPost (q := p) (State.takePublish_posts ..) (fun r' e hr he => .inl ⟨r, hpost, ?_⟩)
      (by rw [State.takePublish_requests]) (State.takePublish_sessions ..)
    cases hr
    exact he
  | ask p r q timeout =>
    refine .of_parts (Armed.of_post rfl) (fun a ha => ?_) (Armed.of_session rfl)
    rcases List.mem_append.1 ha with ha | ha
    · exact .inl ha
    · rw [List.mem_singleton.1 ha]
      exact .inr ⟨timeout, ask_deadline s.now timeout⟩
  | cancelPending => exact .of_same rfl List.filter_sublist rfl
  | adopt p r former res ha hpost =>
    refine .of_putPost (q := p) rfl (fun r' e hr he => .inl ⟨r, hpost, ?_⟩) (List.Sublist.refl _) rfl
    cases hr
    exact he
  | takeover p r q res ha hpost =>
    refine .of_putPost (q := p) (State.takeOver_posts ..) (fun r' e hr he => ?_) (by rw [State.takeOver_requests])
      (State.takeOver_sessions ..)
    cases hr
    cases he
  | _ => exact .of_same rfl (List.Sublist.refl _) rfl

/-- No command touches the time base or the inputs. -/
theorem Taken.time {n : Port} {s t : State} {c : Command} {reply : Reply} (h : Taken n s c t reply) :
    t.time = s.time ∧ t.inDeviceReset = s.inDeviceReset := by
  cases h with
  | publish p r payload f x low => cases low <;> exact ⟨rfl, rfl⟩
  | takeover p r q =>
    simp only [State.takeOver, State.resolicit]
    split <;> exact ⟨rfl, rfl⟩
  | _ => exact ⟨rfl, rfl⟩

theorem damageRequest_armedFrom (s : State) (p : PostNo) (f : FrameNo) (c : DamageCause) :
    ArmedFrom s (s.damageRequest p f c) := by
  have hsame := damageRequest_unchanged s p f c
  have hrequests : (s.damageRequest p f c).requests = s.requests := hsame .requests (by decide)
  have hsessions : (s.damageRequest p f c).sessions = s.sessions := hsame .sessions (by decide)
  rcases damageRequest_posts_cases s p f c with e | ⟨r, -, e⟩
  · exact .of_same e (by rw [hrequests]) hsessions
  · exact .of_putPost e (fun r e hr he => by cases hr; cases he) (by rw [hrequests]) hsessions

/-- After a boundary a timer that has not expired lies one millisecond less ahead. -/
theorem ahead_of_next {e now : Time} (h : (e - now).toNat ≤ 65536) (hne : e ≠ now) :
    (e - (now + 1#32)).toNat ≤ 65536 := by
  bv_omega

theorem State.TimeLawful.tick {s : State} (h : s.TimeLawful) (hc : s.tickComes = true) :
    (s.setTime s.time.tick).TimeLawful := by
  obtain ⟨hphase, hzero, hreset, hahead⟩ := h
  obtain ⟨-, hcomes⟩ := (tickComes_iff s).1 hc
  cases howed : s.time.tickOwed with
  | true =>
    have htick : s.time.tick = { s.time with tickOwed := false } := if_pos howed
    rw [htick]
    exact ⟨hphase, fun _ => hzero (.inl howed), hreset, hahead⟩
  | false =>
    have htick : s.time.tick = { s.time with phase := s.time.phase + 1 } := if_neg (by rw [howed]; exact nofun)
    obtain ⟨hlow, hexpiry⟩ := hcomes.resolve_left (by rw [howed]; exact nofun)
    rw [htick]
    refine ⟨hlow, fun hc => ?_, hreset, hahead⟩
    rcases hc with hc | hc
    · exact absurd (howed.symm.trans hc) nofun
    · exact absurd hc hexpiry

theorem State.TimeLawful.millisecond {s : State} (h : s.TimeLawful) (hc : s.boundaryComes = true) :
    s.millisecond.TimeLawful := by
  obtain ⟨hphase, -, -, hahead⟩ := h
  obtain ⟨hreset, -, -, hexpiry⟩ := (boundaryComes_iff s).1 hc
  have hzero : s.millisecond.time.phase = 0 := Nat.sub_eq_zero_of_le hphase
  rw [timersAhead_iff] at hahead
  refine ⟨by rw [hzero]; decide, fun _ => hzero, fun hd => absurd (hreset.symm.trans hd) nofun, ?_⟩
  rw [timersAhead_iff]
  intro e he
  exact ahead_of_next (hahead e he) fun heq => hexpiry (by subst heq; exact he)

theorem timeLawful_kept : KeptByBlocks State.TimeLawful where
  port _ _ _ h := h
  finished _ _ h := h
  lease s n h := by
    refine h.of_armed (.of_parts (Armed.of_post rfl) (fun _ ha => .inl ha) (Armed.of_putSession rfl fun e hx he => ?_)) rfl rfl
    rw [renewed_isAttached] at hx
    exact (Session.renewed_timer he).imp_left fun h => ⟨hx, h⟩
  run := run_kept fun _ _ _ _ _ ht h => h.of_armed ht.armedFrom ht.time.1 ht.time.2
  pins _ _ hd h := h.of_armed (.of_same rfl (List.Sublist.refl _) rfl) rfl hd
  detach s n c h := h.of_armed (detachPort_armedFrom s n c) rfl rfl
  reset s x _ := by
    refine ⟨Nat.zero_le _, fun _ => rfl, fun _ => rfl, (timersAhead_iff _).2 ?_⟩
    rintro e (⟨p, r, hr, -⟩ | ⟨a, ha, -⟩ | ⟨n, hn, -⟩)
    · simp [State.enterReset, State.afterDeviceReset] at hr
    · cases ha
    · simp [State.enterReset, State.afterDeviceReset, State.attached, Session.isAttached, Session.detachedValues] at hn
  leave s x hd h := by
    obtain ⟨-, -, hreset, hahead⟩ := h
    have hnow : s.now = 0#32 := hreset hd
    refine ⟨Nat.zero_le _, fun _ => rfl, fun _ => rfl, ?_⟩
    rw [timersAhead_iff] at hahead ⊢
    intro e he
    have := hahead e he
    rwa [hnow] at this
  tick _ hc h := h.tick hc
  boundary _ hc h := h.millisecond hc
  raise _ h _ := h
  lapse s h := h.of_armed (.of_parts (Armed.of_map (f := Post.lapsed) rfl fun r e => Post.lapsed_deadline)
    (fun _ ha => .inl ha) (Armed.of_session rfl)) rfl rfl
  fresh s p h := by
    rcases expireFreshness_cases s p with e | ⟨r, -, -, e⟩ <;> rw [e]
    · exact h
    · exact h.of_armed (.of_putPost (q := p) rfl (fun r e hr he => by cases hr; cases he) (List.Sublist.refl _) rfl) rfl rfl
  ask s k h := h.of_armed (.of_same rfl List.filter_sublist rfl) rfl rfl
  grant s h _ := by
    rcases grant_cases s with e | e | ⟨n, k, -, e⟩ <;> rw [e]
    · exact h
    · exact h
    · cases k <;> exact h
  read s n d h _ :=
    completeRead_kept (P := State.TimeLawful)
      (fun s n st res h => h.of_armed (.of_same (by simp) (by simp) (by simp)) (by simp)
        (by simp [State.inDeviceReset]))
      (fun _ _ _ h => h) (fun _ _ _ h => h)
      (fun s p f c h => by
        have hsame := damageRequest_unchanged s p f c
        obtain ⟨-, -, -, hreset, hclksel⟩ := hsame .inputs (by decide)
        exact h.of_armed (damageRequest_armedFrom s p f c) (hsame .time (by decide))
          (by unfold State.inDeviceReset Pins.inDeviceReset; rw [hreset, hclksel])) s n d h
  refresh _ _ h _ := h

/-- A commit arms the deadline of its post for the post's period (R33). -/
theorem completeWrite_timeLawful {s : State} (h : s.TimeLawful) (n : Port) (d : List Byte) :
    (s.completeWrite n d).TimeLawful := by
  have completed (u : State) (st : Status) (res : List Byte) (hu : u.TimeLawful) :
      (u.completeCommand n st res).TimeLawful :=
    hu.of_armed (.of_same (by simp) (by simp) (by simp)) (by simp) (by simp [State.inDeviceReset])
  rcases completeWrite_cases s n d with ⟨-, e⟩ | ⟨y, -, e⟩ <;> rw [e]
  · exact h
  · rcases endPublication_cases (s.setArray _) n y _ with ⟨st, e, -⟩ | ⟨-, -, e⟩ | ⟨-, -, r, hp, e⟩ <;> rw [e] <;>
      apply completed
    · exact h
    · refine State.TimeLawful.of_armed h (.of_putPost (q := y.post) rfl (fun r e hr he => ?_) (List.Sublist.refl _) rfl) rfl rfl
      obtain ⟨r₀, hr₀, rfl⟩ := Option.map_eq_some_iff.1 hr
      exact .inl ⟨r₀, hr₀, he⟩
    · refine State.TimeLawful.of_armed h (.of_putPost (q := y.post) rfl (fun r' e hr he => ?_) List.filter_sublist rfl) rfl rfl
      cases hr
      exact .inr ⟨r.period, Post.committed_deadline he⟩

/-- Settles O60: the boundary, where it comes and where not; and every timer is armed for a period from now. -/
theorem millisecondFollowsSixteenTicks : Obligations.MillisecondFollowsSixteenTicks := by
  refine ⟨fun s => ⟨fun hreset howed hphase hexpiry => ⟨_, exec_millisecondBoundary
    ((boundaryComes_iff s).2 ⟨hreset, howed, hphase, hexpiry⟩), rfl, unchanged_setTime s _, rfl⟩,
    fun h => exec_millisecondBoundary_not (boundaryComes_eq_false h)⟩, fun s t h hstep => ?_⟩
  exact timeLawful_kept.events.step (fun _ _ h => h) s t h
    (fun n d x _ => completeWrite_timeLawful (s := s.setPending x) h n d) hstep

end Sys2Proof.Machine
end

section
/-!
The ends of array accesses: the write completion with its commit (R30 to R34, R37), and the read completion (R65 to R67,
R74, R77).
-/
namespace Sys2Proof.Machine
open Sys2Proof

/-! ### The end of a command -/

theorem unchanged_completeCommand (s : State) (n : Port) (st : Status) (res : List Byte) :
    Unchanged s (s.completeCommand n st res) [.ports, .pool, .reads] := by
  rcases completeCommand_cases s n st res with ⟨-, e⟩ | ⟨c, -, -, e⟩ | ⟨c, -, -, e⟩ <;> rw [e]
  · exact Unchanged.refl s _
  · exact unchanged_mono (unchanged_setPort s n _) (by decide)
  · exact (unchanged_setPort s n _).and_then (unchanged_readFinished _ n)

/-- A port without a read record: its interface alone changes. -/
theorem unchanged_completeCommand_of_no_read {s : State} {n : Port} (h : s.reads[n] = none) (st : Status)
    (res : List Byte) : Unchanged s (s.completeCommand n st res) [.ports] := by
  obtain ⟨hreads, hpool⟩ := completeCommand_of_no_read h st res
  intro b hb
  by_cases hpart : b = .pool ∨ b = .reads
  · rcases hpart with rfl | rfl
    · exact hpool
    · exact hreads
  · exact unchanged_completeCommand s n st res b (by simp_all)

/-! ### The write completion -/

/-- The array after a write access to the row of frame `f` that left the bytes `back` there (R136). -/
def StorageArray.written (x : StorageArray) (f : FrameNo) (back : List Byte) : StorageArray :=
  { mem := Memory.writeAll (rowAddress f) back x.mem, access := none }

theorem StorageArray.written_row (x : StorageArray) (f : FrameNo) {back : List Byte} (epoch : Nat)
    (h : back.length = Config.rowBytes) : readRow epoch f (x.written f back).mem = back :=
  readRow_writeAll epoch f back x.mem h

theorem StorageArray.written_elsewhere (x : StorageArray) (f : FrameNo) {back : List Byte}
    (h : back.length = Config.rowBytes) (a : Nat) (ha : a < rowAddress f ∨ rowAddress f + 64 ≤ a) :
    Memory.read a (x.written f back).mem = Memory.read a x.mem := by
  have hlen : back.length = 64 := h
  refine (Memory.read_writeAll back (rowAddress f) a x.mem).trans (dif_neg ?_)
  omega

theorem exec_writeCompletion {s : State} {n : Port} {x : Publication} {disturb : List Byte}
    (ha : s.array.access = some (.write n)) (hx : s.slots[n] = some x) :
    exec (.writeCompletion disturb) s = .next
      ((s.setArray (s.array.written x.frame (disturbed (rowOf x.post x.payload) disturb))).endPublication n x
        (decide (disturbed (rowOf x.post x.payload) disturb = rowOf x.post x.payload))) := by
  have hexec : exec (.writeCompletion disturb) s = .next (s.completeWrite n disturb) := by
    simp only [exec, execWriteCompletion, ha]
  rw [hexec]
  rcases completeWrite_cases s n disturb with ⟨hnone, -⟩ | ⟨y, hy, e⟩
  · rw [hx] at hnone
    cases hnone
  · rw [hx, Option.some_inj] at hy
    subst hy
    rw [e]
    rfl

/-- The state after a commit, before the command of port `n` completes (R33, R34). -/
def State.committing (s : State) (n : Port) (x : Publication) (r : Post) : State :=
  (((((s.setPool (s.pool.setSuspect x.frame false)).setSlot n none).setPost x.post
    (some (r.committed x.frame x.payload.length s.now))).setPool
      ((s.pool.setSuspect x.frame false).releaseCurrent r.current)).notify
        (.update x.post r.key (nextGeneration r.generation) 1) r.key .updates (some n) none).completeAsks
          (fun e => decide (e.post = x.post)) (.delivered (nextGeneration r.generation))

/-- The state after a publication has failed or been dropped, before its command completes (R32, R37): `posts` are the
posts that remain, and `b` says whether the write was a FAULT. -/
def State.discarding (s : State) (n : Port) (x : Publication) (b : Bool) (posts : Vector (Option Post) 64) : State :=
  (((s.setPool (s.pool.setSuspect x.frame b)).setSlot n none).setPosts posts).setPool
    ((s.pool.setSuspect x.frame b).release x.frame)

section
variable {s : State} {n : Port} {x : Publication}

theorem endPublication_of_good {r : Post} (ho : x.overtaken = none) (hr : s.posts[x.post] = some r) :
    s.endPublication n x true =
      (s.committing n x r).completeCommand n .ok (be16 (nextGeneration r.generation)) := by
  simp only [State.endPublication, ho, State.commit, State.setSlot_posts, State.setPool_posts, hr]
  rfl

theorem endPublication_of_overtaken {c : OvertakeCause} (ho : x.overtaken = some c) (good : Bool) :
    s.endPublication n x good = (s.discarding n x (!good) s.posts).completeCommand n c.status [] := by
  simp only [State.endPublication, ho]
  rfl

theorem endPublication_of_fault (ho : x.overtaken = none) :
    s.endPublication n x false =
      (s.discarding n x true
        (put s.posts x.post (s.posts[x.post].map fun r => { r with inFlight := none }))).completeCommand n
          .arrayfault [] := by
  simp only [State.endPublication, ho]
  rfl

end

theorem unchanged_committing (s : State) (n : Port) (x : Publication) (r : Post) :
    Unchanged s (s.committing n x r) [.posts, .slots, .pool, .queues, .requests] :=
  unchanged_mono ((((((unchanged_setPool s _).and_then (unchanged_setSlot _ n _)).and_then
    (unchanged_setPost _ _ _)).and_then (unchanged_setPool _ _)).and_then (unchanged_notify _ _ _ _ _ _)).and_then
      (unchanged_completeAsks _ _ _)) (by decide)

theorem unchanged_discarding (s : State) (n : Port) (x : Publication) (b : Bool) (posts : Vector (Option Post) 64) :
    Unchanged s (s.discarding n x b posts) [.posts, .slots, .pool] :=
  unchanged_mono ((((unchanged_setPool s _).and_then (unchanged_setSlot _ n _)).and_then
    (unchanged_setPosts _ _)).and_then (unchanged_setPool _ _)) (by decide)

/-- What a commit brings to the queues: the UPDATE, then the ANSWERs (R34). -/
theorem committing_received (s : State) (n : Port) (x : Publication) (r : Post) :
    Received s (s.committing n x r) (fun m => s.queues[m]) s.requests.undelivered
      (completions s.requests.pending x.post (.delivered (nextGeneration r.generation)))
      (fun m =>
        (if s.recipients r.key .updates (some n) none m then
          [.notice (.update x.post r.key (nextGeneration r.generation) 1)] else []) ++
          offersTo (completions s.requests.pending x.post (.delivered (nextGeneration r.generation))) m) :=
  (DeskReceived.deliver s.attached (s.recipients r.key .updates (some n) none)
    (.update x.post r.key (nextGeneration r.generation) 1) (s.queues, s.requests.undelivered)).trans
      (completeEntries_received s.attached (s.requests.pending.filter fun e => decide (e.post = x.post)) _ _)

theorem filter_not_decide (l : List PendingAsk) (p : PostNo) :
    (l.filter fun e => !decide (e.post = p)) = l.filter fun e => decide (e.post ≠ p) :=
  List.filter_congr fun _ _ => decide_not.symm

/-- `Received` looks, in the state before, at the ATTACHED ports alone, and after at queues and UNDELIVERED entries. -/
theorem received_congr {s s' t t' : State} {start : Port → NoticeQueue} {kept offered : List UndeliveredAsk}
    {arrivals : Port → List Arrival} (h : Received s t start kept offered arrivals) (ha : s'.attached = s.attached)
    (hq : t'.queues = t.queues) (hr : t'.requests = t.requests) : Received s' t' start kept offered arrivals := by
  unfold Received at *
  rwa [ha, hq, hr]

/-- Settles O39: the write is GOOD and its publication is the post's own, so it ends in the commit. -/
theorem goodWriteCommits : Obligations.GoodWriteCommits := by
  intro s n x r disturb haccess hslot hovertaken hpost hout hread hgood
  refine ⟨_, exec_writeCompletion haccess hslot, ?_⟩
  rw [decide_eq_true hgood, hgood, endPublication_of_good
    (s := s.setArray (s.array.written x.frame (rowOf x.post x.payload))) hovertaken hpost]
  generalize hu : s.setArray (s.array.written x.frame (rowOf x.post x.payload)) = u
  have hsu : Unchanged s u [.array] := hu ▸ unchanged_setArray s _
  have harray : u.array = s.array.written x.frame (rowOf x.post x.payload) := by rw [← hu]; rfl
  have hw := unchanged_committing u n x r
  have hcommand := unchanged_completeCommand_of_no_read (s := u.committing n x r) (n := n)
    ((congrArg (fun v => v[n]) ((hsu.and_then hw) .reads (by decide))).trans hread) .ok
    (be16 (nextGeneration r.generation))
  have hlen : (rowOf x.post x.payload).length = Config.rowBytes := rowOf_length _ _
  generalize ht : (u.committing n x r).completeCommand n .ok (be16 (nextGeneration r.generation)) = t at hcommand
  have harray' : t.array = s.array.written x.frame (rowOf x.post x.payload) :=
    ((hw.and_then hcommand) .array (by decide) : t.array = u.array).trans harray
  have hposts : t.posts = (u.committing n x r).posts := hcommand .posts (by decide)
  have hslots : t.slots = (u.committing n x r).slots := hcommand .slots (by decide)
  have hpool : t.pool = (u.committing n x r).pool := hcommand .pool (by decide)
  have hqueues : t.queues = (u.committing n x r).queues := hcommand .queues (by decide)
  have hrequests : t.requests = (u.committing n x r).requests := hcommand .requests (by decide)
  have hsessions : t.sessions = (u.committing n x r).sessions := hcommand .sessions (by decide)
  subst hu
  refine ⟨by rw [harray']; rfl, by rw [harray']; exact StorageArray.written_row _ _ _ hlen, fun a ha => ?_, hposts,
    hslots, ?_, ?_, by rw [hrequests]; rfl, ?_, ?_, ?_, ?_⟩
  · rw [harray']
    exact StorageArray.written_elsewhere _ _ hlen a ha
  · rw [hpool]
    show (s.pool.setSuspect x.frame false).releaseCurrent r.current = _
    cases r.current <;> rfl
  · rw [hrequests, ← filter_not_decide]
    rfl
  · exact received_congr (committing_received _ n x r) rfl hqueues hrequests
  · exact completedWith_congr (completeCommand_completed
      (State.committing (s.setArray (s.array.written x.frame (rowOf x.post x.payload))) n x r) n .ok _) rfl
      (congrArg State.ports ht.symm)
  · refine State.LinesLawful.of_same (s := State.committing _ n x r) rfl ?_ hsessions hqueues
    rw [← ht, State.completeCommand_pins]
  · exact unchanged_mono ((hsu.and_then hw).and_then hcommand) (by decide)

/-- What the end of a discarded publication leaves (R32, R37). -/
theorem discarding_ends {s : State} {n : Port} {x : Publication} {b : Bool} {posts : Vector (Option Post) 64}
    {back : List Byte} (hlen : back.length = Config.rowBytes) (hread : s.reads[n] = none) {st : Status} {t : State}
    (ht : ((s.setArray (s.array.written x.frame back)).discarding n x b posts).completeCommand n st [] = t) :
    t.array.access = none ∧ readRow t.epoch x.frame t.array.mem = back ∧
      (∀ a : Nat, a < rowAddress x.frame ∨ rowAddress x.frame + 64 ≤ a →
        Memory.read a t.array.mem = Memory.read a s.array.mem) ∧
      t.slots = put s.slots n none ∧ t.pool = (s.pool.setSuspect x.frame b).release x.frame ∧ t.posts = posts ∧
      CompletedWith s t n st [] ∧ Unchanged s t [.array, .posts, .slots, .pool, .ports] ∧ t.pins = s.pins := by
  generalize hu : s.setArray (s.array.written x.frame back) = u at ht
  have hsu : Unchanged s u [.array] := hu ▸ unchanged_setArray s _
  have hw := unchanged_discarding u n x b posts
  have hcommand := unchanged_completeCommand_of_no_read (s := u.discarding n x b posts) (n := n)
    ((congrArg (fun v => v[n]) ((hsu.and_then hw) .reads (by decide))).trans hread) st []
  rw [ht] at hcommand
  have harray : t.array = s.array.written x.frame back := by
    have : t.array = (u.discarding n x b posts).array := hcommand .array (by decide)
    rw [this, ← hu]
    rfl
  refine ⟨by rw [harray]; rfl, by rw [harray]; exact StorageArray.written_row _ _ _ hlen, fun a ha => ?_, ?_, ?_,
    hcommand .posts (by decide), ?_, unchanged_mono ((hsu.and_then hw).and_then hcommand) (by decide), ?_⟩
  · rw [harray]
    exact StorageArray.written_elsewhere _ _ hlen a ha
  · subst hu
    exact hcommand .slots (by decide)
  · subst hu
    exact hcommand .pool (by decide)
  · subst hu
    exact completedWith_congr (completeCommand_completed
      (State.discarding (s.setArray (s.array.written x.frame back)) n x b posts) n st []) rfl
      (congrArg State.ports ht.symm)
  · subst hu
    rw [← ht, State.completeCommand_pins]
    rfl

/-- Settles O40: an overtaken publication is dropped whatever the write was; one that is not fails by the FAULT. -/
theorem faultyOrOvertakenWriteCommitsNothing : Obligations.FaultyOrOvertakenWriteCommitsNothing := by
  intro s n x disturb haccess hslot hout hread hbad
  refine ⟨_, exec_writeCompletion haccess hslot, ?_⟩
  have hlen : (disturbed (rowOf x.post x.payload) disturb).length = Config.rowBytes := by
    rw [disturbed_length, rowOf_length]
  generalize hrow : disturbed (rowOf x.post x.payload) disturb = back at hbad hlen
  cases ho : x.overtaken with
  | some c =>
    obtain ⟨h1, h2, h3, h4, h5, h6, h7, h8, h9⟩ := discarding_ends hlen hread (endPublication_of_overtaken
      (s := s.setArray (s.array.written x.frame back)) (n := n) ho (decide (back = rowOf x.post x.payload))).symm
    refine ⟨h1, h2, h3, h4, ?_, fun _ => h6, nofun, ?_, h8, h9⟩
    · rw [h5, ← decide_not]
      rfl
    · cases c <;> exact h7
  | none =>
    have hfault : back ≠ rowOf x.post x.payload := hbad.resolve_left (not_not.2 ho)
    rw [decide_eq_false hfault]
    obtain ⟨h1, h2, h3, h4, h5, h6, h7, h8, h9⟩ := discarding_ends hlen hread (endPublication_of_fault
      (s := s.setArray (s.array.written x.frame back)) (n := n) ho).symm
    refine ⟨h1, h2, h3, h4, ?_, fun h => absurd rfl h, fun _ r hr => ?_, h7, h8, h9⟩
    · rw [h5, decide_eq_true hfault]
      rfl
    · rw [h6]
      show put s.posts x.post (s.posts[x.post].map fun r => { r with inFlight := none }) = _
      rw [hr]
      rfl

/-! ### The read completion -/

theorem Pool.setSuspect_self {x : Pool} {f : FrameNo} {b : Bool} (h : x.frames[f].suspect = b) :
    x.setSuspect f b = x := by
  subst h
  exact congrArg (fun frames => { x with frames := frames }) (put_self x.frames f)

/-- The state after the read of the record `r` has been answered, before the post is damaged and the command of port
`n` completes (R65): the record is ANSWERING, and a FAULT has set the flag of its frame. -/
def State.answeringRead (s : State) (n : Port) (r : ReadRecord) (good : Bool) : State :=
  (s.setRead n (some { r with phase := .answering })).setPool
    (s.pool.setSuspect r.frame (s.pool.frames[r.frame].suspect || !good))

section
variable {s : State} {n : Port} {r : ReadRecord} {row : List Byte}

theorem endRead_of_good (hc : r.cutOff = false) (hs : s.pool.frames[r.frame].suspect = false) :
    s.endRead n r row true =
      (s.answeringRead n r true).completeCommand n .ok
        ((s.answeringRead n r true).readResult n r (some (row.take r.length))) := by
  have hsame : s.answeringRead n r true = s.setRead n (some { r with phase := .answering }) := by
    rw [State.answeringRead, hs, Bool.not_true, Bool.or_false, Pool.setSuspect_self hs]
    rfl
  rw [hsame]
  exact endRead_good hc hs

theorem endRead_of_bad {good : Bool} (hc : r.cutOff = false)
    (hbad : (s.pool.frames[r.frame].suspect || !good) = true) {w : State}
    (hw : w = (s.answeringRead n r good).damageRequest r.post r.frame
      (if s.pool.frames[r.frame].suspect then .lapse else .check)) :
    s.endRead n r row good = w.completeCommand n .damaged (w.readResult n r none) := by
  refine endRead_bad hc hbad (hw.trans ?_)
  rw [State.answeringRead]
  cases good with
  | false => rw [Bool.not_false, Bool.or_true]; rfl
  | true =>
    have hs : s.pool.frames[r.frame].suspect = true := by simpa using hbad
    rw [Bool.not_true, Bool.or_false, Pool.setSuspect_self rfl]
    rfl

theorem endRead_of_cutOff (hc : r.cutOff = true) (good : Bool) :
    s.endRead n r row good = (s.setRead n none).completeCommand n .sessionlost [] :=
  if_pos hc

end

theorem exec_readCompletion {s : State} {n : Port} {r : ReadRecord} {disturb : List Byte}
    (ha : s.array.access = some (.read n)) (hr : s.reads[n] = some r) :
    exec (.readCompletion disturb) s = .next (s.freeArray.endRead n r
      (disturbed (readRow s.epoch r.frame s.array.mem) disturb)
      (rowAgrees (disturbed (readRow s.epoch r.frame s.array.mem) disturb) r.length r.post)) := by
  have hexec : exec (.readCompletion disturb) s = .next (s.completeRead n disturb) := by
    simp only [exec, execReadCompletion, ha]
  rw [hexec]
  unfold State.completeRead
  simp only [show s.freeArray.reads = s.reads from rfl, hr]
  rfl

theorem rowAgrees_iff (row : List Byte) (length : Nat) (post : PostNo) :
    rowAgrees row length post = true ↔
      row.drop 62 = be16 (crc16 (row.take 62)) ∧ row[60]? = some (byteOf length) ∧ row[61]? = some (postByte post) := by
  simp only [rowAgrees, Bool.and_eq_true, decide_eq_true_eq, and_assoc]

/-- The result of an OK answer (R66, R74). -/
theorem readResult_post_ok (s : State) (n : Port) {r : ReadRecord} {b : Binding} {c : Condition}
    (hk : r.kind = .post b c) (bytes : List Byte) :
    s.readResult n r (some bytes) = [postByte r.post] ++ be16 r.key ++ be16 r.generation ++
      [b.code, c.code, byteOf r.length] ++ bytes := by
  simp only [State.readResult, hk]

theorem readResult_post_damaged (s : State) (n : Port) {r : ReadRecord} {b : Binding} {c : Condition}
    (hk : r.kind = .post b c) :
    s.readResult n r none = [postByte r.post] ++ be16 r.key ++ be16 r.generation ++ [byteOf r.length] := by
  simp only [State.readResult, hk]

theorem readResult_held (s : State) (n : Port) {r : ReadRecord} {h : HoldNo} (hk : r.kind = .held h)
    (payload : Option (List Byte)) :
    s.readResult n r payload = [byteOf h.val, postByte r.post] ++ be16 r.key ++ be16 r.generation ++
      be16 (s.presentGeneration r.post r.key) ++ [byteOf r.length, s.heldCondition n h] ++ payload.getD [] := by
  simp only [State.readResult, hk]

/-- What the completion of an answered read leaves: `w` is the state before it, with the record ANSWERING. -/
theorem completeCommand_of_answering {w : State} {n : Port} {r : ReadRecord}
    (hr : w.reads[n] = some { r with phase := .answering }) (ho : w.ports[n].outstanding.isSome) {st : Status}
    {res : List Byte} {t : State} (ht : w.completeCommand n st res = t) :
    (w.ports[n].discard = false → t.reads = w.reads ∧ t.pool = w.pool) ∧
      (w.ports[n].discard = true → t.reads = put w.reads n none ∧
        t.pool = if r.pin then w.pool.release r.frame else w.pool) :=
  ht ▸ complete_read hr ho st res

theorem unchanged_answeringRead (s : State) (n : Port) (r : ReadRecord) (good : Bool) :
    Unchanged s (s.answeringRead n r good) [.reads, .pool] :=
  (unchanged_setRead s n _).and_then (unchanged_setPool _ _)

theorem damageRequest_of_current {s : State} {p : PostNo} {f : FrameNo} {o : Post} (c : DamageCause)
    (ho : s.posts[p] = some o) (hf : o.current.map Current.frame = some f) (hd : o.condition ≠ .damaged) :
    (s.damageRequest p f c).posts =
        put s.posts p (some { o with condition := .damaged, cause := some c, deadline := none }) ∧
      (c = .lapse → (s.damageRequest p f c).queues = s.queues) ∧
      (c = .check → NoticeSent s (s.damageRequest p f c) (.damaged p o.key .check) o.key .lifecycle none
        o.binding.boundPort) := by
  rcases damageRequest_cases s p f c with ⟨-, hno⟩ | ⟨r, hr, -, -, e⟩
  · rcases hno o ho with h | h
    · exact absurd hf h
    · exact absurd h hd
  · rw [ho, Option.some_inj] at hr
    subst hr
    rw [e]
    cases c with
    | check => exact ⟨rfl, nofun, fun _ => noticeSent_notify (s := s) (recipients_congr rfl rfl) rfl rfl⟩
    | lapse => exact ⟨rfl, fun _ => rfl, nofun⟩

theorem damageRequest_of_not_current {s : State} {p : PostNo} {f : FrameNo} (c : DamageCause)
    (h : ∀ o, s.posts[p] = some o → o.current.map Current.frame ≠ some f ∨ o.condition = .damaged) :
    s.damageRequest p f c = s := by
  rcases damageRequest_cases s p f c with ⟨e, -⟩ | ⟨r, hr, hf, hd, -⟩
  · exact e
  · rcases h r hr with h | h
    · exact absurd hf h
    · exact absurd h hd

/-- The queues of a later state are those that the notice has reached. -/
theorem noticeSent_of_queues {s u t : State} {x : Notice} {k : Half} {flag : FilterFlag} {acting fixed : Option Port}
    (h : NoticeSent s u x k flag acting fixed) (hq : t.queues = u.queues) : NoticeSent s t x k flag acting fixed := by
  unfold NoticeSent at *
  rwa [hq]

/-- The result of a read is that of the state in which its completion comes. -/
theorem readResult_answeringRead (s : State) (n : Port) (r : ReadRecord) (good : Bool) (x : Option (List Byte)) :
    (s.freeArray.answeringRead n r good).readResult n r x = s.readResult n r x :=
  readResult_congr n r x rfl fun _ _ => rfl

@[inherit_doc readResult_answeringRead]
theorem readResult_damageRequest (s : State) (n : Port) (r : ReadRecord) (good : Bool) (p : PostNo) (f : FrameNo)
    (c : DamageCause) (x : Option (List Byte)) :
    ((s.freeArray.answeringRead n r good).damageRequest p f c).readResult n r x = s.readResult n r x := by
  obtain ⟨-, -, -, -, hholds, hgeneration, -⟩ := damageRequest_frame (s.freeArray.answeringRead n r good) p f c
  exact (readResult_congr n r x hholds hgeneration).trans (readResult_answeringRead s n r good x)

/-- What an answered read leaves, whatever its answer: `w` is the state before its command completes. -/
theorem answeredRead_ends {s w t : State} {n : Port} {r : ReadRecord} {good : Bool} {st : Status} {res : List Byte}
    (hw : Unchanged (s.freeArray.answeringRead n r good) w [.posts, .queues]) (hlines : s.LinesLawful → w.LinesLawful)
    (ho : s.ports[n].outstanding.isSome) (ht : w.completeCommand n st res = t) :
    t.array = { s.array with access := none } ∧ (s.LinesLawful → t.LinesLawful) ∧ CompletedWith s t n st res ∧
      Unchanged w t [.ports, .pool, .reads] ∧
      (s.ports[n].discard = false → t.reads = put s.reads n (some { r with phase := .answering }) ∧
        t.pool = s.pool.setSuspect r.frame (s.pool.frames[r.frame].suspect || !good)) ∧
      (s.ports[n].discard = true → t.reads = put s.reads n none ∧
        t.pool = if r.pin then (s.pool.setSuspect r.frame (s.pool.frames[r.frame].suspect || !good)).release r.frame
          else s.pool.setSuspect r.frame (s.pool.frames[r.frame].suspect || !good)) := by
  have hreads : w.reads = put s.reads n (some { r with phase := .answering }) := hw .reads (by decide)
  have hpool : w.pool = s.pool.setSuspect r.frame (s.pool.frames[r.frame].suspect || !good) := hw .pool (by decide)
  have hports : w.ports = s.ports := hw .ports (by decide)
  have hrecord : w.reads[n] = some { r with phase := .answering } := by rw [hreads, getElem_put_self]
  obtain ⟨hkeep, hdiscard⟩ := completeCommand_of_answering hrecord (by rwa [hports]) ht
  rw [hports, hreads, hpool] at hkeep hdiscard
  rw [put_put] at hdiscard
  have hwt : Unchanged w t [.ports, .pool, .reads] := ht ▸ unchanged_completeCommand w n st res
  refine ⟨(hwt .array (by decide)).trans (hw .array (by decide)), fun hl => ?_, ?_, hwt, hkeep, hdiscard⟩
  · refine (hlines hl).of_same ?_ (hwt .sessions (by decide)) (hwt .queues (by decide))
    rw [← ht, State.completeCommand_pins]
  · exact completedWith_congr (completeCommand_completed w n st res) hports.symm (congrArg State.ports ht.symm)

/-- Settles O42: an answered read is GOOD on an unsuspected frame or damages the post; a read cut off ends without
regard to the row. -/
theorem readCompletionAnswers : Obligations.ReadCompletionAnswers := by
  refine ⟨fun s n r disturb haccess hr _ hcut ho => ?_, fun s n r disturb haccess hr hcut ho =>
    ⟨_, exec_readCompletion haccess hr, ?_⟩⟩
  · intro row good suspect header recorded
    refine ⟨s.freeArray.endRead n r row (rowAgrees row r.length r.post), exec_readCompletion haccess hr, ?_⟩
    have hgood : rowAgrees row r.length r.post = true ↔ good := rowAgrees_iff row r.length r.post
    have hdecide : decide good = rowAgrees row r.length r.post :=
      Bool.eq_iff_iff.2 (decide_eq_true_iff.trans hgood.symm)
    have hok : ∀ bytes, s.readResult n r (some bytes) = header ++ recorded ++ bytes := fun bytes => by
      cases hk : r.kind with
      | post b c => exact (readResult_post_ok s n hk bytes).trans (by simp only [header, recorded, hk])
      | held h =>
        refine (readResult_held s n hk (some bytes)).trans ?_
        simp only [header, recorded, hk]
        rfl
    have hdamaged : s.readResult n r none =
        header ++ match r.kind with | .post _ _ => [byteOf r.length] | .held _ => recorded := by
      cases hk : r.kind with
      | post b c => exact (readResult_post_damaged s n hk).trans (by simp only [header, hk])
      | held h =>
        refine (readResult_held s n hk none).trans ?_
        simp only [header, recorded, hk, Option.getD_none, List.append_nil]
        rfl
    rw [hdecide]
    generalize hg : rowAgrees row r.length r.post = g at hgood
    by_cases hbad : (suspect || !g) = true
    · generalize hw : (s.freeArray.answeringRead n r g).damageRequest r.post r.frame
        (if suspect then .lapse else .check) = w
      have hsame : Unchanged (s.freeArray.answeringRead n r g) w [.posts, .queues] :=
        hw ▸ damageRequest_unchanged _ _ _ _
      rw [endRead_of_bad (s := s.freeArray) hcut hbad hw.symm, ← hw, readResult_damageRequest, hw,
        hdamaged]
      obtain ⟨harray, hlines, hcompleted, hwt, hkeep, hdiscard⟩ := answeredRead_ends hsame
        (fun hl => hw ▸ damageRequest_linesLawful (s := s.freeArray.answeringRead n r g) hl _ _ _) ho rfl
      refine ⟨harray, hlines, fun ⟨hgood', hs⟩ => ?_, fun _ => ⟨hcompleted, ?_, fun o hpost hcurrent hcondition => ?_,
        fun hno => ?_⟩, hkeep, hdiscard⟩
      · rw [hgood.2 hgood', hs] at hbad
        cases hbad
      · exact unchanged_mono ((((unchanged_setArray s _).and_then (unchanged_answeringRead _ n r g)).and_then
          hsame).and_then hwt) (by decide)
      · obtain ⟨hposts, hlapse, hcheck⟩ := damageRequest_of_current (s := s.freeArray.answeringRead n r g)
          (if suspect then .lapse else .check) hpost hcurrent hcondition
        rw [hw] at hposts hlapse hcheck
        refine ⟨(hwt .posts (by decide)).trans hposts, fun hs => ?_, fun hs => ?_⟩
        · exact (hwt .queues (by decide)).trans (hlapse (if_pos hs))
        · exact noticeSent_of_queues (hcheck (if_neg (by rw [hs]; nofun))) (hwt .queues (by decide))
      · have hnone : w = s.freeArray.answeringRead n r g := hw ▸ damageRequest_of_not_current _ hno
        exact ⟨(hwt .posts (by decide)).trans (by rw [hnone]; rfl), (hwt .queues (by decide)).trans (by rw [hnone]; rfl)⟩
    · obtain ⟨hs, hg'⟩ : suspect = false ∧ g = true := by simpa using hbad
      subst hg'
      rw [endRead_of_good (s := s.freeArray) hcut hs, readResult_answeringRead, hok]
      obtain ⟨harray, hlines, hcompleted, hwt, hkeep, hdiscard⟩ :=
        answeredRead_ends (Unchanged.refl (s.freeArray.answeringRead n r true) _) id ho rfl
      refine ⟨harray, hlines, fun _ => ⟨hcompleted, ?_⟩, fun hc => ?_, hkeep, hdiscard⟩
      · exact unchanged_mono (((unchanged_setArray s _).and_then (unchanged_answeringRead _ n r true)).and_then hwt)
          (by decide)
      · rcases hc with hc | hc
        · exact absurd (hgood.1 rfl) hc
        · exact absurd (hs.symm.trans hc) nofun
  · rw [endRead_of_cutOff hcut]
    have hnone : (s.freeArray.setRead n none).reads[n] = none := getElem_put_self s.reads n none
    have hwt := unchanged_completeCommand_of_no_read hnone .sessionlost []
    refine ⟨hwt .array (by decide), hwt .reads (by decide), ?_, ?_, State.completeCommand_pins ..⟩
    · exact completedWith_congr (completeCommand_completed (s.freeArray.setRead n none) n .sessionlost []) rfl rfl
    · exact unchanged_mono (((unchanged_setArray s _).and_then (unchanged_setRead _ n none)).and_then hwt) (by decide)

end Sys2Proof.Machine
end

section
/-!
Frames that take nothing: BADCHECK, BADCMD, BUSY and BADFRAME (R151, R154, R157).
-/
namespace Sys2Proof.Machine
open Sys2Proof

section
variable {s : State} {n : Port} {code tag : Byte} {args check : List Byte}

/-- A length byte above 72 is judged BADFRAME, whatever follows it (R151). -/
theorem judge_of_long {len : Byte} (rest : List Byte) (h : 72 < len.toNat) :
    s.judge n (code :: tag :: len :: rest) = s.answerUntaken n .badframe tag :=
  if_pos h

/-- A whole frame of at most 72 argument bytes is judged by its CRC (R153, R154). -/
theorem judge_of_short (h : args.length ≤ 72) :
    s.judge n (code :: tag :: byteOf args.length :: (args ++ check)) =
      if check = be16 (crc16 (code :: tag :: byteOf args.length :: args)) then s.judgeGood n code tag args
      else s.answerUntaken n .badcheck tag := by
  have hlen : (byteOf args.length).toNat = args.length := byteOf_toNat (by omega)
  have hmax : ¬ Config.maxArgumentLength < args.length := Nat.not_lt.2 h
  simp only [State.judge, hlen, if_neg hmax, List.drop_left, List.take_left]

theorem judgeGood_of_unknown (h : ∀ c : Command, c.code ≠ code) :
    s.judgeGood n code tag args = (s.renewLease n).answerUntaken n .badcmd tag := by
  have hnone : Command.ofCode code = none :=
    find_none_of fun c _ => by simpa using h c
  simp only [State.judgeGood, hnone]

theorem judgeGood_of_busy {c : Command} (hc : c.code = code) (h : s.ports[n].outstanding.isSome = true) :
    s.judgeGood n code tag args = (s.renewLease n).answerUntaken n .busy tag := by
  subst hc
  have hport : (s.renewLease n).ports[n].outstanding.isSome = true := h
  simp only [State.judgeGood, ofCode_code, hport, if_true]

end

/-- The answer of a frame that has been taken in whole; `u` is the state with its bytes cleared. -/
theorem answeredUntaken_of {s u : State} {n : Port} (h : u.ports = put s.ports n s.ports[n].cleared) (st : Status)
    (tag : Byte) : AnsweredUntaken s (u.answerUntaken n st tag) n tag st := by
  have hport : u.ports[n] = s.ports[n].cleared := by rw [h, getElem_put_self]
  show put u.ports n _ = _
  rw [hport, h, put_put]
  rfl

theorem unchanged_answerUntaken (s : State) (n : Port) (st : Status) (tag : Byte) :
    Unchanged s (s.answerUntaken n st tag) [.ports] :=
  unchanged_setPort s n _

/-- An answer without any effect. -/
theorem untaken_only (s : State) (n : Port) (st : Status) (tag : Byte) :
    AnsweredUntaken s ((s.setPort n s.ports[n].cleared).answerUntaken n st tag) n tag st ∧
      Unchanged s ((s.setPort n s.ports[n].cleared).answerUntaken n st tag) [.ports] ∧
      ((s.setPort n s.ports[n].cleared).answerUntaken n st tag).pins = s.pins :=
  ⟨answeredUntaken_of rfl st tag,
    unchanged_mono ((unchanged_setPort s n _).and_then (unchanged_answerUntaken _ n st tag)) (by decide), rfl⟩

/-- An answer whose only effect is the lease report (R121). -/
theorem untaken_leased (s : State) (n : Port) (st : Status) (tag : Byte) :
    AnsweredUntaken s ((s.taking n).answerUntaken n st tag) n tag st ∧
      LeaseRenewed s ((s.taking n).answerUntaken n st tag) n ∧ ((s.taking n).answerUntaken n st tag).LinesLawful ∧
      Unchanged s ((s.taking n).answerUntaken n st tag) [.ports, .sessions] :=
  ⟨answeredUntaken_of rfl st tag, rfl, taking_lines s n,
    unchanged_mono ((unchanged_taking s n).and_then (unchanged_answerUntaken _ n st tag)) (by decide)⟩

/-- Settles O19: the frame is judged with the port's bytes cleared, and each judgment that takes nothing is an answer. -/
theorem untakenAndLongRequestsAnswered : Obligations.UntakenAndLongRequestsAnswered := by
  refine ⟨fun s n code tag args check hlisten hlen hcheck => ?_, fun s n code tag len rest hlisten hlong hrest => ?_⟩
  · intro bytes good
    have hclock : s.clockBytes n bytes =
        if good then (s.setPort n s.ports[n].cleared).judgeGood n code tag args
        else (s.setPort n s.ports[n].cleared).answerUntaken n .badcheck tag := by
      refine Eq.trans ?_ (judge_of_short hlen)
      refine clockBytes_frame hlisten code tag (byteOf args.length) (args ++ check) ?_
      rw [List.length_append, hcheck, byteOf_toNat (by omega)]
    have hexec : exec (.untakenRequest n bytes) s = .next (s.clockBytes n bytes) := rfl
    rw [hexec, hclock]
    refine ⟨fun hbad => ⟨_, rfl, ?_⟩, fun hgood hunknown => ⟨_, rfl, ?_⟩,
      fun hgood ⟨c, hc⟩ hbusy => ⟨_, rfl, ?_⟩⟩
    · rw [if_neg hbad]
      exact untaken_only s n .badcheck tag
    · rw [if_pos hgood, judgeGood_of_unknown hunknown]
      exact untaken_leased s n .badcmd tag
    · have hout : (s.setPort n s.ports[n].cleared).ports[n].outstanding.isSome = true := by
        rw [State.setPort_ports, getElem_put_self]
        exact hbusy
      rw [if_pos hgood, judgeGood_of_busy hc hout]
      exact untaken_leased s n .busy tag
  · have hclock : s.clockBytes n (code :: tag :: len :: rest) =
        (s.setPort n s.ports[n].cleared).answerUntaken n .badframe tag :=
      (clockBytes_frame hlisten code tag len rest hrest).trans (judge_of_long rest hlong)
    refine ⟨s.clockBytes n (code :: tag :: len :: rest), rfl, ?_⟩
    rw [hclock]
    exact untaken_only s n .badframe tag

end Sys2Proof.Machine
end

section
/-!
One command in progress on each port (R149): what interface, slot and read record of one port say of each other, kept by
the changes that an event makes to them.
-/
namespace Sys2Proof.Machine
open Sys2Proof

/-! ### One port -/

/-- `State.PortBusyLawful` as a statement about the interface, the slot and the read record of one port. -/
def BusyPort (x : PortInterface) (slot : Option Publication) (read : Option ReadRecord) : Prop :=
  x.Lawful ∧ (slot.isSome → read = none) ∧
    (x.outstanding.isSome ↔ slot.isSome ∨ ∃ r, read = some r ∧ r.running = true) ∧
    (∀ r, read = some r →
      (r.pin = !r.cutOff) ∧ (r.running = true → ∃ c, x.outstanding = some c ∧ c.isRead) ∧
        (r.running = false → x.state = .responding ∧ x.holdsReadResponse))

theorem portBusyLawful_iff (s : State) (n : Port) :
    s.PortBusyLawful n ↔ BusyPort s.ports[n] s.slots[n] s.reads[n] := Iff.rfl

section
variable {x : PortInterface} {slot : Option Publication} {read : Option ReadRecord}

/-- With no command outstanding the slot is empty. -/
theorem BusyPort.slot_eq_none (h : BusyPort x slot read) (ho : x.outstanding = none) : slot = none := by
  obtain ⟨-, -, hiff, -⟩ := h
  by_contra hs
  have := hiff.2 (.inl (Option.isSome_iff_ne_none.2 hs))
  rw [ho] at this
  cases this

/-- A record whose read has completed stands only while its response is held (R68). -/
theorem BusyPort.read_eq_none (h : BusyPort x slot read) (ho : x.outstanding = none)
    (hr : x.state ≠ .responding ∨ ¬ x.holdsReadResponse) : read = none := by
  obtain ⟨-, -, -, hread⟩ := h
  cases hrd : read with
  | none => rfl
  | some r =>
    obtain ⟨-, hrun, hdone⟩ := hread r hrd
    cases hb : r.running with
    | true =>
      obtain ⟨c, hc, -⟩ := hrun hb
      rw [ho] at hc
      cases hc
    | false =>
      obtain ⟨hstate, hholds⟩ := hdone hb
      rcases hr with hr | hr
      · exact absurd hstate hr
      · exact absurd hholds hr

/-- The state of a port that receives a request with no command outstanding is RECEIVING. -/
theorem PortInterface.Lawful.receiving (h : x.Lawful) (hr : x.isReceiving = true) (ho : x.outstanding = none) :
    x.state = .receiving := by
  obtain ⟨hout, -⟩ := h
  unfold PortInterface.isReceiving at hr
  rw [Bool.or_eq_true, decide_eq_true_eq, decide_eq_true_eq] at hr
  rcases hr with hr | ⟨hr, -⟩
  · exact hr
  · have := hout.2 (.inr hr)
    rw [ho] at this
    cases this

/-- A port that receives a request with no command outstanding has an empty slot and an empty read record. -/
theorem BusyPort.free (h : BusyPort x slot read) (hr : x.isReceiving = true) (ho : x.outstanding = none) :
    x.state = .receiving ∧ slot = none ∧ read = none := by
  have hstate := h.1.receiving hr ho
  exact ⟨hstate, h.slot_eq_none ho, h.read_eq_none ho (.inl (by rw [hstate]; nofun))⟩

/-- A port with no command outstanding, empty slot and empty record, whose interface is lawful. -/
theorem BusyPort.idle (hx : x.Lawful) (ho : x.outstanding = none) : BusyPort x none none :=
  ⟨hx, nofun, by simp [ho], nofun⟩

/-- The law looks only at whether the slot is in use. -/
theorem BusyPort.of_slot (h : BusyPort x slot read) {slot' : Option Publication} (hs : slot'.isSome = slot.isSome) :
    BusyPort x slot' read := by
  unfold BusyPort at *
  rwa [hs]

/-- Bytes taken in or clocked out are not looked at. -/
theorem BusyPort.of_similar (h : BusyPort x slot read) {y : PortInterface} (hy : x.Similar y) :
    BusyPort y slot read := by
  obtain ⟨hstate, hside, hout, hdiscard, -, hresponse⟩ := hy
  have hsome : y.response.isSome = x.response.isSome := by
    simpa using congrArg Option.isSome hresponse
  have hcommand : ∀ h', y.response = some h' → ∃ h, x.response = some h ∧ h.command = h'.command := by
    intro h' hh'
    rw [hh', Option.map_some] at hresponse
    exact Option.map_eq_some_iff.1 hresponse.symm
  have hcommand' : ∀ h', x.response = some h' → ∃ h, y.response = some h ∧ h.command = h'.command := by
    intro h' hh'
    rw [hh', Option.map_some] at hresponse
    exact Option.map_eq_some_iff.1 hresponse
  obtain ⟨⟨h1, h2, h3, h4, h5⟩, hslot, hiff, hread⟩ := h
  refine ⟨⟨?_, ?_, ?_, ?_, ?_⟩, hslot, by rwa [hout], fun r hr => ?_⟩
  · rwa [hout, hstate]
  · rwa [hdiscard, hstate]
  · rwa [hside, hstate]
  · rwa [hsome, hstate, hside]
  · intro hd h' hh'
    obtain ⟨h, hh, e⟩ := hcommand h' hh'
    rw [← e]
    exact h5 (hstate ▸ hd) h hh
  · obtain ⟨hpin, hrun, hdone⟩ := hread r hr
    refine ⟨hpin, by rwa [hout], fun hr' => ?_⟩
    obtain ⟨hst, h, c, hh, hc, hi⟩ := hdone hr'
    obtain ⟨h', hh', e⟩ := hcommand' h hh
    exact ⟨by rwa [hstate], h', c, hh', by rw [e, hc], hi⟩

/-- The answer to a frame that takes nothing is held (R154, R157). -/
theorem BusyPort.answering_untaken (h : BusyPort x slot read) (hr : x.isReceiving = true) (frame : List Byte) :
    BusyPort (x.answering frame none) slot read := by
  obtain ⟨⟨h1, h2, h3, h4, h5⟩, hslot, hiff, hread⟩ := h
  unfold PortInterface.isReceiving at hr
  rw [Bool.or_eq_true, decide_eq_true_eq, decide_eq_true_eq] at hr
  have hread' : ∀ r, read = some r → (r.pin = !r.cutOff) ∧
      (r.running = true → ∃ c, x.outstanding = some c ∧ c.isRead) ∧
      (r.running = false → (x.answering frame none).state = .responding ∧
        (x.answering frame none).holdsReadResponse) := by
    intro r hrd
    obtain ⟨hpin, hrun, hdone⟩ := hread r hrd
    refine ⟨hpin, hrun, fun hrf => ?_⟩
    have := (hdone hrf).1
    rcases hr with hr | ⟨hr, -⟩ <;> rw [hr] at this <;> cases this
  refine ⟨⟨?_, ?_, ?_, ?_, ?_⟩, hslot, hiff, hread'⟩ <;>
    rcases hr with hr | ⟨hr, hside⟩ <;> simp_all [PortInterface.answering]

end

/-! ### The interface, state by state (R148, R157) -/

section
variable {x : PortInterface}

theorem PortInterface.lawful_of_free (he : x.state ≠ .executing) (hd : x.state ≠ .draining) (ho : x.outstanding = none)
    (hdiscard : x.discard = false) (hside : x.side = .none) (hr : x.response ≠ none → x.state = .responding) :
    x.Lawful := by
  refine ⟨?_, ?_, fun h => absurd hside h, fun h => .inl (hr (Option.isSome_iff_ne_none.1 h)), fun h => absurd h hd⟩
  · simp [ho, he, hd]
  · simp [hdiscard, hd]

theorem PortInterface.lawful_of_executing (he : x.state = .executing) (ho : x.outstanding.isSome = true)
    (hdiscard : x.discard = false) (hside : x.side = .none) (hr : x.response = none) : x.Lawful := by
  refine ⟨?_, ?_, fun h => absurd hside h, fun h => ?_, fun h => ?_⟩
  · simp [ho, he]
  · simp [hdiscard, he]
  · rw [hr] at h
    cases h
  · rw [he] at h
    cases h

theorem PortInterface.lawful_of_draining (hd : x.state = .draining) (ho : x.outstanding.isSome = true)
    (hdiscard : x.discard = true) (hr : ∀ h, x.response = some h → x.side = .answering ∧ h.command = none) :
    x.Lawful := by
  refine ⟨?_, ?_, fun _ => hd, fun h => ?_, fun _ h hh => (hr h hh).2⟩
  · simp [ho, hd]
  · simp [hdiscard, hd]
  · obtain ⟨y, hy⟩ := Option.isSome_iff_exists.1 h
    exact .inr ⟨hd, (hr y hy).1⟩

section
variable (h : x.Lawful)
include h

/-- An interface that neither executes nor drains has nothing outstanding, no mark and no side transaction. -/
theorem PortInterface.Lawful.free (he : x.state ≠ .executing) (hd : x.state ≠ .draining) :
    x.outstanding = none ∧ x.discard = false ∧ x.side = .none := by
  obtain ⟨hout, hdiscard, hside, -⟩ := h
  refine ⟨?_, ?_, ?_⟩
  · rw [← Option.not_isSome_iff_eq_none, hout]
    rintro (hs | hs)
    · exact he hs
    · exact hd hs
  · rw [← Bool.not_eq_true, hdiscard]
    exact hd
  · by_contra hne
    exact hd (hside hne)

theorem PortInterface.Lawful.executing (he : x.state = .executing) :
    x.outstanding.isSome = true ∧ x.discard = false ∧ x.side = .none ∧ x.response = none := by
  obtain ⟨hout, hdiscard, hside, hresponse, -⟩ := h
  refine ⟨hout.2 (.inl he), ?_, ?_, ?_⟩
  · rw [← Bool.not_eq_true, hdiscard, he]
    nofun
  · by_contra hne
    exact absurd (he.symm.trans (hside hne)) nofun
  · by_contra hne
    rcases hresponse (Option.isSome_iff_ne_none.2 hne) with hs | ⟨hs, -⟩
    · exact absurd (he.symm.trans hs) nofun
    · exact absurd (he.symm.trans hs) nofun

theorem PortInterface.Lawful.draining (hd : x.state = .draining) :
    x.outstanding.isSome = true ∧ x.discard = true ∧
      ∀ y, x.response = some y → x.side = .answering ∧ y.command = none := by
  obtain ⟨hout, hdiscard, -, hresponse, hcommand⟩ := h
  refine ⟨hout.2 (.inr hd), hdiscard.2 hd, fun y hy => ⟨?_, hcommand hd y hy⟩⟩
  rcases hresponse (by rw [hy]; rfl) with hs | ⟨-, hside⟩
  · exact absurd (hd.symm.trans hs) nofun
  · exact hside

/-- A response is held only by a port that answers. -/
theorem PortInterface.Lawful.response_eq_none (hr : x.isAnswering = false) : x.response = none := by
  obtain ⟨-, -, -, hresponse, -⟩ := h
  by_contra hne
  have := (isAnswering_iff x).2 (hresponse (Option.isSome_iff_ne_none.2 hne))
  rw [hr] at this
  cases this

/-- With a command outstanding the port executes it, or drains with the discard mark set. -/
theorem PortInterface.Lawful.of_outstanding (ho : x.outstanding.isSome = true) :
    (x.state = .executing ∧ x.discard = false) ∨ (x.state = .draining ∧ x.discard = true) := by
  rcases h.1.1 ho with hs | hs
  · exact .inl ⟨hs, (h.executing hs).2.1⟩
  · exact .inr ⟨hs, (h.draining hs).2.1⟩

end

/-! ### What the events make of an interface -/

/-- The interface when its outstanding command `c` has completed and its response is held (R155). -/
def PortInterface.completed (x : PortInterface) (c : CommandTag) (frame : List Byte) : PortInterface :=
  { x with
    outstanding := none, state := .responding, response := some { frame := frame, clocked := 0, command := some c } }

/-- The interface when its outstanding command has completed with the discard mark set (R156, R157). -/
def PortInterface.resumed (x : PortInterface) : PortInterface :=
  { x with outstanding := none, discard := false, state := x.side.resumed, side := .none }

theorem PortInterface.Lawful.completed (h : x.Lawful) (hd : x.discard = false) (ho : x.outstanding.isSome = true)
    (c : CommandTag) (frame : List Byte) :
    (x.completed c frame).Lawful ∧ (x.completed c frame).inTransaction = x.inTransaction := by
  rcases h.of_outstanding ho with ⟨hs, -⟩ | ⟨-, hd'⟩
  · obtain ⟨-, -, hside, -⟩ := h.executing hs
    refine ⟨PortInterface.lawful_of_free nofun nofun rfl hd hside fun _ => rfl, ?_⟩
    simp only [PortInterface.inTransaction, PortInterface.completed, hs]
  · exact absurd (hd.symm.trans hd') nofun

/-- The side transaction of a DRAINING port goes on as a transaction (R157). -/
theorem PortInterface.Lawful.resumed (h : x.Lawful) (hd : x.discard = true) :
    x.resumed.Lawful ∧ x.resumed.inTransaction = x.inTransaction := by
  have hs : x.state = .draining := h.2.1.1 hd
  obtain ⟨-, -, hresponse⟩ := h.draining hs
  refine ⟨PortInterface.lawful_of_free ?_ ?_ rfl rfl rfl fun hne => ?_, ?_⟩
  · show x.side.resumed ≠ _
    cases x.side <;> nofun
  · show x.side.resumed ≠ _
    cases x.side <;> nofun
  · obtain ⟨y, hy⟩ := Option.ne_none_iff_exists'.1 hne
    show x.side.resumed = _
    rw [(hresponse y hy).1]
    rfl
  · simp only [PortInterface.inTransaction, PortInterface.resumed, hs]
    cases x.side <;> rfl

end

/-! ### The four ports -/

/-- The publications are those of `s` but for their overtaken marks: each is in the same phase. -/
def SamePhases (s t : State) : Prop := ∀ m : Port, t.slots[m].map Publication.phase = s.slots[m].map Publication.phase

theorem isSome_of_phase {a b : Option Publication} (h : a.map Publication.phase = b.map Publication.phase) :
    a.isSome = b.isSome := by
  simpa using congrArg Option.isSome h

section
variable {s t : State}

/-- Only port `n` has changed. -/
theorem State.BusyLawful.of_port (h : s.BusyLawful) {n : Port}
    (hother : ∀ m : Port, m ≠ n → t.ports[m] = s.ports[m] ∧
      t.slots[m].map Publication.phase = s.slots[m].map Publication.phase ∧ t.reads[m] = s.reads[m])
    (hn : BusyPort t.ports[n] t.slots[n] t.reads[n]) : t.BusyLawful := by
  intro m
  by_cases hm : m = n
  · subst hm
    exact hn
  · obtain ⟨hports, hslots, hreads⟩ := hother m hm
    rw [portBusyLawful_iff, hports, hreads]
    exact BusyPort.of_slot (h m) (isSome_of_phase hslots)

theorem State.BusyLawful.of_same (h : s.BusyLawful) (hports : t.ports = s.ports) (hslots : SamePhases s t)
    (hreads : t.reads = s.reads) : t.BusyLawful := by
  intro m
  rw [portBusyLawful_iff, hports, hreads]
  exact BusyPort.of_slot (h m) (isSome_of_phase (hslots m))

end

theorem SamePhases.of_slots {s t : State} (h : t.slots = s.slots) : SamePhases s t := fun m => by rw [h]

theorem SamePhases.overtakeSlots {s t : State} {i : Option InFlight} {c : OvertakeCause}
    (h : t.slots = overtakeSlots i c s.slots) : SamePhases s t := by
  intro m
  rw [h, getElem_overtakeSlots]
  split_ifs
  · cases s.slots[m] <;> rfl
  · rfl

theorem detachPort_samePhases (s : State) (n : Port) (c : DetachCause) : SamePhases s (s.detachPort n c) := by
  obtain ⟨⟨-, -, hslots, -⟩, -⟩ := detachPort_detached s n c
  intro m
  rw [hslots m]
  split_ifs
  · cases s.slots[m] <;> rfl
  · rfl

/-! ### What a taken command makes of slot, record and place -/

/-- A command that is taken on a port without a read record completes at once and leaves slots, records and places, or
is a PUBLISH, a READ or a READ HELD that goes on. -/
theorem Taken.progress {n : Port} {s t : State} {c : Command} {reply : Reply} (h : Taken n s c t reply)
    (hread : s.reads[n] = none) :
    t.ports = s.ports ∧ t.array = s.array ∧ t.selected = s.selected ∧
      ((∃ st res, reply = .done st res ∧ SamePhases s t ∧ t.reads = s.reads ∧ t.arbiter = s.arbiter) ∨
        (reply = .executing ∧ t.reads = s.reads ∧
          t.arbiter.places = put s.arbiter.places n (some .write) ∧
          ∃ x, x.phase = .waiting ∧ t.slots = put s.slots n (some x)) ∨
        (reply = .executing ∧ t.slots = s.slots ∧ t.arbiter.places = put s.arbiter.places n (some .read) ∧
          (c = .read ∨ c = .readHeld) ∧
          ∃ r, r.phase = .waiting ∧ r.pin = true ∧ r.cutOff = false ∧ t.reads = put s.reads n (some r))) := by
  cases h with
  | detach =>
    have hreads : (s.detachPort n .detach).reads = s.reads := by
      show put s.reads n (s.reads[n].bind ReadRecord.detached) = s.reads
      rw [hread]
      exact (congrArg (put s.reads n) hread.symm).trans (put_self s.reads n)
    exact ⟨rfl, rfl, rfl, .inl ⟨_, _, rfl, detachPort_samePhases s n _, hreads, rfl⟩⟩
  | vacate p r b res => exact ⟨rfl, rfl, rfl, .inl ⟨_, _, rfl, SamePhases.overtakeSlots rfl, rfl, rfl⟩⟩
  | publish p r payload f x low =>
    refine ⟨State.takePublish_ports .., State.takePublish_array .., ?_, .inr (.inl ⟨rfl, State.takePublish_reads ..,
      by rw [State.takePublish_arbiter], _, rfl, State.takePublish_slots ..⟩)⟩
    cases low <;> rfl
  | read r hcommand ha hphase hpin hcut =>
    exact ⟨rfl, rfl, rfl, .inr (.inr ⟨rfl, rfl, rfl, hcommand, r, hphase, hpin, hcut, rfl⟩)⟩
  | takeover p r q res =>
    refine ⟨State.takeOver_ports .., State.takeOver_array .., ?_, .inl ⟨_, _, rfl,
      SamePhases.overtakeSlots (State.takeOver_slots ..), State.takeOver_reads .., State.takeOver_arbiter ..⟩⟩
    simp only [State.takeOver, State.resolicit]
    split <;> rfl
  | _ => exact ⟨rfl, rfl, rfl, .inl ⟨_, _, rfl, SamePhases.of_slots rfl, rfl, rfl⟩⟩

/-! ### The law of one command through the bytes on a port -/

section
variable {x : PortInterface} {slot : Option Publication} {read : Option ReadRecord}

/-- A RESPONDING port has an empty slot, and no read record but that of the response held. -/
theorem BusyPort.of_responding (h : BusyPort x slot read) (hx : x.state = .responding) :
    slot = none ∧ (read = none ∨ ∃ r, read = some r ∧ r.phase = .answering ∧ x.holdsReadResponse) := by
  have ho : x.outstanding = none := (h.1.free (by rw [hx]; nofun) (by rw [hx]; nofun)).1
  refine ⟨h.slot_eq_none ho, ?_⟩
  by_cases hh : x.holdsReadResponse
  · cases hr : read with
    | none => exact .inl rfl
    | some r =>
      refine .inr ⟨r, rfl, ?_, hh⟩
      obtain ⟨-, hrun, -⟩ := h.2.2.2 r hr
      by_contra hne
      obtain ⟨c, hc, -⟩ := hrun (decide_eq_true hne)
      rw [ho] at hc
      cases hc
  · exact .inl (h.read_eq_none ho (.inr hh))

/-- Only a RESPONDING port holds the response of a read. -/
theorem BusyPort.not_holds (h : BusyPort x slot read) (hx : x.state ≠ .responding) : ¬ x.holdsReadResponse := by
  rintro ⟨y, c, hy, hc, -⟩
  obtain ⟨-, -, -, hresponse, hcommand⟩ := h.1
  rcases hresponse (by rw [hy]; rfl) with hs | ⟨hs, -⟩
  · exact hx hs
  · rw [hcommand hs y hy] at hc
    cases hc

/-- A record on a port that is not RESPONDING is of a read that has not completed. -/
theorem BusyPort.running (h : BusyPort x slot read) (hx : x.state ≠ .responding) {r : ReadRecord} (hr : read = some r) :
    r.running = true := by
  obtain ⟨-, -, hdone⟩ := h.2.2.2 r hr
  by_contra hne
  exact hx (hdone (Bool.not_eq_true _ ▸ hne)).1

/-- A port that is not RESPONDING, with what it has outstanding unchanged. -/
theorem BusyPort.of_interface (h : BusyPort x slot read) (hx : x.state ≠ .responding) {y : PortInterface}
    (hy : y.Lawful) (ho : y.outstanding = x.outstanding) : BusyPort y slot read := by
  obtain ⟨-, hslot, hout, hread⟩ := id h
  refine ⟨hy, hslot, by rwa [ho], fun r hr => ?_⟩
  obtain ⟨hpin, hrun, -⟩ := hread r hr
  refine ⟨hpin, by rwa [ho], fun hdone => ?_⟩
  rw [h.running hx hr] at hdone
  cases hdone

end

theorem PortInterface.holdsReadResponse_congr {x y : PortInterface} (h : y.response = x.response) :
    y.holdsReadResponse ↔ x.holdsReadResponse := by
  unfold PortInterface.holdsReadResponse
  rw [h]

section
variable {s : State} {n : Port} {x : PortInterface}

/-- The end of a response on a port that was RESPONDING leaves no record (R68). -/
theorem finishResponse_reads_of_responding (h : BusyPort x s.slots[n] s.reads[n]) (hx : x.state = .responding)
    (hr : s.ports[n].response = x.response) : (s.finishResponse n).reads = put s.reads n none := by
  obtain ⟨-, hnone | ⟨r, hread, hphase, hholds⟩⟩ := h.of_responding hx
  · by_cases hh : s.ports[n].holdsReadResponse
    · rw [finishResponse_reads_of_holds hh, hnone]
      rfl
    · rw [finishResponse_reads_of_not_holds hh, ← hnone, put_self]
  · rw [finishResponse_reads_of_holds ((PortInterface.holdsReadResponse_congr hr).2 hholds), hread,
      finishedRecord_of_answering hphase]

theorem finishResponse_reads_of_other (h : BusyPort x s.slots[n] s.reads[n]) (hx : x.state ≠ .responding)
    (hr : s.ports[n].response = x.response) : (s.finishResponse n).reads = s.reads :=
  finishResponse_reads_of_not_holds fun hh => h.not_holds hx ((PortInterface.holdsReadResponse_congr hr).1 hh)

end

theorem State.BusyLawful.setPort {s : State} (h : s.BusyLawful) {n : Port} {x : PortInterface}
    (hx : BusyPort x s.slots[n] s.reads[n]) : (s.setPort n x).BusyLawful :=
  h.of_port (n := n) (fun _ hm => ⟨getElem_put_of_ne _ _ hm, rfl, rfl⟩)
    (by rw [State.setPort_ports, getElem_put_self]; exact hx)

/-- The interface of port `n` has become `x`, its slot is empty, and so is its record. -/
theorem State.BusyLawful.of_free {s t : State} (h : s.BusyLawful) {n : Port} {x : PortInterface}
    (hports : t.ports = put s.ports n x) (hslots : SamePhases s t) (hslot : s.slots[n] = none)
    (hreads : t.reads = put s.reads n none) (hx : x.Lawful) (ho : x.outstanding = none) : t.BusyLawful := by
  have hnone : t.slots[n] = none := by
    have := hslots n
    rw [hslot] at this
    exact Option.map_eq_none_iff.1 this
  refine h.of_port (n := n) (fun m hm => ⟨?_, hslots m, ?_⟩) ?_
  · rw [hports, getElem_put_of_ne _ _ hm]
  · rw [hreads, getElem_put_of_ne _ _ hm]
  · rw [hports, hreads, getElem_put_self, getElem_put_self, hnone]
    exact BusyPort.idle hx ho

/-- A response held for a port that was RECEIVING. -/
theorem PortInterface.Lawful.answering {x : PortInterface} (h : x.Lawful) (hx : x.state = .receiving)
    (frame : List Byte) (c : Option CommandTag) :
    (x.answering frame c).Lawful ∧ (x.answering frame c).outstanding = none := by
  have hne : x.state ≠ .draining := by rw [hx]; nofun
  obtain ⟨ho, hdiscard, hside⟩ := h.free (by rw [hx]; nofun) hne
  have hstate : (x.answering frame c).state = .responding := if_neg hne
  refine ⟨PortInterface.lawful_of_free (by rw [hstate]; nofun) (by rw [hstate]; nofun) ho hdiscard ?_ fun _ => hstate, ho⟩
  exact (if_neg hne).trans hside

theorem PortInterface.Lawful.executes {x : PortInterface} (h : x.Lawful) (hx : x.state = .receiving) (c : CommandTag) :
    ({ x with state := .executing, outstanding := some c } : PortInterface).Lawful := by
  obtain ⟨-, hdiscard, hside⟩ := h.free (by rw [hx]; nofun) (by rw [hx]; nofun)
  refine PortInterface.lawful_of_executing rfl rfl hdiscard hside (h.response_eq_none ?_)
  rw [← Bool.not_eq_true, isAnswering_iff, hx]
  rintro (h | ⟨h, -⟩) <;> cases h

theorem CommandTag.isRead_of {tag : Byte} {c : Command} (h : c = .read ∨ c = .readHeld) :
    ({ tag := tag, code := c.code } : CommandTag).isRead := by
  rcases h with rfl | rfl
  · exact .inl rfl
  · exact .inr rfl

theorem busyLawful_take {s : State} (h : s.BusyLawful) (n : Port) (c : Command) (args : List Byte) (tag : Byte)
    (hr : s.ports[n].isReceiving = true) (ho : s.ports[n].outstanding = none) :
    ((takeCommand n c args s).1.afterTaking n { tag := tag, code := c.code } (takeCommand n c args s).2).BusyLawful := by
  obtain ⟨hstate, hslot, hread⟩ := BusyPort.free (h n) hr ho
  have hx : s.ports[n].Lawful := (h n).1
  have htaken := takeCommand_taken n c args s
  generalize (takeCommand n c args s).1 = t, (takeCommand n c args s).2 = reply at htaken
  obtain ⟨hports, -, -, ⟨st, res, rfl, hslots, hreads, -⟩ | ⟨rfl, hreads, -, x, -, hslots⟩ |
    ⟨rfl, hslots, -, hcommand, r, hphase, hpin, hcut, hreads⟩⟩ := htaken.progress hread
  · have hports' : (t.setPort n (t.ports[n].answering (responseFrame st tag res) (some { tag := tag, code := c.code }))).ports =
        put s.ports n (s.ports[n].answering (responseFrame st tag res) (some { tag := tag, code := c.code })) := by
      rw [State.setPort_ports, hports]
    obtain ⟨hlawful, hout⟩ := hx.answering hstate (responseFrame st tag res) (some { tag := tag, code := c.code })
    refine h.of_free hports' hslots hslot ?_ hlawful hout
    show t.reads = _
    rw [hreads, ← hread, put_self]
  · have hlawful := hx.executes hstate { tag := tag, code := c.code }
    refine h.of_port (n := n) (fun m hm => ⟨?_, ?_, ?_⟩) ?_
    · exact (getElem_put_of_ne _ _ hm).trans (by rw [hports])
    · show t.slots[m].map _ = _
      rw [hslots, getElem_put_of_ne _ _ hm]
    · show t.reads[m] = _
      rw [hreads]
    · show BusyPort (put t.ports n _)[n] t.slots[n] t.reads[n]
      rw [getElem_put_self, hports, hslots, getElem_put_self, hreads, hread]
      exact ⟨hlawful, fun _ => rfl, iff_of_true rfl (.inl rfl), nofun⟩
  · have hlawful := hx.executes hstate { tag := tag, code := c.code }
    refine h.of_port (n := n) (fun m hm => ⟨?_, ?_, ?_⟩) ?_
    · exact (getElem_put_of_ne _ _ hm).trans (by rw [hports])
    · show t.slots[m].map _ = _
      rw [hslots]
    · show t.reads[m] = _
      rw [hreads, getElem_put_of_ne _ _ hm]
    · show BusyPort (put t.ports n _)[n] t.slots[n] t.reads[n]
      rw [getElem_put_self, hports, hslots, hslot, hreads, getElem_put_self]
      have hrun : r.running = true := decide_eq_true (by rw [hphase]; nofun)
      refine ⟨hlawful, nofun, iff_of_true rfl (.inr ⟨r, rfl, hrun⟩), fun r' hr' => ?_⟩
      cases hr'
      refine ⟨by rw [hpin, hcut]; rfl, fun _ => ⟨_, rfl, CommandTag.isRead_of hcommand⟩, fun hdone => ?_⟩
      rw [hrun] at hdone
      cases hdone

theorem busyLawful_finish {s : State} (h : s.BusyLawful) (n : Port) (ha : s.ports[n].isAnswering = true) :
    (s.finishResponse n).BusyLawful := by
  have hx : s.ports[n].Lawful := (h n).1
  have hports := finishResponse_ports s n
  have hslots : (s.finishResponse n).slots = s.slots := State.finishResponse_slots s n
  rcases (isAnswering_iff _).1 ha with hs | ⟨hs, hside⟩
  · obtain ⟨ho, hdiscard, hside⟩ := hx.free (by rw [hs]; nofun) (by rw [hs]; nofun)
    have hlawful : ({ s.ports[n] with response := none } : PortInterface).Lawful :=
      PortInterface.lawful_of_free (by rw [hs]; nofun) (by rw [hs]; nofun) ho hdiscard hside fun hne => absurd rfl hne
    exact h.of_free hports (.of_slots hslots) (BusyPort.slot_eq_none (h n) ho)
      (finishResponse_reads_of_responding (h n) hs rfl) hlawful ho
  · have hne : s.ports[n].state ≠ .responding := by rw [hs]; nofun
    obtain ⟨ho, hdiscard, -⟩ := hx.draining hs
    have hlawful : ({ s.ports[n] with response := none } : PortInterface).Lawful :=
      PortInterface.lawful_of_draining hs ho hdiscard nofun
    have hreads := finishResponse_reads_of_other (h n) hne rfl
    refine h.of_port (n := n) (fun m hm => ⟨?_, by rw [hslots], by rw [hreads]⟩) ?_
    · rw [hports, getElem_put_of_ne _ _ hm]
    · rw [hports, getElem_put_self, hslots, hreads]
      exact BusyPort.of_interface (h n) hne hlawful rfl

theorem busyLawful_bytes : KeptByBytes State.BusyLawful where
  bytes _ _ _ hx h := h.setPort (BusyPort.of_similar (h _) hx)
  lease _ _ h := h.of_same rfl (.of_slots rfl) rfl
  untaken _ _ _ _ hr h := h.setPort (BusyPort.answering_untaken (h _) hr _)
  take _ n c args tag hr ho h := busyLawful_take h n c args tag hr ho
  finish _ n ha h := busyLawful_finish h n ha

end Sys2Proof.Machine
end

section
/-!
The step law of R26, R62, R137, R148 and R149 (O12): besides the law of one command per port, what the ports ask of the
arbiter and have of the array, and that no transaction is in progress on a port that is not selected.
-/
namespace Sys2Proof.Machine
open Sys2Proof

/-! ### What a port asks of the arbiter and has of the array -/

/-- `State.AccessLawful` as a statement about one port. -/
def AccessPort (n : Port) (place : Option PortRequest) (access : Option Access) (slot : Option WritePhase)
    (read : Option ReadPhase) : Prop :=
  (place = some .write ↔ slot = some .waiting) ∧ (place = some .read ↔ read = some .waiting) ∧
    (access = some (.write n) ↔ slot = some .writing) ∧ (access = some (.read n) ↔ read = some .reading)

section
variable {s t : State}

/-- Only port `n` has changed, and the array belongs to another port as before. -/
theorem State.AccessLawful.of_port (h : s.AccessLawful) {n : Port}
    (hother : ∀ m : Port, m ≠ n → t.arbiter.places[m] = s.arbiter.places[m] ∧
      t.slots[m].map Publication.phase = s.slots[m].map Publication.phase ∧ t.reads[m] = s.reads[m])
    (haccess : ∀ m : Port, m ≠ n → (t.array.access = some (.write m) ↔ s.array.access = some (.write m)) ∧
      (t.array.access = some (.read m) ↔ s.array.access = some (.read m)))
    (hn : AccessPort n t.arbiter.places[n] t.array.access (t.slots[n].map Publication.phase)
      (t.reads[n].map ReadRecord.phase)) : t.AccessLawful := by
  intro m
  by_cases hm : m = n
  · subst hm
    exact hn
  · obtain ⟨hplaces, hslots, hreads⟩ := hother m hm
    obtain ⟨hwrite, hread⟩ := haccess m hm
    rw [hplaces, hslots, hreads, hwrite, hread]
    exact h m

theorem State.AccessLawful.of_same (h : s.AccessLawful) (hplaces : t.arbiter.places = s.arbiter.places)
    (haccess : t.array.access = s.array.access) (hslots : SamePhases s t)
    (hreads : ∀ m : Port, ∀ ph, ph ≠ .answering →
      (t.reads[m].map ReadRecord.phase = some ph ↔ s.reads[m].map ReadRecord.phase = some ph)) : t.AccessLawful := by
  intro m
  rw [hplaces, haccess, hslots m, hreads m .waiting nofun, hreads m .reading nofun]
  exact h m

end

/-- Records stay but for those of completed reads. -/
theorem finishedRecord_phase (o : Option ReadRecord) {ph : ReadPhase} (hph : ph ≠ .answering) :
    (finishedRecord o).map ReadRecord.phase = some ph ↔ o.map ReadRecord.phase = some ph := by
  cases o with
  | none => exact Iff.rfl
  | some r =>
    unfold finishedRecord
    by_cases h : r.phase = .answering
    · simp only [h, if_true, Option.map_none, Option.map_some, Option.some_inj]
      exact ⟨nofun, fun e => absurd e.symm hph⟩
    · simp only [h, if_false]

theorem detached_phase (o : Option ReadRecord) {ph : ReadPhase} (hph : ph ≠ .answering) :
    (o.bind ReadRecord.detached).map ReadRecord.phase = some ph ↔ o.map ReadRecord.phase = some ph := by
  cases o with
  | none => exact Iff.rfl
  | some r =>
    rw [Option.bind_some]
    cases h : r.phase with
    | answering =>
      simp only [ReadRecord.detached, h, Option.map_none, Option.map_some, Option.some_inj]
      exact ⟨nofun, fun e => absurd e.symm hph⟩
    | waiting => simp only [ReadRecord.detached, h, Option.map_some]
    | reading => simp only [ReadRecord.detached, h, Option.map_some]

/-- The record of port `n` becomes `x`, which is in the same phase or that of a read that has completed. -/
theorem phase_put {reads : Vector (Option ReadRecord) 4} {n : Port} {x : Option ReadRecord}
    (hx : ∀ ph, ph ≠ .answering → (x.map ReadRecord.phase = some ph ↔ reads[n].map ReadRecord.phase = some ph))
    (m : Port) (ph : ReadPhase) (hph : ph ≠ .answering) :
    (put reads n x)[m].map ReadRecord.phase = some ph ↔ reads[m].map ReadRecord.phase = some ph := by
  by_cases hm : m = n
  · subst hm
    rw [getElem_put_self]
    exact hx ph hph
  · rw [getElem_put_of_ne _ _ hm]

theorem State.AccessLawful.finishResponse {s : State} (h : s.AccessLawful) (n : Port) :
    (s.finishResponse n).AccessLawful := by
  refine h.of_same (by rw [State.finishResponse_arbiter]) (by rw [State.finishResponse_array])
    (.of_slots (State.finishResponse_slots s n)) fun m ph hph => ?_
  by_cases hh : s.ports[n].holdsReadResponse
  · rw [finishResponse_reads_of_holds hh]
    exact phase_put (fun ph hph => finishedRecord_phase _ hph) m ph hph
  · rw [finishResponse_reads_of_not_holds hh]

theorem State.AccessLawful.completeCommand {s : State} (h : s.AccessLawful) (n : Port) (st : Status)
    (res : List Byte) : (s.completeCommand n st res).AccessLawful := by
  refine h.of_same (by simp) (by simp) (.of_slots (by simp)) fun m ph hph => ?_
  rcases completeCommand_cases s n st res with ⟨-, e⟩ | ⟨c, -, -, e⟩ | ⟨c, -, -, e⟩ <;> rw [e]
  · exact Iff.rfl
  · exact phase_put (reads := s.reads) (fun ph hph => finishedRecord_phase _ hph) m ph hph

theorem State.AccessLawful.detach {s : State} (h : s.AccessLawful) (n : Port) (c : DetachCause) :
    (s.detachPort n c).AccessLawful :=
  h.of_same rfl rfl (detachPort_samePhases s n c) fun m ph hph =>
    phase_put (reads := s.reads) (fun _ hph => detached_phase _ hph) m ph hph

/-! ### No transaction on a port that is not selected -/

theorem selected_iff (s : State) (n : Port) :
    s.selected n = true ↔ s.inDeviceReset = false ∧ s.pins.rst[n] = true ∧ s.pins.cs[n] = false := by
  simp only [State.selected, Bool.and_eq_true, Bool.not_eq_true', and_assoc]

theorem transactionsLawful_iff (s : State) :
    s.TransactionsLawful ↔ ∀ n : Port, s.selected n = false → s.ports[n].inTransaction = false := by
  refine forall_congr' fun n => imp_congr_left ?_
  unfold State.selected
  cases s.pins.cs[n] <;> cases s.pins.rst[n] <;> cases s.inDeviceReset <;> decide

theorem State.TransactionsLawful.of_same {s t : State} (h : s.TransactionsLawful) (hports : t.ports = s.ports)
    (hselected : ∀ m, s.selected m = true → t.selected m = true) : t.TransactionsLawful := by
  rw [transactionsLawful_iff] at *
  intro m hm
  rw [hports]
  refine h m ?_
  rw [← Bool.not_eq_true]
  intro hs
  rw [hselected m hs] at hm
  cases hm

/-- The interface of port `n` changes; where the port is not selected, no transaction comes of it. -/
theorem State.TransactionsLawful.of_port {s t : State} (h : s.TransactionsLawful) {n : Port} {x : PortInterface}
    (hports : t.ports = put s.ports n x) (hselected : ∀ m, m ≠ n → t.selected m = s.selected m)
    (hx : t.selected n = false → x.inTransaction = false) : t.TransactionsLawful := by
  rw [transactionsLawful_iff] at *
  intro m hm
  rw [hports]
  by_cases hmn : m = n
  · subst hmn
    rw [getElem_put_self]
    exact hx hm
  · rw [getElem_put_of_ne _ _ hmn]
    exact h m ((hselected m hmn).symm.trans hm)

/-- A port with a transaction in progress is selected. -/
theorem State.TransactionsLawful.selected {s : State} (h : s.TransactionsLawful) {n : Port}
    (hn : s.ports[n].inTransaction = true) : s.selected n = true := by
  rw [transactionsLawful_iff] at h
  by_contra hs
  rw [h n (Bool.not_eq_true _ ▸ hs)] at hn
  cases hn

theorem inTransaction_of_receiving {x : PortInterface} (h : x.isReceiving = true) : x.inTransaction = true := by
  rw [inTransaction_iff]
  rcases (isReceiving_iff x).1 h with hs | ⟨hs, hside⟩
  · rw [hs]
    exact ⟨nofun, nofun⟩
  · rw [hs, hside]
    exact ⟨nofun, nofun⟩

theorem inTransaction_of_answering {x : PortInterface} (h : x.isAnswering = true) : x.inTransaction = true := by
  rw [inTransaction_iff]
  rcases (isAnswering_iff x).1 h with hs | ⟨hs, hside⟩
  · rw [hs]
    exact ⟨nofun, nofun⟩
  · rw [hs, hside]
    exact ⟨nofun, nofun⟩

/-- A port in a transaction is selected, so whatever its interface becomes, the law is kept. -/
theorem State.TransactionsLawful.of_selected {s t : State} (h : s.TransactionsLawful) {n : Port} {x : PortInterface}
    (hn : s.ports[n].inTransaction = true) (hports : t.ports = put s.ports n x) (hselected : t.selected = s.selected) :
    t.TransactionsLawful :=
  h.of_port hports (fun m _ => by rw [hselected]) fun hs => by
    rw [hselected, h.selected hn] at hs
    cases hs

/-- The interface of port `n` changes, and is in a transaction only if it was. -/
theorem State.TransactionsLawful.of_still {s t : State} (h : s.TransactionsLawful) {n : Port} {x : PortInterface}
    (hx : x.inTransaction = true → s.ports[n].inTransaction = true) (hports : t.ports = put s.ports n x)
    (hselected : t.selected = s.selected) : t.TransactionsLawful := by
  refine h.of_port hports (fun m _ => by rw [hselected]) fun hs => ?_
  rw [← Bool.not_eq_true]
  intro hin
  rw [hselected, h.selected (hx hin)] at hs
  cases hs

theorem selected_congr {s t : State} (h : Block.inputs.same s t) : t.selected = s.selected := by
  obtain ⟨hcs, hrst, -, hreset, hclksel⟩ := h
  funext n
  unfold State.selected State.inDeviceReset Pins.inDeviceReset
  rw [hcs, hrst, hreset, hclksel]

/-! ### The three laws together -/

/-- What O12 speaks of. -/
def State.PortsSound (s : State) : Prop := s.BusyLawful ∧ s.AccessLawful ∧ s.TransactionsLawful

/-- Interfaces, slots' phases, records, places, access and selection stay. -/
theorem State.PortsSound.of_same {s t : State} (h : s.PortsSound) (hports : t.ports = s.ports)
    (hslots : SamePhases s t) (hreads : t.reads = s.reads) (hplaces : t.arbiter.places = s.arbiter.places)
    (haccess : t.array.access = s.array.access) (hselected : ∀ m, s.selected m = true → t.selected m = true) :
    t.PortsSound := by
  obtain ⟨hbusy, hacc, htr⟩ := h
  exact ⟨hbusy.of_same hports hslots hreads,
    hacc.of_same hplaces haccess hslots fun m ph _ => by rw [hreads],
    htr.of_same hports hselected⟩

theorem accessLawful_take {s : State} (hbusy : s.BusyLawful) (h : s.AccessLawful) (n : Port) (c : Command)
    (args : List Byte) (tag : CommandTag) (hr : s.ports[n].isReceiving = true) (ho : s.ports[n].outstanding = none) :
    ((takeCommand n c args s).1.afterTaking n tag (takeCommand n c args s).2).AccessLawful := by
  obtain ⟨-, hslot, hread⟩ := BusyPort.free (hbusy n) hr ho
  have htaken := takeCommand_taken n c args s
  generalize (takeCommand n c args s).1 = t, (takeCommand n c args s).2 = reply at htaken
  have hn := h n
  rw [hslot, hread] at hn
  obtain ⟨hwrite, hreadp, hwriting, hreading⟩ := hn
  obtain ⟨-, harray, -, ⟨st, res, rfl, hslots, hreads, harbiter⟩ | ⟨rfl, hreads, hplaces, x, hphase, hslots⟩ |
    ⟨rfl, hslots, hplaces, -, r, hphase, -, -, hreads⟩⟩ := htaken.progress hread
  · exact State.AccessLawful.of_same (t := t) h (by rw [harbiter]) (by rw [harray]) hslots fun m ph _ => by rw [hreads]
  · refine State.AccessLawful.of_port (t := t) (n := n) h (fun m hm => ⟨?_, ?_, by rw [hreads]⟩)
      (fun m _ => by rw [harray]; exact ⟨Iff.rfl, Iff.rfl⟩) ?_
    · rw [hplaces, getElem_put_of_ne _ _ hm]
    · rw [hslots, getElem_put_of_ne _ _ hm]
    · rw [hplaces, hslots, getElem_put_self, getElem_put_self, hreads, hread, harray, Option.map_some, hphase]
      exact ⟨iff_of_true rfl rfl, iff_of_false nofun nofun, ⟨fun ha => absurd (hwriting.1 ha) nofun, nofun⟩, hreading⟩
  · refine State.AccessLawful.of_port (t := t) (n := n) h (fun m hm => ⟨?_, by rw [hslots], ?_⟩)
      (fun m _ => by rw [harray]; exact ⟨Iff.rfl, Iff.rfl⟩) ?_
    · rw [hplaces, getElem_put_of_ne _ _ hm]
    · rw [hreads, getElem_put_of_ne _ _ hm]
    · rw [hplaces, hslots, hreads, getElem_put_self, getElem_put_self, hslot, harray, Option.map_some, hphase]
      exact ⟨iff_of_false nofun nofun, iff_of_true rfl rfl, hwriting, ⟨fun ha => absurd (hreading.1 ha) nofun, nofun⟩⟩

theorem transactionsLawful_take {s : State} (hbusy : s.BusyLawful) (h : s.TransactionsLawful) (n : Port) (c : Command)
    (args : List Byte) (tag : CommandTag) (hr : s.ports[n].isReceiving = true) (ho : s.ports[n].outstanding = none) :
    ((takeCommand n c args s).1.afterTaking n tag (takeCommand n c args s).2).TransactionsLawful := by
  obtain ⟨-, -, hread⟩ := BusyPort.free (hbusy n) hr ho
  have htaken := takeCommand_taken n c args s
  generalize (takeCommand n c args s).1 = t, (takeCommand n c args s).2 = reply at htaken
  obtain ⟨hports, -, hselected, -⟩ := htaken.progress hread
  have hin := inTransaction_of_receiving hr
  cases reply with
  | done st res =>
    exact h.of_selected (t := t.setPort n _) hin (by rw [State.setPort_ports, hports]) hselected
  | executing =>
    exact h.of_selected (t := t.setPort n _) hin (by rw [State.setPort_ports, hports]) hselected

theorem portsSound_bytes : KeptByBytes State.PortsSound where
  bytes s n x hx h := by
    obtain ⟨hbusy, hacc, htr⟩ := h
    refine ⟨busyLawful_bytes.bytes s n x hx hbusy, hacc, htr.of_still (x := x) (fun hin => ?_) rfl rfl⟩
    obtain ⟨hstate, hside, -⟩ := hx
    rwa [inTransaction_iff, hstate, hside, ← inTransaction_iff] at hin
  lease _ _ h := h.of_same rfl (.of_slots rfl) rfl rfl rfl fun _ hs => hs
  untaken s n st tag hr h := by
    obtain ⟨hbusy, hacc, htr⟩ := h
    exact ⟨busyLawful_bytes.untaken s n st tag hr hbusy, hacc,
      htr.of_selected (inTransaction_of_receiving hr) rfl rfl⟩
  take s n c args tag hr ho h := by
    obtain ⟨hbusy, hacc, htr⟩ := h
    exact ⟨busyLawful_take hbusy n c args tag hr ho, accessLawful_take hbusy hacc n c args _ hr ho,
      transactionsLawful_take hbusy htr n c args _ hr ho⟩
  finish s n ha h := by
    obtain ⟨hbusy, hacc, htr⟩ := h
    exact ⟨busyLawful_finish hbusy n ha, hacc.finishResponse n,
      htr.of_selected (inTransaction_of_answering ha) (finishResponse_ports s n)
        (selected_congr (unchanged_finishResponse s n .inputs (by decide)))⟩

end Sys2Proof.Machine
end

section
/-!
The laws of O12 through the events: array accesses granted and completed, CSn, RSTn, detach and device reset.
-/
namespace Sys2Proof.Machine
open Sys2Proof

/-! ### The end of a command (R155 to R157) -/

/-- Port `n` is at the end of its command: the command is outstanding, the slot empty, and a read record left is that
of a read which has completed. -/
def State.Ending (s : State) (n : Port) : Prop :=
  s.ports[n].Lawful ∧ s.slots[n] = none ∧ ∃ c, s.ports[n].outstanding = some c ∧
    ∀ r, s.reads[n] = some r → r.phase = .answering ∧ (r.pin = !r.cutOff) ∧ c.isRead

theorem busyLawful_completeCommand {s w : State} (h : s.BusyLawful) {n : Port} (hw : w.Ending n)
    (hother : ∀ m : Port, m ≠ n → w.ports[m] = s.ports[m] ∧
      w.slots[m].map Publication.phase = s.slots[m].map Publication.phase ∧ w.reads[m] = s.reads[m])
    (st : Status) (res : List Byte) : (w.completeCommand n st res).BusyLawful := by
  obtain ⟨hlawful, hslot, c, hc, hread⟩ := hw
  have hsome : w.ports[n].outstanding.isSome = true := by rw [hc]; rfl
  rcases completeCommand_cases w n st res with ⟨ho, -⟩ | ⟨c', hc', hd, e⟩ | ⟨-, -, hd, e⟩
  · rw [hc] at ho
    cases ho
  · rw [hc] at hc'
    cases hc'
    obtain ⟨hx, -⟩ := hlawful.completed hd hsome c (responseFrame st c.tag res)
    have hports : (w.completeCommand n st res).ports = put w.ports n (w.ports[n].completed c (responseFrame st c.tag res)) := by
      rw [e]
      rfl
    have hreads : (w.completeCommand n st res).reads = w.reads := by rw [e]; rfl
    have hslots : (w.completeCommand n st res).slots = w.slots := State.completeCommand_slots ..
    refine h.of_port (n := n) (fun m hm => ?_) ?_
    · obtain ⟨h1, h2, h3⟩ := hother m hm
      rw [hports, hslots, hreads, getElem_put_of_ne _ _ hm]
      exact ⟨h1, h2, h3⟩
    · rw [hports, hslots, hreads, getElem_put_self, hslot]
      refine ⟨hx, nofun, iff_of_false nofun ?_, fun r hr => ?_⟩
      · rintro (hs | ⟨r, hr, hrun⟩)
        · cases hs
        · exact of_decide_eq_true hrun (hread r hr).1
      · obtain ⟨hphase, hpin, hi⟩ := hread r hr
        exact ⟨hpin, fun hrun => absurd hphase (of_decide_eq_true hrun), fun _ => ⟨rfl, _, c, rfl, rfl, hi⟩⟩
  · obtain ⟨hx, -⟩ := hlawful.resumed hd
    have hports : (w.completeCommand n st res).ports = put w.ports n w.ports[n].resumed := by
      rw [e]
      rfl
    have hreads : (w.completeCommand n st res).reads = put w.reads n none := by
      rw [e]
      show put w.reads n (finishedRecord w.reads[n]) = _
      cases hr : w.reads[n] with
      | none => rfl
      | some r => rw [finishedRecord_of_answering (hread r hr).1]
    have hslots : (w.completeCommand n st res).slots = w.slots := State.completeCommand_slots ..
    refine h.of_port (n := n) (fun m hm => ?_) ?_
    · obtain ⟨h1, h2, h3⟩ := hother m hm
      rw [hports, hslots, hreads, getElem_put_of_ne _ _ hm, getElem_put_of_ne _ _ hm]
      exact ⟨h1, h2, h3⟩
    · rw [hports, hslots, hreads, getElem_put_self, getElem_put_self, hslot]
      exact BusyPort.idle hx rfl

theorem transactionsLawful_completeCommand {w : State} (h : w.TransactionsLawful) {n : Port}
    (hlawful : w.ports[n].Lawful) (st : Status) (res : List Byte) : (w.completeCommand n st res).TransactionsLawful := by
  rcases completeCommand_cases w n st res with ⟨-, e⟩ | ⟨c, hc, hd, e⟩ | ⟨c, -, hd, e⟩ <;> rw [e]
  · exact h
  · obtain ⟨-, hin⟩ := hlawful.completed hd (by rw [hc]; rfl) c (responseFrame st c.tag res)
    exact h.of_still (x := w.ports[n].completed c (responseFrame st c.tag res)) (fun hx => hin ▸ hx) rfl rfl
  · obtain ⟨-, hin⟩ := hlawful.resumed hd
    exact h.of_still (x := w.ports[n].resumed) (fun hx => hin ▸ hx) rfl rfl

/-- An access of port `n` has ended in `w`: the array is free, slot and record of the other ports are as before, and
what was in progress on port `n` was on the array. -/
structure AccessEnded (s w : State) (n : Port) : Prop where
  ports : w.ports = s.ports
  places : w.arbiter.places = s.arbiter.places
  free : w.array.access = none
  selected : w.selected = s.selected
  slots : ∀ m : Port, m ≠ n → w.slots[m].map Publication.phase = s.slots[m].map Publication.phase
  reads : ∀ m : Port, m ≠ n → w.reads[m] = s.reads[m]

/-- The state before a command completes whose access has ended. -/
theorem State.PortsSound.completeCommand {s w : State} (h : s.PortsSound) {n : Port} (hw : AccessEnded s w n)
    (hending : w.Ending n) (haccess : s.array.access = some (.write n) ∨ s.array.access = some (.read n))
    (hwrite : s.arbiter.places[n] ≠ some .write) (hread : s.arbiter.places[n] ≠ some .read)
    (st : Status) (res : List Byte) : (w.completeCommand n st res).PortsSound := by
  obtain ⟨hbusy, hacc, htr⟩ := h
  have hw_access : w.AccessLawful := by
    refine hacc.of_port (n := n) (fun m hm => ⟨by rw [hw.places], hw.slots m hm, hw.reads m hm⟩) (fun m hm => ?_) ?_
    · rw [hw.free]
      refine ⟨iff_of_false nofun fun e => ?_, iff_of_false nofun fun e => ?_⟩
      · rcases haccess with ha | ha <;> rw [ha] at e <;> cases e
        exact hm rfl
      · rcases haccess with ha | ha <;> rw [ha] at e <;> cases e
        exact hm rfl
    · obtain ⟨-, hslot, c, -, hdone⟩ := id hending
      have hphase : ∀ ph, ph ≠ .answering → w.reads[n].map ReadRecord.phase ≠ some ph := by
        intro ph hph e
        obtain ⟨r, hr, rfl⟩ := Option.map_eq_some_iff.1 e
        exact hph (hdone r hr).1
      rw [hw.places, hw.free, hslot]
      exact ⟨iff_of_false hwrite nofun, iff_of_false hread (hphase _ nofun), iff_of_false nofun nofun,
        iff_of_false nofun (hphase _ nofun)⟩
  have hw_tr : w.TransactionsLawful :=
    htr.of_same hw.ports fun m hm => by rwa [hw.selected]
  refine ⟨busyLawful_completeCommand hbusy hending (fun m hm => ?_) st res, hw_access.completeCommand n st res,
    transactionsLawful_completeCommand hw_tr hending.1 st res⟩
  exact ⟨by rw [hw.ports], hw.slots m hm, hw.reads m hm⟩

/-- What the end of a write of the publication of port `n` hands to the end of its command. -/
theorem completeWrite_ended {s : State} {n : Port} {x : Publication} (hx : s.slots[n] = some x) (d : List Byte) :
    ∃ w st res, s.completeWrite n d = w.completeCommand n st res ∧ AccessEnded s w n ∧ w.slots[n] = none ∧
      w.reads = s.reads := by
  have hself : (put s.slots n none)[n] = none := getElem_put_self s.slots n none
  have hother : ∀ m : Port, m ≠ n →
      (put s.slots n none)[m].map Publication.phase = s.slots[m].map Publication.phase := fun m hm => by
    rw [getElem_put_of_ne _ _ hm]
  rcases completeWrite_cases s n d with ⟨hnone, -⟩ | ⟨x', -, e⟩
  · rw [hx] at hnone
    cases hnone
  · rw [e]
    rcases endPublication_cases (s.setArray _) n x' _ with ⟨st, e, -⟩ | ⟨-, -, e⟩ | ⟨-, -, r, -, e⟩ <;> rw [e]
    · exact ⟨_, _, _, rfl, ⟨rfl, rfl, rfl, rfl, hother, fun _ _ => rfl⟩, hself, rfl⟩
    · exact ⟨_, _, _, rfl, ⟨rfl, rfl, rfl, rfl, hother, fun _ _ => rfl⟩, hself, rfl⟩
    · exact ⟨_, _, _, rfl, ⟨rfl, rfl, rfl, rfl, hother, fun _ _ => rfl⟩, hself, rfl⟩

/-- What the end of a read of port `n` hands to the end of its command: the record of a read cut off is emptied. -/
theorem completeRead_ended {s : State} {n : Port} {r : ReadRecord} (hr : s.reads[n] = some r) (d : List Byte) :
    ∃ w st res, s.completeRead n d = w.completeCommand n st res ∧ AccessEnded s w n ∧ w.slots = s.slots ∧
      (w.reads[n] = none ∨ r.cutOff = false ∧ w.reads[n] = some { r with phase := .answering }) := by
  have hother : ∀ (x : Option ReadRecord) (m : Port), m ≠ n → (put s.reads n x)[m] = s.reads[m] := fun x m hm =>
    getElem_put_of_ne _ _ hm
  rcases completeRead_cases s n d with ⟨hnone, -⟩ | ⟨r', row, good, hr', e⟩
  · rw [hr] at hnone
    cases hnone
  · rw [hr] at hr'
    cases hr'
    rcases endRead_cases s.freeArray n r row good with ⟨-, e'⟩ | ⟨hc, st, res, b, w, e', hw⟩
    · exact ⟨_, _, _, e.trans e', ⟨rfl, rfl, rfl, rfl, fun _ _ => rfl, hother none⟩, rfl,
        .inl (getElem_put_self s.reads n none)⟩
    · have hself := getElem_put_self s.reads n (some { r with phase := .answering })
      rcases hw with rfl | ⟨c, rfl⟩
      · exact ⟨_, _, _, e.trans e', ⟨rfl, rfl, rfl, rfl, fun _ _ => rfl, hother _⟩, rfl, .inr ⟨hc, hself⟩⟩
      · have hu := damageRequest_unchanged
          ((s.freeArray.setRead n (some { r with phase := .answering })).setPool (s.freeArray.pool.setSuspect r.frame b))
          r.post r.frame c
        have hreads := hu .reads (by simp)
        have hslots := hu .slots (by simp)
        have harbiter := hu .arbiter (by simp)
        refine ⟨_, _, _, e.trans e', ⟨hu .ports (by simp), congrArg Arbiter.places harbiter,
          congrArg StorageArray.access (hu .array (by simp)), selected_congr (hu .inputs (by simp)), fun m _ => ?_,
          fun m hm => ?_⟩, hslots, .inr ⟨hc, ?_⟩⟩
        · exact congrArg (fun v => Option.map Publication.phase v[m]) hslots
        · exact (congrArg (fun v => v[m]) hreads).trans (hother _ m hm)
        · exact (congrArg (fun v => v[n]) hreads).trans hself

theorem portsSound_write {s : State} (h : s.PortsSound) {n : Port} (ha : s.array.access = some (.write n))
    (d : List Byte) : (s.completeWrite n d).PortsSound := by
  obtain ⟨hbusy, hacc, -⟩ := id h
  obtain ⟨hwrite, hread, hwriting, -⟩ := hacc n
  have hphase := hwriting.1 ha
  obtain ⟨x, hx, hxp⟩ := Option.map_eq_some_iff.1 hphase
  obtain ⟨hlawful, hempty, hout, -⟩ := hbusy n
  have hreads : s.reads[n] = none := hempty (by rw [hx]; rfl)
  obtain ⟨c, hc⟩ := Option.isSome_iff_exists.1 (hout.2 (.inl (by rw [hx]; rfl)))
  obtain ⟨w, st, res, e, hw, hslot, hwreads⟩ := completeWrite_ended hx d
  rw [e]
  refine h.completeCommand hw ⟨by rwa [hw.ports], hslot, c, by rwa [hw.ports], fun r hr => ?_⟩ (.inl ha) ?_ ?_ st res
  · rw [hwreads, hreads] at hr
    cases hr
  · rw [Ne, hwrite, hphase]
    nofun
  · rw [Ne, hread, hreads]
    nofun

theorem portsSound_read {s : State} (h : s.PortsSound) {n : Port} (ha : s.array.access = some (.read n))
    (d : List Byte) : (s.completeRead n d).PortsSound := by
  obtain ⟨hbusy, hacc, -⟩ := id h
  obtain ⟨hwrite, hread, -, hreading⟩ := hacc n
  have hphase := hreading.1 ha
  obtain ⟨r, hr, hrp⟩ := Option.map_eq_some_iff.1 hphase
  obtain ⟨hlawful, hempty, -, hrecord⟩ := hbusy n
  have hslot : s.slots[n] = none := by
    by_contra hne
    have := hempty (Option.isSome_iff_ne_none.2 hne)
    rw [hr] at this
    cases this
  obtain ⟨hpin, hrun, -⟩ := hrecord r hr
  obtain ⟨c, hc, hi⟩ := hrun (decide_eq_true (by rw [hrp]; nofun))
  obtain ⟨w, st, res, e, hw, hwslots, hwread⟩ := completeRead_ended hr d
  rw [e]
  refine h.completeCommand hw ⟨by rwa [hw.ports], by rwa [hwslots], c, by rwa [hw.ports], fun r' hr' => ?_⟩
    (.inr ha) ?_ ?_ st res
  · rcases hwread with hnone | ⟨-, hsome⟩
    · rw [hnone] at hr'
      cases hr'
    · rw [hsome] at hr'
      cases hr'
      exact ⟨rfl, hpin, hi⟩
  · rw [Ne, hwrite, hslot]
    nofun
  · rw [Ne, hread, hphase]
    nofun

/-! ### Grants and refresh accesses (R137, R138, R143) -/

/-- The array changes hands between refresh and nobody. -/
theorem State.PortsSound.of_refresh {s t : State} (h : s.PortsSound) (hports : t.ports = s.ports)
    (hslots : t.slots = s.slots) (hreads : t.reads = s.reads) (hplaces : t.arbiter.places = s.arbiter.places)
    (hs : s.array.access = none ∨ ∃ f, s.array.access = some (.refresh f))
    (ht : t.array.access = none ∨ ∃ f, t.array.access = some (.refresh f)) (hselected : t.selected = s.selected) :
    t.PortsSound := by
  obtain ⟨hbusy, hacc, htr⟩ := h
  refine ⟨hbusy.of_same hports (.of_slots hslots) hreads, fun m => ?_, htr.of_same hports fun m hm => by rwa [hselected]⟩
  have hnone : ∀ {a : Option Access}, (a = none ∨ ∃ f, a = some (.refresh f)) →
      a ≠ some (.write m) ∧ a ≠ some (.read m) := by
    rintro a (rfl | ⟨f, rfl⟩)
    · exact ⟨nofun, nofun⟩
    · exact ⟨nofun, nofun⟩
  obtain ⟨hsw, hsr⟩ := hnone hs
  obtain ⟨htw, htrd⟩ := hnone ht
  obtain ⟨h1, h2, h3, h4⟩ := hacc m
  rw [hplaces, hslots, hreads]
  exact ⟨h1, h2, iff_of_false htw fun e => hsw (h3.2 e), iff_of_false htrd fun e => hsr (h4.2 e)⟩

/-- A read that is granted has not completed yet. -/
theorem BusyPort.granted {x : PortInterface} {slot : Option Publication} {read : Option ReadRecord}
    (h : BusyPort x slot read) {r : ReadRecord} (hr : read = some r) (hp : r.phase = .waiting) :
    BusyPort x slot (some r.granted) := by
  obtain ⟨hx, hslot, hout, hread⟩ := h
  obtain ⟨hpin, hrun, -⟩ := hread r hr
  have hrunning : r.running = true := decide_eq_true (by rw [hp]; nofun)
  refine ⟨hx, fun hs => ?_, hout.trans (or_congr_right (iff_of_true ⟨r, hr, hrunning⟩ ⟨_, rfl, rfl⟩)), fun r' hr' => ?_⟩
  · have := hslot hs
    rw [hr] at this
    cases this
  · cases hr'
    exact ⟨hpin, fun _ => hrun hrunning, nofun⟩

/-- A grant to a port that waits (R138): its request goes, and its publication is WRITING or its read READING. -/
theorem portsSound_grantPort {s : State} (h : s.PortsSound) (hfree : s.array.access = none) {n : Port} {k : PortRequest}
    (hk : s.arbiter.places[n] = some k) : (s.grantPort n k).PortsSound := by
  obtain ⟨hbusy, hacc, htr⟩ := h
  obtain ⟨hwrite, hread, hwriting, hreading⟩ := hacc n
  obtain ⟨-, hempty, -, -⟩ := id (hbusy n)
  cases k with
  | write =>
    have hphase := hwrite.1 hk
    obtain ⟨x, hx, -⟩ := Option.map_eq_some_iff.1 hphase
    have hreads : s.reads[n] = none := hempty (by rw [hx]; rfl)
    have hslots : (s.grantPort n .write).slots = put s.slots n (some x.granted) := by
      show put s.slots n (s.slots[n].map Publication.granted) = _
      rw [hx]
      rfl
    refine ⟨hbusy.of_port (n := n) (fun m hm => ⟨rfl, ?_, rfl⟩) ?_,
      hacc.of_port (n := n) (fun m hm => ⟨?_, ?_, rfl⟩) ?_ ?_,
      htr.of_same rfl fun _ hm => hm⟩
    · rw [hslots, getElem_put_of_ne _ _ hm]
    · rw [hslots, getElem_put_self]
      exact BusyPort.of_slot (hbusy n) (by rw [hx]; rfl)
    · exact getElem_put_of_ne _ _ hm
    · rw [hslots, getElem_put_of_ne _ _ hm]
    · intro m hm
      rw [hfree]
      exact ⟨iff_of_false (fun e => hm (by cases e; rfl)) nofun, iff_of_false nofun nofun⟩
    · rw [hslots, getElem_put_self]
      show AccessPort n (put s.arbiter.places n none)[n] (some (.write n)) _ (s.reads[n].map _)
      rw [getElem_put_self, hreads]
      exact ⟨iff_of_false nofun nofun, iff_of_false nofun nofun, iff_of_true rfl rfl, iff_of_false nofun nofun⟩
  | read =>
    have hphase := hread.1 hk
    obtain ⟨r, hr, hrp⟩ := Option.map_eq_some_iff.1 hphase
    have hslot : s.slots[n] = none := by
      by_contra hne
      have := hempty (Option.isSome_iff_ne_none.2 hne)
      rw [hr] at this
      cases this
    have hreads : (s.grantPort n .read).reads = put s.reads n (some r.granted) := by
      show put s.reads n (s.reads[n].map ReadRecord.granted) = _
      rw [hr]
      rfl
    refine ⟨hbusy.of_port (n := n) (fun m hm => ⟨rfl, rfl, ?_⟩) ?_,
      hacc.of_port (n := n) (fun m hm => ⟨?_, rfl, ?_⟩) ?_ ?_,
      htr.of_same rfl fun _ hm => hm⟩
    · rw [hreads, getElem_put_of_ne _ _ hm]
    · rw [hreads, getElem_put_self]
      exact BusyPort.granted (hbusy n) hr hrp
    · exact getElem_put_of_ne _ _ hm
    · rw [hreads, getElem_put_of_ne _ _ hm]
    · intro m hm
      rw [hfree]
      exact ⟨iff_of_false nofun nofun, iff_of_false (fun e => hm (by cases e; rfl)) nofun⟩
    · rw [hreads, getElem_put_self]
      show AccessPort n (put s.arbiter.places n none)[n] (some (.read n)) (s.slots[n].map _) _
      rw [getElem_put_self, hslot]
      exact ⟨iff_of_false nofun nofun, iff_of_false nofun nofun, iff_of_false nofun nofun, iff_of_true rfl rfl⟩

theorem portsSound_grant {s : State} (h : s.PortsSound) (hfree : s.array.access = none) : s.grant.PortsSound := by
  rcases grant_cases s with e | e | ⟨n, k, hk, e⟩ <;> rw [e]
  · exact h
  · exact h.of_refresh rfl rfl rfl rfl (.inl hfree) (.inr ⟨_, rfl⟩) rfl
  · exact portsSound_grantPort h hfree hk

end Sys2Proof.Machine
end

section
/-!
O12 settled: the laws of one command per port through CSn, RSTn, detach and device reset.
-/
namespace Sys2Proof.Machine
open Sys2Proof

theorem inTransaction_eq_false_iff (x : PortInterface) :
    x.inTransaction = false ↔ x.state = .idle ∨ (x.state = .draining ∧ x.side = .none) := by
  rw [← Bool.not_eq_true, inTransaction_iff, not_and_or, not_not, Classical.not_imp, not_not]

theorem selected_of_ne {s t : State} {m : Port} (hreset : t.inDeviceReset = s.inDeviceReset)
    (hrst : t.pins.rst[m] = s.pins.rst[m]) (hcs : t.pins.cs[m] = s.pins.cs[m]) : t.selected m = s.selected m := by
  unfold State.selected
  rw [hreset, hrst, hcs]

/-! ### CSn falls and rises (R150, R156) -/

/-- An interface without a transaction that takes the fall of CSn. -/
theorem BusyPort.fall {x : PortInterface} {slot : Option Publication} {read : Option ReadRecord}
    (h : BusyPort x slot read) (hx : x.inTransaction = false) : BusyPort x.fall slot read := by
  have hlawful := h.1
  rcases (inTransaction_eq_false_iff x).1 hx with hs | ⟨hs, hside⟩
  · obtain ⟨ho, hdiscard, hside⟩ := hlawful.free (by rw [hs]; nofun) (by rw [hs]; nofun)
    have hresponse : x.response = none := hlawful.response_eq_none (by simp [PortInterface.isAnswering, hs])
    rw [PortInterface.fall_of_idle hs, h.slot_eq_none ho, h.read_eq_none ho (.inl (by rw [hs]; nofun))]
    exact BusyPort.idle (PortInterface.lawful_of_free nofun nofun ho hdiscard hside fun hne => absurd hresponse hne) ho
  · obtain ⟨ho, hdiscard, -⟩ := hlawful.draining hs
    have hresponse : x.response = none := hlawful.response_eq_none (by simp [PortInterface.isAnswering, hs, hside])
    rw [PortInterface.fall_of_draining hs]
    refine h.of_interface (by rw [hs]; nofun) (PortInterface.lawful_of_draining hs ho hdiscard fun y hy => ?_) rfl
    rw [show x.response = some y from hy] at hresponse
    cases hresponse

theorem portsSound_fall {s : State} (h : s.PortsSound) {n : Port} (hcs : s.pins.cs[n] = true) :
    (s.csFalls n).PortsSound := by
  have hother : ∀ m : Port, m ≠ n →
      (s.setPins { s.pins with cs := put s.pins.cs n false }).selected m = s.selected m := fun m hm =>
    selected_of_ne rfl rfl (getElem_put_of_ne _ _ hm)
  have hn : s.selected n = false := by
    unfold State.selected
    rw [hcs, Bool.not_true, Bool.and_false]
  by_cases hr : s.inDeviceReset = true ∨ s.pins.rst[n] = false
  · rw [csFalls_of_reset hr]
    refine h.of_same rfl (.of_slots rfl) rfl rfl rfl fun m hm => ?_
    by_cases hmn : m = n
    · rw [hmn, hn] at hm
      cases hm
    · rwa [hother m hmn]
  · rw [not_or, Bool.not_eq_true, Bool.not_eq_false] at hr
    obtain ⟨hbusy, hacc, htr⟩ := h
    obtain ⟨hd, hrst⟩ := hr
    have hselected := csFalls_selected hd hrst
    rw [csFalls_of_selected hd hrst] at hselected ⊢
    have hx := (transactionsLawful_iff s).1 htr n hn
    refine ⟨State.BusyLawful.setPort (s := s.setPins _) hbusy (BusyPort.fall (hbusy n) hx), hacc,
      htr.of_port (n := n) rfl hother fun hs => ?_⟩
    rw [hselected] at hs
    cases hs

/-- The end of a transaction leaves none on the port. -/
theorem endTransaction_sound {s : State} (hbusy : s.BusyLawful) (n : Port) :
    (s.endTransaction n).BusyLawful ∧
      ∃ x, (s.endTransaction n).ports = put s.ports n x ∧ x.inTransaction = false := by
  have hx : s.ports[n].Lawful := (hbusy n).1
  have keep : ∀ y : PortInterface, s.ports[n].state ≠ .responding → y.Lawful → y.outstanding = s.ports[n].outstanding →
      (s.setPort n y).BusyLawful := fun y hs hy ho =>
    hbusy.setPort (BusyPort.of_interface (hbusy n) hs hy ho)
  cases hs : s.ports[n].state with
  | idle =>
    have e : s.endTransaction n = s := by
      unfold State.endTransaction
      simp only [hs]
    rw [e]
    exact ⟨hbusy, s.ports[n], (put_self _ _).symm, (inTransaction_eq_false_iff _).2 (.inl hs)⟩
  | receiving =>
    have e : s.endTransaction n = s.setPort n { s.ports[n] with state := .idle, rx := [], expected := 0 } := by
      unfold State.endTransaction
      simp only [hs]
    have hresponse : s.ports[n].response = none :=
      hx.response_eq_none (by unfold PortInterface.isAnswering; rw [hs]; rfl)
    obtain ⟨ho, hdiscard, hside⟩ := hx.free (by rw [hs]; nofun) (by rw [hs]; nofun)
    rw [e]
    exact ⟨keep _ (by rw [hs]; nofun) (PortInterface.lawful_of_free nofun nofun ho hdiscard hside fun hne =>
      absurd hresponse hne) rfl, _, rfl, rfl⟩
  | executing =>
    have e : s.endTransaction n = s.setPort n
        { s.ports[n] with
          state := .draining, side := .none, discard := true, lastAbandoned := s.ports[n].outstanding } := by
      unfold State.endTransaction
      simp only [hs]
    obtain ⟨ho, -, -, hresponse⟩ := hx.executing hs
    rw [e]
    refine ⟨keep _ (by rw [hs]; nofun) (PortInterface.lawful_of_draining rfl ho rfl fun y hy => ?_) rfl, _, rfl, rfl⟩
    rw [show s.ports[n].response = some y from hy] at hresponse
    cases hresponse
  | responding =>
    obtain ⟨ho, hdiscard, hside⟩ := hx.free (by rw [hs]; nofun) (by rw [hs]; nofun)
    rw [endTransaction_of_responding hs]
    set x : PortInterface := { s.ports[n] with
      state := .idle
      lastAbandoned := (s.ports[n].response.bind HeldResponse.command).or s.ports[n].lastAbandoned } with hxdef
    have hself : (s.setPort n x).ports[n] = x := getElem_put_self s.ports n x
    have hports : ((s.setPort n x).finishResponse n).ports = put s.ports n { x with response := none } := by
      rw [finishResponse_ports, hself]
      exact put_put ..
    have hreads : ((s.setPort n x).finishResponse n).reads = put s.reads n none :=
      finishResponse_reads_of_responding (s := s.setPort n x) (hbusy n) hs (by rw [hself])
    refine ⟨hbusy.of_free hports (.of_slots (State.finishResponse_slots ..)) (BusyPort.slot_eq_none (hbusy n) ho) hreads
      (PortInterface.lawful_of_free nofun nofun ho hdiscard hside fun hne => absurd rfl hne) ho, _, hports, rfl⟩
  | draining =>
    have e : s.endTransaction n = s.setPort n
        { s.ports[n] with side := .none, rx := [], expected := 0, response := none } := by
      unfold State.endTransaction
      simp only [hs]
    obtain ⟨ho, hdiscard, -⟩ := hx.draining hs
    rw [e]
    exact ⟨keep _ (by rw [hs]; nofun) (PortInterface.lawful_of_draining hs ho hdiscard nofun) rfl, _, rfl,
      (inTransaction_eq_false_iff _).2 (.inr ⟨hs, rfl⟩)⟩

theorem State.AccessLawful.endTransaction {s : State} (h : s.AccessLawful) (n : Port) :
    (s.endTransaction n).AccessLawful := by
  by_cases hs : s.ports[n].state = .responding
  · rw [endTransaction_of_responding hs]
    exact State.AccessLawful.finishResponse (s := s.setPort n _) h n
  · obtain ⟨x, e⟩ := endTransaction_of_not_responding hs
    rw [e]
    exact h

theorem portsSound_rise {s : State} (h : s.PortsSound) (n : Port) : (s.csRises n).PortsSound := by
  obtain ⟨hbusy, hacc, htr⟩ := h
  set t := s.setPins { s.pins with cs := put s.pins.cs n true } with ht
  have hother : ∀ m : Port, m ≠ n → t.selected m = s.selected m := fun m hm =>
    selected_of_ne rfl rfl (getElem_put_of_ne _ _ hm)
  by_cases hs : s.selected n = true
  · rw [csRises_of_selected hs]
    obtain ⟨hend, x, hports, hin⟩ := endTransaction_sound (s := t) hbusy n
    refine ⟨hend, State.AccessLawful.endTransaction (s := t) hacc n, htr.of_port (n := n) hports (fun m hm => ?_) fun _ => hin⟩
    rw [← hother m hm]
    exact selected_of_ne (by unfold State.inDeviceReset; rw [endTransaction_pins]) (by rw [endTransaction_pins])
      (by rw [endTransaction_pins])
  · have e : s.csRises n = t := if_neg hs
    have hx := (transactionsLawful_iff s).1 htr n (Bool.not_eq_true _ ▸ hs)
    rw [e]
    exact ⟨hbusy, hacc, htr.of_port (n := n) (put_self _ _).symm hother fun _ => hx⟩

/-! ### Detach, and RSTn (R76, R126, R159) -/

theorem ReadRecord.detached_of_answering {r : ReadRecord} (h : r.phase = .answering) : r.detached = none := by
  unfold ReadRecord.detached
  rw [h]

theorem ReadRecord.detached_of_running {r : ReadRecord} (h : r.running = true) :
    r.detached = some { r with pin := false, cutOff := true } := by
  have hne : r.phase ≠ .answering := of_decide_eq_true h
  unfold ReadRecord.detached
  split
  · exact absurd ‹_› hne
  · rfl

theorem BusyPort.detached {x : PortInterface} {slot slot' : Option Publication} {read : Option ReadRecord}
    (h : BusyPort x slot read) (hs : slot'.isSome = slot.isSome) : BusyPort x slot' (read.bind ReadRecord.detached) := by
  cases read with
  | none => exact h.of_slot hs
  | some r =>
    refine BusyPort.of_slot (slot := slot) ?_ hs
    obtain ⟨hx, hslot, hout, hread⟩ := h
    obtain ⟨hpin, hrun, -⟩ := hread r rfl
    have hempty : slot.isSome = true → False := fun hsome => nomatch hslot hsome
    rw [Option.bind_some]
    cases hr : r.running with
    | true =>
      rw [ReadRecord.detached_of_running hr]
      refine ⟨hx, fun hsome => (hempty hsome).elim, ?_, fun r' hr' => ?_⟩
      · exact hout.trans (or_congr_right (iff_of_true ⟨r, rfl, hr⟩ ⟨_, rfl, hr⟩))
      · cases hr'
        refine ⟨rfl, fun _ => hrun hr, fun hdone => ?_⟩
        rw [show ReadRecord.running { r with pin := false, cutOff := true } = r.running from rfl, hr] at hdone
        cases hdone
    | false =>
      have hphase : r.phase = .answering := by
        by_contra hne
        have : r.running = true := decide_eq_true hne
        rw [hr] at this
        cases this
      rw [ReadRecord.detached_of_answering hphase]
      refine ⟨hx, fun _ => rfl, hout.trans (or_congr_right (iff_of_false ?_ nofun)), nofun⟩
      rintro ⟨r', hr', hrun'⟩
      cases hr'
      rw [hr] at hrun'
      cases hrun'

theorem State.BusyLawful.detach {s : State} (h : s.BusyLawful) (n : Port) (c : DetachCause) :
    (s.detachPort n c).BusyLawful := by
  have hslots := detachPort_samePhases s n c
  have hreads : (s.detachPort n c).reads = put s.reads n (s.reads[n].bind ReadRecord.detached) := rfl
  refine h.of_port (n := n) (fun m hm => ⟨rfl, hslots m, ?_⟩) ?_
  · rw [hreads, getElem_put_of_ne _ _ hm]
  · rw [hreads, getElem_put_self]
    exact BusyPort.detached (h n) (isSome_of_phase (hslots n))

theorem detachPort_selected (s : State) (n : Port) (c : DetachCause) : (s.detachPort n c).selected = s.selected := by
  obtain ⟨-, -, hinputs⟩ := detachPort_detached s n c
  exact selected_congr hinputs

theorem portsSound_detach {s : State} (h : s.PortsSound) (n : Port) (c : DetachCause) :
    (s.detachPort n c).PortsSound := by
  obtain ⟨hbusy, hacc, htr⟩ := h
  exact ⟨hbusy.detach n c, hacc.detach n c, htr.of_same rfl fun m hm => by rwa [detachPort_selected]⟩

theorem PortInterface.afterReset_lawful (x : PortInterface) :
    x.afterReset.Lawful ∧ x.afterReset.inTransaction = false := by
  cases ho : x.outstanding with
  | none =>
    have hstate : x.afterReset.state = .idle := by simp [PortInterface.afterReset, ho]
    exact ⟨PortInterface.lawful_of_free (by rw [hstate]; nofun) (by rw [hstate]; nofun) ho
      (by simp [PortInterface.afterReset, ho]) rfl fun hne => absurd rfl hne,
      (inTransaction_eq_false_iff _).2 (.inl hstate)⟩
  | some c =>
    have hstate : x.afterReset.state = .draining := by simp [PortInterface.afterReset, ho]
    exact ⟨PortInterface.lawful_of_draining hstate (by simp [PortInterface.afterReset, ho])
      (by simp [PortInterface.afterReset, ho]) nofun, (inTransaction_eq_false_iff _).2 (.inr ⟨hstate, rfl⟩)⟩

theorem State.BusyLawful.resetInterface {s : State} (h : s.BusyLawful) (n : Port) : (s.resetInterface n).BusyLawful := by
  have hports := resetInterface_ports s n
  have hslots : (s.resetInterface n).slots = s.slots := unchanged_resetInterface s n .slots (by decide)
  obtain ⟨hx, -⟩ := PortInterface.afterReset_lawful s.ports[n]
  by_cases hs : s.ports[n].state = .responding
  · obtain ⟨ho, -⟩ := (h n).1.free (by rw [hs]; nofun) (by rw [hs]; nofun)
    refine h.of_free hports (.of_slots hslots) (BusyPort.slot_eq_none (h n) ho) ?_ hx ho
    rw [resetInterface_reads]
    exact finishResponse_reads_of_responding (h n) hs rfl
  · have hreads : (s.resetInterface n).reads = s.reads := by
      rw [resetInterface_reads]
      exact finishResponse_reads_of_other (h n) hs rfl
    refine h.of_port (n := n) (fun m hm => ⟨?_, by rw [hslots], by rw [hreads]⟩) ?_
    · rw [hports, getElem_put_of_ne _ _ hm]
    · rw [hports, getElem_put_self, hslots, hreads]
      exact BusyPort.of_interface (h n) hs hx rfl

theorem State.AccessLawful.resetInterface {s : State} (h : s.AccessLawful) (n : Port) :
    (s.resetInterface n).AccessLawful := by
  rw [resetInterface_eq]
  exact h.finishResponse n

/-- The reset of an interface leaves no transaction on the port. -/
theorem transactionsLawful_resetInterface {s t : State} (h : s.TransactionsLawful) {n : Port} (hports : t.ports = s.ports)
    (hselected : ∀ m, m ≠ n → t.selected m = s.selected m) : (t.resetInterface n).TransactionsLawful := by
  obtain ⟨-, hin⟩ := PortInterface.afterReset_lawful t.ports[n]
  refine h.of_port (n := n) (by rw [resetInterface_ports, hports]) (fun m hm => ?_) fun _ => hports ▸ hin
  exact (congrFun (selected_congr (unchanged_resetInterface t n .inputs (by decide))) m).trans (hselected m hm)

theorem portsSound_rstFalls {s : State} (h : s.PortsSound) (n : Port) : (s.rstFalls n).PortsSound := by
  set t := s.setPins { s.pins with rst := put s.pins.rst n false } with ht
  have hother : ∀ m : Port, m ≠ n → t.selected m = s.selected m := fun m hm =>
    selected_of_ne rfl (getElem_put_of_ne _ _ hm) rfl
  cases hd : s.inDeviceReset with
  | true =>
    have e : s.rstFalls n = t := if_pos hd
    rw [e]
    refine h.of_same rfl (.of_slots rfl) rfl rfl rfl fun m hm => ?_
    unfold State.selected at hm
    rw [hd] at hm
    cases hm
  | false =>
    obtain ⟨hbusy, hacc, htr⟩ := h
    cases ha : s.attached n with
    | true =>
      rw [rstFalls_of_attached hd ha, ← ht]
      refine ⟨State.BusyLawful.resetInterface (State.BusyLawful.detach (s := t) hbusy n _) n,
        State.AccessLawful.resetInterface (State.AccessLawful.detach (s := t) hacc n _) n,
        transactionsLawful_resetInterface htr rfl fun m hm => ?_⟩
      rw [detachPort_selected]
      exact hother m hm
    | false =>
      rw [rstFalls_of_detached hd ha, ← ht]
      exact ⟨State.BusyLawful.resetInterface (s := t) hbusy n, State.AccessLawful.resetInterface (s := t) hacc n,
        transactionsLawful_resetInterface htr rfl hother⟩

/-! ### Device reset (R147, R160) -/

/-- Device reset leaves the ports as `State.reset` has them. -/
theorem portsSound_enterReset (s : State) : s.enterReset.PortsSound :=
  ⟨reset_busyLawful.of_same rfl (.of_slots rfl) rfl,
    reset_accessLawful.of_same rfl rfl (.of_slots rfl) fun _ _ _ => Iff.rfl,
    fun n _ => (congrArg PortInterface.inTransaction (reset_ports n)).trans rfl⟩

/-! ### Every event -/

theorem portsSound_kept : KeptByEvents State.PortsSound where
  toKeptByBytes := portsSound_bytes
  pins s x hreset hcs hrst h := by
    refine h.of_same rfl (.of_slots rfl) rfl rfl rfl fun m hm => ?_
    rw [selected_iff] at hm ⊢
    obtain ⟨hd, hr, hc⟩ := hm
    refine ⟨hreset.trans hd, ?_, ?_⟩
    · show x.rst[m] = true
      by_contra hx
      rw [hrst m (Bool.not_eq_true _ ▸ hx)] at hr
      cases hr
    · show x.cs[m] = false
      rw [hcs, hc]
  fall _ _ hcs h := portsSound_fall h hcs
  rise _ n _ h := portsSound_rise h n
  portReset _ n h := portsSound_rstFalls h n
  detach _ n c h := portsSound_detach h n c
  reset _ _ _ := portsSound_enterReset _
  leave s x hd h := by
    refine h.of_same rfl (.of_slots rfl) rfl rfl rfl fun m hm => ?_
    unfold State.selected at hm
    rw [hd] at hm
    cases hm
  tick _ _ h := h.of_same rfl (.of_slots rfl) rfl rfl rfl fun _ hm => hm
  boundary _ _ h := h.of_same rfl (.of_slots rfl) rfl rfl rfl fun _ hm => hm
  raise _ h _ := h.of_same rfl (.of_slots rfl) rfl rfl rfl fun _ hm => hm
  lapse _ h := h.of_same rfl (.of_slots rfl) rfl rfl rfl fun _ hm => hm
  fresh s p h := by
    rcases expireFreshness_cases s p with e | ⟨r, -, -, e⟩ <;> rw [e]
    · exact h
    · exact h.of_same rfl (.of_slots rfl) rfl rfl rfl fun _ hm => hm
  ask _ _ h := h.of_same rfl (.of_slots rfl) rfl rfl rfl fun _ hm => hm
  grant _ h hfree := portsSound_grant h hfree
  read _ n d h ha := portsSound_read h ha d
  refresh _ f h ha := h.of_refresh rfl rfl rfl rfl (.inr ⟨f, ha⟩) (.inl rfl) rfl

/-- Settles O12: what each port's interface, slot, read record, place and access say of its one command, event by
event. -/
theorem stepKeepsOneCommandPerPort : Obligations.StepKeepsOneCommandPerPort := fun s t hbusy hacc htr hstep =>
  portsSound_kept.step (fun _ _ h => h) s t ⟨hbusy, hacc, htr⟩
    (fun _ d x ha => portsSound_write (s := s.setPending x) ⟨hbusy, hacc, htr⟩ ha d) hstep

end Sys2Proof.Machine
end

section
/-!
One step from a state with the law of one command per port (R149): what a predicate about posts, publications, pool,
holds and read records must be kept by. A command is taken only where slot and read record of its port are empty.
-/
namespace Sys2Proof.Machine
open Sys2Proof

/-- Posts, publications, pool, holds and read records are the same. -/
def SameStorage (s t : State) : Prop :=
  t.posts = s.posts ∧ t.slots = s.slots ∧ t.pool = s.pool ∧ t.holds = s.holds ∧ t.reads = s.reads

/-- What a predicate must be kept by to be kept by one step from a state with `State.BusyLawful`. -/
structure KeptOnce (P : State → Prop) : Prop where
  same : ∀ {s t}, P s → SameStorage s t → P t
  finished : ∀ {s} n, P s → P (s.readFinished n)
  taken : ∀ {n s c t reply}, Taken n s c t reply → s.slots[n] = none → s.reads[n] = none → P s → P t
  detach : ∀ {s} n c, P s → P (s.detachPort n c)
  reset : ∀ s, P (State.enterReset s)
  lapse : ∀ {s}, P s → P s.doLapse
  fresh : ∀ {s} p, P s → P (s.expireFreshness p)
  grant : ∀ {s} n k, P s → P (s.grantPort n k)
  read : ∀ {s} n d, s.BusyLawful → P s → P (s.completeRead n d)
  write : ∀ {s} n d, P s → P (s.completeWrite n d)

namespace KeptOnce
variable {P : State → Prop} (h : KeptOnce P) {s : State}
include h

theorem finishResponse (n : Port) (hs : P s) : P (s.finishResponse n) := by
  rcases finishResponse_cases s n with ⟨-, e⟩ | ⟨x, -, -, e⟩ | ⟨x, -, -, e⟩ <;> rw [e]
  · exact hs
  · exact h.finished n (h.same hs ⟨rfl, rfl, rfl, rfl, rfl⟩)
  · exact h.same hs ⟨rfl, rfl, rfl, rfl, rfl⟩

theorem endTransaction (n : Port) (hs : P s) : P (s.endTransaction n) := by
  by_cases hr : s.ports[n].state = .responding
  · rw [endTransaction_of_responding hr]
    exact h.finishResponse n (h.same hs ⟨rfl, rfl, rfl, rfl, rfl⟩)
  · obtain ⟨x, e⟩ := endTransaction_of_not_responding hr
    rw [e]
    exact h.same hs ⟨rfl, rfl, rfl, rfl, rfl⟩

/-- The bytes clocked on a port keep the predicate along with the law of one command per port. -/
theorem bytes : KeptByBytes fun s => s.BusyLawful ∧ P s where
  bytes s n x hx hs := ⟨busyLawful_bytes.bytes s n x hx hs.1, h.same hs.2 ⟨rfl, rfl, rfl, rfl, rfl⟩⟩
  lease s n hs := ⟨busyLawful_bytes.lease s n hs.1, h.same hs.2 ⟨rfl, rfl, rfl, rfl, rfl⟩⟩
  untaken s n st tag hr hs := ⟨busyLawful_bytes.untaken s n st tag hr hs.1, h.same hs.2 ⟨rfl, rfl, rfl, rfl, rfl⟩⟩
  take s n c args tag hr ho hs := by
    obtain ⟨hbusy, hP⟩ := hs
    obtain ⟨-, hslot, hread⟩ := BusyPort.free (hbusy n) hr ho
    have hafter := busyLawful_bytes.take s n c args tag hr ho hbusy
    have htaken := h.taken (takeCommand_taken n c args s) hslot hread hP
    refine ⟨hafter, ?_⟩
    cases (takeCommand n c args s).2 with
    | done st res => exact h.same htaken ⟨rfl, rfl, rfl, rfl, rfl⟩
    | executing => exact h.same htaken ⟨rfl, rfl, rfl, rfl, rfl⟩
  finish s n ha hs := ⟨busyLawful_bytes.finish s n ha hs.1, h.finishResponse n hs.2⟩

theorem arrive (n : Port) (bs : List Byte) (hbusy : s.BusyLawful) (hs : P s) : P (s.clockBytes n bs) := by
  obtain ⟨-, hP⟩ := h.bytes.clockBytes s n bs ⟨hbusy, hs⟩
  exact hP

theorem csFalls (n : Port) (hs : P s) : P (s.csFalls n) := by
  unfold State.csFalls
  simp only
  split_ifs
  · exact h.same hs ⟨rfl, rfl, rfl, rfl, rfl⟩
  · exact h.same hs ⟨rfl, rfl, rfl, rfl, rfl⟩

theorem csRises (n : Port) (hs : P s) : P (s.csRises n) := by
  have hpins : P (s.setPins { s.pins with cs := put s.pins.cs n true }) := h.same hs ⟨rfl, rfl, rfl, rfl, rfl⟩
  by_cases hsel : s.selected n = true
  · rw [csRises_of_selected hsel]
    exact h.endTransaction n hpins
  · rw [State.csRises, if_neg hsel]
    exact hpins

theorem resetInterface (n : Port) (hs : P s) : P (s.resetInterface n) := by
  rw [resetInterface_eq]
  exact h.same (h.finishResponse n hs) ⟨rfl, rfl, rfl, rfl, rfl⟩

theorem rstFalls (n : Port) (hs : P s) : P (s.rstFalls n) := by
  have hpins : P (s.setPins { s.pins with rst := put s.pins.rst n false }) := h.same hs ⟨rfl, rfl, rfl, rfl, rfl⟩
  cases hd : s.inDeviceReset with
  | true =>
    rw [State.rstFalls]
    exact (if_pos hd : ite _ _ _ = _) ▸ hpins
  | false =>
    cases ha : s.attached n with
    | true =>
      rw [rstFalls_of_attached hd ha]
      exact h.resetInterface n (h.detach n _ hpins)
    | false =>
      rw [rstFalls_of_detached hd ha]
      exact h.resetInterface n hpins

theorem refreshTick (hs : P s) : P s.refreshTick := by
  have htick : P (s.setTime s.time.tick) := h.same hs ⟨rfl, rfl, rfl, rfl, rfl⟩
  unfold State.refreshTick
  simp only
  split_ifs
  · exact h.same htick ⟨rfl, rfl, rfl, rfl, rfl⟩
  · exact h.lapse htick

theorem granted (hs : P s) : P s.grant := by
  rcases grant_cases s with e | e | ⟨n, k, -, e⟩ <;> rw [e]
  · exact hs
  · exact h.same hs ⟨rfl, rfl, rfl, rfl, rfl⟩
  · exact h.grant n k hs

theorem exec (c : Instr) {t : State} (hbusy : s.BusyLawful) (hs : P s) (he : exec c s = .next t) : P t := by
  have pins := fun x : Pins => h.same (t := s.setPins x) hs ⟨rfl, rfl, rfl, rfl, rfl⟩
  have bytes := fun n bs => h.arrive n bs hbusy hs
  cases c <;> simp only [Machine.exec, execAttach, execDetach, execPing, execStatus, execDeclare, execWithdraw,
    execDescribe, execPublish, execRead, execSnapshot, execReadHeld, execRelease, execAsk, execCancel, execFilterSet,
    execFilterClear, execTake, execAdopt, execTakeover, execRevoke, execPoolStatus, execSetPoolMark,
    execUntakenRequest, execBadframe, execCsFall, execCsRise, execResponseFinished, execPortReset,
    execPortResetRelease, execDeviceReset, execDeviceResetRelease, execClkselChange, execRefreshTick, execLapse,
    execMillisecondBoundary, execFreshnessExpiry, execAskDeadlineExpiry, execLeaseExpiry, execArrayGrant,
    execWriteCompletion, execReadCompletion, execRefreshCompletion, Host.Outcome.next.injEq] at he <;> subst he
  case attach =>
    exact h.arrive (s := s.setPins _) _ _ (hbusy.of_same rfl (.of_slots rfl) rfl) (pins _)
  case csFall => split_ifs; exacts [h.csFalls _ hs, hs]
  case csRise => split_ifs; exacts [hs, h.csRises _ hs]
  case responseFinished => split_ifs; exacts [h.finishResponse _ hs, hs]
  case portReset => split_ifs; exacts [h.rstFalls _ hs, hs]
  case portResetRelease => exact pins _
  case deviceReset => split_ifs; exacts [h.reset _, hs]
  case deviceResetRelease =>
    split_ifs
    exacts [hs, pins _, h.same hs ⟨rfl, rfl, rfl, rfl, rfl⟩]
  case clkselChange =>
    split_ifs
    exacts [h.reset _, h.same hs ⟨rfl, rfl, rfl, rfl, rfl⟩, pins _]
  case refreshTick => split_ifs; exacts [h.refreshTick hs, hs]
  case lapse => split_ifs; exacts [h.refreshTick hs, hs]
  case millisecondBoundary => split_ifs; exacts [h.same hs ⟨rfl, rfl, rfl, rfl, rfl⟩, hs]
  case freshnessExpiry => exact h.fresh _ hs
  case askDeadlineExpiry => exact h.same hs ⟨rfl, rfl, rfl, rfl, rfl⟩
  case leaseExpiry => split; split_ifs; exacts [h.detach _ _ hs, hs, hs]
  case arrayGrant => split_ifs; exacts [hs, h.granted hs]
  case writeCompletion => split; exacts [h.write _ _ hs, hs]
  case readCompletion => split; exacts [h.read _ _ hbusy hs, hs]
  case refreshCompletion => split; exacts [h.same hs ⟨rfl, rfl, rfl, rfl, rfl⟩, hs]
  all_goals exact bytes _ _

theorem step {t : State} (hbusy : s.BusyLawful) (hs : P s) (he : step s = .next t) : P t := by
  unfold Machine.step at he
  split at he
  · cases he
    exact hs
  · rename_i c rest _
    exact h.exec (s := s.setPending rest) c (hbusy.of_same rfl (.of_slots rfl) rfl)
      (h.same hs ⟨rfl, rfl, rfl, rfl, rfl⟩) he

end KeptOnce

end Sys2Proof.Machine
end

section
/-!
The agreement of R27 (O13): the publications that are not overtaken, against the publication-in-flight fields.
-/
namespace Sys2Proof.Machine
open Sys2Proof

/-- Post and staging frame of a publication that is not overtaken. -/
def liveTarget (o : Option Publication) : Option (PostNo × FrameNo) :=
  (o.filter fun x => decide (x.overtaken = none)).map fun x => (x.post, x.frame)

theorem liveTarget_eq_some {o : Option Publication} {p : PostNo} {f : FrameNo} :
    liveTarget o = some (p, f) ↔ ∃ x, o = some x ∧ x.post = p ∧ x.frame = f ∧ x.overtaken = none := by
  simp only [liveTarget, Option.map_eq_some_iff, Option.filter_eq_some_iff, decide_eq_true_eq, Prod.mk.injEq, and_assoc]
  exact exists_congr fun x => and_congr_right fun _ =>
    ⟨fun ⟨h1, h2, h3⟩ => ⟨h2, h3, h1⟩, fun ⟨h2, h3, h1⟩ => ⟨h1, h2, h3⟩⟩

@[simp] theorem liveTarget_overtaken (o : Option Publication) (c : OvertakeCause) :
    liveTarget (o.map (Publication.overtakenBy c)) = none := by
  cases o <;> rfl

@[simp] theorem liveTarget_granted (o : Option Publication) : liveTarget (o.map Publication.granted) = liveTarget o := by
  cases o with
  | none => rfl
  | some x => cases ho : x.overtaken <;> simp [liveTarget, Publication.granted, Option.filter, ho]

/-- R27 by the targets of the publications. -/
theorem flightLawful_iff (s : State) : s.FlightLawful ↔
    (∀ (n : Port) (p : PostNo) (f : FrameNo), liveTarget s.slots[n] = some (p, f) →
      ∃ r, s.posts[p] = some r ∧ r.inFlight = some { frame := f, port := n } ∧ r.binding = .bound n) ∧
    (∀ (p : PostNo) (r : Post) (i : InFlight), s.posts[p] = some r → r.inFlight = some i →
      liveTarget s.slots[i.port] = some (p, i.frame)) := by
  simp only [liveTarget_eq_some]
  refine and_congr_left fun _ => ⟨fun h n p f => ?_, fun h n x hx ho => h n x.post x.frame ⟨x, hx, rfl, rfl, ho⟩⟩
  rintro ⟨x, hx, rfl, rfl, ho⟩
  exact h n x hx ho

/-- What a post record says of its publication in flight. -/
def Post.flight (r : Post) : Option InFlight × Binding := (r.inFlight, r.binding)

section
variable {s t : State}

/-- Publications as before, and the same publication in flight and binding in each post. -/
theorem State.FlightLawful.of_same (h : s.FlightLawful)
    (hslots : ∀ m : Port, liveTarget t.slots[m] = liveTarget s.slots[m])
    (hposts : ∀ p : PostNo, t.posts[p].map Post.flight = s.posts[p].map Post.flight) : t.FlightLawful := by
  rw [flightLawful_iff] at *
  obtain ⟨hlive, hfield⟩ := h
  refine ⟨fun n p f hn => ?_, fun p r i hr hi => ?_⟩
  · rw [hslots] at hn
    obtain ⟨r, hr, hi, hb⟩ := hlive n p f hn
    have hp := hposts p
    rw [hr] at hp
    obtain ⟨r', hr', e⟩ := Option.map_eq_some_iff.1 hp
    obtain ⟨ei, eb⟩ := Prod.mk.inj e
    exact ⟨r', hr', ei.trans hi, eb.trans hb⟩
  · have hp := hposts p
    rw [hr] at hp
    obtain ⟨r', hr', e⟩ := Option.map_eq_some_iff.1 hp.symm
    obtain ⟨ei, -⟩ := Prod.mk.inj e
    rw [hslots]
    exact hfield p r' i hr' (ei.trans hi)

/-- Nothing is in flight on post `p` any more: its record names nothing, and no publication of it is live. -/
theorem State.FlightLawful.of_ended (h : s.FlightLawful) {p : PostNo} {o : Option Post}
    (hposts : t.posts = put s.posts p o) (ho : ∀ r, o = some r → r.inFlight = none)
    (hother : ∀ (m : Port) (q : PostNo) (f : FrameNo), q ≠ p →
      (liveTarget t.slots[m] = some (q, f) ↔ liveTarget s.slots[m] = some (q, f)))
    (hended : ∀ (m : Port) (f : FrameNo), liveTarget t.slots[m] ≠ some (p, f)) : t.FlightLawful := by
  rw [flightLawful_iff] at *
  obtain ⟨hlive, hfield⟩ := h
  refine ⟨fun n q f hn => ?_, fun q r i hr hi => ?_⟩
  · have hq : q ≠ p := by
      rintro rfl
      exact hended n f hn
    rw [hposts, getElem_put_of_ne _ _ hq]
    exact hlive n q f ((hother n q f hq).1 hn)
  · rw [hposts] at hr
    by_cases hq : q = p
    · subst hq
      rw [getElem_put_self] at hr
      rw [ho r hr] at hi
      cases hi
    · rw [getElem_put_of_ne _ _ hq] at hr
      exact (hother i.port q i.frame hq).2 (hfield q r i hr hi)

/-- A post whose record names no publication has none that is live. -/
theorem State.FlightLawful.not_live (h : s.FlightLawful) {p : PostNo} (hp : s.posts[p].bind Post.inFlight = none)
    (m : Port) (f : FrameNo) : liveTarget s.slots[m] ≠ some (p, f) := by
  intro hm
  obtain ⟨hlive, -⟩ := (flightLawful_iff s).1 h
  obtain ⟨r, hr, hi, -⟩ := hlive m p f hm
  rw [hr, Option.bind_some, hi] at hp
  cases hp

/-- The post `p` becomes `o`; nothing was in flight on it, and nothing is. -/
theorem State.FlightLawful.of_quiet (h : s.FlightLawful) {p : PostNo} {o : Option Post}
    (hp : s.posts[p].bind Post.inFlight = none) (hposts : t.posts = put s.posts p o)
    (ho : ∀ r, o = some r → r.inFlight = none) (hslots : t.slots = s.slots) : t.FlightLawful := by
  refine h.of_ended hposts ho (fun m q f _ => ?_) fun m f hm => ?_
  · rw [hslots]
  · rw [hslots] at hm
    exact h.not_live hp m f hm

/-- The publication that the record of post `p` names is overtaken (R37). -/
theorem State.FlightLawful.of_overtaken (h : s.FlightLawful) {p : PostNo} {r : Post} (hr : s.posts[p] = some r)
    {o : Option Post} {c : OvertakeCause} (hposts : t.posts = put s.posts p o)
    (ho : ∀ r', o = some r' → r'.inFlight = none) (hslots : t.slots = overtakeSlots r.inFlight c s.slots) :
    t.FlightLawful := by
  obtain ⟨hlive, hfield⟩ := (flightLawful_iff s).1 h
  have hslot : ∀ m : Port, r.inFlight.map InFlight.port ≠ some m → t.slots[m] = s.slots[m] := fun m hm => by
    rw [hslots, getElem_overtakeSlots, if_neg hm]
  have hdead : ∀ m : Port, r.inFlight.map InFlight.port = some m → liveTarget t.slots[m] = none := fun m hm => by
    rw [hslots, getElem_overtakeSlots, if_pos hm, liveTarget_overtaken]
  refine h.of_ended hposts ho (fun m q f hq => ?_) fun m f hm => ?_
  · by_cases hm : r.inFlight.map InFlight.port = some m
    · obtain ⟨i, hi, rfl⟩ := Option.map_eq_some_iff.1 hm
      rw [hdead _ hm, hfield p r i hr hi]
      exact iff_of_false nofun fun e => hq (by cases e; rfl)
    · rw [hslot m hm]
  · by_cases hport : r.inFlight.map InFlight.port = some m
    · rw [hdead m hport] at hm
      cases hm
    · rw [hslot m hport] at hm
      obtain ⟨r', hr', hi, -⟩ := hlive m p f hm
      rw [hr] at hr'
      cases hr'
      rw [hi] at hport
      exact hport rfl

/-- The publication of port `n` is gone; it was overtaken, or of a vacant post. -/
theorem State.FlightLawful.of_dropped (h : s.FlightLawful) {n : Port} (hn : liveTarget s.slots[n] = none)
    (hposts : t.posts = s.posts) (hslots : t.slots = put s.slots n none) : t.FlightLawful := by
  refine h.of_same (fun m => ?_) fun p => by rw [hposts]
  rw [hslots]
  by_cases hm : m = n
  · subst hm
    rw [getElem_put_self, hn]
    rfl
  · rw [getElem_put_of_ne _ _ hm]

/-- The live publication `x` of port `n` has ended, and its post names it no more (R33, R34). -/
theorem State.FlightLawful.of_landed (h : s.FlightLawful) {n : Port} {x : Publication} (hx : s.slots[n] = some x)
    (hlive : x.overtaken = none) {o : Option Post} (hposts : t.posts = put s.posts x.post o)
    (ho : ∀ r, o = some r → r.inFlight = none) (hslots : t.slots = put s.slots n none) : t.FlightLawful := by
  obtain ⟨hall, -⟩ := (flightLawful_iff s).1 h
  have hxlive : liveTarget s.slots[n] = some (x.post, x.frame) := liveTarget_eq_some.2 ⟨x, hx, rfl, rfl, hlive⟩
  have hself : liveTarget t.slots[n] = none := by
    rw [hslots, getElem_put_self]
    rfl
  have hslot : ∀ m : Port, m ≠ n → t.slots[m] = s.slots[m] := fun m hm => by rw [hslots, getElem_put_of_ne _ _ hm]
  refine h.of_ended hposts ho (fun m q f hq => ?_) fun m f hm => ?_
  · by_cases hmn : m = n
    · subst hmn
      rw [hself, hxlive]
      exact iff_of_false nofun fun e => hq (by cases e; rfl)
    · rw [hslot m hmn]
  · by_cases hmn : m = n
    · subst hmn
      rw [hself] at hm
      cases hm
    · rw [hslot m hmn] at hm
      obtain ⟨r, hr, hi, -⟩ := hall m x.post f hm
      obtain ⟨r', hr', hi', -⟩ := hall n x.post x.frame hxlive
      rw [hr] at hr'
      cases hr'
      rw [hi] at hi'
      cases hi'
      exact hmn rfl

end

/-- A publication is staged on a port whose slot is empty, for a post BOUND to the port (R29). -/
theorem State.FlightLawful.publish {s t : State} (h : s.FlightLawful) {n : Port} {p : PostNo} {r : Post} {f : FrameNo}
    {x : Publication} (hslot : s.slots[n] = none) (hpost : s.posts[p] = some r) (hbound : r.binding = .bound n)
    (hx : liveTarget (some x) = some (p, f)) (hslots : t.slots = put s.slots n (some x))
    (hposts : t.posts = put s.posts p (some { r with inFlight := some { frame := f, port := n } })) : t.FlightLawful := by
  rw [flightLawful_iff] at *
  obtain ⟨hlive, hfield⟩ := h
  have hself : liveTarget t.slots[n] = some (p, f) := by rw [hslots, getElem_put_self, hx]
  have hother : ∀ m : Port, m ≠ n → t.slots[m] = s.slots[m] := fun m hm => by rw [hslots, getElem_put_of_ne _ _ hm]
  have hempty : liveTarget s.slots[n] = none := by rw [hslot]; rfl
  refine ⟨fun m q g hm => ?_, fun q r' i hr' hi => ?_⟩
  · by_cases hmn : m = n
    · subst hmn
      rw [hself] at hm
      cases hm
      exact ⟨{ r with inFlight := some { frame := f, port := m } }, by rw [hposts, getElem_put_self], rfl, hbound⟩
    · rw [hother m hmn] at hm
      obtain ⟨r', hr', hi, hb⟩ := hlive m q g hm
      have hq : q ≠ p := by
        rintro rfl
        rw [hpost] at hr'
        cases hr'
        rw [hbound] at hb
        cases hb
        exact hmn rfl
      exact ⟨r', by rwa [hposts, getElem_put_of_ne _ _ hq], hi, hb⟩
  · rw [hposts] at hr'
    by_cases hq : q = p
    · subst hq
      rw [getElem_put_self] at hr'
      cases hr'
      cases hi
      exact hself
    · rw [getElem_put_of_ne _ _ hq] at hr'
      have hs := hfield q r' i hr' hi
      have hport : i.port ≠ n := by
        rintro rfl
        rw [hempty] at hs
        cases hs
      rwa [hother _ hport]

theorem Post.orphanedFrom_of_bound {r : Post} {n : Port} (h : r.binding = .bound n) :
    (r.orphanedFrom n).inFlight = none := by
  unfold Post.orphanedFrom
  rw [if_pos (show r.boundTo n = true from decide_eq_true h)]

theorem Post.orphanedFrom_of_not_bound {r : Post} {n : Port} (h : r.binding ≠ .bound n) : r.orphanedFrom n = r := by
  unfold Post.orphanedFrom
  exact if_neg fun hb => h (of_decide_eq_true hb)

/-- A detach overtakes the port's publication and takes it from the post, which is BOUND to the port (R23, R37). -/
theorem State.FlightLawful.detach {s : State} (h : s.FlightLawful) (n : Port) (c : DetachCause) :
    (s.detachPort n c).FlightLawful := by
  have hposts : ∀ p : PostNo, (s.detachPort n c).posts[p] = s.posts[p].map (Post.orphanedFrom n) := fun p =>
    getElem_mapTable (Option.map (Post.orphanedFrom n)) s.posts p.val p.isLt
  have hself : liveTarget (s.detachPort n c).slots[n] = none := by
    show liveTarget (put s.slots n (s.slots[n].map (Publication.overtakenBy .session)))[n] = none
    rw [getElem_put_self, liveTarget_overtaken]
  have hother : ∀ m : Port, m ≠ n → (s.detachPort n c).slots[m] = s.slots[m] := fun m hm =>
    getElem_put_of_ne s.slots _ hm
  rw [flightLawful_iff] at *
  obtain ⟨hlive, hfield⟩ := h
  refine ⟨fun m p f hm => ?_, fun p r i hr hi => ?_⟩
  · have hmn : m ≠ n := by
      rintro rfl
      rw [hself] at hm
      cases hm
    rw [hother m hmn] at hm
    obtain ⟨r, hr, hi, hb⟩ := hlive m p f hm
    have hnot : r.binding ≠ .bound n := by
      rw [hb]
      intro e
      cases e
      exact hmn rfl
    refine ⟨r, ?_, hi, hb⟩
    rw [hposts, hr, Option.map_some, Post.orphanedFrom_of_not_bound hnot]
  · rw [hposts] at hr
    obtain ⟨r₀, hr₀, rfl⟩ := Option.map_eq_some_iff.1 hr
    by_cases hb : r₀.binding = .bound n
    · rw [Post.orphanedFrom_of_bound hb] at hi
      cases hi
    · rw [Post.orphanedFrom_of_not_bound hb] at hi
      have hs := hfield p r₀ i hr₀ hi
      obtain ⟨r', hr', -, hb'⟩ := hlive i.port p i.frame hs
      rw [hr₀] at hr'
      cases hr'
      rwa [hother i.port fun e => hb (e ▸ hb')]

/-- Post `p` becomes `r'`, with the same publication in flight and binding as its record `r`. -/
theorem State.FlightLawful.of_post {s t : State} (h : s.FlightLawful) {p : PostNo} {r r' : Post}
    (hr : s.posts[p] = some r) (hposts : t.posts = put s.posts p (some r')) (hr' : r'.flight = r.flight)
    (hslots : t.slots = s.slots) : t.FlightLawful := by
  refine h.of_same (fun m => by rw [hslots]) fun q => ?_
  rw [hposts]
  by_cases hq : q = p
  · subst hq
    rw [getElem_put_self, hr, Option.map_some, hr']
    rfl
  · rw [getElem_put_of_ne _ _ hq]

theorem Post.lapsed_flight (r : Post) : r.lapsed.flight = r.flight := by
  unfold Post.lapsed
  split_ifs <;> rfl

/-- A post that is not BOUND has no publication in flight (R27). -/
theorem State.FlightLawful.inFlight_of_orphaned {s : State} (h : s.FlightLawful) {p : PostNo} {r : Post}
    (hr : s.posts[p] = some r) {m : Port} (hb : r.binding = .orphaned m) : r.inFlight = none := by
  obtain ⟨hlive, hfield⟩ := (flightLawful_iff s).1 h
  by_contra hne
  obtain ⟨i, hi⟩ := Option.ne_none_iff_exists'.1 hne
  obtain ⟨r', hr', -, hb'⟩ := hlive _ _ _ (hfield p r i hr hi)
  rw [hr] at hr'
  cases hr'
  rw [hb] at hb'
  cases hb'

theorem Taken.flightLawful {n : Port} {s t : State} {c : Command} {reply : Reply} (ht : Taken n s c t reply)
    (hslot : s.slots[n] = none) (h : s.FlightLawful) : t.FlightLawful := by
  cases ht with
  | detach => exact h.detach n .detach
  | declare p key capacity period mode res ha hkey hvacant =>
    refine h.of_quiet (p := p) (by rw [hvacant]; rfl) rfl (fun r hr => ?_) rfl
    cases hr
    rfl
  | vacate p r b res hpost => exact h.of_overtaken hpost (t := s.vacate p r b n) rfl nofun rfl
  | publish p r payload f x low hpost hbound hframe =>
    exact h.publish hslot hpost hbound rfl (State.takePublish_slots ..) (State.takePublish_posts ..)
  | adopt p r former res ha hpost horphaned =>
    have hnone := h.inFlight_of_orphaned hpost horphaned
    refine h.of_quiet (p := p) (by rw [hpost]; exact hnone) rfl (fun r' hr' => ?_) rfl
    cases hr'
    exact hnone
  | takeover p r q res ha hpost hbound hother =>
    refine h.of_overtaken hpost (State.takeOver_posts ..) (fun r' hr' => ?_) (State.takeOver_slots ..)
    cases hr'
    rfl
  | _ => exact h

/-- The end of a write: a live publication lands, an overtaken one is dropped (R32, R33, R37). -/
theorem completeWrite_flightLawful {s : State} (h : s.FlightLawful) (n : Port) (d : List Byte) :
    (s.completeWrite n d).FlightLawful := by
  have kept : ∀ (w : State) (st : Status) (res : List Byte), w.FlightLawful → (w.completeCommand n st res).FlightLawful := by
    intro w st res hw
    exact hw.of_same (fun m => by rw [State.completeCommand_slots]) fun p => by rw [State.completeCommand_posts]
  rcases completeWrite_cases s n d with ⟨-, e⟩ | ⟨x, hx, e⟩ <;> rw [e]
  · exact h
  · rcases endPublication_cases (s.setArray _) n x _ with ⟨st, e, hdead⟩ | ⟨-, hlive, e⟩ | ⟨-, hlive, r, -, e⟩ <;>
      rw [e] <;> apply kept
    · refine h.of_dropped (n := n) ?_ rfl rfl
      rcases hdead with ho | hvacant
      · rw [hx]
        exact Option.map_eq_none_iff.2 (Option.filter_eq_none_iff.2 fun y hy hlive => by
          cases hy
          exact ho (of_decide_eq_true hlive))
      · by_contra hne
        obtain ⟨⟨p, f⟩, hp⟩ := Option.ne_none_iff_exists'.1 hne
        obtain ⟨y, hy, rfl, -⟩ := liveTarget_eq_some.1 hp
        rw [hx] at hy
        cases hy
        exact h.not_live (by rw [show s.posts[x.post] = none from hvacant]; rfl) n f hp
    · refine h.of_landed hx hlive rfl (fun r hr => ?_) rfl
      obtain ⟨r', -, rfl⟩ := Option.map_eq_some_iff.1 hr
      rfl
    · refine h.of_landed hx hlive rfl (fun r' hr => ?_) rfl
      cases hr
      rfl

theorem flightLawful_kept : KeptOnce State.FlightLawful where
  same h hs := by
    obtain ⟨hposts, hslots, -⟩ := hs
    exact h.of_same (fun m => by rw [hslots]) fun p => by rw [hposts]
  finished _ h := h
  taken ht hslot _ h := ht.flightLawful hslot h
  detach n c h := h.detach n c
  reset s := by
    constructor <;> simp [State.enterReset, State.afterDeviceReset]
  lapse h := by
    refine State.FlightLawful.of_same h (fun _ => rfl) fun p => ?_
    refine (congrArg (Option.map Post.flight) (getElem_mapTable (Option.map Post.lapsed) _ p.val p.isLt)).trans ?_
    rw [Option.map_map]
    exact congrArg (fun f => Option.map f _) (funext Post.lapsed_flight)
  fresh {s} p h := by
    rcases expireFreshness_cases s p with e | ⟨r, hr, -, e⟩ <;> rw [e]
    · exact h
    · exact h.of_post hr rfl rfl rfl
  grant {s} n k h := by
    cases k with
    | read => exact h
    | write =>
      refine h.of_same (fun m => ?_) fun _ => rfl
      show liveTarget (put s.slots n (s.slots[n].map Publication.granted))[m] = _
      by_cases hm : m = n
      · subst hm
        rw [getElem_put_self, liveTarget_granted]
      · rw [getElem_put_of_ne _ _ hm]
  read {s} n d _ h := by
    refine completeRead_kept (P := State.FlightLawful) (fun w n st res hw => ?_) (fun _ _ _ hw => hw) (fun _ _ _ hw => hw)
      (fun w p f c hw => ?_) s n d h
    · exact hw.of_same (fun m => by rw [State.completeCommand_slots]) fun p => by rw [State.completeCommand_posts]
    · have hslots : (w.damageRequest p f c).slots = w.slots := damageRequest_unchanged w p f c .slots (by simp)
      rcases damageRequest_posts_cases w p f c with e | ⟨r, hr, e⟩
      · exact hw.of_same (fun m => by rw [hslots]) fun q => by rw [e]
      · exact hw.of_post hr e rfl hslots
  write n d h := completeWrite_flightLawful h n d

/-- Settles O13: a post's publication in flight and a live publication come and go together, one publication per port. -/
theorem stepKeepsFlightAgreement : Obligations.StepKeepsFlightAgreement := fun _ _ hbusy h hstep =>
  flightLawful_kept.step hbusy h hstep

end Sys2Proof.Machine
end

section
/-!
The accounts of the frame pool by themselves (R45 to R51): what each operation of the pool makes of a pool whose counts
are those of a given table of claims.
-/
namespace Sys2Proof.Machine
open Sys2Proof

/-- The counts of the pool are those of `u`, and the free list holds the frames of count 0, each once and none of them
suspect (R45). -/
def Pool.Balanced (x : Pool) (u : FrameNo → Nat) : Prop :=
  x.free.Nodup ∧ ∀ f : FrameNo,
    x.frames[f].refs = u f ∧ (f ∈ x.free ↔ x.frames[f].refs = 0) ∧ (x.frames[f].refs = 0 → x.frames[f].suspect = false)

namespace Pool.Balanced
variable {x y : Pool} {u v : FrameNo → Nat}

theorem congr (h : x.Balanced u) (huv : ∀ f, u f = v f) : x.Balanced v := by
  have e : u = v := funext huv
  rwa [← e]

theorem of_same (h : x.Balanced u) (hframes : y.frames = x.frames) (hfree : y.free = x.free) : y.Balanced u := by
  unfold Pool.Balanced at *
  rwa [hframes, hfree]

theorem refs (h : x.Balanced u) (f : FrameNo) : x.frames[f].refs = u f := by
  obtain ⟨-, hall⟩ := h
  obtain ⟨hrefs, -⟩ := hall f
  exact hrefs

theorem mem_free (h : x.Balanced u) (f : FrameNo) : f ∈ x.free ↔ u f = 0 := by
  obtain ⟨-, hall⟩ := h
  obtain ⟨hrefs, hfree, -⟩ := hall f
  rw [hfree, hrefs]

/-- Frame `f` becomes `e`, and the free list changes in `f` alone. -/
theorem put (h : x.Balanced u) {f : FrameNo} {e : FrameEntry} (hframes : y.frames = put x.frames f e)
    (hnodup : y.free.Nodup) (hother : ∀ g, g ≠ f → (g ∈ y.free ↔ g ∈ x.free) ∧ v g = u g)
    (hf : e.refs = v f ∧ (f ∈ y.free ↔ e.refs = 0) ∧ (e.refs = 0 → e.suspect = false)) : y.Balanced v := by
  obtain ⟨-, hall⟩ := h
  refine ⟨hnodup, fun g => ?_⟩
  rw [hframes]
  by_cases hg : g = f
  · subst hg
    rw [getElem_put_self]
    exact hf
  · obtain ⟨hmem, hv⟩ := hother g hg
    rw [getElem_put_of_ne _ _ hg, hmem, hv]
    exact hall g

theorem count_singleton_of_ne {f g : FrameNo} (h : g ≠ f) : List.count g [f] = 0 :=
  List.count_eq_zero.2 fun hm => h (List.mem_singleton.1 hm)

theorem release {f : FrameNo} (h : x.Balanced fun g => u g + List.count g [f]) : (x.release f).Balanced u := by
  obtain ⟨hnodup, hall⟩ := id h
  obtain ⟨hrefs, hfree, hclear⟩ := hall f
  replace hrefs : x.frames[f].refs = u f + 1 := hrefs.trans (congrArg (u f + ·) List.count_singleton_self)
  have hother : ∀ g, g ≠ f → u g = u g + List.count g [f] := fun g hg => by
    rw [count_singleton_of_ne hg, Nat.add_zero]
  have hnot : f ∉ x.free := fun hm => absurd (hrefs.symm.trans (hfree.1 hm)) (Nat.succ_ne_zero _)
  cases hu : u f with
  | zero =>
    rw [hu] at hrefs
    rw [Pool.release_of_refs_eq_one hrefs]
    refine h.put rfl ?_ (fun g hg => ⟨?_, hother g hg⟩) ⟨hu.symm, ?_, fun _ => rfl⟩
    · exact List.nodup_append.2 ⟨hnodup, List.nodup_singleton f, fun a ha b hb e =>
        hnot (List.mem_singleton.1 hb ▸ e ▸ ha)⟩
    · simp [hg]
    · simp
  | succ k =>
    rw [hu] at hrefs
    rw [Pool.release_of_refs_eq_add_two hrefs]
    exact h.put rfl hnodup (fun g hg => ⟨Iff.rfl, hother g hg⟩)
      ⟨hu.symm, iff_of_false hnot (Nat.succ_ne_zero k), fun e => absurd e (Nat.succ_ne_zero k)⟩

theorem releaseAll {fs : List FrameNo} (h : x.Balanced fun g => u g + List.count g fs) :
    (x.releaseAll fs).Balanced u := by
  induction fs generalizing x with
  | nil => exact h
  | cons f fs ih =>
    refine ih (release (h.congr fun g => ?_))
    rw [Nat.add_assoc, ← List.count_append, (List.perm_append_singleton f fs).count_eq]

theorem addRef (h : x.Balanced u) {f : FrameNo} (hf : u f ≠ 0) :
    (x.addRef f).Balanced fun g => u g + List.count g [f] := by
  obtain ⟨hnodup, -⟩ := id h
  refine h.put rfl hnodup (fun g hg => ⟨Iff.rfl, by rw [count_singleton_of_ne hg]; rfl⟩) ⟨?_, ?_, nofun⟩
  · rw [List.count_singleton_self, h.refs]
  · exact iff_of_false (fun hm => hf ((h.mem_free f).1 hm)) (Nat.succ_ne_zero _)

theorem setSuspect (h : x.Balanced u) {f : FrameNo} (hf : u f ≠ 0) (b : Bool) : (x.setSuspect f b).Balanced u := by
  obtain ⟨hnodup, -⟩ := id h
  refine h.put rfl hnodup (fun g _ => ⟨Iff.rfl, rfl⟩) ⟨h.refs f, ?_, fun e => absurd ((h.refs f).symm.trans e) hf⟩
  exact iff_of_false (fun hm => hf ((h.mem_free f).1 hm)) fun e => hf ((h.refs f).symm.trans e)

theorem suspectAll (h : x.Balanced u) : x.suspectAll.Balanced u := by
  obtain ⟨hnodup, hall⟩ := h
  refine ⟨hnodup, fun f => ?_⟩
  obtain ⟨hrefs, hfree, hclear⟩ := hall f
  rw [Pool.suspectAll_frame]
  refine ⟨hrefs, hfree, fun hzero => ?_⟩
  replace hzero : x.frames[f].refs = 0 := hzero
  show (x.frames[f].suspect || decide (1 ≤ x.frames[f].refs)) = false
  rw [hclear hzero, hzero]
  rfl

theorem allocate (h : x.Balanced u) {f : FrameNo} {low : Option Nat} (ha : x.allocate = some (f, y, low)) :
    y.Balanced fun g => u g + List.count g [f] := by
  obtain ⟨hnodup, hall⟩ := id h
  cases hl : x.free with
  | nil =>
    rw [Pool.allocate_of_nil hl] at ha
    cases ha
  | cons f' rest =>
    rw [Pool.allocate_of_cons hl] at ha
    cases ha
    rw [hl] at hnodup
    obtain ⟨hnot, hrest⟩ := List.nodup_cons.1 hnodup
    have hzero : u f = 0 := (h.mem_free f).1 (by rw [hl]; exact List.mem_cons_self)
    refine h.put rfl hrest (fun g hg => ⟨?_, by rw [count_singleton_of_ne hg]; rfl⟩)
      ⟨?_, iff_of_false hnot nofun, nofun⟩
    · rw [hl, List.mem_cons]
      exact (or_iff_right hg).symm
    · rw [List.count_singleton_self, hzero]

end Pool.Balanced

end Sys2Proof.Machine
end

section
/-!
The claims on the frames of the pool (R45): what a change of one post, publication, hold table or read record makes of
them.
-/
namespace Sys2Proof.Machine
open Sys2Proof

/-! ### Tables whose entries name frames -/

/-- How many times the entries of a table name frame `f`. -/
def tally {α : Type} {k : Nat} (frames : α → List FrameNo) (v : Vector α k) (f : FrameNo) : Nat :=
  (v.toList.map fun a => List.count f (frames a)).sum

theorem sum_map_set {α : Type} (g : α → Nat) (l : List α) (i : Nat) (hi : i < l.length) (x : α) :
    ((l.set i x).map g).sum + g l[i] = (l.map g).sum + g x := by
  induction l generalizing i with
  | nil => cases hi
  | cons a l ih =>
    cases i with
    | zero =>
      simp only [List.set_cons_zero, List.map_cons, List.sum_cons, List.getElem_cons_zero]
      omega
    | succ i =>
      have := ih i (Nat.lt_of_succ_lt_succ hi)
      simp only [List.set_cons_succ, List.map_cons, List.sum_cons, List.getElem_cons_succ]
      omega

section
variable {α : Type} {k : Nat} {frames : α → List FrameNo} {v w : Vector α k}

theorem tally_put {i : Fin k} {x : α} (h : w = put v i x) (f : FrameNo) :
    tally frames w f + List.count f (frames v[i]) = tally frames v f + List.count f (frames x) := by
  subst h
  unfold tally put
  rw [Vector.toList_set]
  exact sum_map_set (fun a => List.count f (frames a)) v.toList i.val (by rw [Vector.length_toList]; exact i.isLt) x

theorem tally_congr (h : ∀ i : Fin k, frames w[i] = frames v[i]) (f : FrameNo) : tally frames w f = tally frames v f := by
  unfold tally
  refine congrArg List.sum (List.ext_getElem (by simp) fun i h1 h2 => ?_)
  have hi : i < k := by simpa using h1
  simpa using congrArg (List.count f) (h ⟨i, hi⟩)

/-- A frame that an entry names is counted. -/
theorem tally_ne_zero {f : FrameNo} (i : Fin k) (h : f ∈ frames v[i]) : tally frames v f ≠ 0 := by
  have hmem : List.count f (frames v[i]) ∈ v.toList.map fun a => List.count f (frames a) :=
    List.mem_map.2 ⟨v[i], by simp, rfl⟩
  have hle := List.single_le_sum (fun _ _ => Nat.zero_le _) _ hmem
  have hpos := List.count_pos_iff.2 h
  unfold tally
  omega

theorem length_filter_eq_sum {f : FrameNo} {c : α → Bool} (h : ∀ a, List.count f (frames a) = if c a = true then 1 else 0)
    (l : List α) : (l.filter c).length = (l.map fun a => List.count f (frames a)).sum := by
  induction l with
  | nil => rfl
  | cons a l ih =>
    rw [List.filter_cons, List.map_cons, List.sum_cons, h a, ← ih]
    split_ifs
    · exact Nat.add_comm ..
    · exact (Nat.zero_add _).symm

end

theorem count_toList (o : Option FrameNo) (f : FrameNo) :
    List.count f o.toList = if decide (o = some f) = true then 1 else 0 := by
  cases o with
  | none => rfl
  | some g =>
    rw [Option.toList_some, List.count_singleton]
    simp only [beq_iff_eq, Option.some_inj, decide_eq_true_eq]

/-! ### The claims of a state -/

/-- The frame of a post's current frame. -/
def postFrame (o : Option Post) : List FrameNo := ((o.bind Post.current).map Current.frame).toList

/-- The staging frame of a publication. -/
def stagingFrame (o : Option Publication) : List FrameNo := (o.map Publication.frame).toList

/-- Everything that claims frame `f` (R45). -/
def State.claims (s : State) (f : FrameNo) : Nat :=
  tally postFrame s.posts f + tally stagingFrame s.slots f + tally holdFrames s.holds f + tally pinFrame s.reads f

theorem holdFrames_count (t : Vector (Option Hold) 8) (f : FrameNo) :
    List.count f (holdFrames t) = (t.toList.filter fun o => decide (o.map Hold.frame = some f)).length := by
  rw [holdFrames, List.count_filterMap, List.countP_eq_length_filter]
  exact congrArg (fun c => (List.filter c t.toList).length) (funext fun o => Bool.beq_eq_decide_eq _ _)

theorem pinFrame_count (o : Option ReadRecord) (f : FrameNo) :
    List.count f (pinFrame o) = if decide (pinFrame o = [f]) = true then 1 else 0 := by
  have hcases : pinFrame o = [] ∨ ∃ g, pinFrame o = [g] := by
    cases o with
    | none => exact .inl rfl
    | some r => cases hp : r.pin <;> simp [pinFrame, hp]
  rcases hcases with e | ⟨g, e⟩ <;> rw [e]
  · rfl
  · rw [List.count_singleton]
    simp

theorem State.claims_eq (s : State) (f : FrameNo) :
    s.postRefs f + s.stagingRefs f + s.holdRefs f + s.pinRefs f = s.claims f := by
  have hpost : s.postRefs f = tally postFrame s.posts f := length_filter_eq_sum (fun o => count_toList _ f) _
  have hstaging : s.stagingRefs f = tally stagingFrame s.slots f := length_filter_eq_sum (fun o => count_toList _ f) _
  have hhold : s.holdRefs f = tally holdFrames s.holds f :=
    congrArg List.sum (List.map_congr_left fun t _ => (holdFrames_count t f).symm)
  have hpin : s.pinRefs f = tally pinFrame s.reads f := length_filter_eq_sum (fun o => pinFrame_count o f) _
  rw [hpost, hstaging, hhold, hpin]
  rfl

theorem poolLawful_iff (s : State) : s.PoolLawful ↔ s.pool.Balanced s.claims := by
  refine and_congr_right fun _ => forall_congr' fun f => ?_
  rw [State.claims_eq]

section
variable {s t : State}

/-- Who claims what is the same. -/
theorem claims_congr (hposts : ∀ p : PostNo, postFrame t.posts[p] = postFrame s.posts[p])
    (hslots : ∀ m : Port, stagingFrame t.slots[m] = stagingFrame s.slots[m])
    (hholds : t.holds = s.holds) (hreads : ∀ m : Port, pinFrame t.reads[m] = pinFrame s.reads[m]) (f : FrameNo) :
    t.claims f = s.claims f := by
  unfold State.claims
  rw [tally_congr hposts, tally_congr hslots, hholds, tally_congr hreads]

theorem claims_put_post {p : PostNo} {o : Option Post} (hposts : t.posts = put s.posts p o)
    (hslots : ∀ m : Port, stagingFrame t.slots[m] = stagingFrame s.slots[m]) (hholds : t.holds = s.holds)
    (hreads : t.reads = s.reads) (f : FrameNo) :
    t.claims f + List.count f (postFrame s.posts[p]) = s.claims f + List.count f (postFrame o) := by
  have h := tally_put (frames := postFrame) hposts f
  unfold State.claims
  rw [tally_congr hslots, hholds, hreads]
  omega

theorem claims_put_slot {n : Port} {o : Option Publication} (hslots : t.slots = put s.slots n o)
    (hposts : ∀ p : PostNo, postFrame t.posts[p] = postFrame s.posts[p]) (hholds : t.holds = s.holds)
    (hreads : t.reads = s.reads) (f : FrameNo) :
    t.claims f + List.count f (stagingFrame s.slots[n]) = s.claims f + List.count f (stagingFrame o) := by
  have h := tally_put (frames := stagingFrame) hslots f
  unfold State.claims
  rw [tally_congr hposts, hholds, hreads]
  omega

theorem claims_put_holds {n : Port} {x : Vector (Option Hold) 8} (hholds : t.holds = put s.holds n x)
    (hposts : t.posts = s.posts) (hslots : t.slots = s.slots) (hreads : t.reads = s.reads) (f : FrameNo) :
    t.claims f + List.count f (holdFrames s.holds[n]) = s.claims f + List.count f (holdFrames x) := by
  have h := tally_put (frames := holdFrames) hholds f
  unfold State.claims
  rw [hposts, hslots, hreads]
  omega

theorem claims_put_read {n : Port} {o : Option ReadRecord} (hreads : t.reads = put s.reads n o)
    (hposts : t.posts = s.posts) (hslots : t.slots = s.slots) (hholds : t.holds = s.holds) (f : FrameNo) :
    t.claims f + List.count f (pinFrame s.reads[n]) = s.claims f + List.count f (pinFrame o) := by
  have h := tally_put (frames := pinFrame) hreads f
  unfold State.claims
  rw [hposts, hslots, hholds]
  omega

/-- Claims and counts are the same. -/
theorem State.PoolLawful.of_same (h : s.PoolLawful) (hframes : t.pool.frames = s.pool.frames)
    (hfree : t.pool.free = s.pool.free) (hclaims : ∀ f, t.claims f = s.claims f) : t.PoolLawful := by
  rw [poolLawful_iff] at *
  exact (h.of_same hframes hfree).congr fun f => (hclaims f).symm

/-- The claims on the frames `fs` have gone, and are released. -/
theorem State.PoolLawful.of_released (h : s.PoolLawful) {fs : List FrameNo} (hpool : t.pool = s.pool.releaseAll fs)
    (hclaims : ∀ f, t.claims f + List.count f fs = s.claims f) : t.PoolLawful := by
  rw [poolLawful_iff] at *
  rw [hpool]
  exact (h.congr fun f => (hclaims f).symm).releaseAll

end

end Sys2Proof.Machine
end

section
/-!
The accounts of the frame pool (O14): every event moves claims and counts together.
-/
namespace Sys2Proof.Machine
open Sys2Proof

section
variable {s t : State}

/-! ### Posts and publications -/

theorem stagingFrame_overtaken (o : Option Publication) (c : OvertakeCause) :
    stagingFrame (o.map (Publication.overtakenBy c)) = stagingFrame o := by
  cases o <;> rfl

theorem stagingFrame_granted (o : Option Publication) : stagingFrame (o.map Publication.granted) = stagingFrame o := by
  cases o <;> rfl

theorem stagingFrame_overtakeSlots {i : Option InFlight} {c : OvertakeCause} (h : t.slots = overtakeSlots i c s.slots)
    (m : Port) : stagingFrame t.slots[m] = stagingFrame s.slots[m] := by
  rw [h, getElem_overtakeSlots]
  split_ifs
  · exact stagingFrame_overtaken _ c
  · rfl

/-- Post `p` changes but for its current frame. -/
theorem State.PoolLawful.of_post (h : s.PoolLawful) {p : PostNo} {o : Option Post} (hpool : t.pool = s.pool)
    (hposts : t.posts = put s.posts p o) (ho : postFrame o = postFrame s.posts[p])
    (hslots : ∀ m : Port, stagingFrame t.slots[m] = stagingFrame s.slots[m]) (hholds : t.holds = s.holds)
    (hreads : t.reads = s.reads) : t.PoolLawful := by
  refine h.of_same (by rw [hpool]) (by rw [hpool]) fun f => ?_
  have := claims_put_post hposts hslots hholds hreads f
  rw [ho] at this
  omega

theorem Pool.releaseCurrent_eq (x : Pool) (o : Option Current) :
    x.releaseCurrent o = x.releaseAll (o.map Current.frame).toList := by
  cases o <;> rfl

theorem postFrame_orphanedFrom (n : Port) (o : Option Post) : postFrame (o.map (Post.orphanedFrom n)) = postFrame o := by
  cases o with
  | none => rfl
  | some r =>
    rw [Option.map_some]
    unfold Post.orphanedFrom
    split_ifs <;> rfl

theorem postFrame_lapsed (o : Option Post) : postFrame (o.map Post.lapsed) = postFrame o := by
  cases o with
  | none => rfl
  | some r =>
    rw [Option.map_some]
    unfold Post.lapsed
    split_ifs <;> rfl

/-- The vacate event releases the post's reference (R16). -/
theorem State.PoolLawful.vacate (h : s.PoolLawful) {p : PostNo} {r : Post} (hr : s.posts[p] = some r) (b : VacateBy)
    (n : Port) : (s.vacate p r b n).PoolLawful := by
  refine h.of_released (fs := (r.current.map Current.frame).toList) (Pool.releaseCurrent_eq s.pool r.current) fun f => ?_
  have := claims_put_post (t := s.vacate p r b n) (o := none) rfl (stagingFrame_overtakeSlots rfl) rfl rfl f
  rw [hr] at this
  exact this.trans (Nat.add_zero _)

/-- The frame that is staged is the one that was allocated (R29, R48). -/
theorem State.PoolLawful.publish (h : s.PoolLawful) {n : Port} {p : PostNo} {r : Post} {payload : List Byte}
    {f : FrameNo} {x : Pool} {low : Option Nat} (hslot : s.slots[n] = none) (hpost : s.posts[p] = some r)
    (ha : s.pool.allocate = some (f, x, low)) : (s.takePublish n p r payload f x low).PoolLawful := by
  rw [poolLawful_iff] at *
  rw [State.takePublish_pool]
  refine (h.allocate ha).congr fun g => ?_
  have hposts : ∀ q : PostNo, postFrame (s.takePublish n p r payload f x low).posts[q] = postFrame s.posts[q] := by
    intro q
    rw [State.takePublish_posts]
    by_cases hq : q = p
    · subst hq
      rw [getElem_put_self, hpost]
      rfl
    · rw [getElem_put_of_ne _ _ hq]
  have := claims_put_slot (State.takePublish_slots ..) hposts (State.takePublish_holds ..) (State.takePublish_reads ..) g
  rw [hslot] at this
  exact this.symm

/-! ### Holds and pins -/

theorem holdFrames_empty : holdFrames (Vector.replicate 8 none) = [] := by
  simp [holdFrames]

theorem pinFrame_detached (o : Option ReadRecord) : pinFrame (o.bind ReadRecord.detached) = [] := by
  cases o with
  | none => rfl
  | some r =>
    rw [Option.bind_some]
    unfold ReadRecord.detached
    split <;> rfl

/-- A detach releases the port's holds and its pin, and no other claim (R126). -/
theorem State.PoolLawful.detach (h : s.PoolLawful) (n : Port) (c : DetachCause) : (s.detachPort n c).PoolLawful := by
  refine h.of_released (fs := holdFrames s.holds[n] ++ pinFrame s.reads[n]) rfl fun f => ?_
  have hposts : tally postFrame (s.detachPort n c).posts f = tally postFrame s.posts f :=
    tally_congr (fun p => (congrArg postFrame
      (getElem_mapTable (Option.map (Post.orphanedFrom n)) s.posts p.val p.isLt)).trans (postFrame_orphanedFrom n _)) f
  have hslots : tally stagingFrame (s.detachPort n c).slots f = tally stagingFrame s.slots f := by
    have hput := tally_put (frames := stagingFrame) (v := s.slots) (w := (s.detachPort n c).slots) (i := n)
      (x := s.slots[n].map (Publication.overtakenBy .session)) rfl f
    rw [stagingFrame_overtaken] at hput
    omega
  have hholds := tally_put (frames := holdFrames) (v := s.holds) (w := (s.detachPort n c).holds) (i := n)
    (x := Vector.replicate 8 none) rfl f
  have hreads := tally_put (frames := pinFrame) (v := s.reads) (w := (s.detachPort n c).reads) (i := n)
    (x := s.reads[n].bind ReadRecord.detached) rfl f
  rw [holdFrames_empty, List.count_nil] at hholds
  rw [pinFrame_detached, List.count_nil] at hreads
  rw [List.count_append]
  unfold State.claims
  omega

theorem finishedFrames_count (o : Option ReadRecord) (f : FrameNo) :
    List.count f (finishedFrames o) + List.count f (pinFrame (finishedRecord o)) = List.count f (pinFrame o) := by
  cases o with
  | none => rfl
  | some r =>
    show List.count f (if r.phase = .answering then pinFrame (some r) else []) +
      List.count f (pinFrame (if r.phase = .answering then none else some r)) = _
    by_cases hp : r.phase = .answering
    · rw [if_pos hp, if_pos hp]
      rfl
    · rw [if_neg hp, if_neg hp]
      exact Nat.zero_add _

/-- The end of a response releases the pin of a completed read (R68). -/
theorem State.PoolLawful.finished (h : s.PoolLawful) (n : Port) : (s.readFinished n).PoolLawful := by
  refine h.of_released (fs := finishedFrames s.reads[n]) rfl fun f => ?_
  have hclaims := claims_put_read (s := s) (t := s.readFinished n) (n := n) (o := finishedRecord s.reads[n]) rfl rfl rfl rfl f
  have hcount := finishedFrames_count s.reads[n] f
  omega

/-- The record of port `n` keeps its pin. -/
theorem State.PoolLawful.of_read (h : s.PoolLawful) {n : Port} {o : Option ReadRecord}
    (ho : pinFrame o = pinFrame s.reads[n]) : (s.setRead n o).PoolLawful := by
  refine h.of_same rfl rfl fun f => ?_
  have := claims_put_read (s := s) (t := s.setRead n o) (n := n) (o := o) rfl rfl rfl rfl f
  rw [ho] at this
  omega

theorem claims_of_pinned {n : Port} {f : FrameNo} (hf : f ∈ pinFrame s.reads[n]) : s.claims f ≠ 0 := by
  have := tally_ne_zero (frames := pinFrame) (v := s.reads) n hf
  unfold State.claims
  omega

/-- A frame that is claimed may be flagged. -/
theorem State.PoolLawful.setSuspect (h : s.PoolLawful) {f : FrameNo} (hf : s.claims f ≠ 0) (b : Bool) :
    (s.setPool (s.pool.setSuspect f b)).PoolLawful :=
  (poolLawful_iff _).2 (((poolLawful_iff s).1 h).setSuspect hf b)

theorem claims_of_readable {n : Port} {f : FrameNo} (hf : s.readable n f) : s.claims f ≠ 0 := by
  unfold State.claims
  rcases hf with ⟨p, r, c, hr, hc, rfl⟩ | ⟨i, x, hx, rfl⟩
  · have := tally_ne_zero (frames := postFrame) (v := s.posts) (f := c.frame) p (by
      rw [hr]
      simp [postFrame, hc])
    omega
  · have := tally_ne_zero (frames := holdFrames) (v := s.holds) (f := x.frame) n
      (List.mem_filterMap.2 ⟨some x, hx ▸ by simp, rfl⟩)
    omega

/-- A read pins a frame that is claimed already (R64, R73). -/
theorem State.PoolLawful.takeRead (h : s.PoolLawful) {n : Port} {r : ReadRecord} (hread : s.reads[n] = none)
    (hpin : r.pin = true) (hr : s.readable n r.frame) : (s.takeRead n r).PoolLawful := by
  rw [poolLawful_iff] at *
  refine (h.addRef (claims_of_readable hr)).congr fun f => ?_
  have := claims_put_read (s := s) (t := s.takeRead n r) (n := n) (o := some r) rfl rfl rfl rfl f
  rw [hread, show pinFrame (some r) = [r.frame] from if_pos hpin] at this
  exact this.symm

end

/-! ### SNAPSHOT and RELEASE (R71, R75) -/

/-- The frame of a hold. -/
def holdFrame (o : Option Hold) : List FrameNo := (o.map Hold.frame).toList

theorem holdFrames_put (t : Vector (Option Hold) 8) (i : HoldNo) (o : Option Hold) (f : FrameNo) :
    List.count f (holdFrames (put t i o)) + List.count f (holdFrame t[i]) =
      List.count f (holdFrames t) + List.count f (holdFrame o) := by
  have hall : ∀ v : Vector (Option Hold) 8, List.count f (holdFrames v) = tally holdFrame v f := fun v =>
    (holdFrames_count v f).trans (length_filter_eq_sum (fun o => count_toList _ f) _)
  rw [hall, hall]
  exact tally_put rfl f

/-- The claims of a state without the holds of port `n`. -/
def State.claimsBut (s : State) (n : Port) : FrameNo → Nat := (s.setHolds n (Vector.replicate 8 none)).claims

theorem claims_holds {s t : State} {n : Port} {x : Vector (Option Hold) 8} (hholds : t.holds = put s.holds n x)
    (hposts : t.posts = s.posts) (hslots : t.slots = s.slots) (hreads : t.reads = s.reads) (f : FrameNo) :
    t.claims f = s.claimsBut n f + List.count f (holdFrames x) := by
  have h₁ := claims_put_holds hholds hposts hslots hreads f
  have h₂ := claims_put_holds (t := s.setHolds n (Vector.replicate 8 none)) (n := n) rfl rfl rfl rfl f
  rw [holdFrames_empty, List.count_nil] at h₂
  unfold State.claimsBut
  omega

theorem claims_eq_but (s : State) (n : Port) (f : FrameNo) :
    s.claims f = s.claimsBut n f + List.count f (holdFrames s.holds[n]) :=
  claims_holds (put_self s.holds n).symm rfl rfl rfl f

section
variable {u : FrameNo → Nat}

/-- The pool counts the holds of the table, besides the claims `u`. -/
def CountsHolds (u : FrameNo → Nat) (x : Pool) (t : Vector (Option Hold) 8) : Prop :=
  x.Balanced fun f => u f + List.count f (holdFrames t)

theorem snapshotPost_counts {posts : Vector (Option Post) 64} (hu : ∀ p : PostNo, ∀ f ∈ postFrame posts[p], u f ≠ 0)
    {d : SnapDesk} (h : CountsHolds u d.pool d.table) (p : PostNo) :
    CountsHolds u (snapshotPost posts d p).pool (snapshotPost posts d p).table := by
  unfold snapshotPost
  split
  · exact h
  · rename_i r hr
    split
    · rename_i c i hc hi
      have hempty : d.table[i] = none := by
        have hfound := List.find?_some hi
        exact Option.isNone_iff_eq_none.1 hfound
      have hne : u c.frame ≠ 0 := hu p c.frame (by rw [hr]; simp [postFrame, hc])
      refine (h.addRef (f := c.frame) (by omega)).congr fun f => ?_
      have := holdFrames_put d.table i (some
        { post := p, key := r.key, frame := c.frame, generation := r.generation, length := c.length,
          condition := r.condition }) f
      rw [hempty] at this
      rw [Nat.add_assoc]
      exact congrArg (u f + ·) this.symm
    · exact h

theorem snapshotPosts_counts {posts : Vector (Option Post) 64} (hu : ∀ p : PostNo, ∀ f ∈ postFrame posts[p], u f ≠ 0)
    (ps : List PostNo) {d : SnapDesk} (h : CountsHolds u d.pool d.table) :
    CountsHolds u (snapshotPosts posts ps d).pool (snapshotPosts posts ps d).table := by
  induction ps generalizing d with
  | nil => exact h
  | cons p ps ih => exact ih (snapshotPost_counts hu h p)

theorem releaseHold_counts (mask : Byte) {d : ReleaseDesk} (h : CountsHolds u d.pool d.table) (i : HoldNo) :
    CountsHolds u (releaseHold mask d i).pool (releaseHold mask d i).table := by
  unfold releaseHold
  split
  · rename_i x hx
    split_ifs
    · refine Pool.Balanced.release (h.congr fun f => ?_)
      have := holdFrames_put d.table i none f
      rw [hx] at this
      rw [Nat.add_assoc]
      exact congrArg (u f + ·) this.symm
    · exact h
  · exact h

theorem releaseHolds_counts (mask : Byte) (is : List HoldNo) {d : ReleaseDesk} (h : CountsHolds u d.pool d.table) :
    CountsHolds u (is.foldl (releaseHold mask) d).pool (is.foldl (releaseHold mask) d).table := by
  induction is generalizing d with
  | nil => exact h
  | cons i is ih => exact ih (releaseHold_counts mask h i)

end

theorem countsHolds_of_lawful {s : State} (h : s.PoolLawful) (n : Port) :
    CountsHolds (s.claimsBut n) s.pool s.holds[n] :=
  ((poolLawful_iff s).1 h).congr (claims_eq_but s n)

theorem poolLawful_of_countsHolds {s : State} {n : Port} {x : Pool} {t : Vector (Option Hold) 8}
    (h : CountsHolds (s.claimsBut n) x t) : ((s.setPool x).setHolds n t).PoolLawful :=
  (poolLawful_iff _).2 (h.congr fun f => (claims_holds (s := s) (t := (s.setPool x).setHolds n t) rfl rfl rfl rfl f).symm)

/-- A post's reference is a claim whatever is held. -/
theorem claimsBut_ne_zero (s : State) (n : Port) (p : PostNo) (f : FrameNo) (hf : f ∈ postFrame s.posts[p]) :
    s.claimsBut n f ≠ 0 := by
  have := tally_ne_zero (frames := postFrame) (v := s.posts) p hf
  show tally postFrame s.posts f + _ + _ + _ ≠ 0
  omega

theorem Taken.poolLawful {n : Port} {s t : State} {c : Command} {reply : Reply} (ht : Taken n s c t reply)
    (hslot : s.slots[n] = none) (hread : s.reads[n] = none) (h : s.PoolLawful) : t.PoolLawful := by
  cases ht with
  | detach => exact h.detach n .detach
  | declare p key capacity period mode res ha hkey hvacant =>
    exact h.of_post (p := p) rfl rfl (by rw [hvacant]; rfl) (fun _ => rfl) rfl rfl
  | vacate p r b res hpost => exact h.vacate hpost b n
  | publish p r payload f x low hpost hbound hframe => exact h.publish hslot hpost hframe
  | read r hcommand ha hphase hpin hcut hclaim => exact h.takeRead hread hpin hclaim
  | snapshot ps d ha hroom hd =>
    have hcounts := snapshotPosts_counts (u := s.claimsBut n) (claimsBut_ne_zero s n) ps
      (d := { table := s.holds[n], pool := s.pool, out := [] }) (countsHolds_of_lawful h n)
    rw [← hd] at hcounts
    exact poolLawful_of_countsHolds hcounts
  | release mask d hd =>
    have hcounts := releaseHolds_counts (u := s.claimsBut n) mask allHolds
      (d := { table := s.holds[n], pool := s.pool, mask := 0#8 }) (countsHolds_of_lawful h n)
    rw [show List.foldl _ _ _ = d from hd.symm] at hcounts
    exact poolLawful_of_countsHolds hcounts
  | adopt p r former res ha hpost horphaned =>
    exact h.of_post (p := p) rfl rfl (by rw [hpost]; rfl) (fun _ => rfl) rfl rfl
  | takeover p r q res ha hpost hbound hother =>
    exact h.of_post (State.takeOver_pool ..) (State.takeOver_posts ..) (by rw [hpost]; rfl)
      (stagingFrame_overtakeSlots (State.takeOver_slots ..)) (State.takeOver_holds ..) (State.takeOver_reads ..)
  | _ => exact h

/-! ### The ends of array accesses -/

theorem State.PoolLawful.completeCommand {s : State} (h : s.PoolLawful) (n : Port) (st : Status) (res : List Byte) :
    (s.completeCommand n st res).PoolLawful := by
  rcases completeCommand_cases s n st res with ⟨-, e⟩ | ⟨c, -, -, e⟩ | ⟨c, -, -, e⟩ <;> rw [e]
  · exact h
  · exact h
  · exact State.PoolLawful.finished (s := s.setPort n _) h n

theorem State.PoolLawful.damageRequest {s : State} (h : s.PoolLawful) (p : PostNo) (f : FrameNo) (c : DamageCause) :
    (s.damageRequest p f c).PoolLawful := by
  have hu := damageRequest_unchanged s p f c
  have hpool : (s.damageRequest p f c).pool = s.pool := hu .pool (by simp)
  have hslots : (s.damageRequest p f c).slots = s.slots := hu .slots (by simp)
  have hholds : (s.damageRequest p f c).holds = s.holds := hu .holds (by simp)
  have hreads : (s.damageRequest p f c).reads = s.reads := hu .reads (by simp)
  rcases damageRequest_posts_cases s p f c with e | ⟨r, hr, e⟩
  · exact h.of_same (by rw [hpool]) (by rw [hpool]) (claims_congr (fun _ => by rw [e]) (fun _ => by rw [hslots]) hholds
      fun _ => by rw [hreads])
  · exact h.of_post hpool e (by rw [hr]; rfl) (fun _ => by rw [hslots]) hholds hreads

/-- A read keeps its pin until its response is finished with; one cut off has none (R65, R76). -/
theorem completeRead_poolLawful {s : State} (hbusy : s.BusyLawful) (h : s.PoolLawful) (n : Port) (d : List Byte) :
    (s.completeRead n d).PoolLawful := by
  rcases completeRead_cases s n d with ⟨-, e⟩ | ⟨r, row, good, hr, e⟩ <;> rw [e]
  · exact h
  · obtain ⟨-, -, -, hrecord⟩ := hbusy n
    obtain ⟨hpin, -⟩ := hrecord r hr
    rcases endRead_cases s.freeArray n r row good with ⟨hcut, e⟩ | ⟨hcut, st, res, b, w, e, hw⟩ <;> rw [e] <;>
      refine State.PoolLawful.completeCommand ?_ n _ _
    · refine State.PoolLawful.of_read (s := s.freeArray) h ?_
      show [] = pinFrame s.reads[n]
      rw [hr]
      exact (if_neg (by rw [hpin, hcut]; nofun)).symm
    · have hpinned : pinFrame (some r) = [r.frame] := if_pos (by rw [hpin, hcut]; rfl)
      have hrecorded : (s.freeArray.setRead n (some { r with phase := .answering })).PoolLawful := by
        refine State.PoolLawful.of_read (s := s.freeArray) h ?_
        show pinFrame (some r) = pinFrame s.reads[n]
        rw [hr]
      have hflagged := hrecorded.setSuspect (f := r.frame) (claims_of_pinned (n := n) (by
        rw [State.setRead_reads, getElem_put_self]
        exact hpinned ▸ List.mem_singleton_self r.frame)) b
      rcases hw with rfl | ⟨c, rfl⟩
      · exact hflagged
      · exact hflagged.damageRequest r.post r.frame c

/-- A publication has ended: its slot is empty, and the pool has released the claims that have gone (R32, R33). -/
theorem State.PoolLawful.of_ended {s t : State} (h : s.PoolLawful) {f : FrameNo} (hf : s.claims f ≠ 0) {b : Bool}
    {fs : List FrameNo} (hpool : t.pool = (s.pool.setSuspect f b).releaseAll fs)
    (hclaims : ∀ g, t.claims g + List.count g fs = s.claims g) : t.PoolLawful :=
  (h.setSuspect hf b).of_released hpool hclaims

/-- The slot of port `n` is emptied, and post `p` becomes `o`. -/
theorem claims_of_write_end {s t : State} {n : Port} {p : PostNo} {o : Option Post} (hposts : t.posts = put s.posts p o)
    (hslots : t.slots = put s.slots n none) (hholds : t.holds = s.holds) (hreads : t.reads = s.reads) (f : FrameNo) :
    List.count f (postFrame s.posts[p]) + (t.claims f + List.count f (stagingFrame s.slots[n])) =
      s.claims f + List.count f (postFrame o) := by
  have h₁ := tally_put (frames := postFrame) hposts f
  have h₂ := tally_put (frames := stagingFrame) hslots f
  have h₃ : List.count f (stagingFrame none) = 0 := rfl
  unfold State.claims
  rw [hholds, hreads]
  omega

/-- The end of a write: the staging frame is released, or becomes the post's current frame and the former one is
released (R32, R33, R37). -/
theorem completeWrite_poolLawful {s : State} (h : s.PoolLawful) (n : Port) (d : List Byte) :
    (s.completeWrite n d).PoolLawful := by
  rcases completeWrite_cases s n d with ⟨-, e⟩ | ⟨x, hx, e⟩ <;> rw [e]
  · exact h
  · have hstaged : stagingFrame s.slots[n] = [x.frame] := by rw [hx]; rfl
    have hf : s.claims x.frame ≠ 0 := by
      have := tally_ne_zero (frames := stagingFrame) (v := s.slots) n (hstaged ▸ List.mem_singleton_self x.frame)
      unfold State.claims
      omega
    rcases endPublication_cases (s.setArray _) n x _ with ⟨st, e, -⟩ | ⟨-, -, e⟩ | ⟨-, -, r, hr, e⟩ <;> rw [e] <;>
      refine State.PoolLawful.completeCommand ?_ n _ _
    · refine h.of_ended hf (fs := [x.frame]) rfl fun g => ?_
      have := claims_of_write_end (s := s) (t := s.setSlot n none) (p := x.post) (put_self _ _).symm rfl rfl rfl g
      rw [hstaged] at this
      exact Nat.add_left_cancel (this.trans (Nat.add_comm _ _))
    · refine h.of_ended hf (fs := [x.frame]) rfl fun g => ?_
      set o := s.posts[x.post].map fun r => { r with inFlight := none } with ho
      have := claims_of_write_end (s := s) (t := (s.setSlot n none).setPost x.post o) rfl rfl rfl rfl g
      rw [hstaged, show postFrame o = postFrame s.posts[x.post] by rw [ho]; cases s.posts[x.post] <;> rfl] at this
      exact Nat.add_left_cancel (this.trans (Nat.add_comm _ _))
    · refine h.of_ended hf (Pool.releaseCurrent_eq _ _) fun g => ?_
      set w := (s.setSlot n none).setPost x.post (some (r.committed x.frame x.payload.length s.now))
      have := claims_of_write_end (s := s) (t := w) rfl rfl rfl rfl g
      rw [hstaged, show s.posts[x.post] = some r from hr] at this
      have hnew : List.count g (postFrame (some (r.committed x.frame x.payload.length s.now))) = List.count g [x.frame] :=
        rfl
      have hclaims : w.claims g + List.count g (postFrame (some r)) = s.claims g := by omega
      exact hclaims

theorem poolLawful_kept : KeptOnce State.PoolLawful where
  same h hs := by
    obtain ⟨hposts, hslots, hpool, hholds, hreads⟩ := hs
    exact h.of_same (by rw [hpool]) (by rw [hpool]) (claims_congr (fun _ => by rw [hposts]) (fun _ => by rw [hslots]) hholds
      fun _ => by rw [hreads])
  finished n h := h.finished n
  taken ht hslot hread h := ht.poolLawful hslot hread h
  detach n c h := h.detach n c
  reset _ := reset_poolLawful
  lapse {s} h := by
    rw [poolLawful_iff] at h
    refine (poolLawful_iff _).2 (h.suspectAll.congr fun f => (claims_congr (s := s) (t := s.doLapse) (fun p => ?_)
      (fun _ => rfl) rfl (fun _ => rfl) f).symm)
    exact (congrArg postFrame (getElem_mapTable (Option.map Post.lapsed) s.posts p.val p.isLt)).trans (postFrame_lapsed _)
  fresh {s} p h := by
    rcases expireFreshness_cases s p with e | ⟨r, hr, -, e⟩ <;> rw [e]
    · exact h
    · exact h.of_post (p := p) rfl rfl (by rw [hr]; rfl) (fun _ => rfl) rfl rfl
  grant {s} n k h := by
    cases k with
    | write =>
      refine h.of_same rfl rfl (claims_congr (fun _ => rfl) (fun m => ?_) rfl fun _ => rfl)
      show stagingFrame (put s.slots n (s.slots[n].map Publication.granted))[m] = _
      by_cases hm : m = n
      · subst hm
        rw [getElem_put_self, stagingFrame_granted]
      · rw [getElem_put_of_ne _ _ hm]
    | read => exact State.PoolLawful.of_read (s := s) h (pinFrame_map_granted s.reads[n])
  read n d hbusy h := completeRead_poolLawful hbusy h n d
  write n d h := completeWrite_poolLawful h n d

/-- Settles O14: counts and free list follow the claims of posts, publications, holds and pins through every event. -/
theorem stepKeepsPoolAccounts : Obligations.StepKeepsPoolAccounts := fun _ _ hbusy h hstep =>
  poolLawful_kept.step hbusy h hstep

end Sys2Proof.Machine
end
